-- ==== Sys2Proof/Word.lean ====
section
/-! DEFINITION. The word types of the MTE: bytes, 16-bit registers and 32-bit host words
(spec/00_scope.md R7, spec/10_state.md R20, R21). -/

namespace Sys2Proof

/-- One byte, the unit of every bus transfer and of DBUF (20_memory.md R60, R69). -/
abbrev Byte := BitVec 8

/-- A 16-bit register or CRC16 value (10_state.md R21). -/
abbrev Half := BitVec 16

/-- A 32-bit host register word (10_state.md R20). -/
abbrev Word := BitVec 32

end Sys2Proof
end

