-- ==== Sys2Proof/Syntax.lean ====
section
/-! DEFINITION. The thirty commands of spec/opcode_table.json (spec/30_encoding.md R84). A
constructor carries the two fields of the command word that the command uses: `cont`, the CONT
bit (R81), and `pwsel`, the PWSEL field (R82). Every other operand is a register (R86). -/

namespace Sys2Proof

/-- One command of the MTE, one constructor per row of the opcode table. -/
inductive Instr where
  | crc8Init
  | crc8Byte
  | crc8Block
  | crc8Check
  | crc16Init
  | crc16Byte
  | crc16Block
  | crc16Check
  | crc16Emit
  | read (cont : Bool) (pwsel : BitVec 2)
  | write (pwsel : BitVec 2)
  | forceVerify
  | readPage (cont : Bool) (pwsel : BitVec 2)
  | readPageExtra (cont : Bool) (pwsel : BitVec 2)
  | readPageCrc (cont : Bool) (pwsel : BitVec 2)
  | readPageCrcExtra (cont : Bool) (pwsel : BitVec 2)
  | readPagePacket (cont : Bool) (pwsel : BitVec 2)
  | writePagePacket (pwsel : BitVec 2)
  | lockPage
  | isPageLocked
  | redirectPage
  | getRedirectedPage
  | lockRedirectPage
  | isRedirectPageLocked
  | spWrite
  | spReadVerify
  | spVerifyPassword (pwsel : BitVec 2)
  | spCopy
  | pwLoad (pwsel : BitVec 2)
  | pwClear (pwsel : BitVec 2)
  deriving DecidableEq, Repr

end Sys2Proof
end

