-- ==== Sys2Proof/WellFormed.lean ====
section
/-! DEFINITION. Which terms of `Instr` an encoding exists for. The syntax lets PWSEL take every
value of its field; value 3 is illegal in every command (spec/30_encoding.md R82, R85 d). The
other illegal encodings (R85 a, b, c, e) have no term: the constructors have no field for them. -/

namespace Sys2Proof

/-- The PWSEL field of a command, 0 where the command does not use it (30_encoding.md R82). -/
def Instr.pwsel : Instr → BitVec 2
  | .read _ p => p
  | .write p => p
  | .readPage _ p => p
  | .readPageExtra _ p => p
  | .readPageCrc _ p => p
  | .readPageCrcExtra _ p => p
  | .readPagePacket _ p => p
  | .writePagePacket p => p
  | .spVerifyPassword p => p
  | .pwLoad p => p
  | .pwClear p => p
  | .crc8Init | .crc8Byte | .crc8Block | .crc8Check => 0
  | .crc16Init | .crc16Byte | .crc16Block | .crc16Check | .crc16Emit => 0
  | .forceVerify => 0
  | .lockPage | .isPageLocked | .redirectPage | .getRedirectedPage => 0
  | .lockRedirectPage | .isRedirectPageLocked => 0
  | .spWrite | .spReadVerify | .spCopy => 0

/-- A command is well formed when its PWSEL names a slot (30_encoding.md R82, R85 d). -/
abbrev Instr.WF (i : Instr) : Prop := i.pwsel ≠ 3

end Sys2Proof
end

