-- ==== Sys2Proof/Decode.lean ====
section
/-! DEFINITION. The decoder and the encoder of the 32-bit CMD word (spec/30_encoding.md R80 to
R85, R90). The decoder is total and rejects every illegal word by the clause of R85 it meets. -/

namespace Sys2Proof

/-- Why a CMD word is illegal: the clauses (a) to (e) of 30_encoding.md R85. Where a word meets
several, the decoder names the first; the effect is the same (notes/assumptions/20.md). -/
inductive DecodeError where
  /-- (a) OPC is not in the opcode map -/
  | unassignedOpcode
  /-- (b) a bit of [20:0] is 1 -/
  | reservedBits
  /-- (c) CONT = 1 where it is not allowed -/
  | contNotAllowed
  /-- (d) PWSEL = 3 -/
  | pwselIllegal
  /-- (e) PWSEL is not 0 where it is not used -/
  | pwselNotUsed
  deriving DecidableEq, Repr

/-- Field [31:24], the operation code (30_encoding.md R80). -/
def opcField (w : Word) : BitVec 8 := w.extractLsb' 24 8
/-- Field [23], the continue flag (30_encoding.md R80, R81). -/
def contField (w : Word) : Bool := w.getLsbD 23
/-- Field [22:21], the password slot selector (30_encoding.md R80, R82). -/
def pwselField (w : Word) : BitVec 2 := w.extractLsb' 21 2
/-- Field [20:0], reserved (30_encoding.md R80, R83). -/
def reservedField (w : Word) : BitVec 21 := w.extractLsb' 0 21

/-- The opcode map of 30_encoding.md R84. -/
def commandOf (opc : BitVec 8) (cont : Bool) (pwsel : BitVec 2) : Option Instr :=
  match opc.toNat with
  | 0x01 => some .crc8Init
  | 0x02 => some .crc8Byte
  | 0x03 => some .crc8Block
  | 0x04 => some .crc8Check
  | 0x08 => some .crc16Init
  | 0x09 => some .crc16Byte
  | 0x0A => some .crc16Block
  | 0x0B => some .crc16Check
  | 0x0C => some .crc16Emit
  | 0x10 => some (.read cont pwsel)
  | 0x11 => some (.write pwsel)
  | 0x1F => some .forceVerify
  | 0x20 => some (.readPage cont pwsel)
  | 0x21 => some (.readPageExtra cont pwsel)
  | 0x22 => some (.readPageCrc cont pwsel)
  | 0x23 => some (.readPageCrcExtra cont pwsel)
  | 0x24 => some (.readPagePacket cont pwsel)
  | 0x25 => some (.writePagePacket pwsel)
  | 0x30 => some .lockPage
  | 0x31 => some .isPageLocked
  | 0x32 => some .redirectPage
  | 0x33 => some .getRedirectedPage
  | 0x34 => some .lockRedirectPage
  | 0x35 => some .isRedirectPageLocked
  | 0x40 => some .spWrite
  | 0x41 => some .spReadVerify
  | 0x42 => some (.spVerifyPassword pwsel)
  | 0x43 => some .spCopy
  | 0x44 => some (.pwLoad pwsel)
  | 0x45 => some (.pwClear pwsel)
  | _ => none

/-- Column "CONT allowed" of 30_encoding.md R84: the six reads (R81). -/
def allowsCont : Instr → Bool
  | .read _ _ | .readPage _ _ | .readPageExtra _ _ | .readPageCrc _ _ => true
  | .readPageCrcExtra _ _ | .readPagePacket _ _ => true
  | .crc8Init | .crc8Byte | .crc8Block | .crc8Check => false
  | .crc16Init | .crc16Byte | .crc16Block | .crc16Check | .crc16Emit => false
  | .write _ | .forceVerify | .writePagePacket _ => false
  | .lockPage | .isPageLocked | .redirectPage | .getRedirectedPage => false
  | .lockRedirectPage | .isRedirectPageLocked => false
  | .spWrite | .spReadVerify | .spVerifyPassword _ | .spCopy => false
  | .pwLoad _ | .pwClear _ => false

/-- Column "PWSEL used" of 30_encoding.md R84 (R82). -/
def usesPwsel : Instr → Bool
  | .read _ _ | .readPage _ _ | .readPageExtra _ _ | .readPageCrc _ _ => true
  | .readPageCrcExtra _ _ | .readPagePacket _ _ => true
  | .write _ | .writePagePacket _ | .spVerifyPassword _ | .pwLoad _ | .pwClear _ => true
  | .crc8Init | .crc8Byte | .crc8Block | .crc8Check => false
  | .crc16Init | .crc16Byte | .crc16Block | .crc16Check | .crc16Emit => false
  | .forceVerify => false
  | .lockPage | .isPageLocked | .redirectPage | .getRedirectedPage => false
  | .lockRedirectPage | .isRedirectPageLocked => false
  | .spWrite | .spReadVerify | .spCopy => false

/-- Decodes a CMD word: the command, or the clause of 30_encoding.md R85 that makes it illegal. -/
def decode (w : Word) : Except DecodeError Instr :=
  match commandOf (opcField w) (contField w) (pwselField w) with
  | none => .error .unassignedOpcode
  | some i =>
    if reservedField w ≠ 0 then .error .reservedBits
    else if contField w = true ∧ allowsCont i = false then .error .contNotAllowed
    else if pwselField w = 3 then .error .pwselIllegal
    else if pwselField w ≠ 0 ∧ usesPwsel i = false then .error .pwselNotUsed
    else .ok i

/-- The OPC value of a command (30_encoding.md R84). -/
def opcodeOf : Instr → BitVec 8
  | .crc8Init => 0x01
  | .crc8Byte => 0x02
  | .crc8Block => 0x03
  | .crc8Check => 0x04
  | .crc16Init => 0x08
  | .crc16Byte => 0x09
  | .crc16Block => 0x0A
  | .crc16Check => 0x0B
  | .crc16Emit => 0x0C
  | .read _ _ => 0x10
  | .write _ => 0x11
  | .forceVerify => 0x1F
  | .readPage _ _ => 0x20
  | .readPageExtra _ _ => 0x21
  | .readPageCrc _ _ => 0x22
  | .readPageCrcExtra _ _ => 0x23
  | .readPagePacket _ _ => 0x24
  | .writePagePacket _ => 0x25
  | .lockPage => 0x30
  | .isPageLocked => 0x31
  | .redirectPage => 0x32
  | .getRedirectedPage => 0x33
  | .lockRedirectPage => 0x34
  | .isRedirectPageLocked => 0x35
  | .spWrite => 0x40
  | .spReadVerify => 0x41
  | .spVerifyPassword _ => 0x42
  | .spCopy => 0x43
  | .pwLoad _ => 0x44
  | .pwClear _ => 0x45

/-- The CONT bit of a command, false where the command has none (30_encoding.md R81). -/
def contOf : Instr → Bool
  | .read c _ => c
  | .readPage c _ => c
  | .readPageExtra c _ => c
  | .readPageCrc c _ => c
  | .readPageCrcExtra c _ => c
  | .readPagePacket c _ => c
  | .crc8Init | .crc8Byte | .crc8Block | .crc8Check => false
  | .crc16Init | .crc16Byte | .crc16Block | .crc16Check | .crc16Emit => false
  | .write _ | .forceVerify | .writePagePacket _ => false
  | .lockPage | .isPageLocked | .redirectPage | .getRedirectedPage => false
  | .lockRedirectPage | .isRedirectPageLocked => false
  | .spWrite | .spReadVerify | .spVerifyPassword _ | .spCopy => false
  | .pwLoad _ | .pwClear _ => false

/-- Encodes a command: OPC, CONT, PWSEL and 21 reserved zeros (30_encoding.md R80, R88). -/
def encode (i : Instr) : Word :=
  opcodeOf i ++ BitVec.ofBool (contOf i) ++ i.pwsel ++ (0 : BitVec 21)

/-- The command the decoder reads from the bits `w` of an opcode-table row of `nbits` bits; bits
from `nbits` up are 0. A CMD word is one 32-bit host word, stored as it is written. -/
def decodeTableWord (nbits w : Nat) : Option Instr :=
  match decode (BitVec.ofNat 32 (w % 2 ^ nbits)) with
  | .ok i => some i
  | .error _ => none

end Sys2Proof
end

