-- ==== Sys2Proof/Config.lean ====
section
/-! DEFINITION. What an instance of the MTE fixes: the construction parameters of
spec/00_scope.md section 3, their constraints (R6), the constants the spec fixes (R5, 40_crc.md
R100, R102), and the free values: an instance, the OPEN byte sequences, the oracle's answers and
the unspecified DBUF bytes. -/

namespace Sys2Proof

/-- The construction parameters of one MTE instance that are plain data (00_scope.md section 3,
R1, R3). Names follow the spec's table. The three OPEN functions whose value a rule reads are
finite tables here (notes/assumptions/2.md): `autoCrcCover`, `esCount`, `redirectCodes`. -/
structure Descriptor where
  /-- SIZE -/
  size : Nat
  /-- PAGE_LEN -/
  pageLen : Nat
  /-- PAGE_COUNT -/
  pageCount : Nat
  /-- MAX_PKT -/
  maxPkt : Nat
  /-- PHYS_OFF -/
  physOff : Nat
  /-- GP, general-purpose (informational, R41) -/
  flagGP : Bool
  /-- RW, read-write -/
  flagRW : Bool
  /-- WO, write-once -/
  flagWO : Bool
  /-- RO, read-only -/
  flagRO : Bool
  /-- NV, non-volatile (informational, R41) -/
  flagNV : Bool
  /-- PPULSE, needs-program-pulse -/
  flagPPulse : Bool
  /-- PDELIV, needs-power-delivery -/
  flagPDeliv : Bool
  /-- AUTOCRC, has-page-auto-CRC -/
  flagAutoCrc : Bool
  /-- EXTRA, has-extra-info -/
  flagExtra : Bool
  /-- EXTRA_LEN -/
  extraLen : Nat
  /-- CAN_LOCK -/
  canLock : Bool
  /-- CAN_REDIRECT -/
  canRedirect : Bool
  /-- CAN_LOCK_REDIRECT -/
  canLockRedirect : Bool
  /-- SP_PRESENT -/
  spPresent : Bool
  /-- SP_SIZE -/
  spSize : Nat
  /-- SP_ADDR -/
  spAddr : Bool
  /-- SP_CRC -/
  spCrc : Bool
  /-- PW_GATED -/
  pwGated : Bool
  /-- PW_LEN -/
  pwLen : Nat
  /-- BUSY_POLL -/
  busyPoll : Bool
  /-- POLL_MAX -/
  pollMax : Nat
  /-- POLL_DELAY, a duration no rule reads (R4) -/
  pollDelay : Nat
  /-- COPY_DWELL, a duration no rule reads (R4) -/
  copyDwell : Nat
  /-- PW_DWELL, a duration no rule reads (R4) -/
  pwDwell : Nat
  /-- DBUF_SIZE -/
  dbufSize : Nat
  /-- DEV_ADDR, the device address bytes passed to select (R9) -/
  devAddr : List Byte
  /-- CMD_WS, WriteScratchpad -/
  cmdWS : Byte
  /-- CMD_RS, ReadScratchpad -/
  cmdRS : Byte
  /-- CMD_CS, CopyScratchpad -/
  cmdCS : Byte
  /-- CMD_VP, VerifyPassword -/
  cmdVP : Byte
  /-- CS_VALID, the fixed validation byte -/
  csValid : Byte
  /-- PW_ACCEPT, the fixed accept byte -/
  pwAccept : Byte
  /-- LOCKED_SENTINEL -/
  lockedSentinel : Byte
  /-- RLOCKED_SENTINEL -/
  rlockedSentinel : Byte
  /-- LOCK_KEY, the fixed validation key -/
  lockKey : Byte
  /-- AutoCrcCover(p, cont) as a table; an address not listed covers no byte -/
  autoCrcCover : List ((Nat × Bool) × List Byte)
  /-- EsCount(ta, es) as a table; a pair not listed counts 0 bytes -/
  esCount : List ((Half × Byte) × Nat)
  /-- RedirectDecode(b) as a table; a byte not listed means not redirected, 0 -/
  redirectCodes : List (Byte × Nat)
  deriving DecidableEq, Repr, Inhabited

/-- REDIRECT_MAX, decided PAGE_COUNT - 1 (00_scope.md section 3, D26). -/
def Descriptor.redirectMax (d : Descriptor) : Nat := d.pageCount - 1

/-- START_PAGE, the absolute index of page 0 (00_scope.md section 3, 20_memory.md R62). -/
def Descriptor.startPage (d : Descriptor) : Nat := d.physOff / d.pageLen

/-- The well-formed instances: every constraint of 00_scope.md R6, and the constraint section 3
puts on RedirectDecode (values in 0..REDIRECT_MAX). -/
abbrev Descriptor.WF (d : Descriptor) : Prop :=
  (1 ≤ d.size ∧ d.size ≤ 65536 ∧ 3 ≤ d.pageLen ∧ d.pageLen ≤ 256 ∧ 1 ≤ d.pageCount ∧
    d.pageCount * d.pageLen = d.size) ∧
  d.maxPkt ≤ d.pageLen - 3 ∧
  (d.physOff % d.pageLen = 0 ∧ d.physOff + d.size ≤ 65536) ∧
  (d.flagRO.toNat + d.flagRW.toNat + d.flagWO.toNat ≤ 1) ∧
  (d.spPresent = true → d.flagNV = true ∧ d.flagPDeliv = true ∧ d.flagRW = true ∧
    1 ≤ d.spSize ∧ d.spSize ≤ d.pageLen) ∧
  (d.spAddr = true → d.spPresent = true) ∧
  (d.spCrc = true → d.spPresent = true) ∧
  (d.pwGated = true → d.spPresent = true ∧ 1 ≤ d.pwLen) ∧
  ((d.flagExtra = true → 1 ≤ d.extraLen ∧ d.extraLen ≤ 255) ∧
    (d.flagExtra = false → d.extraLen = 0)) ∧
  (d.canLockRedirect = true → d.canRedirect = true) ∧
  1 ≤ d.pollMax ∧
  (d.pageLen + d.extraLen + 2 ≤ d.dbufSize ∧ d.pwLen ≤ d.dbufSize) ∧
  (∀ e ∈ d.redirectCodes, e.2 ≤ d.redirectMax)

/-- The smallest plain instance: one volatile page of three bytes with no capability. It stands
only where the arbitrary choice below is no well-formed instance (notes/assumptions/1.md). -/
def Descriptor.plain : Descriptor where
  size := 3
  pageLen := 3
  pageCount := 1
  maxPkt := 0
  physOff := 0
  flagGP := false
  flagRW := false
  flagWO := false
  flagRO := false
  flagNV := false
  flagPPulse := false
  flagPDeliv := false
  flagAutoCrc := false
  flagExtra := false
  extraLen := 0
  canLock := false
  canRedirect := false
  canLockRedirect := false
  spPresent := false
  spSize := 0
  spAddr := false
  spCrc := false
  pwGated := false
  pwLen := 0
  busyPoll := false
  pollMax := 1
  pollDelay := 0
  copyDwell := 0
  pwDwell := 0
  dbufSize := 5
  devAddr := []
  cmdWS := 0
  cmdRS := 0
  cmdCS := 0
  cmdVP := 0
  csValid := 0
  pwAccept := 0
  lockedSentinel := 0
  rlockedSentinel := 0
  lockKey := 0
  autoCrcCover := []
  esCount := []
  redirectCodes := []

/-- The construction parameters somebody chose: free (93_implementation_defined.md I1 to I12). -/
opaque Config.chosen : Descriptor

/-- The instance that `State.reset` builds: an arbitrary well-formed one (00_scope.md R6). -/
def Config.descriptor : Descriptor :=
  if Config.chosen.WF then Config.chosen else Descriptor.plain

/-- ACCEPT16, the CRC16 accept residual (00_scope.md R5). -/
def Config.accept16 : Half := 0xB001

/-- COMMIT_FAIL, the all-ones commit-failure confirmation byte (00_scope.md R5). -/
def Config.commitFail : Byte := 0xFF

/-- CRC8_POLY, the reflected constant of x^8 + x^5 + x^4 + 1 (40_crc.md R100; PRESUMED by the
spec, notes/assumptions/9.md). -/
def Config.crc8Poly : Byte := 0x8C

/-- CRC16_POLY, the reflected constant of x^16 + x^15 + x^2 + 1 (40_crc.md R102; PRESUMED by the
spec, notes/assumptions/9.md). -/
def Config.crc16Poly : Half := 0xA001

/-- The byte driven out while receiving (00_scope.md R10; PRESUMED by the spec,
notes/assumptions/10.md). -/
def Config.receiveDrive : Byte := 0xFF

/-- SeqRead(p, n): OPEN (00_scope.md section 3, D12). -/
opaque Config.seqRead : Nat → Nat → List Byte
/-- SeqWrite(p, xs): OPEN (D12). -/
opaque Config.seqWrite : Nat → List Byte → List Byte
/-- SeqExtra(absolute page): OPEN (D12). -/
opaque Config.seqExtra : Nat → List Byte
/-- SeqAutoCrcRead(p): OPEN (D12). -/
opaque Config.seqAutoCrcRead : Nat → List Byte
/-- SeqLock(absolute page, LOCK_KEY): OPEN (D12). -/
opaque Config.seqLock : Nat → Byte → List Byte
/-- SeqLockStatus(absolute page): OPEN (D12). -/
opaque Config.seqLockStatus : Nat → List Byte
/-- SeqRedirect(absolute page, target): OPEN (D12). -/
opaque Config.seqRedirect : Nat → Nat → List Byte
/-- SeqRedirectStatus(absolute page): OPEN (D12). -/
opaque Config.seqRedirectStatus : Nat → List Byte
/-- SeqLockRedirect(absolute page, LOCK_KEY): OPEN (D12). -/
opaque Config.seqLockRedirect : Nat → Byte → List Byte
/-- SeqRedirectLockStatus(absolute page): OPEN (D12). -/
opaque Config.seqRedirectLockStatus : Nat → List Byte

/-- The oracle's k-th Boolean answer beyond the script (93_implementation_defined.md I16). -/
opaque Config.freeBool : Nat → Bool
/-- The oracle's k-th byte beyond the script (93_implementation_defined.md I16). -/
opaque Config.freeByte : Nat → Byte
/-- What the k-th host read answers where it meets an unmarked DBUF byte
(93_implementation_defined.md U1, U10). -/
opaque Config.freePortByte : Nat → Byte

end Sys2Proof
end

