-- ==== Sys2Proof/Machine/Crc.lean ====
section
/-! DEFINITION. The pure CRC functions (spec/40_crc.md R100 to R103, R114), written once for any
width and polynomial. -/

namespace Sys2Proof.Machine

/-- One of the eight shifts of a reflected CRC step (40_crc.md R100, R102). -/
def crcShift {n : Nat} (poly c : BitVec n) : BitVec n :=
  if c.getLsbD 0 then (c >>> 1) ^^^ poly else c >>> 1

/-- One data byte through a reflected CRC register (40_crc.md R100, R102). -/
def crcStep {n : Nat} (poly c : BitVec n) (b : Byte) : BitVec n :=
  Nat.repeat (crcShift poly) 8 (c ^^^ b.setWidth n)

/-- `crc8_step(c, b)` (40_crc.md R100). -/
def crc8Step (c b : Byte) : Byte := crcStep Config.crc8Poly c b

/-- `crc8(xs)`: from 0, no final inversion (40_crc.md R101). -/
def crc8 (xs : List Byte) : Byte := xs.foldl crc8Step 0

/-- `crc16_step(c, b)` (40_crc.md R102). -/
def crc16Step (c : Half) (b : Byte) : Half := crcStep Config.crc16Poly c b

/-- `crc16(xs, seed)`: from the seed, no final inversion (40_crc.md R103). -/
def crc16 (xs : List Byte) (seed : Half) : Half := xs.foldl crc16Step seed

end Sys2Proof.Machine
end

