-- ==== Sys2Proof/Machine/State.lean ====
section
/-! DEFINITION. The state of the MTE as plain data: the register file, DBUF, the internal state and
the descriptor of spec/10_state.md, with the model's own record of the bus (answers and history)
and of the host (pending operations, values read). And the state after reset
(spec/70_reset_and_hazards.md R230). -/

namespace Sys2Proof.Machine

/-- The nine error kinds of STATUS.ERR (60_exceptions.md R200). -/
inductive Err where
  | range
  | capability
  | format
  | integrity
  | verification
  | authentication
  | commit
  | communication
  | powerUnavailable
  deriving DecidableEq, Repr

/-- The six sticky faults of STATUS.FAULT (60_exceptions.md R210). They are state of the machine,
not stops of the model. -/
inductive FaultCode where
  /-- F_ILLEGAL -/
  | illegal
  /-- F_DBUF -/
  | dbuf
  /-- F_UNDEF -/
  | undef
  /-- F_CONT -/
  | cont
  /-- F_SEQ -/
  | seq
  /-- F_BUSY -/
  | busy
  deriving DecidableEq, Repr

/-- The states of the scratchpad transaction FSM (10_state.md R34). -/
inductive SpState where
  | idle
  | written
  | verified
  | authed
  | committed
  | aborted
  deriving DecidableEq, Repr

/-- One bus event with the oracle's answer (00_scope.md R9 to R14). -/
inductive BusEvent where
  /-- `BusSelect()` with DEV_ADDR (R9) -/
  | select (address : List Byte) (selected : Bool)
  /-- `BusSend(xs)` (R10) -/
  | send (xs : List Byte)
  /-- `BusRecv(n)`: the bytes driven out meanwhile and the bytes that came in (R10) -/
  | recv (driven received : List Byte)
  /-- `BusSendPulse(xs, d)` (R11) -/
  | sendPulse (xs : List Byte) (dwell : Nat)
  /-- `BusSendProgram(xs)` (R12) -/
  | sendProgram (xs : List Byte)
  /-- `CanDeliverPower()` (R13) -/
  | canDeliverPower (answer : Bool)
  /-- `CanProgramPulse()` (R13) -/
  | canProgramPulse (answer : Bool)
  /-- `DoSpeed()` (R13) -/
  | doSpeed (answer : Bool)
  /-- `IsPresent()` (R13) -/
  | isPresent (answer : Bool)
  /-- `Sleep(d)` (R14) -/
  | sleep (duration : Nat)
  deriving DecidableEq, Repr

/-- The bus interface: the oracle's answers and the history of events (the model's own record).
An answer is the script's where the script has one and a free value beyond it
(notes/assumptions/4.md). -/
structure Bus where
  /-- the scripted Boolean answers, from the first one ever drawn -/
  bools : List Bool
  /-- the scripted bytes, from the first one ever drawn -/
  bytes : List Byte
  /-- how many Boolean answers have been drawn -/
  nBool : Nat
  /-- how many bytes have been drawn -/
  nByte : Nat
  /-- the events so far, oldest first -/
  trace : List BusEvent
  /-- how many more events may happen before a look into the BUSY window; none: no such look -/
  limit : Option Nat
  deriving DecidableEq, Repr

/-- One password slot: its secret and its PW_SET bit (10_state.md R39). -/
structure PwEntry where
  bytes : List Byte
  loaded : Bool
  deriving DecidableEq, Repr

/-- The three password slots (10_state.md R39): slot 0 the read-only secret, slot 1 the
read-write secret, slot 2 the write-only secret. -/
structure PwFile where
  readOnly : PwEntry
  readWrite : PwEntry
  writeOnly : PwEntry
  deriving DecidableEq, Repr

/-- The host operations of 60_exceptions.md R220. -/
inductive HostOp where
  | regRead (n : Nat)
  | regWrite (n : Nat) (v : Word)
  | dbufRead (i : Nat)
  | dbufWrite (i : Nat) (b : Byte)
  | reset
  deriving DecidableEq, Repr

/-- One input of the host: an operation, or a CMD write together with the operations that land
while its command runs (10_state.md R24, R25). Each of those carries how many points of the
command later than the one before it lands (notes/assumptions/8.md). -/
inductive HostInput where
  | op (o : HostOp)
  | during (w : Word) (landing : List (Nat × HostOp))
  deriving DecidableEq, Repr

/-- DBUF, or any byte memory: a list of (address, byte), addresses strictly rising. An address
that is not listed has no value: its defined mark is clear (10_state.md R29). -/
abbrev Memory := List Host.Cell

/-- The canonical form: addresses strictly rising. -/
abbrev Memory.wf (m : Memory) : Prop := (m.map Prod.fst).Pairwise (· < ·)

/-- The state of one MTE instance. -/
structure State where
  /-- the construction descriptor, DESC_* (R21, R40) -/
  desc : Descriptor
  /-- STATUS.BUSY (R24) -/
  busy : Bool
  /-- STATUS.SPEED_OK (R31) -/
  speedOk : Bool
  /-- STATUS.CONT_OK (R32) -/
  contOk : Bool
  /-- STATUS.SP_STATE (R34) -/
  spState : SpState
  /-- STATUS.ERR; none is code 0 (R200) -/
  err : Option Err
  /-- STATUS.FAULT; none is code 0 (R210) -/
  fault : Option FaultCode
  /-- PW[0..2] and STATUS.PW_SET (R39) -/
  pw : PwFile
  /-- RESULT (R26) -/
  result : Half
  /-- ARG_ADDR (R27) -/
  argAddr : Half
  /-- ARG_LEN (R27) -/
  argLen : Half
  /-- ARG_OFF (R27) -/
  argOff : Half
  /-- ARG_PAGE (R27) -/
  argPage : Half
  /-- ARG_PAGE2 (R27) -/
  argPage2 : Half
  /-- ARG_SEED (R27) -/
  argSeed : Half
  /-- ARG_BYTE (R27) -/
  argByte : Byte
  /-- CTRL.VERIFY (R23) -/
  verify : Bool
  /-- ACC8 (40_crc.md R114) -/
  acc8 : Byte
  /-- ACC16 (40_crc.md R114) -/
  acc16 : Half
  /-- SP_TA (R35) -/
  spTA : Half
  /-- SP_LEN (R36) -/
  spLen : BitVec 9
  /-- SP_ES (R38) -/
  spES : Byte
  /-- SPBUF (R37) -/
  spBuf : List Byte
  /-- DBUF with its defined marks (R28, R29) -/
  dbuf : Memory
  /-- the bus interface: the model's own record -/
  bus : Bus
  /-- the pending host operations: the model's own input -/
  host : List HostInput
  /-- what host reads have returned, oldest first: the model's own record -/
  hostOut : List Word
  deriving DecidableEq, Repr

/-- Reasons for the model to stop. There is none: every error and fault of the spec is a next
state (60_exceptions.md R204, R210; notes/assumptions/18.md). -/
inductive Fault where
  deriving DecidableEq, Repr

/-- Reasons for the model to refuse. -/
inductive Refusal where
  /-- An instruction without a meaning yet. No arm raises it: every command has one. Safe. -/
  | notModelled (mnemonic : String)
  /-- The construction parameters break a constraint of 00_scope.md R6: raised by `State.build`
  only (93_implementation_defined.md U8). Safe. -/
  | malformedInstance
  deriving DecidableEq, Repr

/-- The bytes of a password slot: PW_LEN on a password-gated bank; the slots of another bank do
not exist and hold none (10_state.md R39, 44_scratchpad.md R188). -/
def slotLen (d : Descriptor) : Nat := if d.pwGated then d.pwLen else 0

/-- A slot that holds no loaded secret: PW_LEN zero bytes, PW_SET clear (10_state.md R39). -/
def PwEntry.cleared (d : Descriptor) : PwEntry := ⟨List.replicate (slotLen d) 0, false⟩

/-- The reset state of an instance (70_reset_and_hazards.md R230), with the bus record and the
host record of a machine to which nothing has happened. -/
def State.resetOf (d : Descriptor) : State where
  desc := d
  busy := false
  speedOk := false
  contOk := false
  spState := .idle
  err := none
  fault := none
  pw := ⟨PwEntry.cleared d, PwEntry.cleared d, PwEntry.cleared d⟩
  result := 0
  argAddr := 0
  argLen := 0
  argOff := 0
  argPage := 0
  argPage2 := 0
  argSeed := 0
  argByte := 0
  verify := true
  acc8 := 0
  acc16 := 0
  spTA := 0
  spLen := 0
  spES := 0
  spBuf := List.replicate d.spSize 0
  dbuf := []
  bus := ⟨[], [], 0, 0, [], none⟩
  host := []
  hostOut := []

/-- Building an instance: refused where the parameters break a constraint of 00_scope.md R6. -/
def State.build (d : Descriptor) : Host.Outcome State Fault Refusal :=
  if d.WF then .next (State.resetOf d) else .refused .malformedInstance

/-- The machine right after reset: the reset state of an arbitrary well-formed instance. -/
def State.reset : State := State.resetOf Config.descriptor

end Sys2Proof.Machine
end

