-- ==== Sys2Proof/Machine/Flags.lean ====
section
/-! DEFINITION. The status flags: the codes of SP_STATE, ERR and FAULT, the STATUS and DESC_CAPS
words (spec/10_state.md R22, R34, R40; spec/60_exceptions.md R200, R210), and what an error does to
SPEED_OK, CONT_OK and SP_STATE (60_exceptions.md R204 to R206). -/

namespace Sys2Proof.Machine

/-- The encoding of STATUS.SP_STATE (10_state.md R34). -/
def SpState.code : SpState → BitVec 3
  | .idle => 0
  | .written => 1
  | .verified => 2
  | .authed => 3
  | .committed => 4
  | .aborted => 5

/-- The open states WRITTEN, VERIFIED and AUTHED (10_state.md R34). -/
def SpState.isOpen : SpState → Bool
  | .written | .verified | .authed => true
  | .idle | .committed | .aborted => false

/-- The state an open transaction ends in when it is given up; a closed state stays
(44_scratchpad.md R181, 60_exceptions.md R206). -/
def SpState.abandon (p : SpState) : SpState := if p.isOpen then .aborted else p

/-- The code of an error in STATUS.ERR (60_exceptions.md R200). -/
def Err.code : Err → BitVec 4
  | .range => 1
  | .capability => 2
  | .format => 3
  | .integrity => 4
  | .verification => 5
  | .authentication => 6
  | .commit => 7
  | .communication => 8
  | .powerUnavailable => 9

/-- STATUS.ERR (60_exceptions.md R200). -/
def errField : Option Err → BitVec 4
  | none => 0
  | some e => e.code

/-- The code of a fault in STATUS.FAULT (60_exceptions.md R210). -/
def FaultCode.code : FaultCode → BitVec 4
  | .illegal => 1
  | .dbuf => 2
  | .undef => 3
  | .cont => 4
  | .seq => 5
  | .busy => 6

/-- STATUS.FAULT (60_exceptions.md R210). -/
def faultField : Option FaultCode → BitVec 4
  | none => 0
  | some f => f.code

/-- STATUS.PW_SET, bit k for slot k (10_state.md R22, R39). -/
def PwFile.setBits (p : PwFile) : BitVec 3 :=
  BitVec.ofBool p.writeOnly.loaded ++ BitVec.ofBool p.readWrite.loaded ++
    BitVec.ofBool p.readOnly.loaded

/-- The STATUS word (10_state.md R22): PW_SET, FAULT, ERR, 0, SP_STATE, 0, CONT_OK, SPEED_OK,
BUSY, from bit 18 down. -/
def State.statusWord (s : State) : Word :=
  (s.pw.setBits ++ faultField s.fault ++ errField s.err ++ (0 : BitVec 1) ++ s.spState.code ++
    (0 : BitVec 1) ++ BitVec.ofBool s.contOk ++ BitVec.ofBool s.speedOk ++
    BitVec.ofBool s.busy).setWidth 32

/-- The DESC_CAPS word (10_state.md R40), from bit 16 down. -/
def capsWord (d : Descriptor) : Word :=
  (BitVec.ofBool d.busyPoll ++ BitVec.ofBool d.pwGated ++ BitVec.ofBool d.spCrc ++
    BitVec.ofBool d.spAddr ++ BitVec.ofBool d.spPresent ++ BitVec.ofBool d.canLockRedirect ++
    BitVec.ofBool d.canRedirect ++ BitVec.ofBool d.canLock ++ BitVec.ofBool d.flagExtra ++
    BitVec.ofBool d.flagAutoCrc ++ BitVec.ofBool d.flagPDeliv ++ BitVec.ofBool d.flagPPulse ++
    BitVec.ofBool d.flagNV ++ BitVec.ofBool d.flagRO ++ BitVec.ofBool d.flagWO ++
    BitVec.ofBool d.flagRW ++ BitVec.ofBool d.flagGP).setWidth 32

/-- How a command's errors act on the flags (60_exceptions.md R204, R205): a bus command; the bus
command READ_PAGE_PACKET, whose FormatError comes from bus data; or an internal command, which
touches no bus flag. -/
inductive CommandClass where
  | internal
  | bus
  | packetRead
  deriving DecidableEq, Repr

/-- The errors that clear SPEED_OK (60_exceptions.md R205). -/
def clearsSpeed : CommandClass → Err → Bool
  | .internal, _ => false
  | _, .integrity => true
  | _, .verification => true
  | _, .commit => true
  | _, .authentication => true
  | _, .communication => true
  | .packetRead, .format => true
  | .bus, .format => false
  | _, .range => false
  | _, .capability => false
  | _, .powerUnavailable => false

/-- Steps 4 and 5 of `raise` (60_exceptions.md R204 to R206). -/
def State.raiseFlags (c : CommandClass) (e : Err) (s : State) : State :=
  match c with
  | .internal => s
  | .bus => { s with
      contOk := false
      speedOk := s.speedOk && !clearsSpeed .bus e
      spState := s.spState.abandon }
  | .packetRead => { s with
      contOk := false
      speedOk := s.speedOk && !clearsSpeed .packetRead e
      spState := s.spState.abandon }

end Sys2Proof.Machine
end

