-- ==== Sys2Proof/Machine/Ops.lean ====
section
/-! DEFINITION. The named operations over DBUF, the bus and the command's life cycle: reading and
writing marked bytes (spec/10_state.md R28 to R30), the bus primitives (spec/00_scope.md R9 to
R14), `finish`, `raise` and `fault` (spec/60_exceptions.md R202 to R206, R210), reset
(spec/70_reset_and_hazards.md R230 to R233), and running a command from its start to its end. -/

namespace Sys2Proof.Machine

/-! ### DBUF -/

/-- The byte at an address, where its mark is set (10_state.md R29). -/
def Memory.read (m : Memory) (a : Nat) : Option Byte :=
  match m with
  | [] => none
  | (k, b) :: rest => if k = a then some b else Memory.read rest a

/-- Writes a byte and sets its mark, keeping the canonical form (10_state.md R29). -/
def Memory.write (m : Memory) (a : Nat) (b : Byte) : Memory :=
  match m with
  | [] => [(a, b)]
  | (k, c) :: rest =>
    if a < k then (a, b) :: (k, c) :: rest
    else if a = k then (a, b) :: rest
    else (k, c) :: Memory.write rest a b

/-- `MemRead(a, n)`, where the mark of every byte is set (00_scope.md R8, 10_state.md R29). -/
def Memory.readRange (m : Memory) (a : Nat) : Nat → Option (List Byte)
  | 0 => some []
  | n + 1 =>
    match Memory.read m a, Memory.readRange m (a + 1) n with
    | some b, some bs => some (b :: bs)
    | _, _ => none

/-- `MemWrite(a, len(xs), xs)` (00_scope.md R8). -/
def Memory.writeRange (m : Memory) (a : Nat) : List Byte → Memory
  | [] => m
  | x :: xs => Memory.writeRange (Memory.write m a x) (a + 1) xs

/-! ### How a command runs -/

/-- How a piece of a command ends: with a value; by `raise` (00_scope.md R15); by `fault`; or cut
off because the host's next access lands here (notes/assumptions/8.md). -/
inductive Run (α : Type) where
  | ok (a : α) (s : State)
  | raised (e : Err) (s : State)
  | faulted (f : FaultCode)
  | cut (s : State)
  deriving Repr

/-- What `finish` is given: the result and the DBUF write of the command (60_exceptions.md R203). -/
structure Done where
  /-- RESULT -/
  value : Half
  /-- where the command writes DBUF -/
  off : Nat
  /-- the bytes it writes -/
  data : List Byte
  deriving DecidableEq, Repr

/-- `finish(v)` of a command that writes no DBUF byte. -/
def Done.plain (v : Half) : Done := ⟨v, 0, []⟩

/-- Sequencing: nothing runs after a `raise`, a `fault` or a cut (00_scope.md R15). -/
def Run.bind {α β : Type} (r : Run α) (k : α → State → Run β) : Run β :=
  match r with
  | .ok a s => k a s
  | .raised e s => .raised e s
  | .faulted f => .faulted f
  | .cut s => .cut s

/-! ### The bus primitives -/

/-- The oracle's k-th Boolean answer: scripted, or free beyond the script
(93_implementation_defined.md I16). -/
def Bus.boolAnswer (b : Bus) (k : Nat) : Bool := b.bools.getD k (Config.freeBool k)

/-- The oracle's k-th byte: scripted, or free beyond the script (I16). -/
def Bus.byteAnswer (b : Bus) (k : Nat) : Byte := b.bytes.getD k (Config.freeByte k)

/-- The `n` bytes the oracle answers from the k-th on. -/
def Bus.byteAnswers (b : Bus) (k : Nat) : Nat → List Byte
  | 0 => []
  | n + 1 => b.byteAnswer k :: Bus.byteAnswers b (k + 1) n

/-- Every bus primitive is one event of the history (00_scope.md section 5). Where a limit is set
and used up, the command is cut off before the event. -/
def busEvent (e : BusEvent) (s : State) : Run Unit :=
  match s.bus.limit with
  | some 0 => .cut s
  | some (k + 1) =>
    .ok () { s with bus := { s.bus with trace := s.bus.trace ++ [e], limit := some k } }
  | none => .ok () { s with bus := { s.bus with trace := s.bus.trace ++ [e] } }

/-- A query: one event and one Boolean answer (00_scope.md R9, R13). -/
def busQuery (mk : Bool → BusEvent) (s : State) : Run Bool :=
  (busEvent (mk (s.bus.boolAnswer s.bus.nBool)) s).bind fun _ t =>
    .ok (s.bus.boolAnswer s.bus.nBool) { t with bus := { t.bus with nBool := s.bus.nBool + 1 } }

/-- `BusSelect()` (00_scope.md R9). -/
def busSelect (s : State) : Run Bool := busQuery (.select s.desc.devAddr) s
/-- `DoSpeed()` (00_scope.md R13). -/
def doSpeed (s : State) : Run Bool := busQuery .doSpeed s
/-- `IsPresent()` (00_scope.md R13). -/
def isPresent (s : State) : Run Bool := busQuery .isPresent s
/-- `CanDeliverPower()` (00_scope.md R13). -/
def canDeliverPower (s : State) : Run Bool := busQuery .canDeliverPower s
/-- `CanProgramPulse()` (00_scope.md R13). -/
def canProgramPulse (s : State) : Run Bool := busQuery .canProgramPulse s
/-- `BusSend(xs)` (00_scope.md R10). -/
def busSend (xs : List Byte) (s : State) : Run Unit := busEvent (.send xs) s
/-- `BusSendPulse(xs, d)` (00_scope.md R11). -/
def busSendPulse (xs : List Byte) (d : Nat) (s : State) : Run Unit := busEvent (.sendPulse xs d) s
/-- `BusSendProgram(xs)` (00_scope.md R12). -/
def busSendProgram (xs : List Byte) (s : State) : Run Unit := busEvent (.sendProgram xs) s
/-- `Sleep(d)` (00_scope.md R14). -/
def busSleep (d : Nat) (s : State) : Run Unit := busEvent (.sleep d) s

/-- `BusRecv(n)`: 0xFF driven out, n oracle bytes in (00_scope.md R10). -/
def busRecv (n : Nat) (s : State) : Run (List Byte) :=
  (busEvent (.recv (List.replicate n Config.receiveDrive)
      (s.bus.byteAnswers s.bus.nByte n)) s).bind fun _ t =>
    .ok (s.bus.byteAnswers s.bus.nByte n)
      { t with bus := { t.bus with nByte := s.bus.nByte + n } }

/-! ### The life cycle of a command -/

/-- Command start: BUSY is 1; ERR, RESULT and DBUF keep their values (60_exceptions.md R202). -/
def State.start (limit : Option Nat) (s : State) : State :=
  { s with busy := true, bus := { s.bus with limit := limit } }

/-- `finish(v)` (60_exceptions.md R203): the DBUF writes take effect, RESULT is the value, ERR and
BUSY are 0. -/
def State.finish (d : Done) (s : State) : State :=
  { s with
    dbuf := s.dbuf.writeRange d.off d.data
    result := d.value
    err := none
    busy := false
    bus := { s.bus with limit := none } }

/-- `raise E` (60_exceptions.md R204): no DBUF write, RESULT 0, ERR the code of E, the flags of
steps 4 and 5, BUSY 0. -/
def State.raise (c : CommandClass) (e : Err) (s : State) : State :=
  State.raiseFlags c e { s with
    result := 0
    err := some e
    busy := false
    bus := { s.bus with limit := none } }

/-- `fault F` (60_exceptions.md R210): FAULT is latched and BUSY is 0; nothing else changes. -/
def State.takeFault (f : FaultCode) (s : State) : State :=
  { s with fault := some f, busy := false }

/-- Runs a command from its start. A fault is taken in the state the command started from: every
fault check precedes every effect (60_exceptions.md R210). With a limit, a command that has not
ended is left as it stands there, BUSY 1. -/
def State.runWith (limit : Option Nat) (c : CommandClass) (body : State → Run Done) (s : State) :
    State :=
  match body (s.start limit) with
  | .ok d t => t.finish d
  | .raised e t => t.raise c e
  | .faulted f => s.takeFault f
  | .cut t => t

/-- Runs a command to its end (60_exceptions.md R220: one step of the machine). -/
def State.runCommand (c : CommandClass) (body : State → Run Done) (s : State) : State :=
  State.runWith none c body s

/-- The host's reset (70_reset_and_hazards.md R230 to R233): every register at its reset value, no
bus event. What is outside the MTE stands: the history and the answers of the bus, and the host's
pending operations and readings. -/
def State.resetMachine (s : State) : State :=
  { State.resetOf s.desc with
    bus := { s.bus with limit := none }
    host := s.host
    hostOut := s.hostOut }

/-- `AbandonSp()` (44_scratchpad.md R181). -/
def State.abandonSp (s : State) : State := { s with spState := s.spState.abandon }

end Sys2Proof.Machine
end

