-- ==== Sys2Proof/Machine/Operands.lean ====
section
/-! DEFINITION. The operand forms of the commands (spec/30_encoding.md R82, R86;
spec/20_memory.md R61 to R64, R68): DBUF windows, password slots, page addresses, target address
bytes, and the OPEN tables of the descriptor. -/

namespace Sys2Proof.Machine

/-- A DBUF window `[ARG_OFF, ARG_OFF + n)` is legal (20_memory.md R64). -/
def State.windowOk (s : State) (n : Nat) : Bool := decide (s.argOff.toNat + n ≤ s.desc.dbufSize)

/-- Runs `k` where the window of `n` bytes at ARG_OFF is legal, else faults F_DBUF (20_memory.md
R64). -/
def withWindow {α : Type} (n : Nat) (s : State) (k : Run α) : Run α :=
  if s.windowOk n then k else .faulted .dbuf

/-- Reads the input window of `n` bytes at ARG_OFF: F_DBUF for an illegal window, F_UNDEF for a
byte whose mark is clear (20_memory.md R64, 10_state.md R29). -/
def withInput {α : Type} (n : Nat) (s : State) (k : List Byte → Run α) : Run α :=
  withWindow n s (match s.dbuf.readRange s.argOff.toNat n with
    | some xs => k xs
    | none => .faulted .undef)

/-- The three password slots (30_encoding.md R82). -/
inductive PwSlot where
  | readOnly
  | readWrite
  | writeOnly
  deriving DecidableEq, Repr

/-- The slot a PWSEL value names; 3 names none (30_encoding.md R82). -/
def slotOf (pwsel : BitVec 2) : Option PwSlot :=
  match pwsel.toNat with
  | 0 => some .readOnly
  | 1 => some .readWrite
  | 2 => some .writeOnly
  | _ => none

/-- Runs `k` with the slot PWSEL names; PWSEL = 3 is illegal in every command and faults F_ILLEGAL
(30_encoding.md R85 d). The decoder lets no such command through. -/
def withSlot {α : Type} (pwsel : BitVec 2) (k : PwSlot → Run α) : Run α :=
  match slotOf pwsel with
  | some slot => k slot
  | none => .faulted .illegal

/-- The entry of a slot (10_state.md R39). -/
def PwFile.get (p : PwFile) : PwSlot → PwEntry
  | .readOnly => p.readOnly
  | .readWrite => p.readWrite
  | .writeOnly => p.writeOnly

/-- Writes the entry of a slot (10_state.md R39). -/
def PwFile.set (p : PwFile) (slot : PwSlot) (e : PwEntry) : PwFile :=
  match slot with
  | .readOnly => { p with readOnly := e }
  | .readWrite => { p with readWrite := e }
  | .writeOnly => { p with writeOnly := e }

/-- `v[7:0]` of a number (00_scope.md R7). -/
def loByte (v : Nat) : Byte := BitVec.ofNat 8 v
/-- `v[15:8]` of a number (00_scope.md R7). -/
def hiByte (v : Nat) : Byte := BitVec.ofNat 8 (v / 256)

/-- A 16-bit value as two bytes, low byte first (20_memory.md R66, R68). -/
def lowFirst (v : Nat) : List Byte := [loByte v, hiByte v]

/-- ARG_ADDR as a device physical address, PHYS_OFF + ARG_ADDR (20_memory.md R60). -/
def State.argPhys (s : State) : Nat := s.desc.physOff + s.argAddr.toNat

/-- PA(pg), the bank-relative address of page ARG_PAGE (20_memory.md R61, 42_paged.md). -/
def State.pageAddr (s : State) : Nat := s.argPage.toNat * s.desc.pageLen

/-- PH(pg), its device physical address (20_memory.md R61). -/
def State.pagePhys (s : State) : Nat := s.desc.physOff + s.pageAddr

/-- ABS(pg), its absolute page index (20_memory.md R62). -/
def State.pageAbs (s : State) : Nat := s.desc.startPage + s.argPage.toNat

/-- ARG_PAGE is in range (20_memory.md R63). -/
def State.pageOk (s : State) : Bool := decide (s.argPage.toNat < s.desc.pageCount)

/-- `AutoCrcCover(p, cont)` (00_scope.md section 3; notes/assumptions/2.md). -/
def autoCrcCover (d : Descriptor) (p : Nat) (cont : Bool) : List Byte :=
  (d.autoCrcCover.lookup (p, cont)).getD []

/-- `EsCount(ta, es)` (00_scope.md section 3; notes/assumptions/2.md). -/
def esCount (d : Descriptor) (ta : Half) (es : Byte) : Nat := (d.esCount.lookup (ta, es)).getD 0

/-- `RedirectDecode(b)` (00_scope.md section 3; notes/assumptions/2.md). -/
def redirectDecode (d : Descriptor) (b : Byte) : Nat := (d.redirectCodes.lookup b).getD 0

end Sys2Proof.Machine
end

