-- ==== Sys2Proof/Machine/Procedures.lean ====
section
/-! DEFINITION. The procedures that bus commands share: the prologue, the challenge, the read
opening and the byte reader (spec/41_bank.md R120 to R122, spec/44_scratchpad.md R186), the write
checks (R124, R125), the scratchpad steps (spec/44_scratchpad.md R182, R184, R190), the write path
(spec/41_bank.md R126, R127) and the OTP transactions (spec/43_otp.md R160). -/

namespace Sys2Proof.Machine

/-- The speed and presence part of the prologue (41_bank.md R120). -/
def confirmSpeed (s : State) : Run Unit :=
  if s.speedOk then .ok () s
  else (doSpeed s).bind fun confirmed s =>
    if confirmed then .ok () { s with speedOk := true } else .raised .communication s

/-- The selection part of the prologue (41_bank.md R120). -/
def selectDevice (s : State) : Run Unit :=
  (busSelect s).bind fun selected s =>
    if selected then .ok () s else .raised .communication s

/-- `Prologue(cont)` (41_bank.md R120). -/
def prologue (cont : Bool) (s : State) : Run Unit :=
  if cont then .ok () s else (confirmSpeed s).bind fun _ s => selectDevice s

/-- Raises PowerUnavailable unless the transport answers that it can deliver power
(41_bank.md R125, 44_scratchpad.md R186, R190). -/
def requirePower (s : State) : Run Unit :=
  (canDeliverPower s).bind fun can s =>
    if can then .ok () s else .raised .powerUnavailable s

/-- Raises PowerUnavailable unless the transport answers that it has the program pulse
(41_bank.md R125). -/
def requireProgramPulse (s : State) : Run Unit :=
  (canProgramPulse s).bind fun can s =>
    if can then .ok () s else .raised .powerUnavailable s

/-- `Challenge(slot, ta)` (44_scratchpad.md R186). -/
def challenge (slot : PwSlot) (ta : Nat) (s : State) : Run Unit :=
  (requirePower s).bind fun _ s =>
  let pw := (s.pw.get slot).bytes
  (busSend (s.desc.cmdVP :: lowFirst ta ++ pw.take (s.desc.pwLen - 1)) s).bind fun _ s =>
  (busSendPulse [pw.getD (s.desc.pwLen - 1) 0] s.desc.pwDwell s).bind fun _ s =>
  (busRecv 1 s).bind fun a s =>
    if a.headD 0 ≠ s.desc.pwAccept then .raised .authentication s else .ok () s

/-- `OpenRead(cont, slot, ta)` (41_bank.md R121). -/
def openRead (cont : Bool) (slot : PwSlot) (ta : Nat) (s : State) : Run Unit :=
  (prologue cont s).bind fun _ s =>
    if s.desc.pwGated = true ∧ cont = false then challenge slot ta s else .ok () s

/-- The busy poll of `ReadBytes` (41_bank.md R122): at most `left` further reads while the block
is not empty and every byte of it is 0xFF. -/
def pollRead (p n : Nat) (slot : PwSlot) : Nat → List Byte → State → Run (List Byte)
  | 0, d, s => .ok d s
  | left + 1, d, s =>
    if 0 < n ∧ d.all (· == 0xFF) = true then
      (busSleep s.desc.pollDelay s).bind fun _ s =>
      (isPresent s).bind fun present s =>
      if present then
        (openRead false slot p s).bind fun _ s =>
        (busSend (Config.seqRead p n) s).bind fun _ s =>
        (busRecv n s).bind fun d s => pollRead p n slot left d s
      else .raised .communication s
    else .ok d s

/-- `ReadBytes(p, n, cont, slot)` (41_bank.md R122). -/
def readBytes (p n : Nat) (cont : Bool) (slot : PwSlot) (s : State) : Run (List Byte) :=
  (if cont then .ok () s else busSend (Config.seqRead p n) s : Run Unit).bind fun _ s =>
  (busRecv n s).bind fun d s =>
    if s.desc.busyPoll then pollRead p n slot (s.desc.pollMax - 1) d s else .ok d s

/-- `WriteCheck()` (41_bank.md R124). -/
def writeCheck (s : State) : Run Unit :=
  if s.desc.flagRO = true ∨ (s.desc.flagRW = false ∧ s.desc.flagWO = false) then
    .raised .capability s
  else .ok () s

/-- `PowerCheck()` (41_bank.md R125). -/
def powerCheck (s : State) : Run Unit :=
  (if s.desc.flagPDeliv then requirePower s else .ok () s : Run Unit).bind fun _ s =>
    if s.desc.flagPPulse then requireProgramPulse s else .ok () s

/-- `SpWriteProc(ta, xs)` (44_scratchpad.md R182). -/
def spWriteProc (ta : Nat) (xs : List Byte) (s : State) : Run Unit :=
  (prologue false s).bind fun _ s =>
  (busSend (s.desc.cmdWS :: lowFirst ta ++ xs) s).bind fun _ s =>
    .ok () { s with
      spTA := BitVec.ofNat 16 ta
      spLen := BitVec.ofNat 9 xs.length
      spBuf := xs ++ s.spBuf.drop xs.length
      spES := 0
      spState := .written }

/-- Receives `n` bytes where `present`, else nothing (44_scratchpad.md R184). -/
def recvIf (present : Bool) (n : Nat) (s : State) : Run (List Byte) :=
  if present then busRecv n s else .ok [] s

/-- The echo `hdr` is that of the staged transaction (44_scratchpad.md R184). -/
def echoOk (s : State) (hdr : List Byte) : Bool :=
  hdr.getD 0 0 == loByte s.spTA.toNat && hdr.getD 1 0 == hiByte s.spTA.toNat &&
    esCount s.desc s.spTA (hdr.getD 2 0) == s.spLen.toNat

/-- `SpVerifyProc()` (44_scratchpad.md R184). -/
def spVerifyProc (s : State) : Run Unit :=
  (prologue false s).bind fun _ s =>
  (busSend [s.desc.cmdRS] s).bind fun _ s =>
  (recvIf s.desc.spAddr 3 s).bind fun hdr s =>
  (busRecv s.spLen.toNat s).bind fun d s =>
  (recvIf s.desc.spCrc 2 s).bind fun c s =>
    if s.desc.spCrc = true ∧
        crc16 (s.desc.cmdRS :: hdr ++ d ++ c) 0 ≠ Config.accept16 then .raised .integrity s
    else if s.desc.spAddr = true ∧ echoOk s hdr = false then .raised .verification s
    else if d ≠ s.spBuf.take s.spLen.toNat then .raised .verification s
    else .ok () { s with
      spES := if s.desc.spAddr then hdr.getD 2 0 else s.spES
      spState := .verified }

/-- The confirmation bytes of the copy: the target address and the status echo on an address-aware
bank (44_scratchpad.md R190). -/
def confirmation (s : State) : List Byte :=
  if s.desc.spAddr then lowFirst s.spTA.toNat ++ [s.spES] else []

/-- `SpCopyProc()` (44_scratchpad.md R190). -/
def spCopyProc (s : State) : Run Unit :=
  (requirePower s).bind fun _ s =>
  (prologue false s).bind fun _ s =>
  (busSendPulse (s.desc.cmdCS :: confirmation s ++ [s.desc.csValid]) s.desc.copyDwell s).bind
    fun _ s =>
  (busRecv 1 s).bind fun r s =>
    if r.headD 0 = Config.commitFail then .raised .commit s
    else .ok () { s with spState := .committed }

/-- The challenge of one chunk of `WriteBytes` on a password-gated bank (41_bank.md R126). -/
def chunkChallenge (slot : PwSlot) (s : State) : Run Unit :=
  if s.desc.pwGated then
    (prologue false s).bind fun _ s =>
    (challenge slot s.spTA.toNat s).bind fun _ s => .ok () { s with spState := .authed }
  else .ok () s

/-- The bytes of the next chunk: the rest of the scratchpad row at `p` (41_bank.md R126). -/
def chunkLen (d : Descriptor) (p n : Nat) : Nat := min n (d.spSize - p % d.spSize)

/-- The chunk loop of `WriteBytes` (41_bank.md R126): stage, verify, challenge, copy, row by row.
Every chunk of a well-formed instance has a byte, so as many rounds as bytes are enough. -/
def writeChunks (slot : PwSlot) : Nat → Nat → List Byte → State → Run Unit
  | 0, _, _, s => .ok () s
  | rounds + 1, p, xs, s =>
    if xs.isEmpty then .ok () s
    else
      (spWriteProc p (xs.take (chunkLen s.desc p xs.length)) s).bind fun _ t =>
      (spVerifyProc t).bind fun _ t =>
      (chunkChallenge slot t).bind fun _ t =>
      (spCopyProc t).bind fun _ t =>
        writeChunks slot rounds (p + chunkLen s.desc p xs.length)
          (xs.drop (chunkLen s.desc p xs.length)) t

/-- `DirectWrite(p, xs)` (41_bank.md R127). -/
def directWrite (p : Nat) (xs : List Byte) (s : State) : Run Unit :=
  (prologue false s).bind fun _ s =>
    if s.desc.flagPPulse then busSendProgram (Config.seqWrite p xs) s
    else busSend (Config.seqWrite p xs) s

/-- The transfer part of `WriteBytes`: through the scratchpad, or direct where there is none and a
byte to write (41_bank.md R126). -/
def transferBytes (p : Nat) (xs : List Byte) (slot : PwSlot) (s : State) : Run Unit :=
  if s.desc.spPresent then writeChunks slot xs.length p xs s
  else if 0 < xs.length then directWrite p xs s
  else .ok () s

/-- The read-back of `WriteBytes` (41_bank.md R126). -/
def readBack (p : Nat) (xs : List Byte) (slot : PwSlot) (s : State) : Run Unit :=
  if s.verify then
    (openRead false slot p s).bind fun _ s =>
    (readBytes p xs.length false slot s).bind fun d s =>
      if d ≠ xs then .raised .verification s else .ok () s
  else .ok () s

/-- `WriteBytes(a, xs, slot)` (41_bank.md R126). -/
def writeBytes (a : Nat) (xs : List Byte) (slot : PwSlot) (s : State) : Run Unit :=
  if s.desc.size < a + xs.length then .raised .range s
  else
    (writeCheck s).bind fun _ s =>
    (powerCheck s).bind fun _ s =>
    (transferBytes (s.desc.physOff + a) xs slot s.abandonSp).bind fun _ s =>
      readBack (s.desc.physOff + a) xs slot s

/-- `StatusRead(seq)` (43_otp.md R160 f). -/
def statusRead (seq : List Byte) (s : State) : Run Byte :=
  (prologue false s).bind fun _ s =>
  (busSend seq s).bind fun _ s =>
  (busRecv 1 s).bind fun b s => .ok (b.headD 0) s

/-- `ProgramSend(seq)` (43_otp.md R160 f). -/
def programSend (seq : List Byte) (s : State) : Run Unit :=
  (prologue false s).bind fun _ s =>
    if s.desc.flagPPulse then busSendProgram seq s
    else if s.desc.flagPDeliv then busSendPulse seq s.desc.copyDwell s
    else busSend seq s

end Sys2Proof.Machine
end

