-- ==== Sys2Proof/Machine/Bank.lean ====
section
/-! DEFINITION. The bank commands READ, WRITE and FORCE_VERIFY (spec/41_bank.md R123, R128,
R129). -/

namespace Sys2Proof.Machine

/-- The start check of every command that takes CONT: F_CONT for a continued read that no earlier
read set up (41_bank.md R123, 10_state.md R32). -/
def withCont {α : Type} (cont : Bool) (s : State) (k : Run α) : Run α :=
  if cont = true ∧ s.contOk = false then .faulted .cont else k

/-- READ (41_bank.md R123). -/
def bodyRead (cont : Bool) (pwsel : BitVec 2) (s : State) : Run Done :=
  withSlot pwsel fun slot =>
  withWindow s.argLen.toNat s <|
  withCont cont s <|
    if s.desc.size < s.argAddr.toNat + s.argLen.toNat then .raised .range s
    else
      (openRead cont slot s.argPhys s.abandonSp).bind fun _ t =>
      (readBytes s.argPhys s.argLen.toNat cont slot t).bind fun d t =>
        .ok ⟨s.argLen, s.argOff.toNat, d⟩ { t with contOk := true }

/-- WRITE (41_bank.md R128). -/
def bodyWrite (pwsel : BitVec 2) (s : State) : Run Done :=
  withSlot pwsel fun slot =>
  withInput s.argLen.toNat s fun xs =>
    (writeBytes s.argAddr.toNat xs slot { s with contOk := false }).bind fun _ t =>
      .ok (.plain s.argLen) t

/-- FORCE_VERIFY (41_bank.md R129). -/
def bodyForceVerify (s : State) : Run Done :=
  .ok (.plain 0) { s with speedOk := false, contOk := false }

/-- READ runs `bodyRead` (41_bank.md R123). -/
def execRead (cont : Bool) (pwsel : BitVec 2) (s : State) : Host.Outcome State Fault Refusal :=
  .next (s.runCommand .bus (bodyRead cont pwsel))

/-- WRITE runs `bodyWrite` (41_bank.md R128). -/
def execWrite (pwsel : BitVec 2) (s : State) : Host.Outcome State Fault Refusal :=
  .next (s.runCommand .bus (bodyWrite pwsel))

/-- FORCE_VERIFY runs `bodyForceVerify` (41_bank.md R129). -/
def execForceVerify (s : State) : Host.Outcome State Fault Refusal :=
  .next (s.runCommand .internal bodyForceVerify)

end Sys2Proof.Machine
end

