-- ==== Sys2Proof/Machine/CrcCommands.lean ====
section
/-! DEFINITION. The nine CRC-family commands (spec/40_crc.md R104 to R112). They use no bus
primitive and change neither SPEED_OK nor CONT_OK nor SP_STATE. -/

namespace Sys2Proof.Machine

/-- CRC8_INIT (40_crc.md R104). -/
def bodyCrc8Init (s : State) : Run Done := .ok (.plain 0) { s with acc8 := 0 }

/-- CRC8_BYTE (40_crc.md R105). -/
def bodyCrc8Byte (s : State) : Run Done :=
  let r := crc8Step s.acc8 s.argByte
  .ok (.plain (r.setWidth 16)) { s with acc8 := r }

/-- CRC8_BLOCK (40_crc.md R106). -/
def bodyCrc8Block (s : State) : Run Done :=
  withInput s.argLen.toNat s fun xs =>
    .ok (.plain ((crc8 xs).setWidth 16)) { s with acc8 := crc8 xs }

/-- CRC8_CHECK (40_crc.md R107). -/
def bodyCrc8Check (s : State) : Run Done :=
  withInput s.argLen.toNat s fun xs =>
    if crc8 xs ≠ 0 then .raised .integrity { s with acc8 := crc8 xs }
    else .ok (.plain 0) { s with acc8 := crc8 xs }

/-- CRC16_INIT (40_crc.md R108). -/
def bodyCrc16Init (s : State) : Run Done := .ok (.plain s.argSeed) { s with acc16 := s.argSeed }

/-- CRC16_BYTE (40_crc.md R109). -/
def bodyCrc16Byte (s : State) : Run Done :=
  let r := crc16Step s.acc16 s.argByte
  .ok (.plain r) { s with acc16 := r }

/-- CRC16_BLOCK (40_crc.md R110). -/
def bodyCrc16Block (s : State) : Run Done :=
  withInput s.argLen.toNat s fun xs =>
    .ok (.plain (crc16 xs s.argSeed)) { s with acc16 := crc16 xs s.argSeed }

/-- CRC16_CHECK (40_crc.md R111). -/
def bodyCrc16Check (s : State) : Run Done :=
  withInput s.argLen.toNat s fun xs =>
    if crc16 xs s.argSeed ≠ Config.accept16 then
      .raised .integrity { s with acc16 := crc16 xs s.argSeed }
    else .ok (.plain 0) { s with acc16 := crc16 xs s.argSeed }

/-- CRC16_EMIT (40_crc.md R112). -/
def bodyCrc16Emit (s : State) : Run Done :=
  withWindow 2 s (.ok ⟨~~~s.acc16, s.argOff.toNat, lowFirst (~~~s.acc16).toNat⟩ s)

/-- CRC8_INIT runs `bodyCrc8Init` (40_crc.md R104). -/
def execCrc8Init (s : State) : Host.Outcome State Fault Refusal :=
  .next (s.runCommand .internal bodyCrc8Init)

/-- CRC8_BYTE runs `bodyCrc8Byte` (40_crc.md R105). -/
def execCrc8Byte (s : State) : Host.Outcome State Fault Refusal :=
  .next (s.runCommand .internal bodyCrc8Byte)

/-- CRC8_BLOCK runs `bodyCrc8Block` (40_crc.md R106). -/
def execCrc8Block (s : State) : Host.Outcome State Fault Refusal :=
  .next (s.runCommand .internal bodyCrc8Block)

/-- CRC8_CHECK runs `bodyCrc8Check` (40_crc.md R107). -/
def execCrc8Check (s : State) : Host.Outcome State Fault Refusal :=
  .next (s.runCommand .internal bodyCrc8Check)

/-- CRC16_INIT runs `bodyCrc16Init` (40_crc.md R108). -/
def execCrc16Init (s : State) : Host.Outcome State Fault Refusal :=
  .next (s.runCommand .internal bodyCrc16Init)

/-- CRC16_BYTE runs `bodyCrc16Byte` (40_crc.md R109). -/
def execCrc16Byte (s : State) : Host.Outcome State Fault Refusal :=
  .next (s.runCommand .internal bodyCrc16Byte)

/-- CRC16_BLOCK runs `bodyCrc16Block` (40_crc.md R110). -/
def execCrc16Block (s : State) : Host.Outcome State Fault Refusal :=
  .next (s.runCommand .internal bodyCrc16Block)

/-- CRC16_CHECK runs `bodyCrc16Check` (40_crc.md R111). -/
def execCrc16Check (s : State) : Host.Outcome State Fault Refusal :=
  .next (s.runCommand .internal bodyCrc16Check)

/-- CRC16_EMIT runs `bodyCrc16Emit` (40_crc.md R112). -/
def execCrc16Emit (s : State) : Host.Outcome State Fault Refusal :=
  .next (s.runCommand .internal bodyCrc16Emit)

end Sys2Proof.Machine
end

