-- ==== Sys2Proof/Machine/Otp.lean ====
section
/-! DEFINITION. The page-lock and OTP redirect commands (spec/43_otp.md R160 to R166). Each clears
CONT_OK at its start (R160 b). -/

namespace Sys2Proof.Machine

/-- The shape of the three queries (43_otp.md R162, R164, R166): unsupported answers 0 with no bus
event; else the page check, the abandon, the status read and its reading. -/
def otpQuery (supported : Bool) (seq : List Byte) (answer : Byte → Half) (s : State) : Run Done :=
  let t := { s with contOk := false }
  if supported = false then .ok (.plain 0) t
  else if s.pageOk = false then .raised .range t
  else (statusRead seq t.abandonSp).bind fun b t => .ok (.plain (answer b)) t

/-- The device part of the three one-way transitions (43_otp.md R161, R163, R165): the power check,
the abandon, the programming transaction, and the re-read of the status, which must confirm. -/
def otpMutate (seq statusSeq : List Byte) (confirms : Byte → Bool) (v : Half) (s : State) :
    Run Done :=
  (powerCheck s).bind fun _ s =>
  (programSend seq s.abandonSp).bind fun _ s =>
  (statusRead statusSeq s).bind fun b s =>
    if confirms b then .ok (.plain v) s else .raised .verification s

/-- A truth value as RESULT (10_state.md R26). -/
def boolHalf (b : Bool) : Half := if b then 1 else 0

/-- LOCK_PAGE (43_otp.md R161). -/
def bodyLockPage (s : State) : Run Done :=
  let t := { s with contOk := false }
  if s.desc.canLock = false then .raised .capability t
  else if s.pageOk = false then .raised .range t
  else otpMutate (Config.seqLock s.pageAbs s.desc.lockKey) (Config.seqLockStatus s.pageAbs)
    (fun b => b == s.desc.lockedSentinel) 1 t

/-- IS_PAGE_LOCKED (43_otp.md R162). -/
def bodyIsPageLocked (s : State) : Run Done :=
  otpQuery s.desc.canLock (Config.seqLockStatus s.pageAbs)
    (fun b => boolHalf (b == s.desc.lockedSentinel)) s

/-- REDIRECT_PAGE (43_otp.md R163). -/
def bodyRedirectPage (s : State) : Run Done :=
  let t := { s with contOk := false }
  if s.desc.canRedirect = false then .raised .capability t
  else if s.pageOk = false then .raised .range t
  else if s.argPage2 = 0 ∨ s.desc.redirectMax < s.argPage2.toNat then .raised .range t
  else otpMutate (Config.seqRedirect s.pageAbs s.argPage2.toNat)
    (Config.seqRedirectStatus s.pageAbs)
    (fun b => redirectDecode s.desc b == s.argPage2.toNat) s.argPage2 t

/-- GET_REDIRECTED_PAGE (43_otp.md R164). -/
def bodyGetRedirectedPage (s : State) : Run Done :=
  otpQuery s.desc.canRedirect (Config.seqRedirectStatus s.pageAbs)
    (fun b => BitVec.ofNat 16 (redirectDecode s.desc b)) s

/-- LOCK_REDIRECT_PAGE (43_otp.md R165). -/
def bodyLockRedirectPage (s : State) : Run Done :=
  let t := { s with contOk := false }
  if s.desc.canLockRedirect = false then .raised .capability t
  else if s.pageOk = false then .raised .range t
  else otpMutate (Config.seqLockRedirect s.pageAbs s.desc.lockKey)
    (Config.seqRedirectLockStatus s.pageAbs) (fun b => b == s.desc.rlockedSentinel) 1 t

/-- IS_REDIRECT_PAGE_LOCKED (43_otp.md R166). -/
def bodyIsRedirectPageLocked (s : State) : Run Done :=
  otpQuery s.desc.canLockRedirect (Config.seqRedirectLockStatus s.pageAbs)
    (fun b => boolHalf (b == s.desc.rlockedSentinel)) s

/-- LOCK_PAGE runs `bodyLockPage` (43_otp.md R161). -/
def execLockPage (s : State) : Host.Outcome State Fault Refusal :=
  .next (s.runCommand .bus bodyLockPage)

/-- IS_PAGE_LOCKED runs `bodyIsPageLocked` (43_otp.md R162). -/
def execIsPageLocked (s : State) : Host.Outcome State Fault Refusal :=
  .next (s.runCommand .bus bodyIsPageLocked)

/-- REDIRECT_PAGE runs `bodyRedirectPage` (43_otp.md R163). -/
def execRedirectPage (s : State) : Host.Outcome State Fault Refusal :=
  .next (s.runCommand .bus bodyRedirectPage)

/-- GET_REDIRECTED_PAGE runs `bodyGetRedirectedPage` (43_otp.md R164). -/
def execGetRedirectedPage (s : State) : Host.Outcome State Fault Refusal :=
  .next (s.runCommand .bus bodyGetRedirectedPage)

/-- LOCK_REDIRECT_PAGE runs `bodyLockRedirectPage` (43_otp.md R165). -/
def execLockRedirectPage (s : State) : Host.Outcome State Fault Refusal :=
  .next (s.runCommand .bus bodyLockRedirectPage)

/-- IS_REDIRECT_PAGE_LOCKED runs `bodyIsRedirectPageLocked` (43_otp.md R166). -/
def execIsRedirectPageLocked (s : State) : Host.Outcome State Fault Refusal :=
  .next (s.runCommand .bus bodyIsRedirectPageLocked)

end Sys2Proof.Machine
end

