-- ==== Sys2Proof/Machine/Packet.lean ====
section
/-! DEFINITION. The Universal Data Packet framer (spec/42_paged.md R145, R146): length byte,
payload, and the inverted CRC16 seeded by the absolute page index, low byte first. -/

namespace Sys2Proof.Machine

/-- The CRC16 seed of a page's packet (20_memory.md R62). -/
def packetSeed (absPage : Nat) : Half := BitVec.ofNat 16 absPage

/-- `UdpEncode(pg, xs)` for the page of absolute index `absPage` (42_paged.md R145). -/
def udpEncode (absPage : Nat) (xs : List Byte) : List Byte :=
  let body := BitVec.ofNat 8 xs.length :: xs
  body ++ lowFirst (~~~ crc16 body (packetSeed absPage)).toNat

/-- What `UdpDecode` returns (42_paged.md R146). -/
inductive UdpResult where
  | formatError
  | integrityError
  | payload (len : Nat) (ys : List Byte)
  deriving DecidableEq, Repr

/-- `UdpDecode(pg, raw)` on pages of `pageLen` bytes (42_paged.md R146). -/
def udpDecode (pageLen absPage : Nat) (raw : List Byte) : UdpResult :=
  let len := (raw.headD 0).toNat
  if pageLen - 3 < len then .formatError
  else if crc16 (raw.take (len + 3)) (packetSeed absPage) ≠ Config.accept16 then .integrityError
  else .payload len ((raw.drop 1).take len)

end Sys2Proof.Machine
end

