-- ==== Sys2Proof/Machine/Paged.lean ====
section
/-! DEFINITION. The page commands (spec/42_paged.md R141 to R148). -/

namespace Sys2Proof.Machine

/-- READ_PAGE (42_paged.md R141). -/
def bodyReadPage (cont : Bool) (pwsel : BitVec 2) (s : State) : Run Done :=
  withSlot pwsel fun slot =>
  withWindow s.desc.pageLen s <|
  withCont cont s <|
    if s.pageOk = false then .raised .range s
    else
      (openRead cont slot s.pagePhys s.abandonSp).bind fun _ t =>
      (readBytes s.pagePhys s.desc.pageLen cont slot t).bind fun d t =>
        .ok ⟨BitVec.ofNat 16 s.desc.pageLen, s.argOff.toNat, d⟩ { t with contOk := true }

/-- The separate extra-info transaction (42_paged.md R142). -/
def readExtra (absPage : Nat) (s : State) : Run (List Byte) :=
  (prologue false s).bind fun _ s =>
  (busSend (Config.seqExtra absPage) s).bind fun _ s => busRecv s.desc.extraLen s

/-- READ_PAGE_EXTRA (42_paged.md R142). -/
def bodyReadPageExtra (cont : Bool) (pwsel : BitVec 2) (s : State) : Run Done :=
  withSlot pwsel fun slot =>
  withWindow (s.desc.pageLen + s.desc.extraLen) s <|
  withCont cont s <|
    if s.desc.flagExtra = false then .raised .capability s
    else if s.pageOk = false then .raised .range s
    else
      (openRead cont slot s.pagePhys s.abandonSp).bind fun _ t =>
      (readBytes s.pagePhys s.desc.pageLen cont slot t).bind fun d t =>
      (readExtra s.pageAbs t).bind fun e t =>
        .ok ⟨BitVec.ofNat 16 s.desc.pageLen, s.argOff.toNat, d ++ e⟩ { t with contOk := false }

/-- The device-CRC page transfer: PAGE_LEN data bytes once the CRC over the covered bytes, the data
and the two CRC bytes is accepted (42_paged.md R143). -/
def readCrcPage (p : Nat) (cont : Bool) (s : State) : Run (List Byte) :=
  (if cont then .ok () s else busSend (Config.seqAutoCrcRead p) s : Run Unit).bind fun _ s =>
  (busRecv (s.desc.pageLen + 2) s).bind fun r s =>
    if crc16 (autoCrcCover s.desc p cont ++ r) 0 ≠ Config.accept16 then .raised .integrity s
    else .ok (r.take s.desc.pageLen) s

/-- READ_PAGE_CRC (42_paged.md R143). -/
def bodyReadPageCrc (cont : Bool) (pwsel : BitVec 2) (s : State) : Run Done :=
  withSlot pwsel fun slot =>
  withWindow s.desc.pageLen s <|
  withCont cont s <|
    if s.desc.flagAutoCrc = false then .raised .capability s
    else if s.pageOk = false then .raised .range s
    else
      (openRead cont slot s.pagePhys s.abandonSp).bind fun _ t =>
      (readCrcPage s.pagePhys cont t).bind fun d t =>
        .ok ⟨BitVec.ofNat 16 s.desc.pageLen, s.argOff.toNat, d⟩ { t with contOk := true }

/-- READ_PAGE_CRC_EXTRA (42_paged.md R144). -/
def bodyReadPageCrcExtra (cont : Bool) (pwsel : BitVec 2) (s : State) : Run Done :=
  withSlot pwsel fun slot =>
  withWindow (s.desc.pageLen + s.desc.extraLen) s <|
  withCont cont s <|
    if s.desc.flagAutoCrc = false ∨ s.desc.flagExtra = false then .raised .capability s
    else if s.pageOk = false then .raised .range s
    else
      (openRead cont slot s.pagePhys s.abandonSp).bind fun _ t =>
      (readCrcPage s.pagePhys cont t).bind fun d t =>
      (readExtra s.pageAbs t).bind fun e t =>
        .ok ⟨BitVec.ofNat 16 s.desc.pageLen, s.argOff.toNat, d ++ e⟩ { t with contOk := false }

/-- READ_PAGE_PACKET (42_paged.md R147). -/
def bodyReadPagePacket (cont : Bool) (pwsel : BitVec 2) (s : State) : Run Done :=
  withSlot pwsel fun slot =>
  withWindow (s.desc.pageLen - 3) s <|
  withCont cont s <|
    if s.pageOk = false then .raised .range s
    else
      (openRead cont slot s.pagePhys s.abandonSp).bind fun _ t =>
      (readBytes s.pagePhys s.desc.pageLen cont slot t).bind fun raw t =>
        match udpDecode s.desc.pageLen s.pageAbs raw with
        | .formatError => .raised .format t
        | .integrityError => .raised .integrity t
        | .payload len ys =>
          .ok ⟨BitVec.ofNat 16 len, s.argOff.toNat, ys⟩ { t with contOk := true }

/-- WRITE_PAGE_PACKET (42_paged.md R148). -/
def bodyWritePagePacket (pwsel : BitVec 2) (s : State) : Run Done :=
  withSlot pwsel fun slot =>
  withInput s.argLen.toNat s fun xs =>
    let t := { s with contOk := false }
    if s.desc.maxPkt < s.argLen.toNat then .raised .format t
    else if s.pageOk = false then .raised .range t
    else
      (writeBytes s.pageAddr (udpEncode s.pageAbs xs) slot t).bind fun _ t =>
        .ok (.plain s.argLen) t

/-- READ_PAGE runs `bodyReadPage` (42_paged.md R141). -/
def execReadPage (cont : Bool) (pwsel : BitVec 2) (s : State) : Host.Outcome State Fault Refusal :=
  .next (s.runCommand .bus (bodyReadPage cont pwsel))

/-- READ_PAGE_EXTRA runs `bodyReadPageExtra` (42_paged.md R142). -/
def execReadPageExtra (cont : Bool) (pwsel : BitVec 2) (s : State) :
    Host.Outcome State Fault Refusal :=
  .next (s.runCommand .bus (bodyReadPageExtra cont pwsel))

/-- READ_PAGE_CRC runs `bodyReadPageCrc` (42_paged.md R143). -/
def execReadPageCrc (cont : Bool) (pwsel : BitVec 2) (s : State) :
    Host.Outcome State Fault Refusal :=
  .next (s.runCommand .bus (bodyReadPageCrc cont pwsel))

/-- READ_PAGE_CRC_EXTRA runs `bodyReadPageCrcExtra` (42_paged.md R144). -/
def execReadPageCrcExtra (cont : Bool) (pwsel : BitVec 2) (s : State) :
    Host.Outcome State Fault Refusal :=
  .next (s.runCommand .bus (bodyReadPageCrcExtra cont pwsel))

/-- READ_PAGE_PACKET runs `bodyReadPagePacket` (42_paged.md R147); its FormatError clears SPEED_OK
(60_exceptions.md R205). -/
def execReadPagePacket (cont : Bool) (pwsel : BitVec 2) (s : State) :
    Host.Outcome State Fault Refusal :=
  .next (s.runCommand .packetRead (bodyReadPagePacket cont pwsel))

/-- WRITE_PAGE_PACKET runs `bodyWritePagePacket` (42_paged.md R148). -/
def execWritePagePacket (pwsel : BitVec 2) (s : State) : Host.Outcome State Fault Refusal :=
  .next (s.runCommand .bus (bodyWritePagePacket pwsel))

end Sys2Proof.Machine
end

