-- ==== Sys2Proof/Machine/Scratchpad.lean ====
section
/-! DEFINITION. The scratchpad and password commands (spec/44_scratchpad.md R183 to R191). -/

namespace Sys2Proof.Machine

/-- The operands SP_WRITE refuses: an empty or oversized stage, one beyond the bank, one that
crosses a scratchpad row (44_scratchpad.md R183). -/
def spWriteOutOfRange (s : State) : Bool :=
  decide (s.argLen.toNat = 0 ∨ s.desc.spSize < s.argLen.toNat ∨
    s.desc.size < s.argAddr.toNat + s.argLen.toNat ∨
    s.desc.spSize < s.argPhys % s.desc.spSize + s.argLen.toNat)

/-- SP_WRITE (44_scratchpad.md R183). -/
def bodySpWrite (s : State) : Run Done :=
  withInput s.argLen.toNat s fun xs =>
    let t := { s with contOk := false }
    if s.desc.spPresent = false then .raised .capability t
    else if spWriteOutOfRange s then .raised .range t
    else (spWriteProc s.argPhys xs t.abandonSp).bind fun _ t => .ok (.plain s.argLen) t

/-- SP_READ_VERIFY (44_scratchpad.md R185). -/
def bodySpReadVerify (s : State) : Run Done :=
  if s.desc.spPresent = true ∧ s.spState ≠ .written then .faulted .seq
  else
    let t := { s with contOk := false }
    if s.desc.spPresent = false then .raised .capability t
    else (spVerifyProc t).bind fun _ t => .ok (.plain (t.spLen.setWidth 16)) t

/-- SP_VERIFY_PASSWORD (44_scratchpad.md R187). -/
def bodySpVerifyPassword (pwsel : BitVec 2) (s : State) : Run Done :=
  withSlot pwsel fun slot =>
  if s.desc.pwGated = true ∧ s.spState ≠ .verified then .faulted .seq
  else
    let t := { s with contOk := false }
    if s.desc.pwGated = false then .raised .capability t
    else
      (prologue false t).bind fun _ t =>
      (challenge slot t.spTA.toNat t).bind fun _ t =>
        .ok (.plain 0) { t with spState := .authed }

/-- SP_COPY (44_scratchpad.md R191). -/
def bodySpCopy (s : State) : Run Done :=
  if s.desc.spPresent = true ∧ s.desc.pwGated = false ∧ s.spState ≠ .verified then .faulted .seq
  else if s.desc.pwGated = true ∧ s.spState ≠ .authed then .faulted .seq
  else
    let t := { s with contOk := false }
    if s.desc.spPresent = false then .raised .capability t
    else (spCopyProc t).bind fun _ t => .ok (.plain (t.spLen.setWidth 16)) t

/-- PW_LOAD (44_scratchpad.md R188). -/
def bodyPwLoad (pwsel : BitVec 2) (s : State) : Run Done :=
  withSlot pwsel fun slot =>
  withInput (slotLen s.desc) s fun xs =>
    if s.desc.pwGated = false then .raised .capability s
    else .ok (.plain 0) { s with pw := s.pw.set slot ⟨xs, true⟩ }

/-- PW_CLEAR (44_scratchpad.md R189). -/
def bodyPwClear (pwsel : BitVec 2) (s : State) : Run Done :=
  withSlot pwsel fun slot =>
    if s.desc.pwGated = false then .raised .capability s
    else .ok (.plain 0) { s with pw := s.pw.set slot (PwEntry.cleared s.desc) }

/-- SP_WRITE runs `bodySpWrite` (44_scratchpad.md R183). -/
def execSpWrite (s : State) : Host.Outcome State Fault Refusal :=
  .next (s.runCommand .bus bodySpWrite)

/-- SP_READ_VERIFY runs `bodySpReadVerify` (44_scratchpad.md R185). -/
def execSpReadVerify (s : State) : Host.Outcome State Fault Refusal :=
  .next (s.runCommand .bus bodySpReadVerify)

/-- SP_VERIFY_PASSWORD runs `bodySpVerifyPassword` (44_scratchpad.md R187). -/
def execSpVerifyPassword (pwsel : BitVec 2) (s : State) : Host.Outcome State Fault Refusal :=
  .next (s.runCommand .bus (bodySpVerifyPassword pwsel))

/-- SP_COPY runs `bodySpCopy` (44_scratchpad.md R191). -/
def execSpCopy (s : State) : Host.Outcome State Fault Refusal :=
  .next (s.runCommand .bus bodySpCopy)

/-- PW_LOAD runs `bodyPwLoad` (44_scratchpad.md R188). -/
def execPwLoad (pwsel : BitVec 2) (s : State) : Host.Outcome State Fault Refusal :=
  .next (s.runCommand .internal (bodyPwLoad pwsel))

/-- PW_CLEAR runs `bodyPwClear` (44_scratchpad.md R189). -/
def execPwClear (pwsel : BitVec 2) (s : State) : Host.Outcome State Fault Refusal :=
  .next (s.runCommand .internal (bodyPwClear pwsel))

end Sys2Proof.Machine
end

