-- ==== Sys2Proof/Machine/Dispatch.lean ====
section
/-! DEFINITION. The meaning of every command, one arm per constructor (spec/30_encoding.md R84). -/

namespace Sys2Proof.Machine

def exec (i : Instr) (s : State) : Host.Outcome State Fault Refusal :=
  match i with
  | .crc8Init => Sys2Proof.Machine.execCrc8Init s
  | .crc8Byte => Sys2Proof.Machine.execCrc8Byte s
  | .crc8Block => Sys2Proof.Machine.execCrc8Block s
  | .crc8Check => Sys2Proof.Machine.execCrc8Check s
  | .crc16Init => Sys2Proof.Machine.execCrc16Init s
  | .crc16Byte => Sys2Proof.Machine.execCrc16Byte s
  | .crc16Block => Sys2Proof.Machine.execCrc16Block s
  | .crc16Check => Sys2Proof.Machine.execCrc16Check s
  | .crc16Emit => Sys2Proof.Machine.execCrc16Emit s
  | .read cont pwsel => Sys2Proof.Machine.execRead cont pwsel s
  | .write pwsel => Sys2Proof.Machine.execWrite pwsel s
  | .forceVerify => Sys2Proof.Machine.execForceVerify s
  | .readPage cont pwsel => Sys2Proof.Machine.execReadPage cont pwsel s
  | .readPageExtra cont pwsel => Sys2Proof.Machine.execReadPageExtra cont pwsel s
  | .readPageCrc cont pwsel => Sys2Proof.Machine.execReadPageCrc cont pwsel s
  | .readPageCrcExtra cont pwsel => Sys2Proof.Machine.execReadPageCrcExtra cont pwsel s
  | .readPagePacket cont pwsel => Sys2Proof.Machine.execReadPagePacket cont pwsel s
  | .writePagePacket pwsel => Sys2Proof.Machine.execWritePagePacket pwsel s
  | .lockPage => Sys2Proof.Machine.execLockPage s
  | .isPageLocked => Sys2Proof.Machine.execIsPageLocked s
  | .redirectPage => Sys2Proof.Machine.execRedirectPage s
  | .getRedirectedPage => Sys2Proof.Machine.execGetRedirectedPage s
  | .lockRedirectPage => Sys2Proof.Machine.execLockRedirectPage s
  | .isRedirectPageLocked => Sys2Proof.Machine.execIsRedirectPageLocked s
  | .spWrite => Sys2Proof.Machine.execSpWrite s
  | .spReadVerify => Sys2Proof.Machine.execSpReadVerify s
  | .spVerifyPassword pwsel => Sys2Proof.Machine.execSpVerifyPassword pwsel s
  | .spCopy => Sys2Proof.Machine.execSpCopy s
  | .pwLoad pwsel => Sys2Proof.Machine.execPwLoad pwsel s
  | .pwClear pwsel => Sys2Proof.Machine.execPwClear pwsel s

end Sys2Proof.Machine
end

