-- ==== Sys2Proof/Machine/Window.lean ====
section
/-! DEFINITION. A command seen from inside its BUSY window (spec/10_state.md R24, R25;
spec/60_exceptions.md R202, R211; spec/70_reset_and_hazards.md R233, R245): the rule a command runs
and how its errors act, as functions of the command, so that a run can be cut off at any of its bus
events. `Sys2Proof.Machine.exec` runs the same rules to their end (Laws/Commands.lean). -/

namespace Sys2Proof.Machine

/-- The rule a command runs (30_encoding.md R84, last column). -/
def commandBody (i : Instr) : State → Run Done :=
  match i with
  | .crc8Init => bodyCrc8Init
  | .crc8Byte => bodyCrc8Byte
  | .crc8Block => bodyCrc8Block
  | .crc8Check => bodyCrc8Check
  | .crc16Init => bodyCrc16Init
  | .crc16Byte => bodyCrc16Byte
  | .crc16Block => bodyCrc16Block
  | .crc16Check => bodyCrc16Check
  | .crc16Emit => bodyCrc16Emit
  | .read cont pwsel => bodyRead cont pwsel
  | .write pwsel => bodyWrite pwsel
  | .forceVerify => bodyForceVerify
  | .readPage cont pwsel => bodyReadPage cont pwsel
  | .readPageExtra cont pwsel => bodyReadPageExtra cont pwsel
  | .readPageCrc cont pwsel => bodyReadPageCrc cont pwsel
  | .readPageCrcExtra cont pwsel => bodyReadPageCrcExtra cont pwsel
  | .readPagePacket cont pwsel => bodyReadPagePacket cont pwsel
  | .writePagePacket pwsel => bodyWritePagePacket pwsel
  | .lockPage => bodyLockPage
  | .isPageLocked => bodyIsPageLocked
  | .redirectPage => bodyRedirectPage
  | .getRedirectedPage => bodyGetRedirectedPage
  | .lockRedirectPage => bodyLockRedirectPage
  | .isRedirectPageLocked => bodyIsRedirectPageLocked
  | .spWrite => bodySpWrite
  | .spReadVerify => bodySpReadVerify
  | .spVerifyPassword pwsel => bodySpVerifyPassword pwsel
  | .spCopy => bodySpCopy
  | .pwLoad pwsel => bodyPwLoad pwsel
  | .pwClear pwsel => bodyPwClear pwsel

/-- How the errors of a command act on the flags (60_exceptions.md R204, R205). -/
def commandClass (i : Instr) : CommandClass :=
  match i with
  | .crc8Init => .internal
  | .crc8Byte => .internal
  | .crc8Block => .internal
  | .crc8Check => .internal
  | .crc16Init => .internal
  | .crc16Byte => .internal
  | .crc16Block => .internal
  | .crc16Check => .internal
  | .crc16Emit => .internal
  | .read _ _ => .bus
  | .write _ => .bus
  | .forceVerify => .internal
  | .readPage _ _ => .bus
  | .readPageExtra _ _ => .bus
  | .readPageCrc _ _ => .bus
  | .readPageCrcExtra _ _ => .bus
  | .readPagePacket _ _ => .packetRead
  | .writePagePacket _ => .bus
  | .lockPage => .bus
  | .isPageLocked => .bus
  | .redirectPage => .bus
  | .getRedirectedPage => .bus
  | .lockRedirectPage => .bus
  | .isRedirectPageLocked => .bus
  | .spWrite => .bus
  | .spReadVerify => .bus
  | .spVerifyPassword _ => .bus
  | .spCopy => .bus
  | .pwLoad _ => .internal
  | .pwClear _ => .internal

/-- The machine at a point of a running command: point 0 is right after BUSY is set, point k + 1 is
where the command has made k bus events and would make one more (notes/assumptions/8.md). A command
that ends before that point is seen after its end, BUSY 0. -/
def State.midCommand (i : Instr) (point : Nat) (s : State) : State :=
  match point with
  | 0 => s.start none
  | k + 1 => s.runWith (some k) (commandClass i) (commandBody i)

end Sys2Proof.Machine
end

