-- ==== Sys2Proof/Machine/HostPort.lean ====
section
/-! DEFINITION. The host interface (spec/10_state.md R20 to R28; spec/60_exceptions.md R210 to
R212, R220; spec/30_encoding.md R87): the register file, the DBUF port, the CMD write, reset, and
the accesses that land while a command runs. -/

namespace Sys2Proof.Machine

/-- The low `n` bits of a parameter, as a descriptor register shows it (10_state.md R20, R21). -/
def descField (n v : Nat) : Word := (BitVec.ofNat n v).setWidth 32

/-- A host read of register `n` (10_state.md R20, R21): no side effect; CMD and the numbers above
0x18 read 0. -/
def State.readReg (s : State) (n : Nat) : Word :=
  match n with
  | 0x01 => s.statusWord
  | 0x02 => s.result.setWidth 32
  | 0x03 => s.argAddr.setWidth 32
  | 0x04 => s.argLen.setWidth 32
  | 0x05 => s.argOff.setWidth 32
  | 0x06 => s.argPage.setWidth 32
  | 0x07 => s.argPage2.setWidth 32
  | 0x08 => s.argSeed.setWidth 32
  | 0x09 => s.argByte.setWidth 32
  | 0x0A => (BitVec.ofBool s.verify).setWidth 32
  | 0x0B => s.acc8.setWidth 32
  | 0x0C => s.acc16.setWidth 32
  | 0x0D => descField 17 s.desc.size
  | 0x0E => descField 9 s.desc.pageLen
  | 0x0F => descField 17 s.desc.pageCount
  | 0x10 => descField 8 s.desc.maxPkt
  | 0x11 => capsWord s.desc
  | 0x12 => descField 8 s.desc.extraLen
  | 0x13 => descField 9 (if s.desc.spPresent then s.desc.spSize else 0)
  | 0x14 => descField 8 (slotLen s.desc)
  | 0x15 => descField 16 s.desc.physOff
  | 0x16 => s.spTA.setWidth 32
  | 0x17 => s.spLen.setWidth 32
  | 0x18 => s.spES.setWidth 32
  | _ => 0

/-- A host write of a register other than CMD (10_state.md R20, R21): the reserved bits, the
registers marked R and the numbers above 0x18 ignore it. -/
def State.writeReg (s : State) (n : Nat) (v : Word) : State :=
  match n with
  | 0x03 => { s with argAddr := v.setWidth 16 }
  | 0x04 => { s with argLen := v.setWidth 16 }
  | 0x05 => { s with argOff := v.setWidth 16 }
  | 0x06 => { s with argPage := v.setWidth 16 }
  | 0x07 => { s with argPage2 := v.setWidth 16 }
  | 0x08 => { s with argSeed := v.setWidth 16 }
  | 0x09 => { s with argByte := v.setWidth 8 }
  | 0x0A => { s with verify := v.getLsbD 0 }
  | _ => s

/-- A host read of the DBUF port (60_exceptions.md R220): 0 beyond the end; an unmarked byte reads
a free value, a fresh one at each read. -/
def State.readPort (s : State) (i : Nat) : Word :=
  if i < s.desc.dbufSize then
    ((s.dbuf.read i).getD (Config.freePortByte s.hostOut.length)).setWidth 32
  else 0

/-- A host write of the DBUF port (60_exceptions.md R220): ignored beyond the end. -/
def State.writePort (s : State) (i : Nat) (b : Byte) : State :=
  if i < s.desc.dbufSize then { s with dbuf := s.dbuf.write i b } else s

/-- Returns a value to the host. -/
def State.answerHost (s : State) (v : Word) : State := { s with hostOut := s.hostOut ++ [v] }

/-- Latches F_BUSY, unless the machine is faulted already (60_exceptions.md R211). -/
def State.latchBusy (s : State) : State :=
  if s.fault = none then { s with fault := some .busy } else s

/-- A CMD write that is not ignored: the command runs, or the illegal word faults F_ILLEGAL
(30_encoding.md R85, R87). -/
def commandWrite (w : Word) (s : State) : Host.Outcome State Fault Refusal :=
  match decode w with
  | .ok i => exec i s
  | .error _ => .next (s.takeFault .illegal)

/-- A host write: ignored while FAULT is not 0 (60_exceptions.md R212); ignored, and F_BUSY
latched, while BUSY is 1 (30_encoding.md R87, notes/assumptions/13.md); else done. -/
def hostWrite (write : State → Host.Outcome State Fault Refusal) (s : State) :
    Host.Outcome State Fault Refusal :=
  if s.fault ≠ none then .next s
  else if s.busy then .next s.latchBusy
  else write s

/-- One host operation between commands (60_exceptions.md R220). -/
def hostOp (o : HostOp) (s : State) : Host.Outcome State Fault Refusal :=
  match o with
  | .regRead n => .next (s.answerHost (s.readReg n))
  | .regWrite 0 w => hostWrite (commandWrite w) s
  | .regWrite (n + 1) v => hostWrite (fun s => .next (s.writeReg (n + 1) v)) s
  | .dbufRead i => .next (s.answerHost (s.readPort i))
  | .dbufWrite i b => hostWrite (fun s => .next (s.writePort i b)) s
  | .reset => .next s.resetMachine

/-- The end of a command in whose window the host wrote: FAULT is F_BUSY, unless the command itself
faulted (60_exceptions.md R211). -/
def State.endWindow (i : Instr) (wrote : Bool) (s : State) : State :=
  if wrote then (s.runCommand (commandClass i) (commandBody i)).latchBusy
  else s.runCommand (commandClass i) (commandBody i)

/-- Puts operations that did not land in the window before the pending ones. -/
def State.requeue (ops : List (Nat × HostOp)) (s : State) : State :=
  { s with host := ops.map (fun e => HostInput.op e.2) ++ s.host }

/-- Runs command `i` from `s` with the host operations that land in its BUSY window, each so many
points after the one before (10_state.md R25; 60_exceptions.md R211, R212; 70_reset_and_hazards.md
R233): a read answers from the running machine, a write is ignored and remembered, a reset ends the
command with the bus events it has made. An operation that comes after the command's end is an
ordinary one. -/
def windowRun (i : Instr) : Nat → Bool → List (Nat × HostOp) → State → State
  | _, wrote, [], s => s.endWindow i wrote
  | point, wrote, (delay, o) :: rest, s =>
    let mid := s.midCommand i (point + delay)
    if mid.busy then
      match o with
      | .regRead n => windowRun i (point + delay) wrote rest (s.answerHost (mid.readReg n))
      | .dbufRead j => windowRun i (point + delay) wrote rest (s.answerHost (mid.readPort j))
      | .regWrite _ _ => windowRun i (point + delay) true rest s
      | .dbufWrite _ _ => windowRun i (point + delay) true rest s
      | .reset => mid.resetMachine.requeue rest
    else (s.endWindow i wrote).requeue ((delay, o) :: rest)

/-- A CMD write with the operations that land while its command runs; where no command starts
(30_encoding.md R87), they are ordinary ones. -/
def commandDuring (w : Word) (landing : List (Nat × HostOp)) (s : State) :
    Host.Outcome State Fault Refusal :=
  if s.fault ≠ none then .next (s.requeue landing)
  else if s.busy then .next (s.latchBusy.requeue landing)
  else
    match decode w with
    | .ok i => .next (windowRun i 0 false landing s)
    | .error _ => .next ((s.takeFault .illegal).requeue landing)

end Sys2Proof.Machine
end

