-- ==== Sys2Proof/Machine/Step.lean ====
section
/-! DEFINITION. One step of the machine: one host operation (spec/60_exceptions.md R220). The
pending operations stand in the state; a CMD write runs its whole command. -/

namespace Sys2Proof.Machine

/-- One host input is taken and carried out; with none pending nothing happens
(notes/assumptions/5.md). -/
def step (s : State) : Host.Outcome State Fault Refusal :=
  match s.host with
  | [] => .next s
  | .op o :: rest => hostOp o { s with host := rest }
  | .during w landing :: rest => commandDuring w landing { s with host := rest }

/-- The state in which the next host operation is the CMD write of the table row's bits: the MTE
fetches no instruction (20_memory.md R77), commands arrive as CMD writes. -/
def State.withFetchWord (s : State) (nbits w : Nat) : State :=
  { s with host := .op (.regWrite 0 (BitVec.ofNat 32 (w % 2 ^ nbits))) :: s.host }

end Sys2Proof.Machine
end

