-- ==== Sys2Proof/Safety.lean ====
section
/-! DEFINITION. The terms claims are stated in: the invariant of a machine that was built and reset
(spec/10_state.md R33, R34, R39; spec/44_scratchpad.md R180), the frames of a command, the answers
a command needs from the bus to complete, the events it makes then, and the commands by what they
may change. -/

namespace Sys2Proof.Machine

/-! ### The invariant -/

/-- A password slot is as 10_state.md R39 says: PW_LEN bytes, all zero while PW_SET is 0. -/
structure PwEntry.Ok (d : Descriptor) (e : PwEntry) : Prop where
  length : e.bytes.length = slotLen d
  clear : e.loaded = false → e = PwEntry.cleared d

/-- What holds of every machine that was built and reset, between two host operations. -/
structure State.Inv (s : State) : Prop where
  /-- the instance is well formed (00_scope.md R6) -/
  desc_wf : s.desc.WF
  /-- no command runs between steps (10_state.md R24) -/
  not_busy : s.busy = false
  /-- the model looks into no BUSY window between steps (notes/assumptions/8.md) -/
  no_limit : s.bus.limit = none
  /-- DBUF keeps its canonical form -/
  dbuf_wf : s.dbuf.wf
  /-- and has no byte beyond its size (10_state.md R28) -/
  dbuf_bound : ∀ c ∈ s.dbuf, c.1 < s.desc.dbufSize
  /-- CONT_OK = 1 implies SPEED_OK = 1 (10_state.md R33) -/
  cont_speed : s.contOk = true → s.speedOk = true
  /-- a bank without a scratchpad stays IDLE (44_scratchpad.md R180) -/
  idle_without_scratchpad : s.desc.spPresent = false → s.spState = .idle
  /-- AUTHED is held on password-gated banks only (10_state.md R34) -/
  authed_gated : s.spState = .authed → s.desc.pwGated = true
  /-- SPBUF has SP_SIZE bytes (10_state.md R37) -/
  spBuf_length : s.spBuf.length = s.desc.spSize
  /-- SP_LEN is at most SP_SIZE (10_state.md R36) -/
  spLen_le : s.spLen.toNat ≤ s.desc.spSize
  /-- an open transaction has staged a byte (10_state.md R36) -/
  open_staged : s.spState.isOpen = true → 1 ≤ s.spLen.toNat
  /-- the password slots (10_state.md R39) -/
  pw_readOnly : s.pw.readOnly.Ok s.desc
  pw_readWrite : s.pw.readWrite.Ok s.desc
  pw_writeOnly : s.pw.writeOnly.Ok s.desc

/-! ### Frames -/

/-- What only construction and the host write: the descriptor, ARG_*, CTRL (10_state.md R23, R27;
00_scope.md R3), and the inputs of the model. -/
structure SameHostSide (s t : State) : Prop where
  desc : t.desc = s.desc
  argAddr : t.argAddr = s.argAddr
  argLen : t.argLen = s.argLen
  argOff : t.argOff = s.argOff
  argPage : t.argPage = s.argPage
  argPage2 : t.argPage2 = s.argPage2
  argSeed : t.argSeed = s.argSeed
  argByte : t.argByte = s.argByte
  verify : t.verify = s.verify
  host : t.host = s.host
  hostOut : t.hostOut = s.hostOut
  bools : t.bus.bools = s.bus.bools
  bytes : t.bus.bytes = s.bus.bytes

/-- The CRC accumulators are unchanged (40_crc.md R114). -/
structure SameAccumulators (s t : State) : Prop where
  acc8 : t.acc8 = s.acc8
  acc16 : t.acc16 = s.acc16

/-- The staged transaction's registers are unchanged (10_state.md R35 to R38). -/
structure SameStaged (s t : State) : Prop where
  spTA : t.spTA = s.spTA
  spLen : t.spLen = s.spLen
  spES : t.spES = s.spES
  spBuf : t.spBuf = s.spBuf

/-- The bus flags and the FSM state are unchanged. -/
structure SameBusFlags (s t : State) : Prop where
  speedOk : t.speedOk = s.speedOk
  contOk : t.contOk = s.contOk
  spState : t.spState = s.spState

/-- No bus event happened and no answer was drawn. -/
structure NoBusEvent (s t : State) : Prop where
  trace : t.bus.trace = s.bus.trace
  nBool : t.bus.nBool = s.bus.nBool
  nByte : t.bus.nByte = s.bus.nByte

/-- Every DBUF byte reads as before, marks included. -/
def SameDbuf (s t : State) : Prop := ∀ a, t.dbuf.read a = s.dbuf.read a

/-- DBUF holds `xs` from `off` on and every other byte reads as before. -/
def DbufHolds (s t : State) (off : Nat) (xs : List Byte) : Prop :=
  ∀ a, t.dbuf.read a =
    if off ≤ a ∧ a < off + xs.length then xs[a - off]? else s.dbuf.read a

/-- The command ended with `finish(v)` (60_exceptions.md R203). -/
structure FinishedWith (s t : State) (v : Half) : Prop where
  result : t.result = v
  err : t.err = none
  busy : t.busy = false
  fault : t.fault = s.fault

/-- The command ended with `raise E` (60_exceptions.md R204, steps 1 to 3 and 6). -/
structure RaisedWith (s t : State) (e : Err) : Prop where
  result : t.result = 0
  err : t.err = some e
  busy : t.busy = false
  fault : t.fault = s.fault
  dbuf : SameDbuf s t

/-- A read command finished: RESULT `v`, `data` in DBUF at ARG_OFF, CONT_OK as given, the speed
confirmed, an open scratchpad transaction given up; nothing else changed. -/
structure ReadFinished (s t : State) (v : Half) (data : List Byte) (contOk : Bool) : Prop where
  finished : FinishedWith s t v
  dbuf : DbufHolds s t s.argOff.toNat data
  contOk : t.contOk = contOk
  speedOk : t.speedOk = true
  spState : t.spState = s.spState.abandon
  hostSide : SameHostSide s t
  accumulators : SameAccumulators s t
  staged : SameStaged s t
  pw : t.pw = s.pw

/-- A bus command that moves no DBUF byte and stages nothing finished: RESULT `v`, CONT_OK 0,
SPEED_OK as given, an open scratchpad transaction given up; nothing else changed. -/
structure QuietFinished (s t : State) (v : Half) (speedOk : Bool) : Prop where
  finished : FinishedWith s t v
  dbuf : SameDbuf s t
  contOk : t.contOk = false
  speedOk : t.speedOk = speedOk
  spState : t.spState = s.spState.abandon
  hostSide : SameHostSide s t
  accumulators : SameAccumulators s t
  staged : SameStaged s t
  pw : t.pw = s.pw

/-- The state of a finish with `v` of a command that makes no bus event and writes no DBUF byte:
what else it wrote stands in `s` (60_exceptions.md R203). -/
def plainFinish (v : Half) (s : State) : State :=
  { s with result := v, err := none, busy := false, bus := { s.bus with limit := none } }

/-- The state of a raise of `e` before any bus event: what else the command wrote, and what the
error does to the flags, stands in `s` (60_exceptions.md R204). -/
def plainRaise (e : Err) (s : State) : State :=
  { s with result := 0, err := some e, busy := false, bus := { s.bus with limit := none } }

/-- A raise of `e`, one of the errors that leave SPEED_OK, by a bus command before any bus event
(60_exceptions.md R204 to R206). -/
def earlyRaise (e : Err) (s : State) : State :=
  plainRaise e { s with contOk := false, spState := s.spState.abandon }

/-- The state a fault leaves (60_exceptions.md R210). -/
def plainFault (f : FaultCode) (s : State) : State := { s with fault := some f, busy := false }

/-- A bus command ended with an error that clears SPEED_OK (60_exceptions.md R204, R205). -/
structure DirtyRaise (s t : State) (e : Err) : Prop where
  raised : RaisedWith s t e
  speedOk : t.speedOk = false
  contOk : t.contOk = false
  hostSide : SameHostSide s t
  accumulators : SameAccumulators s t
  pw : t.pw = s.pw

/-! ### The host interface -/

/-- The OPC values of the opcode map (30_encoding.md R84). -/
def assignedOpcodes : List (BitVec 8) :=
  [0x01, 0x02, 0x03, 0x04, 0x08, 0x09, 0x0A, 0x0B, 0x0C, 0x10, 0x11, 0x1F, 0x20, 0x21, 0x22, 0x23,
   0x24, 0x25, 0x30, 0x31, 0x32, 0x33, 0x34, 0x35, 0x40, 0x41, 0x42, 0x43, 0x44, 0x45]

/-- The OPC values that allow CONT (30_encoding.md R81, R84). -/
def contOpcodes : List (BitVec 8) := [0x10, 0x20, 0x21, 0x22, 0x23, 0x24]

/-- The OPC values that use PWSEL (30_encoding.md R82, R84). -/
def pwselOpcodes : List (BitVec 8) :=
  [0x10, 0x11, 0x20, 0x21, 0x22, 0x23, 0x24, 0x25, 0x42, 0x44, 0x45]

/-- The bits of each register that are not reserved (10_state.md R21, R22, R40). -/
def usedBits (n : Nat) : Word :=
  [0, 0x7FF77, 0xFFFF, 0xFFFF, 0xFFFF, 0xFFFF, 0xFFFF, 0xFFFF, 0xFFFF, 0xFF, 1, 0xFF, 0xFFFF,
   0x1FFFF, 0x1FF, 0x1FFFF, 0xFF, 0x1FFFF, 0xFF, 0x1FF, 0xFF, 0xFFFF, 0xFFFF, 0x1FF, 0xFF].getD n 0

/-! ### The operands and answers a command needs -/

/-- The input window of `n` bytes at ARG_OFF is legal, its marks are set, and it holds `xs`
(20_memory.md R64, 10_state.md R29). -/
abbrev State.inputIs (s : State) (n : Nat) (xs : List Byte) : Prop :=
  s.argOff.toNat + n ≤ s.desc.dbufSize ∧ xs.length = n ∧
    ∀ k < xs.length, s.dbuf.read (s.argOff.toNat + k) = xs[k]?

/-- The bank can be written (41_bank.md R124). -/
abbrev Writable (d : Descriptor) : Prop :=
  d.flagRO = false ∧ (d.flagRW = true ∨ d.flagWO = true)

/-- The next `n` Boolean answers of the bus are all yes. -/
abbrev Bus.yes (b : Bus) (n : Nat) : Prop := ∀ k < n, b.boolAnswer (b.nBool + k) = true

/-- The `n` Boolean answers of the bus from the `q`-th on are all yes. -/
abbrev Bus.yesFrom (b : Bus) (q n : Nat) : Prop := ∀ k < n, b.boolAnswer (q + k) = true

/-- The `n` bytes the bus answers after the next `k`. -/
def Bus.bytesAfter (b : Bus) (k n : Nat) : List Byte := b.byteAnswers (b.nByte + k) n

/-- How many Boolean answers a prologue draws that finds the speed confirmed or not
(41_bank.md R120). -/
def asksOf (speedOk : Bool) : Nat := if speedOk then 1 else 2

/-- How many Boolean answers a prologue draws (41_bank.md R120). -/
def State.prologueAsks (s : State) : Nat := if s.speedOk then 1 else 2

/-- How many Boolean answers the opening of a read draws (41_bank.md R120, R121). -/
def State.openAsks (cont : Bool) (s : State) : Nat :=
  if cont then 0 else s.prologueAsks + s.desc.pwGated.toNat

/-- How many bytes the opening of a read draws: the answer to a challenge (41_bank.md R121). -/
def State.openBytes (cont : Bool) (s : State) : Nat := (!cont && s.desc.pwGated).toNat

/-- The opening of a read succeeds: the device is there and selected, power can be delivered and
the password is accepted, as far as the bank asks (41_bank.md R121, 44_scratchpad.md R186). -/
abbrev State.readOpens (cont : Bool) (s : State) : Prop :=
  s.bus.yes (s.openAsks cont) ∧
  (s.openBytes cont = 1 → s.bus.byteAnswer s.bus.nByte = s.desc.pwAccept)

/-- The read takes a block at its first attempt: the bank does not poll, or the block is empty or
not all 0xFF (41_bank.md R122). -/
abbrev takenAtOnce (d : Descriptor) (block : List Byte) : Prop :=
  d.busyPoll = false ∨ block = [] ∨ ∃ b ∈ block, b ≠ 0xFF

/-- The block a polling read ends with: the first of at most `left + 1` blocks that is not all
0xFF, or the last (41_bank.md R122). -/
def pollPick (b : Bus) (k n : Nat) : Nat → List Byte
  | 0 => b.byteAnswers k n
  | left + 1 =>
    if 0 < n ∧ (b.byteAnswers k n).all (· == 0xFF) = true then pollPick b (k + n) n left
    else b.byteAnswers k n

/-- The start checks of a command that reads into a DBUF window of `n` bytes (R85 d, 20_memory.md
R64, 10_state.md R32). -/
abbrev State.readStarts (cont : Bool) (pwsel : BitVec 2) (n : Nat) (s : State) : Prop :=
  pwsel ≠ 3 ∧ s.argOff.toNat + n ≤ s.desc.dbufSize ∧ (cont = true → s.contOk = true)

/-- The header bytes of a scratchpad read-back (44_scratchpad.md R184). -/
def hdrLen (d : Descriptor) : Nat := if d.spAddr then 3 else 0
/-- The CRC bytes of a scratchpad read-back (44_scratchpad.md R184). -/
def crcLen (d : Descriptor) : Nat := if d.spCrc then 2 else 0

/-- The device CRC over the read-back of `n` bytes answered from the k-th byte on is accepted, where
the bank has one (44_scratchpad.md R184). -/
abbrev State.crcReadsBack (s : State) (k n : Nat) : Prop :=
  s.desc.spCrc = true →
    crc16 (s.desc.cmdRS :: s.bus.byteAnswers k (hdrLen s.desc) ++
      s.bus.byteAnswers (k + hdrLen s.desc) n ++
      s.bus.byteAnswers (k + hdrLen s.desc + n) (crcLen s.desc)) 0 = 0xB001

/-- The bytes answered from the k-th on are a good read-back of `xs` staged for `ta`
(44_scratchpad.md R184). -/
abbrev State.readsBack (s : State) (k : Nat) (ta : Half) (xs : List Byte) : Prop :=
  s.crcReadsBack k xs.length ∧
  (s.desc.spAddr = true →
    s.bus.byteAnswer k = ta.setWidth 8 ∧ s.bus.byteAnswer (k + 1) = (ta >>> 8).setWidth 8 ∧
    esCount s.desc ta (s.bus.byteAnswer (k + 2)) = xs.length) ∧
  s.bus.byteAnswers (k + hdrLen s.desc) xs.length = xs

/-- The device CRC over the read-back of SP_READ_VERIFY is accepted, where the bank has one
(44_scratchpad.md R184). -/
abbrev State.backCrcOk (s : State) : Prop :=
  s.desc.spCrc = true →
    crc16 (s.desc.cmdRS :: s.bus.bytesAfter 0 (hdrLen s.desc) ++
      s.bus.bytesAfter (hdrLen s.desc) s.spLen.toNat ++
      s.bus.bytesAfter (hdrLen s.desc + s.spLen.toNat) (crcLen s.desc)) 0 = 0xB001

/-- The echo that SP_READ_VERIFY reads back is that of the staged transaction, target bytes and
byte count, where the bank has one (44_scratchpad.md R184). -/
abbrev State.backEchoOk (s : State) : Prop :=
  s.desc.spAddr = true →
    s.bus.byteAnswer s.bus.nByte = s.spTA.setWidth 8 ∧
    s.bus.byteAnswer (s.bus.nByte + 1) = (s.spTA >>> 8).setWidth 8 ∧
    esCount s.desc s.spTA (s.bus.byteAnswer (s.bus.nByte + 2)) = s.spLen.toNat

/-- The data that SP_READ_VERIFY reads back are the staged bytes (44_scratchpad.md R184). -/
abbrev State.backDataOk (s : State) : Prop :=
  s.bus.bytesAfter (hdrLen s.desc) s.spLen.toNat = s.spBuf.take s.spLen.toNat

/-- The device's page CRC accepts the answered bytes (42_paged.md R143). -/
abbrev State.pageCrcAccepted (cont : Bool) (s : State) : Prop :=
  crc16 (autoCrcCover s.desc s.pagePhys cont ++
    s.bus.bytesAfter (s.openBytes cont) (s.desc.pageLen + 2)) 0 = 0xB001

/-! ### Commands by what they may change -/

/-- The bus commands of 60_exceptions.md R204. -/
def isBus : Instr → Bool
  | .read _ _ | .write _ | .readPage _ _ | .readPageExtra _ _ | .readPageCrc _ _ => true
  | .readPageCrcExtra _ _ | .readPagePacket _ _ | .writePagePacket _ => true
  | .lockPage | .isPageLocked | .redirectPage | .getRedirectedPage => true
  | .lockRedirectPage | .isRedirectPageLocked => true
  | .spWrite | .spReadVerify | .spVerifyPassword _ | .spCopy => true
  | .crc8Init | .crc8Byte | .crc8Block | .crc8Check => false
  | .crc16Init | .crc16Byte | .crc16Block | .crc16Check | .crc16Emit => false
  | .forceVerify | .pwLoad _ | .pwClear _ => false

/-- The CRC family (30_encoding.md R84). -/
def isCrc : Instr → Bool
  | .crc8Init | .crc8Byte | .crc8Block | .crc8Check => true
  | .crc16Init | .crc16Byte | .crc16Block | .crc16Check | .crc16Emit => true
  | .read _ _ | .write _ | .readPage _ _ | .readPageExtra _ _ | .readPageCrc _ _ => false
  | .readPageCrcExtra _ _ | .readPagePacket _ _ | .writePagePacket _ => false
  | .lockPage | .isPageLocked | .redirectPage | .getRedirectedPage => false
  | .lockRedirectPage | .isRedirectPageLocked => false
  | .spWrite | .spReadVerify | .spVerifyPassword _ | .spCopy => false
  | .forceVerify | .pwLoad _ | .pwClear _ => false

/-- The four commands whose finish makes a continued read legal (10_state.md R32). -/
def setsCont : Instr → Bool
  | .read _ _ | .readPage _ _ | .readPageCrc _ _ | .readPagePacket _ _ => true
  | .readPageExtra _ _ | .readPageCrcExtra _ _ | .write _ | .writePagePacket _ => false
  | .lockPage | .isPageLocked | .redirectPage | .getRedirectedPage => false
  | .lockRedirectPage | .isRedirectPageLocked => false
  | .spWrite | .spReadVerify | .spVerifyPassword _ | .spCopy => false
  | .crc8Init | .crc8Byte | .crc8Block | .crc8Check => false
  | .crc16Init | .crc16Byte | .crc16Block | .crc16Check | .crc16Emit => false
  | .forceVerify | .pwLoad _ | .pwClear _ => false

/-- The commands that write through `WriteBytes` (41_bank.md R126). -/
def writesBank : Instr → Bool
  | .write _ | .writePagePacket _ => true
  | .read _ _ | .readPage _ _ | .readPageExtra _ _ | .readPageCrc _ _ => false
  | .readPageCrcExtra _ _ | .readPagePacket _ _ => false
  | .lockPage | .isPageLocked | .redirectPage | .getRedirectedPage => false
  | .lockRedirectPage | .isRedirectPageLocked => false
  | .spWrite | .spReadVerify | .spVerifyPassword _ | .spCopy => false
  | .crc8Init | .crc8Byte | .crc8Block | .crc8Check => false
  | .crc16Init | .crc16Byte | .crc16Block | .crc16Check | .crc16Emit => false
  | .forceVerify | .pwLoad _ | .pwClear _ => false

/-- The three one-way OTP transitions (43_otp.md R161, R163, R165). -/
def mutatesOtp : Instr → Bool
  | .lockPage | .redirectPage | .lockRedirectPage => true
  | .isPageLocked | .getRedirectedPage | .isRedirectPageLocked => false
  | .read _ _ | .write _ | .readPage _ _ | .readPageExtra _ _ | .readPageCrc _ _ => false
  | .readPageCrcExtra _ _ | .readPagePacket _ _ | .writePagePacket _ => false
  | .spWrite | .spReadVerify | .spVerifyPassword _ | .spCopy => false
  | .crc8Init | .crc8Byte | .crc8Block | .crc8Check => false
  | .crc16Init | .crc16Byte | .crc16Block | .crc16Check | .crc16Emit => false
  | .forceVerify | .pwLoad _ | .pwClear _ => false

/-- How many DBUF bytes from ARG_OFF a command may write (30_encoding.md R86, output windows). -/
def outputWindow (i : Instr) (s : State) : Nat :=
  match i with
  | .crc16Emit => 2
  | .read _ _ => s.argLen.toNat
  | .readPage _ _ | .readPageCrc _ _ => s.desc.pageLen
  | .readPageExtra _ _ | .readPageCrcExtra _ _ => s.desc.pageLen + s.desc.extraLen
  | .readPagePacket _ _ => s.desc.pageLen - 3
  | .write _ | .writePagePacket _ => 0
  | .lockPage | .isPageLocked | .redirectPage | .getRedirectedPage => 0
  | .lockRedirectPage | .isRedirectPageLocked => 0
  | .spWrite | .spReadVerify | .spVerifyPassword _ | .spCopy => 0
  | .crc8Init | .crc8Byte | .crc8Block | .crc8Check => 0
  | .crc16Init | .crc16Byte | .crc16Block | .crc16Check => 0
  | .forceVerify | .pwLoad _ | .pwClear _ => 0

/-! ### What the bus carries

The events of the shared procedures where every question is answered yes, and the checks their
answers must pass, as the rules write them. -/

/-- The events a step added to the history are `es`. -/
def AddedEvents (s t : State) (es : List BusEvent) : Prop := t.bus.trace = s.bus.trace ++ es

/-- An event that can carry a commit sequence: a pulse behind two bytes or more. CMD_CS and
CS_VALID are always in it (44_scratchpad.md R190); a challenge's pulse carries one byte (R186). -/
def BusEvent.isLongPulse : BusEvent → Bool
  | .sendPulse xs _ => decide (2 ≤ xs.length)
  | .select _ _ | .send _ | .recv _ _ | .sendProgram _ => false
  | .canDeliverPower _ | .canProgramPulse _ | .doSpeed _ | .isPresent _ | .sleep _ => false

/-- A receive (00_scope.md R10). -/
def BusEvent.isRecv : BusEvent → Bool
  | .recv _ _ => true
  | .select _ _ | .send _ | .sendPulse _ _ | .sendProgram _ => false
  | .canDeliverPower _ | .canProgramPulse _ | .doSpeed _ | .isPresent _ | .sleep _ => false

/-- The bytes `xs` come in while as many 0xFF are driven out (00_scope.md R10). -/
def received (xs : List Byte) : BusEvent := .recv (List.replicate xs.length 0xFF) xs

/-- A device physical address, low byte first (20_memory.md R66). -/
def targetBytes (ta : Nat) : List Byte := [BitVec.ofNat 8 ta, BitVec.ofNat 8 (ta / 256)]

/-- `Prologue(0)` (41_bank.md R120). -/
def prologueEvents (d : Descriptor) (speedOk : Bool) : List BusEvent :=
  (if speedOk then [] else [.doSpeed true]) ++ [.select d.devAddr true]

/-- `Prologue(0)` that fails: the speed is not confirmed, `first` being the answer to that question,
or the device is not selected (41_bank.md R120). -/
def failedPrologue (d : Descriptor) (speedOk first : Bool) : List BusEvent :=
  if speedOk then [.select d.devAddr false]
  else if first then [.doSpeed true, .select d.devAddr false]
  else [.doSpeed false]

/-- `Challenge` for `ta` with the secret `pw`, answered `a` (44_scratchpad.md R186). -/
def challengeEvents (d : Descriptor) (pw : List Byte) (ta : Nat) (a : Byte) : List BusEvent :=
  [.canDeliverPower true, .send ([d.cmdVP] ++ targetBytes ta ++ pw.take (d.pwLen - 1)),
    .sendPulse [pw.getD (d.pwLen - 1) 0] d.pwDwell, received [a]]

/-- `OpenRead`, its challenge answered `a` where it makes one (41_bank.md R121). -/
def openEvents (d : Descriptor) (speedOk cont : Bool) (pw : List Byte) (ta : Nat) (a : Byte) :
    List BusEvent :=
  if cont then []
  else prologueEvents d speedOk ++ (if d.pwGated then challengeEvents d pw ta a else [])

/-- The opening of a read command with a password slot (41_bank.md R121). -/
def State.openEvents (cont : Bool) (slot : PwSlot) (ta : Nat) (s : State) : List BusEvent :=
  Machine.openEvents s.desc s.speedOk cont (s.pw.get slot).bytes ta (s.bus.byteAnswer s.bus.nByte)

/-- A read: the command sequence, unless the read is continued, and the bytes received
(41_bank.md R122, 42_paged.md R143). -/
def transferEvents (cont : Bool) (seq data : List Byte) : List BusEvent :=
  (if cont then [] else [.send seq]) ++ [received data]

/-- The opening of a read that fails, its first question the `q`-th and its challenge's answer the
`k`-th byte: no speed or no selection, no power for the challenge, an answer that is not the accept
byte. With the error and the events (41_bank.md R120, R121; 44_scratchpad.md R186). -/
inductive State.OpenFails (s : State) (pw : List Byte) (speedOk : Bool) (q k ta : Nat) :
    Err → List BusEvent → Prop where
  | unselected (no : ¬ s.bus.yesFrom q (asksOf speedOk)) :
      s.OpenFails pw speedOk q k ta .communication
        (failedPrologue s.desc speedOk (s.bus.boolAnswer q))
  | unpowered (gated : s.desc.pwGated = true) (yes : s.bus.yesFrom q (asksOf speedOk))
      (no : s.bus.boolAnswer (q + asksOf speedOk) = false) :
      s.OpenFails pw speedOk q k ta .powerUnavailable
        (prologueEvents s.desc speedOk ++ [.canDeliverPower false])
  | rejected (gated : s.desc.pwGated = true) (yes : s.bus.yesFrom q (asksOf speedOk + 1))
      (wrong : s.bus.byteAnswer k ≠ s.desc.pwAccept) :
      s.OpenFails pw speedOk q k ta .authentication
        (Machine.openEvents s.desc speedOk false pw ta (s.bus.byteAnswer k))

/-! ### A read of a block

`ReadBytes` with the busy poll of 41_bank.md R122, behind an opening that succeeded, by the number
`r` of retries it makes. Its first question is the bus's `q`-th and its first byte the `k`-th. Block
0 is what the first attempt receives, and retry `j` yields block `j + 1`. A bank that does not poll
takes block 0. -/

/-- The most retries a read makes: POLL_MAX - 1 on a bank that polls, else none
(41_bank.md R122). -/
def retriesOf (d : Descriptor) : Nat := if d.busyPoll then d.pollMax - 1 else 0

/-- How many Boolean answers a retry draws that yields a block: presence, selection and, on a
password-gated bank, power (41_bank.md R121, R122). -/
def retryAsks (d : Descriptor) : Nat := 2 + d.pwGated.toNat

/-- How many bytes a retry of a read of `n` bytes draws: the answer to its challenge, where the bank
asks one, and its block (41_bank.md R121, R122). -/
def retryBytes (d : Descriptor) (n : Nat) : Nat := d.pwGated.toNat + n

/-- The block `j` of a read of `n` bytes (41_bank.md R122). -/
def State.pollBlock (k n j : Nat) (s : State) : List Byte :=
  s.bus.byteAnswers (k + j * retryBytes s.desc n) n

/-- The answer to the challenge of retry `j` on a password-gated bank (41_bank.md R121, R122). -/
def State.pollAnswer (k n j : Nat) (s : State) : Byte :=
  s.bus.byteAnswer (k + n + j * retryBytes s.desc n)

/-- The block `j` is not taken unless it is the last: it has bytes, and all are 0xFF
(41_bank.md R122). -/
abbrev State.pollBusy (k n j : Nat) (s : State) : Prop :=
  0 < n ∧ ∀ b ∈ s.pollBlock k n j, b = 0xFF

/-- A read of `n` bytes comes to its block `r`: no block before it is taken, and every retry so far
found the device present, selected it and, on a password-gated bank, had its challenge accepted
(41_bank.md R122). -/
structure State.PollsTo (q k n r : Nat) (s : State) : Prop where
  most : r ≤ retriesOf s.desc
  busy : ∀ j < r, s.pollBusy k n j
  asks : s.bus.yesFrom q (r * retryAsks s.desc)
  accepted : s.desc.pwGated = true → ∀ j < r, s.pollAnswer k n j = s.desc.pwAccept

/-- A read of `n` bytes ends with its block `r`: it comes to it and takes it, because it is the last
or has no byte or a byte that is not 0xFF (41_bank.md R122). -/
structure State.TakesBlock (q k n r : Nat) (s : State) : Prop where
  polls : s.PollsTo q k n r
  taken : r = retriesOf s.desc ∨ ¬ s.pollBusy k n r

/-- Retry `j` of a read of `n` bytes at `p`: it sleeps POLL_DELAY, finds the device present, opens
the read again, sends SeqRead again and receives (41_bank.md R122). -/
def State.retryEvents (pw : List Byte) (p n k : Nat) (s : State) (j : Nat) : List BusEvent :=
  [.sleep s.desc.pollDelay, .isPresent true] ++
    Machine.openEvents s.desc true false pw p (s.pollAnswer k n j) ++
    transferEvents false (Config.seqRead p n) (s.pollBlock k n (j + 1))

/-- A read of `n` bytes at `p`, behind its opening, up to its block `r` (41_bank.md R122). -/
def State.pollEvents (cont : Bool) (pw : List Byte) (p n k r : Nat) (s : State) : List BusEvent :=
  transferEvents cont (Config.seqRead p n) (s.pollBlock k n 0) ++
    (List.range r).flatMap (s.retryEvents pw p n k)

/-- A read of `n` bytes at `p` must retry behind its block `r`, and the retry fails: the device is
no longer present, or the read does not open again (41_bank.md R121, R122). With the error and the
events behind the opening. -/
inductive State.PollFails (s : State) (cont : Bool) (pw : List Byte) (p n q k : Nat) :
    Err → List BusEvent → Prop where
  | absent {r : Nat} (polls : s.PollsTo q k n r) (more : r < retriesOf s.desc)
      (busy : s.pollBusy k n r) (no : s.bus.boolAnswer (q + r * retryAsks s.desc) = false) :
      s.PollFails cont pw p n q k .communication
        (s.pollEvents cont pw p n k r ++ [.sleep s.desc.pollDelay, .isPresent false])
  | unopened {r : Nat} {e : Err} {es : List BusEvent} (polls : s.PollsTo q k n r)
      (more : r < retriesOf s.desc) (busy : s.pollBusy k n r)
      (present : s.bus.boolAnswer (q + r * retryAsks s.desc) = true)
      (no : s.OpenFails pw true (q + r * retryAsks s.desc + 1)
        (k + n + r * retryBytes s.desc n) p e es) :
      s.PollFails cont pw p n q k e (s.pollEvents cont pw p n k r ++
        [.sleep s.desc.pollDelay, .isPresent true] ++ es)

/-- `PowerCheck()` with the answers the bus gives (41_bank.md R125). -/
def State.powerEvents (s : State) : List BusEvent :=
  (if s.desc.flagPDeliv then [.canDeliverPower (s.bus.boolAnswer s.bus.nBool)] else []) ++
  (if s.desc.flagPPulse = true ∧
      (s.desc.flagPDeliv = true → s.bus.boolAnswer s.bus.nBool = true) then
    [.canProgramPulse (s.bus.boolAnswer (s.bus.nBool + s.desc.flagPDeliv.toNat))] else [])

/-- How many answers `PowerCheck()` draws where all are yes (41_bank.md R125). -/
def powerAsks (d : Descriptor) : Nat := d.flagPDeliv.toNat + d.flagPPulse.toNat

/-- `PowerCheck()` finds the transport unable to do what the bank needs (41_bank.md R125). -/
abbrev State.powerMissing (s : State) : Prop :=
  (s.desc.flagPDeliv = true ∧ s.bus.boolAnswer s.bus.nBool = false) ∨
  (s.desc.flagPPulse = true ∧
    (s.desc.flagPDeliv = true → s.bus.boolAnswer s.bus.nBool = true) ∧
    s.bus.boolAnswer (s.bus.nBool + s.desc.flagPDeliv.toNat) = false)

/-- `DirectWrite` (41_bank.md R127). -/
def directEvents (d : Descriptor) (speedOk : Bool) (p : Nat) (xs : List Byte) : List BusEvent :=
  prologueEvents d speedOk ++
    [if d.flagPPulse then .sendProgram (Config.seqWrite p xs) else .send (Config.seqWrite p xs)]

/-- `StatusRead(seq)` answered `b` (43_otp.md R160 f). -/
def statusEvents (d : Descriptor) (speedOk : Bool) (seq : List Byte) (b : Byte) : List BusEvent :=
  prologueEvents d speedOk ++ [.send seq, received [b]]

/-- `ProgramSend(seq)` (43_otp.md R160 f). -/
def programEvents (d : Descriptor) (speedOk : Bool) (seq : List Byte) : List BusEvent :=
  prologueEvents d speedOk ++
    [if d.flagPPulse then .sendProgram seq
     else if d.flagPDeliv then .sendPulse seq d.copyDwell else .send seq]

/-- `SpWriteProc(ta, xs)` (44_scratchpad.md R182). -/
def stageEvents (d : Descriptor) (speedOk : Bool) (ta : Nat) (xs : List Byte) : List BusEvent :=
  prologueEvents d speedOk ++ [.send ([d.cmdWS] ++ targetBytes ta ++ xs)]

/-- `SpVerifyProc()` that receives the echo `hdr`, the data `ys` and the CRC bytes `crc`
(44_scratchpad.md R184). -/
def verifyEvents (d : Descriptor) (speedOk : Bool) (hdr ys crc : List Byte) : List BusEvent :=
  prologueEvents d speedOk ++ [.send [d.cmdRS]] ++ (if d.spAddr then [received hdr] else []) ++
    [received ys] ++ (if d.spCrc then [received crc] else [])

/-- What `SpVerifyProc()` receives is a good read-back of `ys` staged for `ta`
(44_scratchpad.md R184). -/
structure GoodReadBack (d : Descriptor) (ta : Nat) (ys hdr crc : List Byte) : Prop where
  hdr_length : hdr.length = hdrLen d
  crc_length : crc.length = crcLen d
  accepted : d.spCrc = true → crc16 (d.cmdRS :: hdr ++ ys ++ crc) 0 = 0xB001
  target : d.spAddr = true → hdr.take 2 = targetBytes ta
  count : d.spAddr = true → esCount d (BitVec.ofNat 16 ta) (hdr.getD 2 0) = ys.length

/-- The sequence `SpCopyProc()` sends under the pulse, with the status echo `es`
(44_scratchpad.md R190). -/
def copySequence (d : Descriptor) (ta : Nat) (es : Byte) : List Byte :=
  [d.cmdCS] ++ (if d.spAddr then targetBytes ta ++ [es] else []) ++ [d.csValid]

/-- `SpCopyProc()` answered `r` (44_scratchpad.md R190). -/
def copyEvents (d : Descriptor) (speedOk : Bool) (ta : Nat) (es r : Byte) : List BusEvent :=
  [.canDeliverPower true] ++ prologueEvents d speedOk ++
    [.sendPulse (copySequence d ta es) d.copyDwell, received [r]]

/-- The challenge of one row of a write, accepted, on a password-gated bank (41_bank.md R126). -/
def rowChallengeEvents (d : Descriptor) (pw : List Byte) (ta : Nat) : List BusEvent :=
  if d.pwGated then prologueEvents d true ++ challengeEvents d pw ta d.pwAccept else []

/-! ### A write through the scratchpad -/

/-- The rows a write of `xs` at `p` is cut into: each with its address and its bytes, none crossing
a multiple of SP_SIZE (41_bank.md R126). The first argument bounds their number. -/
def bankRows (d : Descriptor) : Nat → Nat → List Byte → List (Nat × List Byte)
  | 0, _, _ => []
  | more + 1, p, xs =>
    if xs = [] then []
    else
      let m := min xs.length (d.spSize - p % d.spSize)
      (p, xs.take m) :: bankRows d more (p + m) (xs.drop m)

/-- How many bytes the bus answers while a row of `n` bytes is written: the read-back, the accept
byte on a password-gated bank, the confirmation byte (44_scratchpad.md R184, R186, R190). -/
def rowBytes (d : Descriptor) (n : Nat) : Nat :=
  hdrLen d + n + crcLen d + d.pwGated.toNat + 1

/-- How many bytes the bus answers while the rows are written. -/
def rowsBytes (d : Descriptor) (rows : List (Nat × List Byte)) : Nat :=
  (rows.map fun r => rowBytes d r.2.length).sum

/-- The bytes answered from the k-th on let every row be verified, authenticated where the bank asks
it, and committed (44_scratchpad.md R184, R186, R190). -/
def State.rowsAccepted (s : State) : Nat → List (Nat × List Byte) → Prop
  | _, [] => True
  | k, (ta, ys) :: rest =>
    s.readsBack k (BitVec.ofNat 16 ta) ys ∧
    (s.desc.pwGated = true →
      s.bus.byteAnswer (k + hdrLen s.desc + ys.length + crcLen s.desc) = s.desc.pwAccept) ∧
    s.bus.byteAnswer
      (k + hdrLen s.desc + ys.length + crcLen s.desc + s.desc.pwGated.toNat) ≠ 0xFF ∧
    s.rowsAccepted (k + rowBytes s.desc ys.length) rest

/-- The events of a row of a write up to its good read-back, whose bytes are answered from the k-th
on: stage and verify (41_bank.md R126). -/
def State.rowReadEvents (s : State) (speedOk : Bool) (k ta : Nat) (ys : List Byte) :
    List BusEvent :=
  stageEvents s.desc speedOk ta ys ++
    verifyEvents s.desc true (s.bus.byteAnswers k (hdrLen s.desc)) ys
      (s.bus.byteAnswers (k + hdrLen s.desc + ys.length) (crcLen s.desc))

/-- The events of the rows: stage, verify, challenge, copy, row by row (41_bank.md R126). -/
def State.rowsEvents (pw : List Byte) (s : State) :
    Bool → Nat → List (Nat × List Byte) → List BusEvent
  | _, _, [] => []
  | speedOk, k, (ta, ys) :: rest =>
    s.rowReadEvents speedOk k ta ys ++ rowChallengeEvents s.desc pw ta ++
    copyEvents s.desc true ta (s.bus.byteAnswer (k + 2)) (s.bus.byteAnswer
      (k + hdrLen s.desc + ys.length + crcLen s.desc + s.desc.pwGated.toNat)) ++
    s.rowsEvents pw true (k + rowBytes s.desc ys.length) rest

/-- How many Boolean answers a write draws before its row number `n`, counted from 0, or before its
read-back where it has `n` rows (41_bank.md R125, R126). -/
def State.rowAsks (s : State) (n : Nat) : Nat :=
  powerAsks s.desc +
    if n = 0 then 0 else s.prologueAsks - 1 + n * (4 + 2 * s.desc.pwGated.toNat)

/-- The first question behind the opening of the read-back of a write through the scratchpad
(41_bank.md R126). -/
def State.backQuestion (s : State) (rows : List (Nat × List Byte)) : Nat :=
  s.bus.nBool + (s.rowAsks rows.length + (1 + s.desc.pwGated.toNat))

/-- The first byte behind the opening of the read-back of a write through the scratchpad: behind the
rows' bytes and the accept byte of the opening's challenge (41_bank.md R126). -/
def State.backByte (s : State) (rows : List (Nat × List Byte)) : Nat :=
  s.bus.nByte + rowsBytes s.desc rows + s.desc.pwGated.toNat

/-- Everything a write of `xs` at `p` through the scratchpad asks is answered well: every question
yes, every row good, and the read-back opened and ended with its block `r` (41_bank.md R122,
R126). -/
structure State.RowsGood (s : State) (p : Nat) (xs : List Byte) (rows : List (Nat × List Byte))
    (r : Nat) : Prop where
  cut : rows = bankRows s.desc xs.length p xs
  asks : s.bus.yes (s.rowAsks rows.length + (if s.verify then 1 + s.desc.pwGated.toNat else 0))
  accepted : s.rowsAccepted s.bus.nByte rows
  authenticated : s.verify = true → s.desc.pwGated = true →
    s.bus.byteAnswer (s.bus.nByte + rowsBytes s.desc rows) = s.desc.pwAccept
  taken : s.verify = true →
    s.TakesBlock (s.backQuestion rows) (s.backByte rows) xs.length r

/-- What a write of `xs` at `p` through the scratchpad leaves whose last row is `ys` at `ta`, behind
the rows `init`: every row committed, the last one in the staged registers, the events of R126; with
verification on and a read-back, its block `r`, that differs, VerificationError, else RESULT `v`
(41_bank.md R122, R126, 44_scratchpad.md R182, R184, R186, R190). -/
structure RowsWritten (s t : State) (slot : PwSlot) (p : Nat) (xs : List Byte)
    (init : List (Nat × List Byte)) (ta : Nat) (ys : List Byte) (r : Nat) (v : Half) : Prop where
  dbuf : SameDbuf s t
  spState : t.spState = .committed
  spTA : t.spTA.toNat = ta
  spLen : t.spLen.toNat = ys.length
  spBuf : t.spBuf =
    (init ++ [(ta, ys)]).foldl (fun buf r => r.2 ++ buf.drop r.2.length) s.spBuf
  spES : t.spES =
    if s.desc.spAddr then s.bus.byteAnswer (s.bus.nByte + rowsBytes s.desc init + 2) else 0
  contOk : t.contOk = false
  hostSide : SameHostSide s t
  accumulators : SameAccumulators s t
  pw : t.pw = s.pw
  events : AddedEvents s t (s.powerEvents ++
    s.rowsEvents (s.pw.get slot).bytes s.speedOk s.bus.nByte (init ++ [(ta, ys)]) ++
    (if s.verify then
      openEvents s.desc true false (s.pw.get slot).bytes p
        (s.bus.byteAnswer (s.bus.nByte + rowsBytes s.desc (init ++ [(ta, ys)]))) ++
      s.pollEvents false (s.pw.get slot).bytes p xs.length (s.backByte (init ++ [(ta, ys)])) r
     else []))
  ending : if s.verify = true ∧
      s.pollBlock (s.backByte (init ++ [(ta, ys)])) xs.length r ≠ xs then
      RaisedWith s t .verification ∧ t.speedOk = false
    else FinishedWith s t v ∧ t.speedOk = true

/-! ### A write through the scratchpad that stops

The outcomes of 41_bank.md R126 that are not good, for the first row that has one and for the
opening and the retries of the read-back behind the rows. Questions and bytes are numbered from the
bus's first. -/

/-- How far a write through the scratchpad came with the row it stops at: nothing of it staged; it
is staged; it read back well; it is committed and the read-back of the range does not open, or a
retry of it fails. -/
inductive RowStage where
  | untouched
  | staged
  | verified
  | committed
  deriving DecidableEq, Repr

/-- The row `(ta, ys)` of a write stops, its first question the `q`-th and its first byte the
`k`-th: by the selection of its stage or of its read-back, a read-back that is not good, the
challenge, the power or the selection of its copy, or the confirmation byte 0xFF. With the stage it
came to, the error and the events (41_bank.md R126; 44_scratchpad.md R182, R184, R186, R190). -/
inductive State.RowFails (s : State) (pw : List Byte) (speedOk : Bool) (q k ta : Nat)
    (ys : List Byte) : RowStage → Err → List BusEvent → Prop where
  | unstaged (no : ¬ s.bus.yesFrom q (asksOf speedOk)) :
      s.RowFails pw speedOk q k ta ys .untouched .communication
        (failedPrologue s.desc speedOk (s.bus.boolAnswer q))
  | unread (yes : s.bus.yesFrom q (asksOf speedOk))
      (no : s.bus.boolAnswer (q + asksOf speedOk) = false) :
      s.RowFails pw speedOk q k ta ys .staged .communication
        (stageEvents s.desc speedOk ta ys ++ [.select s.desc.devAddr false])
  | unverified (yes : s.bus.yesFrom q (asksOf speedOk + 1))
      (bad : ¬ s.readsBack k (BitVec.ofNat 16 ta) ys) :
      s.RowFails pw speedOk q k ta ys .staged
        (if s.crcReadsBack k ys.length then .verification else .integrity)
        (stageEvents s.desc speedOk ta ys ++
          verifyEvents s.desc true (s.bus.byteAnswers k (hdrLen s.desc))
            (s.bus.byteAnswers (k + hdrLen s.desc) ys.length)
            (s.bus.byteAnswers (k + hdrLen s.desc + ys.length) (crcLen s.desc)))
  | unauthenticated {e : Err} {es : List BusEvent} (gated : s.desc.pwGated = true)
      (yes : s.bus.yesFrom q (asksOf speedOk + 1)) (good : s.readsBack k (BitVec.ofNat 16 ta) ys)
      (no : s.OpenFails pw true (q + (asksOf speedOk + 1))
        (k + hdrLen s.desc + ys.length + crcLen s.desc) ta e es) :
      s.RowFails pw speedOk q k ta ys .verified e (s.rowReadEvents speedOk k ta ys ++ es)
  | unpowered (yes : s.bus.yesFrom q (asksOf speedOk + 1 + 2 * s.desc.pwGated.toNat))
      (good : s.readsBack k (BitVec.ofNat 16 ta) ys)
      (accepted : s.desc.pwGated = true →
        s.bus.byteAnswer (k + hdrLen s.desc + ys.length + crcLen s.desc) = s.desc.pwAccept)
      (no : s.bus.boolAnswer (q + (asksOf speedOk + 1 + 2 * s.desc.pwGated.toNat)) = false) :
      s.RowFails pw speedOk q k ta ys .verified .powerUnavailable
        (s.rowReadEvents speedOk k ta ys ++ rowChallengeEvents s.desc pw ta ++
          [.canDeliverPower false])
  | uncopied (yes : s.bus.yesFrom q (asksOf speedOk + 2 + 2 * s.desc.pwGated.toNat))
      (good : s.readsBack k (BitVec.ofNat 16 ta) ys)
      (accepted : s.desc.pwGated = true →
        s.bus.byteAnswer (k + hdrLen s.desc + ys.length + crcLen s.desc) = s.desc.pwAccept)
      (no : s.bus.boolAnswer (q + (asksOf speedOk + 2 + 2 * s.desc.pwGated.toNat)) = false) :
      s.RowFails pw speedOk q k ta ys .verified .communication
        (s.rowReadEvents speedOk k ta ys ++ rowChallengeEvents s.desc pw ta ++
          [.canDeliverPower true, .select s.desc.devAddr false])
  | refused (yes : s.bus.yesFrom q (asksOf speedOk + 3 + 2 * s.desc.pwGated.toNat))
      (good : s.readsBack k (BitVec.ofNat 16 ta) ys)
      (accepted : s.desc.pwGated = true →
        s.bus.byteAnswer (k + hdrLen s.desc + ys.length + crcLen s.desc) = s.desc.pwAccept)
      (no : s.bus.byteAnswer
        (k + hdrLen s.desc + ys.length + crcLen s.desc + s.desc.pwGated.toNat) = 0xFF) :
      s.RowFails pw speedOk q k ta ys .verified .commit
        (s.rowReadEvents speedOk k ta ys ++ rowChallengeEvents s.desc pw ta ++
          copyEvents s.desc true ta (s.bus.byteAnswer (k + 2)) 0xFF)

/-- A write of `xs` at `p` whose power check passes stops at its row `(ta, ys)`, behind the rows
`init` that were all good; or, where that row is the last and good too, at the opening of its
read-back or at a retry of it. With the stage, the error and the events behind the power check
(41_bank.md R122, R126). -/
inductive State.WriteStops (s : State) (pw : List Byte) (p : Nat) (xs : List Byte)
    (init : List (Nat × List Byte)) (ta : Nat) (ys : List Byte) :
    RowStage → Err → List BusEvent → Prop where
  | row {stage : RowStage} {e : Err} {es : List BusEvent} (later : List (Nat × List Byte))
      (cut : bankRows s.desc xs.length p xs = init ++ (ta, ys) :: later)
      (asks : s.bus.yes (s.rowAsks init.length)) (accepted : s.rowsAccepted s.bus.nByte init)
      (no : s.RowFails pw (s.speedOk || !init.isEmpty) (s.bus.nBool + s.rowAsks init.length)
        (s.bus.nByte + rowsBytes s.desc init) ta ys stage e es) :
      s.WriteStops pw p xs init ta ys stage e
        (s.rowsEvents pw s.speedOk s.bus.nByte init ++ es)
  | back {e : Err} {es : List BusEvent} (verify : s.verify = true)
      (cut : bankRows s.desc xs.length p xs = init ++ [(ta, ys)])
      (asks : s.bus.yes (s.rowAsks (init.length + 1)))
      (accepted : s.rowsAccepted s.bus.nByte (init ++ [(ta, ys)]))
      (no : s.OpenFails pw true (s.bus.nBool + s.rowAsks (init.length + 1))
        (s.bus.nByte + rowsBytes s.desc (init ++ [(ta, ys)])) p e es) :
      s.WriteStops pw p xs init ta ys .committed e
        (s.rowsEvents pw s.speedOk s.bus.nByte (init ++ [(ta, ys)]) ++ es)
  | poll {e : Err} {es : List BusEvent} (verify : s.verify = true)
      (cut : bankRows s.desc xs.length p xs = init ++ [(ta, ys)])
      (asks : s.bus.yes (s.rowAsks (init.length + 1) + (1 + s.desc.pwGated.toNat)))
      (accepted : s.rowsAccepted s.bus.nByte (init ++ [(ta, ys)]))
      (authenticated : s.desc.pwGated = true →
        s.bus.byteAnswer (s.bus.nByte + rowsBytes s.desc (init ++ [(ta, ys)])) = s.desc.pwAccept)
      (no : s.PollFails false pw p xs.length (s.backQuestion (init ++ [(ta, ys)]))
        (s.backByte (init ++ [(ta, ys)])) e es) :
      s.WriteStops pw p xs init ta ys .committed e
        (s.rowsEvents pw s.speedOk s.bus.nByte (init ++ [(ta, ys)]) ++
          Machine.openEvents s.desc true false pw p s.desc.pwAccept ++ es)

/-- SP_ES after good rows: the last one's status echo on an address-aware bank, else 0
(44_scratchpad.md R182, R184). -/
def State.echoAfter (s : State) (rows : List (Nat × List Byte)) : Byte :=
  if rows = [] then s.spES
  else if s.desc.spAddr then
    s.bus.byteAnswer (s.bus.nByte + rowsBytes s.desc rows.dropLast + 2)
  else 0

/-- SP_STATE where a write stops behind the rows `init`: ABORTED where the row was staged and not
committed; a row of which nothing was staged leaves what the rows before it left, COMMITTED, or
where it is the first the given-up transaction of the start (41_bank.md R126, 60_exceptions.md R204
step 5). -/
def State.stopState (s : State) (init : List (Nat × List Byte)) : RowStage → SpState
  | .untouched => if init = [] then s.spState.abandon else .committed
  | .staged | .verified => .aborted
  | .committed => .committed

/-- SP_ES where a write stops at the row `r` behind the rows `init` (44_scratchpad.md R182,
R184). -/
def State.stopEcho (s : State) (init : List (Nat × List Byte)) (r : Nat × List Byte) :
    RowStage → Byte
  | .untouched => s.echoAfter init
  | .staged => 0
  | .verified | .committed => s.echoAfter (init ++ [r])

/-- The staged registers but SP_ES hold the last of `rows`, laid over SPBUF one by one; with no row
they are unchanged (44_scratchpad.md R182). -/
structure RowsStaged (s t : State) (rows : List (Nat × List Byte)) : Prop where
  empty : rows = [] → t.spTA = s.spTA ∧ t.spLen = s.spLen
  last : ∀ r ∈ rows.getLast?, t.spTA.toNat = r.1 ∧ t.spLen.toNat = r.2.length
  spBuf : t.spBuf = rows.foldl (fun buf r => r.2 ++ buf.drop r.2.length) s.spBuf

/-- What a write leaves that stops at `(ta, ys)` behind the rows `init`, with error `e` and the
events `es` in all: RESULT 0, no further event, the rows before it committed (41_bank.md R126;
60_exceptions.md R204 to R206, R208). -/
structure RowStopped (s t : State) (init : List (Nat × List Byte)) (ta : Nat) (ys : List Byte)
    (stage : RowStage) (e : Err) (es : List BusEvent) : Prop where
  raised : RaisedWith s t e
  events : AddedEvents s t es
  speedOk : t.speedOk = decide (e = .powerUnavailable)
  contOk : t.contOk = false
  spState : t.spState = s.stopState init stage
  staged : RowsStaged s t (if stage = .untouched then init else init ++ [(ta, ys)])
  spES : t.spES = s.stopEcho init (ta, ys) stage
  hostSide : SameHostSide s t
  accumulators : SameAccumulators s t
  pw : t.pw = s.pw

/-- The events before a copy pulse that carries `pulse`, inside a write through the scratchpad: some
row staged, read back well, authenticated where the bank asks it, and nothing but the copy's own
power check and selection between (44_scratchpad.md R192). -/
def CopyEarned (d : Descriptor) (pw : List Byte) (before : List BusEvent) (pulse : BusEvent) :
    Prop :=
  ∃ earlier speedOk ta ys hdr crc, GoodReadBack d ta ys hdr crc ∧
    before = earlier ++ stageEvents d speedOk ta ys ++ verifyEvents d true hdr ys crc ++
      rowChallengeEvents d pw ta ++ [.canDeliverPower true] ++ prologueEvents d true ∧
    pulse = .sendPulse (copySequence d ta (hdr.getD 2 0)) d.copyDwell

/-- The packet of page `absPage` with payload `xs`: its length, the payload, and the inverted CRC16
seeded by the page, low byte first (42_paged.md R145). -/
def packetOf (absPage : Nat) (xs : List Byte) : List Byte :=
  [BitVec.ofNat 8 xs.length] ++ xs ++
    [(crc16 (BitVec.ofNat 8 xs.length :: xs) (BitVec.ofNat 16 absPage) ^^^ 0xFFFF).setWidth 8,
     ((crc16 (BitVec.ofNat 8 xs.length :: xs) (BitVec.ofNat 16 absPage) ^^^ 0xFFFF)
        >>> 8).setWidth 8]

/-- A bus command ended with an error that clears SPEED_OK, after the events `es`: an open
transaction is given up and nothing is staged (60_exceptions.md R204 to R206). -/
structure BusRaise (s t : State) (e : Err) (es : List BusEvent) : Prop where
  dirty : DirtyRaise s t e
  spState : t.spState = s.spState.abandon
  staged : SameStaged s t
  events : AddedEvents s t es

/-- A bus command ended with PowerUnavailable: SPEED_OK as given, CONT_OK 0, an open transaction
given up, nothing staged, and the events `es` (60_exceptions.md R204 to R206). -/
structure PowerRaise (s t : State) (es : List BusEvent) (speedOk : Bool) : Prop where
  raised : RaisedWith s t .powerUnavailable
  events : AddedEvents s t es
  speedOk : t.speedOk = speedOk
  contOk : t.contOk = false
  spState : t.spState = s.spState.abandon
  hostSide : SameHostSide s t
  accumulators : SameAccumulators s t
  staged : SameStaged s t
  pw : t.pw = s.pw

/-- A bus command ended because a read did not open, at once or at a retry: PowerUnavailable leaves
SPEED_OK at 1, the other errors clear it (41_bank.md R121, R122; 60_exceptions.md R204 to R206). -/
def ReadStopped (s t : State) (e : Err) (es : List BusEvent) : Prop :=
  if e = .powerUnavailable then PowerRaise s t es true else BusRaise s t e es

/-! ### Where commands open a read and where they select the device -/

/-- The start checks of a command pass and it comes to the opening of a read for `ta`: the reads
that are not continued at once, a WRITE of no byte behind its power check, for its read-back. With
how many questions it has asked by then, all answered yes, and the events (41_bank.md R123, R126;
42_paged.md R141 to R147). -/
inductive State.ReachesOpen (s : State) (pwsel : BitVec 2) :
    Instr → Nat → Nat → List BusEvent → Prop where
  | read (starts : s.readStarts false pwsel s.argLen.toNat)
      (range : s.argAddr.toNat + s.argLen.toNat ≤ s.desc.size) :
      s.ReachesOpen pwsel (.read false pwsel) (s.desc.physOff + s.argAddr.toNat) 0 []
  | page {i : Instr}
      (has : (i, true) ∈ [(.readPage false pwsel, true),
        (.readPageExtra false pwsel, s.desc.flagExtra),
        (.readPageCrc false pwsel, s.desc.flagAutoCrc),
        (.readPageCrcExtra false pwsel, s.desc.flagAutoCrc && s.desc.flagExtra),
        (.readPagePacket false pwsel, true)])
      (starts : s.readStarts false pwsel (outputWindow i s))
      (range : s.argPage.toNat < s.desc.pageCount) :
      s.ReachesOpen pwsel i s.pagePhys 0 []
  | emptyWrite (legal : pwsel ≠ 3) (verify : s.verify = true) (empty : s.argLen = 0)
      (input : s.argOff.toNat ≤ s.desc.dbufSize) (range : s.argAddr.toNat ≤ s.desc.size)
      (writable : Writable s.desc) (yes : s.bus.yes (powerAsks s.desc)) :
      s.ReachesOpen pwsel (.write pwsel) (s.desc.physOff + s.argAddr.toNat) (powerAsks s.desc)
        s.powerEvents

/-- The start checks of a command pass that reads `n` bytes at `p` with `ReadBytes`: READ and the
page reads but the two with a device CRC, continued or not (41_bank.md R122, R123; 42_paged.md R141,
R142, R147). -/
inductive State.ReadsBlock (s : State) (cont : Bool) (pwsel : BitVec 2) :
    Instr → Nat → Nat → Prop where
  | read (starts : s.readStarts cont pwsel s.argLen.toNat)
      (range : s.argAddr.toNat + s.argLen.toNat ≤ s.desc.size) :
      s.ReadsBlock cont pwsel (.read cont pwsel) (s.desc.physOff + s.argAddr.toNat)
        s.argLen.toNat
  | page {i : Instr} (has : (i, true) ∈ [(.readPage cont pwsel, true),
        (.readPageExtra cont pwsel, s.desc.flagExtra), (.readPagePacket cont pwsel, true)])
      (starts : s.readStarts cont pwsel (outputWindow i s))
      (range : s.argPage.toNat < s.desc.pageCount) :
      s.ReadsBlock cont pwsel i s.pagePhys s.desc.pageLen

/-- A one-way OTP command whose checks before any bus event pass, with the sequences it sends to
program and to read the status back (43_otp.md R161, R163, R165). -/
inductive State.OtpStarts (s : State) : Instr → List Byte → List Byte → Prop where
  | lock (can : s.desc.canLock = true) (range : s.argPage.toNat < s.desc.pageCount) :
      s.OtpStarts .lockPage (Config.seqLock s.pageAbs s.desc.lockKey)
        (Config.seqLockStatus s.pageAbs)
  | lockRedirect (can : s.desc.canLockRedirect = true)
      (range : s.argPage.toNat < s.desc.pageCount) :
      s.OtpStarts .lockRedirectPage (Config.seqLockRedirect s.pageAbs s.desc.lockKey)
        (Config.seqRedirectLockStatus s.pageAbs)
  | redirect (can : s.desc.canRedirect = true) (range : s.argPage.toNat < s.desc.pageCount)
      (named : s.argPage2 ≠ 0) (target : s.argPage2.toNat ≤ s.desc.pageCount - 1) :
      s.OtpStarts .redirectPage (Config.seqRedirect s.pageAbs s.argPage2.toNat)
        (Config.seqRedirectStatus s.pageAbs)

/-- The checks of a command pass and it comes to a prologue: its first, or a later one whose failure
no other term here speaks of (the read-back of a direct write, the status read behind an OTP
program). With the speed flag there, how many questions it has asked by then, all answered yes, and
the events. The bus commands of 60_exceptions.md R204 all stand here (41_bank.md R120). -/
inductive State.ReachesPrologue (s : State) : Instr → Bool → Nat → List BusEvent → Prop where
  | opening {i : Instr} {pwsel : BitVec 2} {ta q : Nat} {es : List BusEvent}
      (opens : s.ReachesOpen pwsel i ta q es) : s.ReachesPrologue i s.speedOk q es
  | write {pwsel : BitVec 2} {xs : List Byte} (legal : pwsel ≠ 3)
      (input : s.inputIs s.argLen.toNat xs) (nonempty : s.argLen ≠ 0)
      (range : s.argAddr.toNat + s.argLen.toNat ≤ s.desc.size) (writable : Writable s.desc)
      (yes : s.bus.yes (powerAsks s.desc)) :
      s.ReachesPrologue (.write pwsel) s.speedOk (powerAsks s.desc) s.powerEvents
  | writeBack {pwsel : BitVec 2} {xs : List Byte} (legal : pwsel ≠ 3)
      (input : s.inputIs s.argLen.toNat xs) (nonempty : s.argLen ≠ 0)
      (range : s.argAddr.toNat + s.argLen.toNat ≤ s.desc.size) (writable : Writable s.desc)
      (direct : s.desc.spPresent = false) (verify : s.verify = true)
      (yes : s.bus.yes (powerAsks s.desc + s.prologueAsks)) :
      s.ReachesPrologue (.write pwsel) true (powerAsks s.desc + s.prologueAsks)
        (s.powerEvents ++
          directEvents s.desc s.speedOk (s.desc.physOff + s.argAddr.toNat) xs)
  | packet {pwsel : BitVec 2} {xs : List Byte} (wf : s.desc.WF) (legal : pwsel ≠ 3)
      (input : s.inputIs s.argLen.toNat xs) (fits : s.argLen.toNat ≤ s.desc.maxPkt)
      (range : s.argPage.toNat < s.desc.pageCount) (writable : Writable s.desc)
      (yes : s.bus.yes (powerAsks s.desc)) :
      s.ReachesPrologue (.writePagePacket pwsel) s.speedOk (powerAsks s.desc) s.powerEvents
  | packetBack {pwsel : BitVec 2} {xs : List Byte} (wf : s.desc.WF) (legal : pwsel ≠ 3)
      (input : s.inputIs s.argLen.toNat xs) (fits : s.argLen.toNat ≤ s.desc.maxPkt)
      (range : s.argPage.toNat < s.desc.pageCount) (writable : Writable s.desc)
      (direct : s.desc.spPresent = false) (verify : s.verify = true)
      (yes : s.bus.yes (powerAsks s.desc + s.prologueAsks)) :
      s.ReachesPrologue (.writePagePacket pwsel) true (powerAsks s.desc + s.prologueAsks)
        (s.powerEvents ++ directEvents s.desc s.speedOk s.pagePhys (packetOf s.pageAbs xs))
  | otpQuery {i : Instr}
      (can : (i, true) ∈ [(.isPageLocked, s.desc.canLock),
        (.getRedirectedPage, s.desc.canRedirect),
        (.isRedirectPageLocked, s.desc.canLockRedirect)])
      (range : s.argPage.toNat < s.desc.pageCount) : s.ReachesPrologue i s.speedOk 0 []
  | otpProgram {i : Instr} {seq status : List Byte} (starts : s.OtpStarts i seq status)
      (yes : s.bus.yes (powerAsks s.desc)) :
      s.ReachesPrologue i s.speedOk (powerAsks s.desc) s.powerEvents
  | otpStatus {i : Instr} {seq status : List Byte} (starts : s.OtpStarts i seq status)
      (yes : s.bus.yes (powerAsks s.desc + s.prologueAsks)) :
      s.ReachesPrologue i true (powerAsks s.desc + s.prologueAsks)
        (s.powerEvents ++ programEvents s.desc s.speedOk seq)
  | spWrite {xs : List Byte} (present : s.desc.spPresent = true)
      (input : s.inputIs s.argLen.toNat xs) (nonempty : s.argLen ≠ 0)
      (range : s.argAddr.toNat + s.argLen.toNat ≤ s.desc.size)
      (row : s.argPhys % s.desc.spSize + s.argLen.toNat ≤ s.desc.spSize) :
      s.ReachesPrologue .spWrite s.speedOk 0 []
  | spReadVerify (present : s.desc.spPresent = true) (order : s.spState = .written) :
      s.ReachesPrologue .spReadVerify s.speedOk 0 []
  | spVerifyPassword {pwsel : BitVec 2} (legal : pwsel ≠ 3) (gated : s.desc.pwGated = true)
      (order : s.spState = .verified) :
      s.ReachesPrologue (.spVerifyPassword pwsel) s.speedOk 0 []
  | spCopy (present : s.desc.spPresent = true)
      (order : s.spState = (if s.desc.pwGated then .authed else .verified))
      (power : s.bus.boolAnswer s.bus.nBool = true) :
      s.ReachesPrologue .spCopy s.speedOk 1 [.canDeliverPower true]

/-- The transitions of SP_STATE that a command may make (44_scratchpad.md R180). -/
inductive SpTransition (d : Descriptor) (i : Instr) : SpState → SpState → Prop where
  | stays (p : SpState) : SpTransition d i p p
  | stage (p : SpState) (h : i = .spWrite) : SpTransition d i p .written
  | verify (h : i = .spReadVerify) : SpTransition d i .written .verified
  | authenticate (k : BitVec 2) (h : i = .spVerifyPassword k) (g : d.pwGated = true) :
      SpTransition d i .verified .authed
  | commit (h : i = .spCopy) (g : d.pwGated = false) : SpTransition d i .verified .committed
  | commitGated (h : i = .spCopy) (g : d.pwGated = true) : SpTransition d i .authed .committed
  | abort (p : SpState) (h : isBus i = true) (o : p.isOpen = true) : SpTransition d i p .aborted
  | written (p : SpState) (h : writesBank i = true) (g : d.spPresent = true) :
      SpTransition d i p .committed
  | writeAborted (p : SpState) (h : writesBank i = true) (g : d.spPresent = true) :
      SpTransition d i p .aborted

end Sys2Proof.Machine
end

