-- ==== Sys2Proof/Certificates/Slice0/Obligations.lean ====
section
/-! DEFINITION. The statements for the provers, from the numbered rules of spec/. A statement about
`exec` says what the command's one step answers; the rules it rests on are named in its docstring
and in OBLIGATIONS.json. -/

open Sys2Proof Sys2Proof.Machine

/-! ### Encoding -/

/-- Decoding and encoding agree on every well-formed command and on every legal word
(30_encoding.md R80 to R85). -/
def Obligations.DecodeEncodeAgree : Prop :=
  (∀ i : Instr, i.WF → decode (encode i) = .ok i) ∧
  (∀ (w : Word) (i : Instr), decode w = .ok i → i.WF ∧ encode i = w)

/-- A CMD word is refused exactly when a clause of 30_encoding.md R85 holds, and a CMD write of a
refused word, on a machine that is neither busy nor faulted, sets FAULT to F_ILLEGAL and does
nothing else. -/
def Obligations.IllegalWords : Prop :=
  ∀ w : Word,
    ((∃ e, decode w = .error e) ↔
      (w.extractLsb' 24 8 ∉ assignedOpcodes ∨ w.extractLsb' 0 21 ≠ 0 ∨
        (w.getLsbD 23 = true ∧ w.extractLsb' 24 8 ∉ contOpcodes) ∨
        w.extractLsb' 21 2 = 3 ∨
        (w.extractLsb' 21 2 ≠ 0 ∧ w.extractLsb' 24 8 ∉ pwselOpcodes))) ∧
    ∀ (s : State) (e : DecodeError) (rest : List HostInput),
      decode w = .error e → s.fault = none → s.busy = false →
      s.host = .op (.regWrite 0 w) :: rest →
      step s = .next { s with host := rest, fault := some .illegal }

/-- Words written out from the table of 30_encoding.md R84 (examples of 95_test_vectors.md 2.7). -/
def Obligations.DecodeWords : Prop :=
  decode 0x01000000 = .ok .crc8Init ∧ decode 0x0C000000 = .ok .crc16Emit ∧
  decode 0x10C00000 = .ok (.read true 2) ∧ decode 0x24A00000 = .ok (.readPagePacket true 1) ∧
  decode 0x25400000 = .ok (.writePagePacket 2) ∧ decode 0x35000000 = .ok .isRedirectPageLocked ∧
  decode 0x42400000 = .ok (.spVerifyPassword 2) ∧ decode 0x45200000 = .ok (.pwClear 1)

/-! ### Steps -/

/-- A CMD write of a legal word on a machine that is neither busy nor faulted is one step, and the
step is `exec` of the decoded command (30_encoding.md R87, 60_exceptions.md R220); the same of a CMD
write in whose window no other operation lands (notes/assumptions/8.md). -/
def Obligations.StepRunsCommand : Prop :=
  ∀ (s : State) (w : Word) (rest : List HostInput) (i : Instr),
    s.host = .op (.regWrite 0 w) :: rest ∨ s.host = .during w [] :: rest →
    s.fault = none → s.busy = false → decode w = .ok i →
    step s = exec i { s with host := rest }

/-- Every step keeps the invariant. -/
def Obligations.StepKeepsInvariant : Prop :=
  ∀ s t : State, s.Inv → step s = .next t → t.Inv

/-- The invariant holds of every well-formed instance after reset, and of `State.reset`, whose
instance is the model's own arbitrary choice (notes/assumptions/1.md). -/
def Obligations.ResetHasInvariant : Prop :=
  (∀ d : Descriptor, d.WF → (State.resetOf d).Inv) ∧ State.reset.Inv

/-- The host's reset puts every item of the table of 70_reset_and_hazards.md R230 in its reset
value, whatever its old value. -/
def Obligations.ResetValues : Prop :=
  ∀ (s : State) (rest : List HostInput), s.host = .op .reset :: rest →
    ∃ t, step s = .next t ∧
      t.busy = false ∧ t.speedOk = false ∧ t.contOk = false ∧ t.spState = .idle ∧ t.err = none ∧
      t.fault = none ∧ t.pw.setBits = 0 ∧ t.statusWord = 0 ∧ t.result = 0 ∧
      t.argAddr = 0 ∧ t.argLen = 0 ∧ t.argOff = 0 ∧ t.argPage = 0 ∧ t.argPage2 = 0 ∧
      t.argSeed = 0 ∧ t.argByte = 0 ∧ t.verify = true ∧ t.acc8 = 0 ∧ t.acc16 = 0 ∧
      t.spTA = 0 ∧ t.spLen = 0 ∧ t.spES = 0 ∧ t.spBuf = List.replicate s.desc.spSize 0 ∧
      (∀ slot, (t.pw.get slot).bytes = List.replicate (slotLen s.desc) 0) ∧
      (∀ a, t.dbuf.read a = none) ∧ t.desc = s.desc

/-- The host's reset makes no bus event and draws no answer (70_reset_and_hazards.md R231, R232),
and it leaves the bus answers and the host's pending operations and readings alone. Those records
are the model's own: that they stand is its choice (notes/assumptions/4.md, 5.md, 7.md). -/
def Obligations.ResetLeavesTheRest : Prop :=
  ∀ (s : State) (rest : List HostInput), s.host = .op .reset :: rest →
    ∃ t, step s = .next t ∧ NoBusEvent s t ∧ t.bus.bools = s.bus.bools ∧
      t.bus.bytes = s.bus.bytes ∧ t.host = rest ∧ t.hostOut = s.hostOut

/-- In the faulted state every host write, CMD included, is ignored; host reads work; and only
reset clears FAULT (60_exceptions.md R212). The last clause is the model's choice, not the rule's:
of a CMD write with operations that were to land in its window no command starts, and they follow
as single operations (notes/assumptions/8.md). -/
def Obligations.FaultedStateIsSticky : Prop :=
  ∀ (s : State) (rest : List HostInput), s.fault ≠ none →
    (∀ o, s.host = .op o :: rest →
      (∀ n v, o = .regWrite n v → step s = .next { s with host := rest }) ∧
      (∀ i b, o = .dbufWrite i b → step s = .next { s with host := rest }) ∧
      (∀ n, o = .regRead n →
        step s = .next { s with host := rest, hostOut := s.hostOut ++ [s.readReg n] }) ∧
      (∀ i, o = .dbufRead i →
        step s = .next { s with host := rest, hostOut := s.hostOut ++ [s.readPort i] }) ∧
      (o = .reset → ∃ t, step s = .next t ∧ t.fault = none) ∧
      (∀ t, step s = .next t → t.fault = none → o = .reset)) ∧
    (∀ w landing, s.host = .during w landing :: rest →
      step s = .next { s with host := landing.map (fun e => HostInput.op e.2) ++ rest })

/-- The register file: reserved bits read 0, numbers above 0x18 read 0 and ignore writes, the
registers marked R ignore writes, CMD reads 0, and a write reaches no reserved bit
(10_state.md R20). And the host's steps: a read answers the register's value to the host and
changes nothing else; a write of a register but CMD, on a machine that is neither busy nor faulted,
is `State.writeReg`; and one of a register marked R or of a number above 0x18 leaves the whole
machine, but the host's list, as it was (R20, 60_exceptions.md R220). -/
def Obligations.RegisterFile : Prop :=
  (∀ (s : State) (n : Nat) (v : Word),
    s.readReg n &&& ~~~usedBits n = 0 ∧
    (0x18 < n → s.readReg n = 0 ∧ s.writeReg n v = s) ∧
    (n ∈ [0x01, 0x02] ∨ (0x0B ≤ n ∧ n ≤ 0x18) → s.writeReg n v = s) ∧
    s.readReg 0 = 0 ∧
    s.writeReg n (v &&& usedBits n) = s.writeReg n v) ∧
  ∀ (s : State) (n : Nat) (v : Word) (rest : List HostInput),
    (s.host = .op (.regRead n) :: rest →
      step s = .next { s with host := rest, hostOut := s.hostOut ++ [s.readReg n] }) ∧
    (s.fault = none → s.busy = false → s.host = .op (.regWrite n v) :: rest →
      (n ≠ 0 → step s = .next (State.writeReg { s with host := rest } n v)) ∧
      (n ∈ [0x01, 0x02] ∨ 0x0B ≤ n → step s = .next { s with host := rest }))

/-- A host write of an RW register, on a machine that is neither busy nor faulted: the register
then reads the written value at its used bits and every other register reads as before. And what
the registers marked R read: RESULT, the accumulators, the descriptor with the bits of DESC_CAPS,
SP_TA, SP_LEN and SP_ES (10_state.md R21, R40; a PW_LEN above its field is not spoken of,
notes/assumptions/12.md). -/
def Obligations.RegisterReadAfterWrite : Prop :=
  (∀ (s : State) (n : Nat) (v : Word) (rest : List HostInput), 3 ≤ n → n ≤ 0x0A →
    s.fault = none → s.busy = false → s.host = .op (.regWrite n v) :: rest →
    ∃ t, step s = .next t ∧ t.readReg n = v &&& usedBits n ∧
      (∀ m, m ≠ n → t.readReg m = s.readReg m) ∧ t.dbuf = s.dbuf ∧ t.pw = s.pw ∧
      t.spBuf = s.spBuf ∧ t.bus = s.bus) ∧
  (∀ s : State,
    s.readReg 0x02 = s.result.setWidth 32 ∧
    s.readReg 0x0B = s.acc8.setWidth 32 ∧ s.readReg 0x0C = s.acc16.setWidth 32 ∧
    s.readReg 0x16 = s.spTA.setWidth 32 ∧ s.readReg 0x17 = s.spLen.setWidth 32 ∧
    s.readReg 0x18 = s.spES.setWidth 32 ∧
    (∀ k, (s.readReg 0x11).getLsbD k =
      [s.desc.flagGP, s.desc.flagRW, s.desc.flagWO, s.desc.flagRO, s.desc.flagNV,
        s.desc.flagPPulse, s.desc.flagPDeliv, s.desc.flagAutoCrc, s.desc.flagExtra,
        s.desc.canLock, s.desc.canRedirect, s.desc.canLockRedirect, s.desc.spPresent,
        s.desc.spAddr, s.desc.spCrc, s.desc.pwGated, s.desc.busyPoll].getD k false) ∧
    (s.desc.WF → (s.readReg 0x0D).toNat = s.desc.size ∧
      (s.readReg 0x0E).toNat = s.desc.pageLen ∧ (s.readReg 0x0F).toNat = s.desc.pageCount ∧
      (s.readReg 0x10).toNat = s.desc.maxPkt ∧ (s.readReg 0x12).toNat = s.desc.extraLen ∧
      (s.readReg 0x13).toNat = (if s.desc.spPresent then s.desc.spSize else 0) ∧
      ((s.desc.pwGated = true → s.desc.pwLen < 256) →
        (s.readReg 0x14).toNat = if s.desc.pwGated then s.desc.pwLen else 0) ∧
      (s.readReg 0x15).toNat = s.desc.physOff))

/-- The fields of the STATUS word, and the codes they hold: of SP_STATE, of ERR, of FAULT, and the
slot each bit of PW_SET stands for (10_state.md R22, R34, R39; 60_exceptions.md R200, R210). -/
def Obligations.StatusFields : Prop :=
  ∀ s : State,
    (s.readReg 1).getLsbD 0 = s.busy ∧ (s.readReg 1).getLsbD 1 = s.speedOk ∧
    (s.readReg 1).getLsbD 2 = s.contOk ∧ (s.readReg 1).getLsbD 3 = false ∧
    (s.readReg 1).getLsbD 7 = false ∧ (s.readReg 1).extractLsb' 19 13 = 0 ∧
    (∀ e ∈ [(SpState.idle, 0), (.written, 1), (.verified, 2), (.authed, 3), (.committed, 4),
        (.aborted, 5)],
      s.spState = e.1 → ((s.readReg 1).extractLsb' 4 3).toNat = e.2) ∧
    (∀ e ∈ [(none, 0), (some Err.range, 1), (some .capability, 2), (some .format, 3),
        (some .integrity, 4), (some .verification, 5), (some .authentication, 6),
        (some .commit, 7), (some .communication, 8), (some .powerUnavailable, 9)],
      s.err = e.1 → ((s.readReg 1).extractLsb' 8 4).toNat = e.2) ∧
    (∀ e ∈ [(none, 0), (some FaultCode.illegal, 1), (some .dbuf, 2), (some .undef, 3),
        (some .cont, 4), (some .seq, 5), (some .busy, 6)],
      s.fault = e.1 → ((s.readReg 1).extractLsb' 12 4).toNat = e.2) ∧
    (s.readReg 1).getLsbD 16 = s.pw.readOnly.loaded ∧
    (s.readReg 1).getLsbD 17 = s.pw.readWrite.loaded ∧
    (s.readReg 1).getLsbD 18 = s.pw.writeOnly.loaded ∧
    slotOf 0 = some .readOnly ∧ slotOf 1 = some .readWrite ∧ slotOf 2 = some .writeOnly

/-- The DBUF port (60_exceptions.md R220, 10_state.md R29): a write marks and sets its byte alone
and is ignored beyond the end; a read answers a marked byte, 0 beyond the end, and changes no
register. What an unmarked byte answers is free, so nothing is said of it. -/
def Obligations.DbufPort : Prop :=
  ∀ (s : State) (i : Nat) (rest : List HostInput), s.fault = none → s.busy = false →
    (∀ b, s.host = .op (.dbufWrite i b) :: rest →
      ∃ t, step s = .next t ∧ t = { s with host := rest, dbuf := t.dbuf } ∧
        (s.desc.dbufSize ≤ i → t.dbuf = s.dbuf) ∧
        (i < s.desc.dbufSize →
          ∀ a, t.dbuf.read a = if a = i then some b else s.dbuf.read a)) ∧
    (s.host = .op (.dbufRead i) :: rest →
      ∃ v, step s = .next { s with host := rest, hostOut := s.hostOut ++ [v] } ∧
        (s.desc.dbufSize ≤ i → v = 0) ∧
        (∀ b, i < s.desc.dbufSize → s.dbuf.read i = some b → v = b.setWidth 32))

/-! ### The BUSY window -/

/-- A host access that lands while a command runs, at whatever point of it. A write is ignored, and
when the command ends FAULT is F_BUSY unless the command itself faulted (60_exceptions.md R211). A
read changes nothing of what the command does: the step is `exec` of the command with the value
given to the host. That value is what the register or the DBUF port shows at that point: BUSY reads
1; ERR, FAULT and the slots of PW_SET, RESULT, the operands, CTRL, the descriptor and DBUF read as
before the command, as do the accumulators; and right after the start every register but STATUS
does (10_state.md R24, 60_exceptions.md R202). Point k + 1 is after k bus events
(notes/assumptions/8.md). -/
def Obligations.WriteWhileBusy : Prop :=
  ∀ (s : State) (w : Word) (i : Instr) (k : Nat) (o : HostOp) (rest : List HostInput),
    s.fault = none → s.busy = false → decode w = .ok i →
    s.host = .during w [(k, o)] :: rest →
    (State.midCommand i k { s with host := rest }).busy = true →
    ((∃ n v, o = .regWrite n v) ∨ (∃ j b, o = .dbufWrite j b) →
      ∀ t, exec i { s with host := rest } = .next t →
        step s = .next { t with fault := if t.fault = none then some .busy else t.fault }) ∧
    (∀ n, o = .regRead n →
      ∃ v, step s = exec i { s with host := rest, hostOut := s.hostOut ++ [v] } ∧
        v = (State.midCommand i k { s with host := rest }).readReg n ∧
        (n = 1 → v.getLsbD 0 = true ∧ v.extractLsb' 8 11 = (s.readReg 1).extractLsb' 8 11) ∧
        (n ∉ [0x01, 0x16, 0x17, 0x18] → v = s.readReg n) ∧
        (k = 0 → n ≠ 1 → v = s.readReg n)) ∧
    (∀ j, o = .dbufRead j →
      step s = exec i { s with host := rest, hostOut := s.hostOut ++ [s.readPort j] })

/-- A host reset that lands while a command runs ends it with no finish: the reset state follows,
and exactly the bus events made before its point stand. They are the first of the events the
command makes when it runs to its end; the answers drawn so far stay drawn, and the answers to come
are the same (70_reset_and_hazards.md R233; point k + 1 is after k events,
notes/assumptions/8.md). -/
def Obligations.ResetWhileBusy : Prop :=
  ∀ (s u : State) (w : Word) (i : Instr) (k : Nat) (rest : List HostInput),
    s.fault = none → s.busy = false → decode w = .ok i →
    s.host = .during w [(k, .reset)] :: rest →
    (State.midCommand i k { s with host := rest }).busy = true →
    exec i { s with host := rest } = .next u →
    ∃ t made later, step s = .next t ∧ AddedEvents s t made ∧ made.length = k - 1 ∧
      AddedEvents s u (made ++ later) ∧
      t = { State.resetOf s.desc with bus := t.bus, host := rest, hostOut := s.hostOut } ∧
      t.bus = { (State.midCommand i k { s with host := rest }).bus with limit := none } ∧
      t.bus.bools = s.bus.bools ∧ t.bus.bytes = s.bus.bytes ∧
      s.bus.nBool ≤ t.bus.nBool ∧ t.bus.nBool ≤ u.bus.nBool ∧
      s.bus.nByte ≤ t.bus.nByte ∧ t.bus.nByte ≤ u.bus.nByte

/-! ### CRC family -/

/-- CRC8_INIT, CRC8_BYTE, CRC16_INIT and CRC16_BYTE complete in every state, with the accumulator
and RESULT of 40_crc.md R104, R105, R108 and R109; nothing else changes. With each its CMD word, and
the corner cases of R105 and R109. -/
def Obligations.CrcRegisterCommands : Prop :=
  (∀ s : State,
    exec .crc8Init s = .next (plainFinish 0 { s with acc8 := 0 }) ∧
    exec .crc8Byte s = .next (plainFinish ((crc8Step s.acc8 s.argByte).setWidth 16)
      { s with acc8 := crc8Step s.acc8 s.argByte }) ∧
    exec .crc16Init s = .next (plainFinish s.argSeed { s with acc16 := s.argSeed }) ∧
    exec .crc16Byte s = .next (plainFinish (crc16Step s.acc16 s.argByte)
      { s with acc16 := crc16Step s.acc16 s.argByte })) ∧
  (decode 0x01000000 = .ok .crc8Init ∧ decode 0x02000000 = .ok .crc8Byte ∧
    decode 0x08000000 = .ok .crc16Init ∧ decode 0x09000000 = .ok .crc16Byte) ∧
  (∀ c : Byte, crc8Step c c = 0) ∧
  (∀ (c c' : Half) (b b' : Byte), c ^^^ b.setWidth 16 = c' ^^^ b'.setWidth 16 →
    crc16Step c b = crc16Step c' b')

/-- CRC8_BLOCK, CRC16_BLOCK, CRC8_CHECK and CRC16_CHECK complete on every legal, marked window. The
accumulator is the CRC of the window's bytes; a block command answers it; a check finishes with 0 on
the accept residual and raises IntegrityError otherwise. Nothing else changes, no bus flag in
particular (40_crc.md R106, R107, R110, R111). -/
def Obligations.CrcWindowCommands : Prop :=
  ∀ (s : State) (xs : List Byte), s.inputIs s.argLen.toNat xs →
    exec .crc8Block s =
      .next (plainFinish ((crc8 xs).setWidth 16) { s with acc8 := crc8 xs }) ∧
    exec .crc16Block s =
      .next (plainFinish (crc16 xs s.argSeed) { s with acc16 := crc16 xs s.argSeed }) ∧
    exec .crc8Check s = .next
      (if crc8 xs = 0 then plainFinish 0 { s with acc8 := crc8 xs }
       else plainRaise .integrity { s with acc8 := crc8 xs }) ∧
    exec .crc16Check s = .next
      (if crc16 xs s.argSeed = 0xB001 then plainFinish 0 { s with acc16 := crc16 xs s.argSeed }
       else plainRaise .integrity { s with acc16 := crc16 xs s.argSeed })

/-- The commands with an input window fault F_DBUF where it leaves DBUF and F_UNDEF where a byte of
it is unmarked, before anything else. The window has ARG_LEN bytes; PW_LOAD's has PW_LEN, and none
on a bank without passwords (20_memory.md R64, 10_state.md R29, 44_scratchpad.md R188,
60_exceptions.md R207). -/
def Obligations.InputWindowFaults : Prop :=
  ∀ (s : State) (i : Instr) (n : Nat),
    (n = s.argLen.toNat ∧ i ∈ [.crc8Block, .crc8Check, .crc16Block, .crc16Check, .spWrite] ∨
      (∃ k : BitVec 2, k ≠ 3 ∧ n = s.argLen.toNat ∧ (i = .write k ∨ i = .writePagePacket k)) ∨
      ∃ k : BitVec 2, k ≠ 3 ∧ n = (if s.desc.pwGated then s.desc.pwLen else 0) ∧
        i = .pwLoad k) →
    (s.desc.dbufSize < s.argOff.toNat + n → exec i s = .next (plainFault .dbuf s)) ∧
    (s.argOff.toNat + n ≤ s.desc.dbufSize →
      (∃ a, s.argOff.toNat ≤ a ∧ a < s.argOff.toNat + n ∧ s.dbuf.read a = none) →
      exec i s = .next (plainFault .undef s))

/-- CRC16_EMIT writes the inverted accumulator low byte first and leaves every other byte and every
other register alone; an illegal window is F_DBUF (40_crc.md R112). -/
def Obligations.Crc16EmitCommand : Prop :=
  ∀ s : State,
    (s.desc.dbufSize < s.argOff.toNat + 2 →
      exec .crc16Emit s = .next (plainFault .dbuf s)) ∧
    (s.argOff.toNat + 2 ≤ s.desc.dbufSize →
      ∃ t, exec .crc16Emit s = .next t ∧
        t = { plainFinish (s.acc16 ^^^ 0xFFFF) s with dbuf := t.dbuf } ∧
        DbufHolds s t s.argOff.toNat
          [(s.acc16 ^^^ 0xFFFF).setWidth 8, ((s.acc16 ^^^ 0xFFFF) >>> 8).setWidth 8])

/-- The residual laws of 40_crc.md R113: (a) CRC8 over data and its own CRC8 is 0; (b) CRC16 over
data and its inverted CRC16, low byte first, is 0xB001 under the same seed; (c) two seeds never give
the same CRC16. That 0xB001 is the residual rests on the polynomial the spec presumes
(notes/assumptions/9.md). -/
def Obligations.CrcResidualLaws : Prop :=
  (∀ xs : List Byte, crc8 (xs ++ [crc8 xs]) = 0) ∧
  (∀ (xs : List Byte) (seed : Half),
    crc16 (xs ++ [(crc16 xs seed ^^^ 0xFFFF).setWidth 8,
      ((crc16 xs seed ^^^ 0xFFFF) >>> 8).setWidth 8]) seed = 0xB001) ∧
  (∀ (ys : List Byte) (seed seed' : Half), seed ≠ seed' → crc16 ys seed ≠ crc16 ys seed')

/-- The CRC functions of 40_crc.md R100 to R103 as the rules write them: the eight shifts of a step,
the start value of CRC8, the seed of CRC16, no final inversion. -/
def Obligations.CrcFunctions : Prop :=
  (∀ c b : Byte, crc8Step c b = (List.range 8).foldl
    (fun (c : Byte) (_ : Nat) => if c.getLsbD 0 = true then (c >>> 1) ^^^ 0x8C else c >>> 1)
    (c ^^^ b)) ∧
  (∀ (c : Half) (b : Byte), crc16Step c b = (List.range 8).foldl
    (fun (c : Half) (_ : Nat) => if c.getLsbD 0 = true then (c >>> 1) ^^^ 0xA001 else c >>> 1)
    (c ^^^ b.setWidth 16)) ∧
  crc8 [] = 0 ∧ (∀ (xs : List Byte) (x : Byte), crc8 (xs ++ [x]) = crc8Step (crc8 xs) x) ∧
  (∀ seed, crc16 [] seed = seed) ∧
  (∀ (xs : List Byte) (x : Byte) (seed : Half),
    crc16 (xs ++ [x]) seed = crc16Step (crc16 xs seed) x)

/-! ### Frames over all commands -/

/-- No command changes the descriptor, ARG_*, CTRL or the model's inputs (00_scope.md R3,
10_state.md R23, R27). ACC8 changes only by the CRC8 commands of 40_crc.md R104 to R107 and ACC16
only by the CRC16 commands of R108 to R111; CRC16_EMIT writes neither (R112, R114). -/
def Obligations.HostSideAndAccumulatorFrame : Prop :=
  ∀ (i : Instr) (s t : State), exec i s = .next t →
    SameHostSide s t ∧
    (i ∉ [.crc8Init, .crc8Byte, .crc8Block, .crc8Check] → t.acc8 = s.acc8) ∧
    (i ∉ [.crc16Init, .crc16Byte, .crc16Block, .crc16Check] → t.acc16 = s.acc16)

/-- The registers of the staged transaction change only by SP_WRITE, WRITE and WRITE_PAGE_PACKET,
SP_ES by SP_READ_VERIFY too; the password slots only by PW_LOAD and PW_CLEAR, and of those only the
selected one (10_state.md R35 to R39). -/
def Obligations.StagedAndPasswordFrame : Prop :=
  ∀ (i : Instr) (s t : State), exec i s = .next t →
    (i ≠ .spWrite → writesBank i = false →
      t.spTA = s.spTA ∧ t.spLen = s.spLen ∧ t.spBuf = s.spBuf ∧
        (i ≠ .spReadVerify → t.spES = s.spES)) ∧
    (∀ slot, (∀ k, (i = .pwLoad k ∨ i = .pwClear k) → slotOf k ≠ some slot) →
      t.pw.get slot = s.pw.get slot)

/-- A command changes no DBUF byte outside its output window, and none at all when it ends by a
raise or a fault (10_state.md R30, 30_encoding.md R86). -/
def Obligations.DbufFrame : Prop :=
  ∀ (i : Instr) (s t : State), s.fault = none → exec i s = .next t →
    (∀ a, ¬(s.argOff.toNat ≤ a ∧ a < s.argOff.toNat + outputWindow i s) →
      t.dbuf.read a = s.dbuf.read a) ∧
    (t.fault ≠ none ∨ t.err ≠ none → t.dbuf = s.dbuf)

/-- A fault changes FAULT and BUSY and nothing else, and a command that does not fault leaves FAULT
alone; BUSY is 0 after every command (60_exceptions.md R203, R204, R210). -/
def Obligations.FaultChangesNothingElse : Prop :=
  ∀ (i : Instr) (s t : State), exec i s = .next t →
    t.busy = false ∧ (t.fault = s.fault ∨ ∃ f, t = plainFault f s)

/-- What `raise` leaves (60_exceptions.md R204 to R206), for a command run on a machine that is not
faulted: RESULT is 0 and DBUF unchanged; a bus command clears CONT_OK, leaves no open scratchpad
transaction, and clears SPEED_OK exactly for the errors that come from bus data. -/
def Obligations.RaiseRules : Prop :=
  ∀ (i : Instr) (s t : State) (e : Err), s.fault = none → exec i s = .next t → t.fault = none →
    t.err = some e →
    t.result = 0 ∧ t.dbuf = s.dbuf ∧
    (isBus i = false → SameBusFlags s t) ∧
    (isBus i = true → t.contOk = false ∧ t.spState.isOpen = false ∧
      ((e ∈ [.integrity, .verification, .commit, .authentication, .communication] ∨
          (e = .format ∧ ∃ c k, i = .readPagePacket c k)) → t.speedOk = false) ∧
      ((e ∈ [.range, .capability, .powerUnavailable] ∨
          (e = .format ∧ ∃ k, i = .writePagePacket k)) →
        s.speedOk = true → t.speedOk = true))

/-- What a command does to CONT_OK (10_state.md R32), run on a machine that is not faulted; reset
clears it. -/
def Obligations.ContOkRule : Prop :=
  (∀ (i : Instr) (s t : State), s.fault = none → exec i s = .next t →
    t.contOk =
      if t.fault ≠ none then s.contOk
      else if isBus i = false ∧ i ≠ .forceVerify then s.contOk
      else decide (setsCont i = true ∧ t.err = none)) ∧
  ∀ s : State, s.resetMachine.contOk = false

/-- The history only grows and the answers are drawn in order; a command that is no bus command
makes no bus event; and but for FORCE_VERIFY it changes neither SPEED_OK nor CONT_OK nor SP_STATE
(20_memory.md R74; 40_crc.md; 44_scratchpad.md R188, R189). -/
def Obligations.HistoryGrows : Prop :=
  ∀ (i : Instr) (s t : State), exec i s = .next t →
    (∃ es, AddedEvents s t es) ∧ s.bus.nBool ≤ t.bus.nBool ∧ s.bus.nByte ≤ t.bus.nByte ∧
    (isBus i = false → NoBusEvent s t ∧ (i ≠ .forceVerify → SameBusFlags s t))

/-! ### Bank commands -/

/-- FORCE_VERIFY, CMD word 0x1F000000, completes in every state: it clears SPEED_OK and CONT_OK,
RESULT is 0, and nothing else changes (41_bank.md R129). -/
def Obligations.ForceVerifyCommand : Prop :=
  decode 0x1F000000 = .ok .forceVerify ∧
  ∀ s : State,
    exec .forceVerify s = .next (plainFinish 0 { s with speedOk := false, contOk := false })

/-- READ completes with the bytes the bus answers (41_bank.md R120 to R123): continued or not,
password-gated or not, on operands in range, where the bank takes the block at once. It opens the
read, sends SeqRead(PHYS_OFF + ARG_ADDR, ARG_LEN) unless it is continued, and receives. -/
def Obligations.ReadCompletes : Prop :=
  ∀ (cont : Bool) (pwsel : BitVec 2) (slot : PwSlot) (s : State),
    slotOf pwsel = some slot → (s.contOk = true → s.speedOk = true) →
    s.readStarts cont pwsel s.argLen.toNat →
    s.argAddr.toNat + s.argLen.toNat ≤ s.desc.size →
    s.readOpens cont →
    takenAtOnce s.desc (s.bus.bytesAfter (s.openBytes cont) s.argLen.toNat) →
    ∃ t, exec (.read cont pwsel) s = .next t ∧
      ReadFinished s t s.argLen (s.bus.bytesAfter (s.openBytes cont) s.argLen.toNat) true ∧
      AddedEvents s t (s.openEvents cont slot (s.desc.physOff + s.argAddr.toNat) ++
        transferEvents cont (Config.seqRead (s.desc.physOff + s.argAddr.toNat) s.argLen.toNat)
          (s.bus.bytesAfter (s.openBytes cont) s.argLen.toNat))

/-- The busy poll of READ, READ_PAGE, READ_PAGE_EXTRA and READ_PAGE_PACKET (41_bank.md R122).
First: on a bank that asks no password, where every question is answered yes, READ completes with
the first block that is not all 0xFF, or with the POLL_MAX-th. Then, retry by retry, on a bank with
or without passwords: each retry sleeps POLL_DELAY, asks whether the device is present, opens the
read again, with a challenge where the bank asks one, sends SeqRead again and receives. READ or
READ_PAGE that ends with its block `r` makes exactly those events and finishes (what the other two
do with their block: `ReadPageExtraCompletes`, `ReadPagePacketOutcome`). Each of the four commands
that must retry raises CommunicationError where the device is no longer present or not selected,
PowerUnavailable where the challenge lacks power and AuthenticationError where its answer is not the
accept byte; DBUF is then unchanged. -/
def Obligations.ReadPolls : Prop :=
  (∀ (cont : Bool) (pwsel : BitVec 2) (s : State),
    s.desc.busyPoll = true → s.desc.pwGated = false → (s.contOk = true → s.speedOk = true) →
    s.readStarts cont pwsel s.argLen.toNat →
    s.argAddr.toNat + s.argLen.toNat ≤ s.desc.size →
    s.bus.yes (s.openAsks cont + 2 * (s.desc.pollMax - 1)) →
    ∃ t, exec (.read cont pwsel) s = .next t ∧
      ReadFinished s t s.argLen
        (pollPick s.bus s.bus.nByte s.argLen.toNat (s.desc.pollMax - 1)) true) ∧
  ∀ (cont : Bool) (pwsel : BitVec 2) (slot : PwSlot) (s : State) (i : Instr) (p n q k : Nat),
    s.ReadsBlock cont pwsel i p n → slotOf pwsel = some slot →
    (s.contOk = true → s.speedOk = true) → s.readOpens cont →
    q = s.bus.nBool + s.openAsks cont → k = s.bus.nByte + s.openBytes cont →
    (∀ (r : Nat) (v : Half),
      (i = .read cont pwsel ∧ v = s.argLen) ∨
        (i = .readPage cont pwsel ∧ v = BitVec.ofNat 16 s.desc.pageLen) →
      s.TakesBlock q k n r →
      ∃ t, exec i s = .next t ∧ ReadFinished s t v (s.pollBlock k n r) true ∧
        AddedEvents s t
          (s.openEvents cont slot p ++ s.pollEvents cont (s.pw.get slot).bytes p n k r)) ∧
    (∀ (e : Err) (es : List BusEvent), s.PollFails cont (s.pw.get slot).bytes p n q k e es →
      ∃ t, exec i s = .next t ∧ ReadStopped s t e (s.openEvents cont slot p ++ es))

/-- Where READ does not complete on its operands: F_DBUF, then F_CONT, then RangeError, and in no
case a bus event (41_bank.md R123, 60_exceptions.md R207). -/
def Obligations.ReadTraps : Prop :=
  ∀ (cont : Bool) (pwsel : BitVec 2) (s : State), pwsel ≠ 3 →
    (s.desc.dbufSize < s.argOff.toNat + s.argLen.toNat →
      exec (.read cont pwsel) s = .next (plainFault .dbuf s)) ∧
    (s.argOff.toNat + s.argLen.toNat ≤ s.desc.dbufSize → cont = true → s.contOk = false →
      exec (.read cont pwsel) s = .next (plainFault .cont s)) ∧
    (s.readStarts cont pwsel s.argLen.toNat →
      s.desc.size < s.argAddr.toNat + s.argLen.toNat →
      exec (.read cont pwsel) s = .next (earlyRaise .range s))

/-- A password challenge that does not pass, where a command that is not continued opens a read on a
password-gated bank and the device is selected: READ, the five page reads, and the read-back of a
WRITE of no byte. Where power cannot be delivered it raises PowerUnavailable and sends no secret;
where it can and the answer is not the accept byte it raises AuthenticationError, and SPEED_OK is 0.
No DBUF byte changes, CONT_OK is 0, no scratchpad transaction stays open, and no event follows
(44_scratchpad.md R186; 41_bank.md R121, R126; 42_paged.md R141 to R147). -/
def Obligations.ReadRejected : Prop :=
  ∀ (pwsel : BitVec 2) (slot : PwSlot) (s : State) (i : Instr) (ta q : Nat)
    (es : List BusEvent),
    s.desc.pwGated = true → slotOf pwsel = some slot → s.ReachesOpen pwsel i ta q es →
    s.bus.yes (q + s.prologueAsks) →
    (s.bus.boolAnswer (s.bus.nBool + (q + s.prologueAsks)) = false →
      ∃ t, exec i s = .next t ∧ PowerRaise s t
        (es ++ prologueEvents s.desc s.speedOk ++ [.canDeliverPower false]) true) ∧
    (s.bus.boolAnswer (s.bus.nBool + (q + s.prologueAsks)) = true →
      s.bus.byteAnswer s.bus.nByte ≠ s.desc.pwAccept →
      ∃ t, exec i s = .next t ∧
        BusRaise s t .authentication (es ++ s.openEvents false slot ta))

/-- A failed speed negotiation or a failed selection raises CommunicationError from every bus
command that is not continued: READ and the page reads, WRITE and WRITE_PAGE_PACKET, the six OTP
commands, SP_WRITE, SP_READ_VERIFY, SP_VERIFY_PASSWORD and SP_COPY; and from the read-back of a
direct write and the status read behind an OTP program. SPEED_OK and CONT_OK are 0, DBUF and the
staged registers are unchanged, no scratchpad transaction stays open, and nothing is sent, pulsed or
received behind the question answered no (41_bank.md R120; 60_exceptions.md R200, R204 to R206). -/
def Obligations.ReadNotSelected : Prop :=
  ∀ (s : State) (i : Instr) (speedOk : Bool) (q : Nat) (es : List BusEvent),
    s.ReachesPrologue i speedOk q es →
    ¬ s.bus.yesFrom (s.bus.nBool + q) (asksOf speedOk) →
    ∃ t, exec i s = .next t ∧ BusRaise s t .communication
      (es ++ failedPrologue s.desc speedOk (s.bus.boolAnswer (s.bus.nBool + q)))

/-- The checks of WRITE and WRITE_PAGE_PACKET before any bus transfer. WRITE: RangeError, then
CapabilityError on a bank that cannot be written, then PowerUnavailable where the transport lacks
what the bank needs. WRITE_PAGE_PACKET: FormatError, then RangeError for the page, then as WRITE.
None touches SPEED_OK (41_bank.md R124 to R126; 42_paged.md R148; 60_exceptions.md R205, R207). -/
def Obligations.WriteTraps : Prop :=
  ∀ (pwsel : BitVec 2) (s : State) (xs : List Byte), pwsel ≠ 3 → s.inputIs s.argLen.toNat xs →
    (s.desc.size < s.argAddr.toNat + s.argLen.toNat →
      exec (.write pwsel) s = .next (earlyRaise .range s)) ∧
    (s.argAddr.toNat + s.argLen.toNat ≤ s.desc.size → ¬ Writable s.desc →
      exec (.write pwsel) s = .next (earlyRaise .capability s)) ∧
    (s.argAddr.toNat + s.argLen.toNat ≤ s.desc.size → Writable s.desc → s.powerMissing →
      ∃ t, exec (.write pwsel) s = .next t ∧ PowerRaise s t s.powerEvents s.speedOk) ∧
    (s.desc.maxPkt < s.argLen.toNat →
      exec (.writePagePacket pwsel) s = .next (earlyRaise .format s)) ∧
    (s.argLen.toNat ≤ s.desc.maxPkt → s.desc.pageCount ≤ s.argPage.toNat →
      exec (.writePagePacket pwsel) s = .next (earlyRaise .range s)) ∧
    (s.desc.WF → s.argLen.toNat ≤ s.desc.maxPkt → s.argPage.toNat < s.desc.pageCount →
      ¬ Writable s.desc →
      exec (.writePagePacket pwsel) s = .next (earlyRaise .capability s)) ∧
    (s.desc.WF → s.argLen.toNat ≤ s.desc.maxPkt → s.argPage.toNat < s.desc.pageCount →
      Writable s.desc → s.powerMissing →
      ∃ t, exec (.writePagePacket pwsel) s = .next t ∧
        PowerRaise s t s.powerEvents s.speedOk)

/-- WRITE on a bank without a scratchpad, or of no byte on any bank that can be written, where every
query is answered yes (41_bank.md R125 to R128): with verification on and a read-back that differs
from the bytes written it raises VerificationError, else it finishes with RESULT the byte count. It
asks for the power the bank needs, sends SeqWrite(PHYS_OFF + ARG_ADDR, the bytes), under the program
pulse where the bank needs it and not at all where there is no byte, and with verification on reads
the range back, with the busy poll of R122: the read-back is its block `r`, which is block 0 on a
bank that does not poll. A retry of it that fails raises as in `ReadPolls`. On a password-gated
bank, which has a scratchpad, that is a write of no byte; its read-back opens with a challenge,
accepted here. -/
def Obligations.WriteDirectOutcome : Prop :=
  ∀ (pwsel : BitVec 2) (slot : PwSlot) (s : State) (xs : List Byte) (p asks k : Nat)
    (sent opened : List BusEvent),
    slotOf pwsel = some slot → (s.desc.spPresent = false ∨ s.argLen = 0) →
    s.inputIs s.argLen.toNat xs → p = s.desc.physOff + s.argAddr.toNat →
    s.argAddr.toNat + s.argLen.toNat ≤ s.desc.size → Writable s.desc →
    asks = powerAsks s.desc + (if 0 < xs.length then s.prologueAsks else 0) +
      (if s.verify then
        asksOf (s.speedOk || decide (0 < xs.length)) + s.desc.pwGated.toNat else 0) →
    k = s.bus.nByte + s.desc.pwGated.toNat → s.bus.yes asks →
    (s.verify = true → s.desc.pwGated = true →
      s.bus.byteAnswer s.bus.nByte = s.desc.pwAccept) →
    sent = s.powerEvents ++
      (if 0 < xs.length then directEvents s.desc s.speedOk p xs else []) →
    opened = openEvents s.desc (s.speedOk || decide (0 < xs.length)) false
      (s.pw.get slot).bytes p s.desc.pwAccept →
    (∀ r, (s.verify = true → s.TakesBlock (s.bus.nBool + asks) k xs.length r) →
      ∃ t, exec (.write pwsel) s = .next t ∧
        AddedEvents s t (sent ++ (if s.verify then
          opened ++ s.pollEvents false (s.pw.get slot).bytes p xs.length k r else [])) ∧
        (if s.verify = true ∧ s.pollBlock k xs.length r ≠ xs then
          DirtyRaise s t .verification ∧ t.spState = s.spState.abandon ∧ SameStaged s t
         else QuietFinished s t s.argLen (s.speedOk || s.verify || decide (0 < xs.length)))) ∧
    (s.verify = true → ∀ (e : Err) (es : List BusEvent),
      s.PollFails false (s.pw.get slot).bytes p xs.length (s.bus.nBool + asks) k e es →
      ∃ t, exec (.write pwsel) s = .next t ∧ ReadStopped s t e (sent ++ opened ++ es))

/-- WRITE and WRITE_PAGE_PACKET through the scratchpad, over however many rows, on a bank with or
without passwords, verification on or off. Where every question is answered yes and every row's
read-back, challenge and confirmation are good, each row is staged, verified, authenticated where
the bank asks it, and committed, in order and with the bytes R182 to R190 send; the last row stands
in the staged transaction's registers. Then the write finishes with RESULT ARG_LEN, or raises
VerificationError where verification is on and the range reads back otherwise; that read-back is
block `r` of the busy poll of R122, block 0 on a bank that does not poll. Where a row is the first
that is not good, the write stops there: with IntegrityError or VerificationError by its read-back,
AuthenticationError or PowerUnavailable by its challenge, PowerUnavailable by its copy, CommitError
by the confirmation byte 0xFF, CommunicationError by a selection. The rows before it are committed,
nothing follows, RESULT is 0, and SP_STATE is ABORTED once the row was staged. And so where the
read-back behind the rows does not open, or a retry of it fails, SP_STATE staying COMMITTED
(41_bank.md R122, R126, R128; 42_paged.md R148; 44_scratchpad.md R182, R184, R186, R190;
60_exceptions.md R208; 70_reset_and_hazards.md R246). -/
def Obligations.WriteRowCompletes : Prop :=
  ∀ (pwsel : BitVec 2) (slot : PwSlot) (s : State) (xs : List Byte)
    (init : List (Nat × List Byte)) (ta : Nat) (ys : List Byte), s.desc.WF →
    slotOf pwsel = some slot → s.desc.spPresent = true → s.inputIs s.argLen.toNat xs →
    (s.argAddr.toNat + s.argLen.toNat ≤ s.desc.size →
      (∀ r, s.RowsGood (s.desc.physOff + s.argAddr.toNat) xs (init ++ [(ta, ys)]) r →
        ∃ t, exec (.write pwsel) s = .next t ∧
          RowsWritten s t slot (s.desc.physOff + s.argAddr.toNat) xs init ta ys r s.argLen) ∧
      (∀ stage e es, s.WriteStops (s.pw.get slot).bytes (s.desc.physOff + s.argAddr.toNat) xs
          init ta ys stage e es →
        ∃ t, exec (.write pwsel) s = .next t ∧
          RowStopped s t init ta ys stage e (s.powerEvents ++ es))) ∧
    (s.argLen.toNat ≤ s.desc.maxPkt → s.argPage.toNat < s.desc.pageCount →
      (∀ r, s.RowsGood s.pagePhys (packetOf s.pageAbs xs) (init ++ [(ta, ys)]) r →
        ∃ t, exec (.writePagePacket pwsel) s = .next t ∧
          RowsWritten s t slot s.pagePhys (packetOf s.pageAbs xs) init ta ys r s.argLen) ∧
      (∀ stage e es, s.WriteStops (s.pw.get slot).bytes s.pagePhys (packetOf s.pageAbs xs)
          init ta ys stage e es →
        ∃ t, exec (.writePagePacket pwsel) s = .next t ∧
          RowStopped s t init ta ys stage e (s.powerEvents ++ es)))

/-- A polling READ takes at most POLL_MAX reads, whatever the bus answers: at most POLL_MAX receives
on a bank without passwords, where every receive is a read, and at most twice as many on a
password-gated bank, where each read may open with a challenge that receives one byte; at most
POLL_MAX - 1 presence checks; and a bounded number of bus events (41_bank.md R121, R122,
70_reset_and_hazards.md R251). -/
def Obligations.PollIsBounded : Prop :=
  ∀ (cont : Bool) (pwsel : BitVec 2) (s t : State) (es : List BusEvent),
    exec (.read cont pwsel) s = .next t → AddedEvents s t es →
    (1 ≤ s.desc.pollMax →
      (es.filter BusEvent.isRecv).length ≤ (1 + s.desc.pwGated.toNat) * s.desc.pollMax) ∧
    (es.filter fun e => e = .isPresent true ∨ e = .isPresent false).length
      ≤ s.desc.pollMax - 1 ∧
    es.length ≤ 8 + 10 * (s.desc.pollMax - 1)

/-! ### Page commands -/

/-- READ_PAGE completes with the page's bytes and RESULT PAGE_LEN; it opens the read, sends
SeqRead(PH(pg), PAGE_LEN) unless it is continued, and receives (42_paged.md R141). -/
def Obligations.ReadPageCompletes : Prop :=
  ∀ (cont : Bool) (pwsel : BitVec 2) (slot : PwSlot) (s : State),
    slotOf pwsel = some slot →
    (s.contOk = true → s.speedOk = true) → s.readStarts cont pwsel s.desc.pageLen →
    s.argPage.toNat < s.desc.pageCount → s.readOpens cont →
    takenAtOnce s.desc (s.bus.bytesAfter (s.openBytes cont) s.desc.pageLen) →
    ∃ t, exec (.readPage cont pwsel) s = .next t ∧
      ReadFinished s t (BitVec.ofNat 16 s.desc.pageLen)
        (s.bus.bytesAfter (s.openBytes cont) s.desc.pageLen) true ∧
      AddedEvents s t (s.openEvents cont slot s.pagePhys ++
        transferEvents cont (Config.seqRead s.pagePhys s.desc.pageLen)
          (s.bus.bytesAfter (s.openBytes cont) s.desc.pageLen))

/-- READ_PAGE_EXTRA completes with the page's bytes and the extra info behind them, RESULT PAGE_LEN
and CONT_OK 0; behind the read of the page, which ends with its block `r` (41_bank.md R122; block 0
on a bank that does not poll), it selects the device and sends SeqExtra(ABS(pg)), also when it is
continued. Where that selection fails it raises CommunicationError, sends no SeqExtra and leaves
DBUF unchanged (42_paged.md R142). -/
def Obligations.ReadPageExtraCompletes : Prop :=
  ∀ (cont : Bool) (pwsel : BitVec 2) (slot : PwSlot) (s : State) (q k r : Nat)
    (read : List BusEvent) (extra : List Byte),
    slotOf pwsel = some slot → (s.contOk = true → s.speedOk = true) →
    s.readStarts cont pwsel (s.desc.pageLen + s.desc.extraLen) → s.desc.flagExtra = true →
    s.argPage.toNat < s.desc.pageCount → s.readOpens cont →
    q = s.bus.nBool + s.openAsks cont → k = s.bus.nByte + s.openBytes cont →
    s.TakesBlock q k s.desc.pageLen r →
    read = s.openEvents cont slot s.pagePhys ++
      s.pollEvents cont (s.pw.get slot).bytes s.pagePhys s.desc.pageLen k r →
    extra = s.bus.byteAnswers (k + s.desc.pageLen + r * retryBytes s.desc s.desc.pageLen)
      s.desc.extraLen →
    (s.bus.boolAnswer (q + r * retryAsks s.desc) = false →
      ∃ t, exec (.readPageExtra cont pwsel) s = .next t ∧
        BusRaise s t .communication (read ++ [.select s.desc.devAddr false])) ∧
    (s.bus.boolAnswer (q + r * retryAsks s.desc) = true →
      ∃ t, exec (.readPageExtra cont pwsel) s = .next t ∧
        ReadFinished s t (BitVec.ofNat 16 s.desc.pageLen)
          (s.pollBlock k s.desc.pageLen r ++ extra) false ∧
        AddedEvents s t (read ++ prologueEvents s.desc true ++
          transferEvents false (Config.seqExtra s.pageAbs) extra))

/-- READ_PAGE_CRC completes with the page's bytes where the device's CRC accepts them, and raises
IntegrityError, clearing SPEED_OK, where it does not; it sends SeqAutoCrcRead(PH(pg)) unless it is
continued, and receives the page and two CRC bytes (42_paged.md R143). -/
def Obligations.ReadPageCrcOutcome : Prop :=
  ∀ (cont : Bool) (pwsel : BitVec 2) (slot : PwSlot) (s : State),
    slotOf pwsel = some slot →
    (s.contOk = true → s.speedOk = true) → s.readStarts cont pwsel s.desc.pageLen →
    s.desc.flagAutoCrc = true → s.argPage.toNat < s.desc.pageCount → s.readOpens cont →
    ∃ t, exec (.readPageCrc cont pwsel) s = .next t ∧
      AddedEvents s t (s.openEvents cont slot s.pagePhys ++
        transferEvents cont (Config.seqAutoCrcRead s.pagePhys)
          (s.bus.bytesAfter (s.openBytes cont) (s.desc.pageLen + 2))) ∧
      (if s.pageCrcAccepted cont then
        ReadFinished s t (BitVec.ofNat 16 s.desc.pageLen)
          (s.bus.bytesAfter (s.openBytes cont) s.desc.pageLen) true
       else DirtyRaise s t .integrity ∧ t.spState = s.spState.abandon ∧ SameStaged s t)

/-- READ_PAGE_CRC_EXTRA completes with the page's bytes and the extra info behind them where the
device's CRC accepts the page; what it sends is READ_PAGE_CRC's, then a selection and
SeqExtra(ABS(pg)). Where the CRC does not accept the page it raises IntegrityError behind the page
transfer and sends no SeqExtra; where the selection for the extra info fails, CommunicationError. In
both cases DBUF is unchanged and SPEED_OK is 0 (42_paged.md R144). -/
def Obligations.ReadPageCrcExtraCompletes : Prop :=
  ∀ (cont : Bool) (pwsel : BitVec 2) (slot : PwSlot) (s : State),
    slotOf pwsel = some slot → (s.contOk = true → s.speedOk = true) →
    s.readStarts cont pwsel (s.desc.pageLen + s.desc.extraLen) → s.desc.flagAutoCrc = true →
    s.desc.flagExtra = true → s.argPage.toNat < s.desc.pageCount → s.readOpens cont →
    (¬ s.pageCrcAccepted cont →
      ∃ t, exec (.readPageCrcExtra cont pwsel) s = .next t ∧
        BusRaise s t .integrity (s.openEvents cont slot s.pagePhys ++
          transferEvents cont (Config.seqAutoCrcRead s.pagePhys)
            (s.bus.bytesAfter (s.openBytes cont) (s.desc.pageLen + 2)))) ∧
    (s.pageCrcAccepted cont → s.bus.boolAnswer (s.bus.nBool + s.openAsks cont) = false →
      ∃ t, exec (.readPageCrcExtra cont pwsel) s = .next t ∧
        BusRaise s t .communication (s.openEvents cont slot s.pagePhys ++
          transferEvents cont (Config.seqAutoCrcRead s.pagePhys)
            (s.bus.bytesAfter (s.openBytes cont) (s.desc.pageLen + 2)) ++
          [.select s.desc.devAddr false])) ∧
    (s.pageCrcAccepted cont → s.bus.yes (s.openAsks cont + 1) →
      ∃ t, exec (.readPageCrcExtra cont pwsel) s = .next t ∧
        ReadFinished s t (BitVec.ofNat 16 s.desc.pageLen)
          (s.bus.bytesAfter (s.openBytes cont) s.desc.pageLen ++
            s.bus.bytesAfter (s.openBytes cont + (s.desc.pageLen + 2)) s.desc.extraLen) false ∧
        AddedEvents s t (s.openEvents cont slot s.pagePhys ++
          transferEvents cont (Config.seqAutoCrcRead s.pagePhys)
            (s.bus.bytesAfter (s.openBytes cont) (s.desc.pageLen + 2)) ++
          prologueEvents s.desc true ++ transferEvents false (Config.seqExtra s.pageAbs)
            (s.bus.bytesAfter (s.openBytes cont + (s.desc.pageLen + 2)) s.desc.extraLen)))

/-- The page reads trap as READ does: F_DBUF, F_CONT, then CapabilityError where the bank lacks what
the command needs, then RangeError for the page, and in no case a bus event. READ_PAGE and
READ_PAGE_PACKET need nothing of the bank, READ_PAGE_EXTRA the extra info, READ_PAGE_CRC the device
CRC, READ_PAGE_CRC_EXTRA both (42_paged.md R140 to R147, 60_exceptions.md R207). -/
def Obligations.PageReadTraps : Prop :=
  ∀ (cont : Bool) (pwsel : BitVec 2) (s : State) (i : Instr) (has : Bool),
    (i, has) ∈ [(.readPage cont pwsel, true), (.readPageExtra cont pwsel, s.desc.flagExtra),
      (.readPageCrc cont pwsel, s.desc.flagAutoCrc),
      (.readPageCrcExtra cont pwsel, s.desc.flagAutoCrc && s.desc.flagExtra),
      (.readPagePacket cont pwsel, true)] → pwsel ≠ 3 →
    (s.desc.dbufSize < s.argOff.toNat + outputWindow i s →
      exec i s = .next (plainFault .dbuf s)) ∧
    (s.argOff.toNat + outputWindow i s ≤ s.desc.dbufSize → cont = true → s.contOk = false →
      exec i s = .next (plainFault .cont s)) ∧
    (s.readStarts cont pwsel (outputWindow i s) → has = false →
      exec i s = .next (earlyRaise .capability s)) ∧
    (s.readStarts cont pwsel (outputWindow i s) → has = true →
      s.desc.pageCount ≤ s.argPage.toNat → exec i s = .next (earlyRaise .range s))

/-- READ_PAGE_PACKET by the raw page the read ends with, its block `r` (41_bank.md R122; block 0 on
a bank that does not poll; 42_paged.md R146, R147): FormatError where the length byte exceeds
PAGE_LEN - 3, IntegrityError where the seeded CRC16 is not accepted, else the payload and RESULT its
length. In each case it has opened the read, sent SeqRead(PH(pg), PAGE_LEN) unless it is continued,
received the page, and made the retries that the poll asks for. -/
def Obligations.ReadPagePacketOutcome : Prop :=
  ∀ (cont : Bool) (pwsel : BitVec 2) (slot : PwSlot) (s : State) (q k r : Nat) (raw : List Byte)
    (len : Nat),
    slotOf pwsel = some slot →
    (s.contOk = true → s.speedOk = true) → s.readStarts cont pwsel (s.desc.pageLen - 3) →
    s.argPage.toNat < s.desc.pageCount → s.readOpens cont →
    q = s.bus.nBool + s.openAsks cont → k = s.bus.nByte + s.openBytes cont →
    s.TakesBlock q k s.desc.pageLen r →
    raw = s.pollBlock k s.desc.pageLen r → len = (raw.getD 0 0).toNat →
    ∃ t, exec (.readPagePacket cont pwsel) s = .next t ∧
      AddedEvents s t (s.openEvents cont slot s.pagePhys ++
        s.pollEvents cont (s.pw.get slot).bytes s.pagePhys s.desc.pageLen k r) ∧
      (if s.desc.pageLen - 3 < len then
        DirtyRaise s t .format ∧ t.spState = s.spState.abandon ∧ SameStaged s t
      else if crc16 (raw.take (len + 3)) (BitVec.ofNat 16 s.pageAbs) ≠ 0xB001 then
        DirtyRaise s t .integrity ∧ t.spState = s.spState.abandon ∧ SameStaged s t
      else ReadFinished s t (BitVec.ofNat 16 len) ((raw.drop 1).take len) true)

/-- WRITE_PAGE_PACKET on a bank without a scratchpad, where every query is answered yes (42_paged.md
R145, R148; 41_bank.md R126): with verification on and a read-back that differs from the packet it
raises VerificationError and SPEED_OK is 0, else it finishes with RESULT the payload length. It
sends SeqWrite(PH(pg), the packet), under the program pulse where the bank needs it, and with
verification on reads the packet's range back, with the busy poll of R122: the read-back is its
block `r`, which is block 0 on a bank that does not poll. A retry of it that fails raises
CommunicationError, DBUF unchanged. -/
def Obligations.WritePagePacketCompletes : Prop :=
  ∀ (pwsel : BitVec 2) (s : State) (xs packet : List Byte) (asks : Nat)
    (sent : List BusEvent), s.desc.WF → pwsel ≠ 3 →
    s.desc.spPresent = false → s.inputIs s.argLen.toNat xs →
    s.argLen.toNat ≤ s.desc.maxPkt → s.argPage.toNat < s.desc.pageCount → Writable s.desc →
    packet = packetOf s.pageAbs xs →
    asks = powerAsks s.desc + s.prologueAsks + s.verify.toNat → s.bus.yes asks →
    sent = s.powerEvents ++ directEvents s.desc s.speedOk s.pagePhys packet →
    (∀ r, (s.verify = true →
        s.TakesBlock (s.bus.nBool + asks) s.bus.nByte packet.length r) →
      ∃ t, exec (.writePagePacket pwsel) s = .next t ∧
        AddedEvents s t (sent ++ (if s.verify then prologueEvents s.desc true ++
          s.pollEvents false [] s.pagePhys packet.length s.bus.nByte r else [])) ∧
        (if s.verify = true ∧ s.pollBlock s.bus.nByte packet.length r ≠ packet then
          DirtyRaise s t .verification ∧ t.spState = s.spState.abandon ∧ SameStaged s t
         else QuietFinished s t s.argLen true)) ∧
    (s.verify = true → ∀ (e : Err) (es : List BusEvent),
      s.PollFails false [] s.pagePhys packet.length (s.bus.nBool + asks) s.bus.nByte e es →
      ∃ t, exec (.writePagePacket pwsel) s = .next t ∧
        ReadStopped s t e (sent ++ prologueEvents s.desc true ++ es))

/-- The framer's round trip: a packet that fits decodes to its payload, whatever follows it in the
page (42_paged.md R145, R146, R149). -/
def Obligations.PacketRoundTrip : Prop :=
  ∀ (pageLen absPage : Nat) (xs rest : List Byte), 3 ≤ pageLen → pageLen ≤ 256 →
    xs.length ≤ pageLen - 3 →
    udpDecode pageLen absPage (udpEncode absPage xs ++ rest) = .payload xs.length xs

/-- Seed binding (42_paged.md R150): for two absolute page indices below 65536, (a) the CRC bytes of
the same payload differ, and (b) a packet of one page decoded as the other is an IntegrityError. -/
def Obligations.SeedBinding : Prop :=
  ∀ (pageLen a b : Nat) (xs rest : List Byte), 3 ≤ pageLen → pageLen ≤ 256 →
    xs.length ≤ pageLen - 3 → a < 65536 → b < 65536 → a ≠ b →
    (udpEncode a xs).drop (xs.length + 1) ≠ (udpEncode b xs).drop (xs.length + 1) ∧
    udpDecode pageLen b (udpEncode a xs ++ rest) = .integrityError

/-! ### OTP commands -/

/-- The three OTP queries (43_otp.md R162, R164, R166, R168): unsupported, they finish with 0 and no
bus event for every page; supported and in range, where the device answers, they finish with what
the status byte says, having sent the status sequence of the page's absolute index; out of range
they raise RangeError. -/
def Obligations.OtpQueries : Prop :=
  ∀ (s : State) (b : Byte),
    (s.desc.canLock = false →
      exec .isPageLocked s = .next (plainFinish 0 { s with contOk := false })) ∧
    (s.desc.canRedirect = false →
      exec .getRedirectedPage s = .next (plainFinish 0 { s with contOk := false })) ∧
    (s.desc.canLockRedirect = false →
      exec .isRedirectPageLocked s = .next (plainFinish 0 { s with contOk := false })) ∧
    (s.desc.pageCount ≤ s.argPage.toNat →
      (s.desc.canLock = true → exec .isPageLocked s = .next (earlyRaise .range s)) ∧
      (s.desc.canRedirect = true → exec .getRedirectedPage s = .next (earlyRaise .range s)) ∧
      (s.desc.canLockRedirect = true →
        exec .isRedirectPageLocked s = .next (earlyRaise .range s))) ∧
    (s.argPage.toNat < s.desc.pageCount → s.bus.yes s.prologueAsks →
      b = s.bus.byteAnswer s.bus.nByte →
      (s.desc.canLock = true → ∃ t, exec .isPageLocked s = .next t ∧
        QuietFinished s t (if b = s.desc.lockedSentinel then 1 else 0) true ∧
        AddedEvents s t
          (statusEvents s.desc s.speedOk (Config.seqLockStatus s.pageAbs) b)) ∧
      (s.desc.canRedirect = true → ∃ t, exec .getRedirectedPage s = .next t ∧
        QuietFinished s t (BitVec.ofNat 16 (redirectDecode s.desc b)) true ∧
        AddedEvents s t
          (statusEvents s.desc s.speedOk (Config.seqRedirectStatus s.pageAbs) b)) ∧
      (s.desc.canLockRedirect = true → ∃ t, exec .isRedirectPageLocked s = .next t ∧
        QuietFinished s t (if b = s.desc.rlockedSentinel then 1 else 0) true ∧
        AddedEvents s t
          (statusEvents s.desc s.speedOk (Config.seqRedirectLockStatus s.pageAbs) b)))

/-- LOCK_PAGE, LOCK_REDIRECT_PAGE and REDIRECT_PAGE with a legal target, where every query is
answered yes: they ask for the power the bank needs, send SeqLock or SeqLockRedirect with the page's
absolute index and LOCK_KEY, or SeqRedirect with the index and the target, as the bank programs, and
read the status back. They finish, with 1, 1 and the target, when the status byte confirms the
transition, else they raise VerificationError and clear SPEED_OK (43_otp.md R160, R161, R163,
R165). -/
def Obligations.OtpMutations : Prop :=
  ∀ (s : State) (b : Byte), s.argPage.toNat < s.desc.pageCount → s.bus.yes 5 →
    b = s.bus.byteAnswer s.bus.nByte →
    (s.desc.canLock = true →
      ∃ t, exec .lockPage s = .next t ∧
        AddedEvents s t (s.powerEvents ++
          programEvents s.desc s.speedOk (Config.seqLock s.pageAbs s.desc.lockKey) ++
          statusEvents s.desc true (Config.seqLockStatus s.pageAbs) b) ∧
        (if b = s.desc.lockedSentinel then QuietFinished s t 1 true
         else DirtyRaise s t .verification ∧ t.spState = s.spState.abandon ∧ SameStaged s t)) ∧
    (s.desc.canLockRedirect = true →
      ∃ t, exec .lockRedirectPage s = .next t ∧
        AddedEvents s t (s.powerEvents ++
          programEvents s.desc s.speedOk (Config.seqLockRedirect s.pageAbs s.desc.lockKey) ++
          statusEvents s.desc true (Config.seqRedirectLockStatus s.pageAbs) b) ∧
        (if b = s.desc.rlockedSentinel then QuietFinished s t 1 true
         else DirtyRaise s t .verification ∧ t.spState = s.spState.abandon ∧ SameStaged s t)) ∧
    (s.desc.canRedirect = true → s.argPage2 ≠ 0 → s.argPage2.toNat ≤ s.desc.pageCount - 1 →
      ∃ t, exec .redirectPage s = .next t ∧
        AddedEvents s t (s.powerEvents ++
          programEvents s.desc s.speedOk (Config.seqRedirect s.pageAbs s.argPage2.toNat) ++
          statusEvents s.desc true (Config.seqRedirectStatus s.pageAbs) b) ∧
        (if redirectDecode s.desc b = s.argPage2.toNat then QuietFinished s t s.argPage2 true
         else DirtyRaise s t .verification ∧ t.spState = s.spState.abandon ∧ SameStaged s t))

/-- The checks of the OTP mutations before any bus transfer: CapabilityError on a bank without the
capability, then RangeError for the page, then for the target, then PowerUnavailable where the
transport lacks what the bank needs (43_otp.md R160 c, R163, R168; 41_bank.md R125). -/
def Obligations.OtpTraps : Prop :=
  ∀ s : State,
    (s.desc.canLock = false → exec .lockPage s = .next (earlyRaise .capability s)) ∧
    (s.desc.canRedirect = false → exec .redirectPage s = .next (earlyRaise .capability s)) ∧
    (s.desc.canLockRedirect = false →
      exec .lockRedirectPage s = .next (earlyRaise .capability s)) ∧
    (s.desc.pageCount ≤ s.argPage.toNat →
      (s.desc.canLock = true → exec .lockPage s = .next (earlyRaise .range s)) ∧
      (s.desc.canRedirect = true → exec .redirectPage s = .next (earlyRaise .range s)) ∧
      (s.desc.canLockRedirect = true →
        exec .lockRedirectPage s = .next (earlyRaise .range s))) ∧
    (s.argPage.toNat < s.desc.pageCount → s.desc.canRedirect = true →
      (s.argPage2 = 0 ∨ s.desc.pageCount - 1 < s.argPage2.toNat) →
      exec .redirectPage s = .next (earlyRaise .range s)) ∧
    (s.argPage.toNat < s.desc.pageCount → s.powerMissing →
      (s.desc.canLock = true → ∃ t, exec .lockPage s = .next t ∧
        PowerRaise s t s.powerEvents s.speedOk) ∧
      (s.desc.canLockRedirect = true → ∃ t, exec .lockRedirectPage s = .next t ∧
        PowerRaise s t s.powerEvents s.speedOk) ∧
      (s.desc.canRedirect = true → s.argPage2 ≠ 0 →
        s.argPage2.toNat ≤ s.desc.pageCount - 1 → ∃ t, exec .redirectPage s = .next t ∧
        PowerRaise s t s.powerEvents s.speedOk))

/-! ### Scratchpad and password commands -/

/-- SP_WRITE completes where the bytes lie in one scratchpad row of the bank and the device is
selected: it sends CMD_WS, the target address low byte first and the bytes; the transaction is
staged, SP_STATE is WRITTEN and SP_ES is 0 (44_scratchpad.md R182, R183). -/
def Obligations.SpWriteCompletes : Prop :=
  ∀ (s : State) (xs : List Byte), s.desc.WF → s.desc.spPresent = true →
    s.inputIs s.argLen.toNat xs →
    0 < xs.length → s.argAddr.toNat + s.argLen.toNat ≤ s.desc.size →
    s.argPhys % s.desc.spSize + xs.length ≤ s.desc.spSize →
    s.bus.yes s.prologueAsks →
    ∃ t, exec .spWrite s = .next t ∧ FinishedWith s t s.argLen ∧ SameDbuf s t ∧
      t.spState = .written ∧ t.spTA.toNat = s.argPhys ∧ t.spLen.toNat = xs.length ∧
      t.spBuf = xs ++ s.spBuf.drop xs.length ∧ t.spES = 0 ∧ t.speedOk = true ∧
      t.contOk = false ∧ SameHostSide s t ∧ SameAccumulators s t ∧ t.pw = s.pw ∧
      AddedEvents s t
        (stageEvents s.desc s.speedOk (s.desc.physOff + s.argAddr.toNat) xs)

/-- SP_READ_VERIFY in WRITTEN completes where the read-back is good: SP_STATE is VERIFIED, SP_ES the
status echo of an address-aware bank, RESULT is SP_LEN. It sends CMD_RS and receives the echo, the
data and the CRC bytes the bank has (44_scratchpad.md R184, R185). -/
def Obligations.SpReadVerifyCompletes : Prop :=
  ∀ s : State, s.desc.spPresent = true → s.spState = .written →
    s.spLen.toNat ≤ s.spBuf.length → s.bus.yes s.prologueAsks →
    s.readsBack s.bus.nByte s.spTA (s.spBuf.take s.spLen.toNat) →
    ∃ t, exec .spReadVerify s = .next t ∧ FinishedWith s t (s.spLen.setWidth 16) ∧
      SameDbuf s t ∧ t.spState = .verified ∧
      t.spES = (if s.desc.spAddr then s.bus.byteAnswer (s.bus.nByte + 2) else s.spES) ∧
      t.spTA = s.spTA ∧ t.spLen = s.spLen ∧ t.spBuf = s.spBuf ∧ t.speedOk = true ∧
      t.contOk = false ∧ SameHostSide s t ∧ SameAccumulators s t ∧ t.pw = s.pw ∧
      AddedEvents s t (verifyEvents s.desc s.speedOk
        (s.bus.bytesAfter 0 (hdrLen s.desc))
        (s.spBuf.take s.spLen.toNat)
        (s.bus.bytesAfter (hdrLen s.desc + s.spLen.toNat) (crcLen s.desc)))

/-- SP_READ_VERIFY in WRITTEN with a device that is selected, whose read-back is not good, never
verifies. The checks are made in order: a CRC that is not accepted raises IntegrityError, whatever
the echo and the data; then an echo of another target or byte count raises VerificationError, the
data matching or not; then data that differ from what was staged raise VerificationError. The
transaction is ABORTED, SP_ES and the staged bytes stay, and it sent CMD_RS and received the echo,
the data and the CRC bytes the bank has (44_scratchpad.md R184). -/
def Obligations.SpReadVerifyMismatch : Prop :=
  ∀ s : State, s.desc.spPresent = true → s.spState = .written → s.bus.yes s.prologueAsks →
    ¬ (s.backCrcOk ∧ s.backEchoOk ∧ s.backDataOk) →
    ∃ t, exec .spReadVerify s = .next t ∧ t.spState = .aborted ∧
      BusRaise s t (if s.backCrcOk then .verification else .integrity)
        (verifyEvents s.desc s.speedOk (s.bus.bytesAfter 0 (hdrLen s.desc))
          (s.bus.bytesAfter (hdrLen s.desc) s.spLen.toNat)
          (s.bus.bytesAfter (hdrLen s.desc + s.spLen.toNat) (crcLen s.desc)))

/-- SP_VERIFY_PASSWORD in VERIFIED on a password-gated bank, where the device is selected. Where
power cannot be delivered: PowerUnavailable, ABORTED, no secret sent. Where it can: it sends CMD_VP,
SP_TA low byte first and the selected secret but its last byte, and that byte under the pulse;
AUTHED when the accept byte is answered, else AuthenticationError and ABORTED (44_scratchpad.md
R186, R187, R193). -/
def Obligations.SpVerifyPasswordOutcome : Prop :=
  ∀ (pwsel : BitVec 2) (slot : PwSlot) (s : State) (a : Byte), slotOf pwsel = some slot →
    s.desc.pwGated = true → s.spState = .verified → s.bus.yes s.prologueAsks →
    a = s.bus.byteAnswer s.bus.nByte →
    (s.bus.boolAnswer (s.bus.nBool + s.prologueAsks) = false →
      ∃ t, exec (.spVerifyPassword pwsel) s = .next t ∧ PowerRaise s t
        (prologueEvents s.desc s.speedOk ++ [.canDeliverPower false]) true) ∧
    (s.bus.boolAnswer (s.bus.nBool + s.prologueAsks) = true →
      ∃ t, exec (.spVerifyPassword pwsel) s = .next t ∧ SameDbuf s t ∧ SameHostSide s t ∧
        SameAccumulators s t ∧ SameStaged s t ∧ t.pw = s.pw ∧ t.contOk = false ∧
        AddedEvents s t (prologueEvents s.desc s.speedOk ++
          challengeEvents s.desc (s.pw.get slot).bytes s.spTA.toNat a) ∧
        (if a = s.desc.pwAccept then
          FinishedWith s t 0 ∧ t.spState = .authed ∧ t.speedOk = true
         else RaisedWith s t .authentication ∧ t.spState = .aborted ∧ t.speedOk = false))

/-- SP_COPY in the state that may commit. Where power cannot be delivered: PowerUnavailable and
ABORTED, before the prologue. Where it can and the device is selected: the copy sequence is sent
under the pulse, with the target address and the status echo on an address-aware bank; COMMITTED
with RESULT SP_LEN unless the confirmation byte is 0xFF, which is CommitError and ABORTED
(44_scratchpad.md R190, R191). -/
def Obligations.SpCopyOutcome : Prop :=
  ∀ s : State, s.desc.spPresent = true →
    s.spState = (if s.desc.pwGated then .authed else .verified) →
    (s.bus.boolAnswer s.bus.nBool = false →
      ∃ t, exec .spCopy s = .next t ∧ PowerRaise s t [.canDeliverPower false] s.speedOk) ∧
    (s.bus.yes (s.prologueAsks + 1) →
      ∃ t, exec .spCopy s = .next t ∧
        AddedEvents s t (copyEvents s.desc s.speedOk s.spTA.toNat s.spES
          (s.bus.byteAnswer s.bus.nByte)) ∧
        SameDbuf s t ∧ SameHostSide s t ∧ SameAccumulators s t ∧ SameStaged s t ∧
        t.pw = s.pw ∧ t.contOk = false ∧
        (if s.bus.byteAnswer s.bus.nByte = 0xFF then
          RaisedWith s t .commit ∧ t.spState = .aborted ∧ t.speedOk = false
         else FinishedWith s t (s.spLen.setWidth 16) ∧ t.spState = .committed ∧
           t.speedOk = true))

/-- Where the scratchpad commands trap on the bank and the FSM state: a step out of order faults
F_SEQ and changes nothing else; a command on a bank without what it needs raises CapabilityError,
and the two password slot commands touch no bus flag in doing so; SP_WRITE of no byte, of more than
a scratchpad holds, beyond the bank or across a row raises RangeError (44_scratchpad.md R180, R183,
R185, R187, R188, R189, R191). -/
def Obligations.ScratchpadTraps : Prop :=
  ∀ s : State,
    (s.desc.spPresent = true → s.spState ≠ .written →
      exec .spReadVerify s = .next (plainFault .seq s)) ∧
    (∀ pwsel, pwsel ≠ 3 → s.desc.pwGated = true → s.spState ≠ .verified →
      exec (.spVerifyPassword pwsel) s = .next (plainFault .seq s)) ∧
    (s.desc.spPresent = true → s.desc.pwGated = false → s.spState ≠ .verified →
      exec .spCopy s = .next (plainFault .seq s)) ∧
    (s.desc.pwGated = true → s.spState ≠ .authed →
      exec .spCopy s = .next (plainFault .seq s)) ∧
    (s.desc.spPresent = false → s.desc.pwGated = false →
      exec .spReadVerify s = .next (earlyRaise .capability s) ∧
      exec .spCopy s = .next (earlyRaise .capability s) ∧
      (∀ xs, s.inputIs s.argLen.toNat xs →
        exec .spWrite s = .next (earlyRaise .capability s))) ∧
    (∀ xs, s.desc.spPresent = true → s.inputIs s.argLen.toNat xs →
      (s.argLen.toNat = 0 ∨ s.desc.spSize < s.argLen.toNat ∨
        s.desc.size < s.argAddr.toNat + s.argLen.toNat ∨
        s.desc.spSize < (s.desc.physOff + s.argAddr.toNat) % s.desc.spSize + s.argLen.toNat) →
      exec .spWrite s = .next (earlyRaise .range s)) ∧
    (∀ pwsel, pwsel ≠ 3 → s.desc.pwGated = false →
      exec (.spVerifyPassword pwsel) s = .next (earlyRaise .capability s) ∧
      exec (.pwClear pwsel) s = .next (plainRaise .capability s) ∧
      (s.argOff.toNat ≤ s.desc.dbufSize →
        exec (.pwLoad pwsel) s = .next (plainRaise .capability s)))

/-- PW_LOAD completes on every legal, marked window of a password-gated bank: the selected slot
holds the window's bytes and its PW_SET bit is 1. PW_CLEAR completes on every password-gated bank:
the selected slot holds PW_LEN zero bytes and its PW_SET bit is 0. Nothing else changes
(44_scratchpad.md R188, R189). -/
def Obligations.PasswordSlotCommands : Prop :=
  ∀ (s : State) (pwsel : BitVec 2) (slot : PwSlot), s.desc.pwGated = true →
    slotOf pwsel = some slot →
    (∀ xs, s.inputIs s.desc.pwLen xs →
      exec (.pwLoad pwsel) s = .next (plainFinish 0 { s with pw := s.pw.set slot ⟨xs, true⟩ })) ∧
    exec (.pwClear pwsel) s = .next (plainFinish 0
      { s with pw := s.pw.set slot ⟨List.replicate s.desc.pwLen 0, false⟩ })

/-- Every command moves SP_STATE along the transitions of 44_scratchpad.md R180 only, from every
state of the invariant. And a command that made a bus event and is none of the four scratchpad steps
leaves no open transaction: it has aborted the one it found (R180, R181; R192 rests on this). -/
def Obligations.ScratchpadTransitions : Prop :=
  ∀ (i : Instr) (s t : State), s.Inv → exec i s = .next t →
    SpTransition s.desc i s.spState t.spState ∧
    (∀ es, AddedEvents s t es → es ≠ [] → i ∉ [.spWrite, .spReadVerify, .spCopy] →
      (∀ pwsel, i ≠ .spVerifyPassword pwsel) → t.spState.isOpen = false)

/-- No commit without verify (44_scratchpad.md R192): a pulse that can carry a commit sequence is
made only by SP_COPY in VERIFIED, or AUTHED on a password-gated bank; by a write through the
scratchpad, where each such pulse is the copy of a row that this write has just staged and read back
well, and authenticated where the bank asks it, with nothing but the copy's own power check and
selection between; and by an OTP mutation (whose pulse is its own sequence, 43_otp.md R160). -/
def Obligations.NoCommitWithoutVerify : Prop :=
  ∀ (i : Instr) (s t : State) (es : List BusEvent), exec i s = .next t →
    AddedEvents s t es → (∃ e ∈ es, e.isLongPulse = true) →
    (i = .spCopy ∧ s.spState = (if s.desc.pwGated then .authed else .verified)) ∨
    (writesBank i = true ∧ s.desc.spPresent = true ∧
      (s.desc.WF → ∃ pwsel slot, (i = .write pwsel ∨ i = .writePagePacket pwsel) ∧
        slotOf pwsel = some slot ∧
        ∀ before pulse after, es = before ++ [pulse] ++ after → pulse.isLongPulse = true →
          CopyEarned s.desc (s.pw.get slot).bytes before pulse)) ∨
    mutatesOtp i = true

/-- VERIFIED is earned: a command leaves VERIFIED only if it found it, or is SP_READ_VERIFY from
WRITTEN whose read-back has an accepted CRC and the echo of the staged transaction, where the bank
has them, and equals the staged bytes (44_scratchpad.md R180, R184, R192). -/
def Obligations.VerifiedIsEarned : Prop :=
  ∀ (i : Instr) (s t : State), exec i s = .next t → t.spState = .verified →
    s.spState = .verified ∨
    (i = .spReadVerify ∧ s.spState = .written ∧ s.backCrcOk ∧ s.backEchoOk ∧ s.backDataOk)
end

