-- ==== Sys2Proof/Laws/Memory.lean ====
section
/-! SUPPORT. DBUF as a memory (spec/10_state.md R28, R29): a read after a write, the canonical form
kept by every write, the bounds, and ranges. -/

namespace Sys2Proof.Machine

/-- A read of the byte just written. -/
theorem Memory.read_write_same (m : Memory) (a : Nat) (b : Byte) :
    Memory.read (Memory.write m a b) a = some b := by
  induction m with
  | nil => simp [Memory.write, Memory.read]
  | cons c rest ih =>
    obtain ⟨j, x⟩ := c
    simp only [Memory.write]
    split
    · simp [Memory.read]
    · split
      · simp [Memory.read]
      · rename_i h
        simp [Memory.read, Ne.symm h, ih]

/-- A read of any other byte, whatever the form of the memory. -/
theorem Memory.read_write_other (m : Memory) (a k : Nat) (b : Byte) (h : k ≠ a) :
    Memory.read (Memory.write m a b) k = Memory.read m k := by
  induction m with
  | nil => simp [Memory.write, Memory.read, Ne.symm h]
  | cons c rest ih =>
    obtain ⟨j, x⟩ := c
    simp only [Memory.write]
    split
    · simp [Memory.read, Ne.symm h]
    · split
      · subst_vars; simp [Memory.read, Ne.symm h]
      · simp [Memory.read, ih]

/-- A read after a write of one byte. -/
@[simp] theorem Memory.read_write (m : Memory) (a k : Nat) (b : Byte) :
    Memory.read (Memory.write m a b) k = if k = a then some b else Memory.read m k := by
  split
  · subst_vars; exact Memory.read_write_same m k b
  · exact Memory.read_write_other m a k b (by assumption)

/-- The addresses of a memory after a write. -/
theorem Memory.mem_write {m : Memory} {a : Nat} {b : Byte} {c : Host.Cell}
    (h : c ∈ Memory.write m a b) : c = (a, b) ∨ c ∈ m := by
  induction m with
  | nil => simpa [Memory.write] using h
  | cons d rest ih =>
    obtain ⟨j, x⟩ := d
    simp only [Memory.write] at h
    split at h
    · simpa using h
    · split at h
      · rcases List.mem_cons.1 h with h | h
        · exact .inl h
        · exact .inr (List.mem_cons_of_mem _ h)
      · rcases List.mem_cons.1 h with h | h
        · exact .inr (h ▸ List.mem_cons_self)
        · exact (ih h).imp id (List.mem_cons_of_mem _)

/-- A write keeps the canonical form. -/
theorem Memory.write_wf (m : Memory) (h : m.wf) (a : Nat) (b : Byte) :
    Memory.wf (Memory.write m a b) := by
  induction m with
  | nil => simp [Memory.write, Memory.wf]
  | cons c rest ih =>
    obtain ⟨j, x⟩ := c
    simp only [Memory.wf, List.map_cons, List.pairwise_cons] at h
    simp only [Memory.write]
    split
    · rename_i hlt
      simp only [Memory.wf, List.map_cons, List.pairwise_cons, List.mem_cons]
      refine ⟨?_, h.1, h.2⟩
      rintro k (rfl | hk)
      · exact hlt
      · exact hlt.trans (h.1 k hk)
    · split
      · subst_vars
        simpa [Memory.wf] using h
      · rename_i h1 h2
        simp only [Memory.wf, List.map_cons, List.pairwise_cons]
        refine ⟨?_, ih h.2⟩
        intro k hk
        obtain ⟨c, hc, rfl⟩ := List.mem_map.1 hk
        rcases Memory.mem_write hc with rfl | hc
        · dsimp; omega
        · exact h.1 _ (List.mem_map_of_mem hc)

/-- A range write keeps the canonical form. -/
theorem Memory.writeRange_wf (xs : List Byte) :
    ∀ (m : Memory) (a : Nat), m.wf → Memory.wf (Memory.writeRange m a xs) := by
  induction xs with
  | nil => exact fun m a h => h
  | cons x xs ih => exact fun m a h => ih _ _ (Memory.write_wf m h a x)

/-- The addresses of a memory after a range write. -/
theorem Memory.mem_writeRange (xs : List Byte) : ∀ {m : Memory} {a : Nat} {c : Host.Cell},
    c ∈ Memory.writeRange m a xs → (a ≤ c.1 ∧ c.1 < a + xs.length) ∨ c ∈ m := by
  induction xs with
  | nil => exact fun h => .inr h
  | cons x xs ih =>
    intro m a c h
    rcases ih h with h | h
    · left; simp only [List.length_cons]; omega
    · rcases Memory.mem_write h with rfl | h
      · left; simp
      · exact .inr h

/-- A read after a range write. -/
theorem Memory.read_writeRange (xs : List Byte) : ∀ (m : Memory) (a k : Nat),
    Memory.read (Memory.writeRange m a xs) k =
      if a ≤ k ∧ k < a + xs.length then xs[k - a]? else Memory.read m k := by
  induction xs with
  | nil => intro m a k; simp [Memory.writeRange]
  | cons x xs ih =>
    intro m a k
    rw [Memory.writeRange, ih]
    by_cases hk : k = a
    · subst hk
      simp
    · rw [Memory.read_write_other _ _ _ _ hk]
      by_cases hr : a + 1 ≤ k ∧ k < a + 1 + xs.length
      · have : k - a = (k - (a + 1)) + 1 := by omega
        rw [if_pos hr, if_pos (by simp only [List.length_cons]; omega), this,
          List.getElem?_cons_succ]
      · rw [if_neg hr, if_neg (by simp only [List.length_cons]; omega)]

/-- What a range read answers: the marked bytes of the range. -/
theorem Memory.readRange_eq_some (m : Memory) (n : Nat) : ∀ (a : Nat) (xs : List Byte),
    Memory.readRange m a n = some xs ↔
      xs.length = n ∧ ∀ k < xs.length, Memory.read m (a + k) = xs[k]? := by
  induction n with
  | zero =>
    intro a xs
    cases xs <;> simp [Memory.readRange]
  | succ n ih =>
    intro a xs
    rw [Memory.readRange]
    cases xs with
    | nil => split <;> simp
    | cons x xs =>
      constructor
      · split
        · rename_i b bs hb hbs
          intro h
          obtain ⟨rfl, rfl⟩ := by simpa using h
          obtain ⟨hl, hk⟩ := (ih _ _).1 hbs
          refine ⟨by simp [hl], fun k hlt => ?_⟩
          cases k with
          | zero => simpa using hb
          | succ k =>
            have := hk k (by simpa using hlt)
            rw [show a + (k + 1) = a + 1 + k by omega, this, List.getElem?_cons_succ]
        · simp
      · rintro ⟨hl, hk⟩
        have h0 : Memory.read m a = some x := by simpa using hk 0 (by simp)
        have hs : Memory.readRange m (a + 1) n = some xs := by
          refine (ih _ _).2 ⟨by simpa using hl, fun k hlt => ?_⟩
          have := hk (k + 1) (by simpa using hlt)
          rw [show a + 1 + k = a + (k + 1) by omega, this, List.getElem?_cons_succ]
        rw [h0, hs]

/-- A range read fails exactly where a byte of the range is unmarked. -/
theorem Memory.readRange_eq_none (m : Memory) (n : Nat) : ∀ a : Nat,
    Memory.readRange m a n = none ↔ ∃ k, a ≤ k ∧ k < a + n ∧ Memory.read m k = none := by
  induction n with
  | zero => intro a; simp [Memory.readRange]; intro k h1 h2; omega
  | succ n ih =>
    intro a
    rw [Memory.readRange]
    cases h0 : Memory.read m a with
    | none => simp only [true_iff]; exact ⟨a, le_refl _, by omega, h0⟩
    | some b =>
      cases hs : Memory.readRange m (a + 1) n with
      | none =>
        simp only [true_iff]
        obtain ⟨k, h1, h2, h3⟩ := (ih (a + 1)).1 hs
        exact ⟨k, by omega, by omega, h3⟩
      | some bs =>
        simp only [reduceCtorEq, false_iff, not_exists, not_and]
        intro k h1 h2 h3
        have : Memory.readRange m (a + 1) n = none := by
          refine (ih (a + 1)).2 ⟨k, ?_, by omega, h3⟩
          rcases Nat.eq_or_lt_of_le h1 with rfl | h
          · rw [h0] at h3; cases h3
          · omega
        rw [hs] at this; cases this

end Sys2Proof.Machine
end

