-- ==== Sys2Proof/Laws/Run.lean ====
section
/-! SUPPORT. Sequencing of the pieces of a command (spec/00_scope.md R15): what `Run.bind` does with
each ending, what a property of every ending state costs to prove, and the operand forms. -/

namespace Sys2Proof.Machine

variable {α β : Type}

@[simp] theorem Run.bind_ok (a : α) (s : State) (k : α → State → Run β) :
    (Run.ok a s).bind k = k a s := rfl
@[simp] theorem Run.bind_raised (e : Err) (s : State) (k : α → State → Run β) :
    (Run.raised e s).bind k = .raised e s := rfl
@[simp] theorem Run.bind_faulted (f : FaultCode) (k : α → State → Run β) :
    (Run.faulted f).bind k = .faulted f := rfl
@[simp] theorem Run.bind_cut (s : State) (k : α → State → Run β) :
    (Run.cut s).bind k = .cut s := rfl

/-- `P` holds of the state a piece of a command leaves, if it leaves one. -/
def Run.All (P : State → Prop) : Run α → Prop
  | .ok _ s => P s
  | .raised _ s => P s
  | .faulted _ => True
  | .cut s => P s

@[simp] theorem Run.all_ok (P : State → Prop) (a : α) (s : State) :
    (Run.ok a s).All P = P s := rfl
@[simp] theorem Run.all_raised (P : State → Prop) (e : Err) (s : State) :
    (Run.raised e s : Run α).All P = P s := rfl
@[simp] theorem Run.all_faulted (P : State → Prop) (f : FaultCode) :
    (Run.faulted f : Run α).All P = True := rfl
@[simp] theorem Run.all_cut (P : State → Prop) (s : State) :
    (Run.cut s : Run α).All P = P s := rfl

/-- A property of every ending state passes through sequencing. -/
theorem Run.all_bind {P Q : State → Prop} {r : Run α} {k : α → State → Run β} (hr : r.All P)
    (hPQ : ∀ s, P s → Q s) (hk : ∀ a s, P s → (k a s).All Q) : (r.bind k).All Q := by
  cases r with
  | ok a s => exact hk a s hr
  | raised e s => exact hPQ s hr
  | faulted f => trivial
  | cut s => exact hPQ s hr

theorem Run.All.mono {P Q : State → Prop} {r : Run α} (hr : r.All P) (h : ∀ s, P s → Q s) :
    r.All Q := by
  cases r <;> first | exact h _ hr | trivial

/-- A sequence that goes on has gone through both parts. -/
theorem Run.bind_eq_ok {r : Run α} {k : α → State → Run β} {b : β} {t : State} :
    r.bind k = .ok b t ↔ ∃ a s, r = .ok a s ∧ k a s = .ok b t := by
  cases r <;> simp

/-- A sequence raises in its first part or in its second. -/
theorem Run.bind_eq_raised {r : Run α} {k : α → State → Run β} {e : Err} {t : State} :
    r.bind k = .raised e t ↔
      r = .raised e t ∨ ∃ a s, r = .ok a s ∧ k a s = .raised e t := by
  cases r <;> simp

theorem Run.bind_eq_faulted {r : Run α} {k : α → State → Run β} {f : FaultCode} :
    r.bind k = .faulted f ↔ r = .faulted f ∨ ∃ a s, r = .ok a s ∧ k a s = .faulted f := by
  cases r <;> simp

theorem Run.bind_eq_cut {r : Run α} {k : α → State → Run β} {t : State} :
    r.bind k = .cut t ↔ r = .cut t ∨ ∃ a s, r = .ok a s ∧ k a s = .cut t := by
  cases r <;> simp

/-! ### Operand forms -/

theorem withWindow_of_le {n : Nat} {s : State} (k : Run α)
    (h : s.argOff.toNat + n ≤ s.desc.dbufSize) : withWindow n s k = k := by
  simp [withWindow, State.windowOk, h]

theorem withWindow_of_lt {n : Nat} {s : State} (k : Run α)
    (h : s.desc.dbufSize < s.argOff.toNat + n) : withWindow n s k = .faulted .dbuf := by
  simp [withWindow, State.windowOk, h]

/-- A window lets `k` run or faults F_DBUF. -/
theorem withWindow_cases (n : Nat) (s : State) (k : Run α) :
    (withWindow n s k = k ∧ s.argOff.toNat + n ≤ s.desc.dbufSize) ∨
      withWindow n s k = .faulted .dbuf := by
  by_cases h : s.argOff.toNat + n ≤ s.desc.dbufSize
  · exact .inl ⟨withWindow_of_le k h, h⟩
  · exact .inr (withWindow_of_lt k (by omega))

/-- An input window lets `k` run on its bytes, or faults F_DBUF or F_UNDEF. -/
theorem withInput_cases (n : Nat) (s : State) (k : List Byte → Run α) :
    (∃ xs, s.dbuf.readRange s.argOff.toNat n = some xs ∧
        s.argOff.toNat + n ≤ s.desc.dbufSize ∧ withInput n s k = k xs) ∨
      ∃ f, withInput n s k = .faulted f := by
  by_cases h : s.argOff.toNat + n ≤ s.desc.dbufSize
  · rw [withInput, withWindow_of_le _ h]
    cases hr : s.dbuf.readRange s.argOff.toNat n with
    | some xs => exact .inl ⟨xs, rfl, h, rfl⟩
    | none => exact .inr ⟨_, rfl⟩
  · exact .inr ⟨_, withWindow_of_lt _ (by omega)⟩

theorem slotOf_isSome {pwsel : BitVec 2} (h : pwsel ≠ 3) : ∃ slot, slotOf pwsel = some slot := by
  exact Option.isSome_iff_exists.1
    ((by decide : ∀ p : BitVec 2, p ≠ 3 → (slotOf p).isSome = true) pwsel h)

/-- A PWSEL lets `k` run with a slot, or faults F_ILLEGAL. -/
theorem withSlot_cases (pwsel : BitVec 2) (k : PwSlot → Run α) :
    (∃ slot, slotOf pwsel = some slot ∧ withSlot pwsel k = k slot) ∨
      withSlot pwsel k = .faulted .illegal := by
  cases h : slotOf pwsel with
  | some slot => exact .inl ⟨slot, rfl, by rw [withSlot, h]⟩
  | none => exact .inr (by rw [withSlot, h])

end Sys2Proof.Machine
end

