-- ==== Sys2Proof/Laws/Bus.lean ====
section
/-! SUPPORT. The bus primitives (spec/00_scope.md R9 to R14): what one event does, with no limit set
and in general, and the growth of the history. -/

namespace Sys2Proof.Machine

/-! ### Bytes answered -/

@[simp] theorem Bus.byteAnswers_length (b : Bus) (n : Nat) :
    ∀ k, (b.byteAnswers k n).length = n := by
  induction n with
  | zero => exact fun k => rfl
  | succ n ih => intro k; simp [Bus.byteAnswers, ih]

theorem Bus.byteAnswers_add (b : Bus) (m n : Nat) : ∀ k,
    b.byteAnswers k (m + n) = b.byteAnswers k m ++ b.byteAnswers (k + m) n := by
  induction m with
  | zero => intro k; simp [Bus.byteAnswers]
  | succ m ih =>
    intro k
    rw [show m + 1 + n = (m + n) + 1 by omega]
    simp only [Bus.byteAnswers, List.cons_append, ih, show k + 1 + m = k + (m + 1) by omega]

@[simp] theorem Bus.byteAnswers_one (b : Bus) (k : Nat) : b.byteAnswers k 1 = [b.byteAnswer k] :=
  rfl

/-- The answers depend on the script alone, not on how far it is drawn. -/
theorem Bus.byteAnswers_congr {b c : Bus} (h : b.bytes = c.bytes) (n : Nat) :
    ∀ k, b.byteAnswers k n = c.byteAnswers k n := by
  induction n with
  | zero => exact fun k => rfl
  | succ n ih => intro k; simp [Bus.byteAnswers, Bus.byteAnswer, h, ih]

/-! ### A stretch of bus events -/

/-- The state after the events `es`, with `nb` Boolean answers and `ny` bytes drawn, and with
SPEED_OK as `v` says. -/
def State.advance (v : Bool) (es : List BusEvent) (nb ny : Nat) (s : State) : State :=
  { s with
    speedOk := v
    bus := { s.bus with
      trace := s.bus.trace ++ es, nBool := s.bus.nBool + nb, nByte := s.bus.nByte + ny } }

section
variable (s : State) (v : Bool) (es : List BusEvent) (a b : Nat)

@[simp] theorem State.advance_advance (w : Bool) (fs : List BusEvent) (c d : Nat) :
    (s.advance v es a b).advance w fs c d = s.advance w (es ++ fs) (a + c) (b + d) := by
  simp [State.advance, Nat.add_assoc]

theorem State.advance_nil : s.advance s.speedOk [] 0 0 = s := by simp [State.advance]

@[simp] theorem State.advance_desc : (s.advance v es a b).desc = s.desc := rfl
@[simp] theorem State.advance_busy : (s.advance v es a b).busy = s.busy := rfl
@[simp] theorem State.advance_speedOk : (s.advance v es a b).speedOk = v := rfl
@[simp] theorem State.advance_contOk : (s.advance v es a b).contOk = s.contOk := rfl
@[simp] theorem State.advance_spState : (s.advance v es a b).spState = s.spState := rfl
@[simp] theorem State.advance_err : (s.advance v es a b).err = s.err := rfl
@[simp] theorem State.advance_fault : (s.advance v es a b).fault = s.fault := rfl
@[simp] theorem State.advance_pw : (s.advance v es a b).pw = s.pw := rfl
@[simp] theorem State.advance_result : (s.advance v es a b).result = s.result := rfl
@[simp] theorem State.advance_argAddr : (s.advance v es a b).argAddr = s.argAddr := rfl
@[simp] theorem State.advance_argLen : (s.advance v es a b).argLen = s.argLen := rfl
@[simp] theorem State.advance_argOff : (s.advance v es a b).argOff = s.argOff := rfl
@[simp] theorem State.advance_argPage : (s.advance v es a b).argPage = s.argPage := rfl
@[simp] theorem State.advance_argPage2 : (s.advance v es a b).argPage2 = s.argPage2 := rfl
@[simp] theorem State.advance_argSeed : (s.advance v es a b).argSeed = s.argSeed := rfl
@[simp] theorem State.advance_argByte : (s.advance v es a b).argByte = s.argByte := rfl
@[simp] theorem State.advance_verify : (s.advance v es a b).verify = s.verify := rfl
@[simp] theorem State.advance_acc8 : (s.advance v es a b).acc8 = s.acc8 := rfl
@[simp] theorem State.advance_acc16 : (s.advance v es a b).acc16 = s.acc16 := rfl
@[simp] theorem State.advance_spTA : (s.advance v es a b).spTA = s.spTA := rfl
@[simp] theorem State.advance_spLen : (s.advance v es a b).spLen = s.spLen := rfl
@[simp] theorem State.advance_spES : (s.advance v es a b).spES = s.spES := rfl
@[simp] theorem State.advance_spBuf : (s.advance v es a b).spBuf = s.spBuf := rfl
@[simp] theorem State.advance_dbuf : (s.advance v es a b).dbuf = s.dbuf := rfl
@[simp] theorem State.advance_host : (s.advance v es a b).host = s.host := rfl
@[simp] theorem State.advance_hostOut : (s.advance v es a b).hostOut = s.hostOut := rfl
@[simp] theorem State.advance_bools : (s.advance v es a b).bus.bools = s.bus.bools := rfl
@[simp] theorem State.advance_bytes : (s.advance v es a b).bus.bytes = s.bus.bytes := rfl
@[simp] theorem State.advance_limit : (s.advance v es a b).bus.limit = s.bus.limit := rfl
@[simp] theorem State.advance_nBool : (s.advance v es a b).bus.nBool = s.bus.nBool + a := rfl
@[simp] theorem State.advance_nByte : (s.advance v es a b).bus.nByte = s.bus.nByte + b := rfl
@[simp] theorem State.advance_trace : (s.advance v es a b).bus.trace = s.bus.trace ++ es := rfl
@[simp] theorem State.advance_boolAnswer (k : Nat) :
    (s.advance v es a b).bus.boolAnswer k = s.bus.boolAnswer k := rfl
@[simp] theorem State.advance_byteAnswer (k : Nat) :
    (s.advance v es a b).bus.byteAnswer k = s.bus.byteAnswer k := rfl
@[simp] theorem State.advance_byteAnswers (k n : Nat) :
    (s.advance v es a b).bus.byteAnswers k n = s.bus.byteAnswers k n :=
  Bus.byteAnswers_congr (by simp) n k

@[simp] theorem State.start_byteAnswers (l : Option Nat) (k n : Nat) :
    (s.start l).bus.byteAnswers k n = s.bus.byteAnswers k n := Bus.byteAnswers_congr (by rfl) n k
@[simp] theorem State.start_byteAnswer (l : Option Nat) (k : Nat) :
    (s.start l).bus.byteAnswer k = s.bus.byteAnswer k := rfl
@[simp] theorem State.start_boolAnswer (l : Option Nat) (k : Nat) :
    (s.start l).bus.boolAnswer k = s.bus.boolAnswer k := rfl

end

variable {s : State}

theorem busEvent_eq (h : s.bus.limit = none) (e : BusEvent) :
    busEvent e s = .ok () (s.advance s.speedOk [e] 0 0) := by
  simp [busEvent, h, State.advance]

theorem busQuery_eq (h : s.bus.limit = none) (mk : Bool → BusEvent) :
    busQuery mk s = .ok (s.bus.boolAnswer s.bus.nBool)
      (s.advance s.speedOk [mk (s.bus.boolAnswer s.bus.nBool)] 1 0) := by
  simp [busQuery, busEvent_eq h, State.advance]

theorem busRecv_eq (h : s.bus.limit = none) (n : Nat) :
    busRecv n s = .ok (s.bus.byteAnswers s.bus.nByte n)
      (s.advance s.speedOk [received (s.bus.byteAnswers s.bus.nByte n)] 0 n) := by
  simp [busRecv, busEvent_eq h, State.advance, received, Config.receiveDrive]

theorem busSend_eq (h : s.bus.limit = none) (xs : List Byte) :
    busSend xs s = .ok () (s.advance s.speedOk [.send xs] 0 0) := busEvent_eq h _
theorem busSendPulse_eq (h : s.bus.limit = none) (xs : List Byte) (d : Nat) :
    busSendPulse xs d s = .ok () (s.advance s.speedOk [.sendPulse xs d] 0 0) := busEvent_eq h _
theorem busSendProgram_eq (h : s.bus.limit = none) (xs : List Byte) :
    busSendProgram xs s = .ok () (s.advance s.speedOk [.sendProgram xs] 0 0) := busEvent_eq h _
theorem busSleep_eq (h : s.bus.limit = none) (d : Nat) :
    busSleep d s = .ok () (s.advance s.speedOk [.sleep d] 0 0) := busEvent_eq h _
theorem busSelect_eq (h : s.bus.limit = none) :
    busSelect s = .ok (s.bus.boolAnswer s.bus.nBool)
      (s.advance s.speedOk [.select s.desc.devAddr (s.bus.boolAnswer s.bus.nBool)] 1 0) :=
  busQuery_eq h _
theorem doSpeed_eq (h : s.bus.limit = none) :
    doSpeed s = .ok (s.bus.boolAnswer s.bus.nBool)
      (s.advance s.speedOk [.doSpeed (s.bus.boolAnswer s.bus.nBool)] 1 0) := busQuery_eq h _
theorem isPresent_eq (h : s.bus.limit = none) :
    isPresent s = .ok (s.bus.boolAnswer s.bus.nBool)
      (s.advance s.speedOk [.isPresent (s.bus.boolAnswer s.bus.nBool)] 1 0) := busQuery_eq h _
theorem canDeliverPower_eq (h : s.bus.limit = none) :
    canDeliverPower s = .ok (s.bus.boolAnswer s.bus.nBool)
      (s.advance s.speedOk [.canDeliverPower (s.bus.boolAnswer s.bus.nBool)] 1 0) :=
  busQuery_eq h _
theorem canProgramPulse_eq (h : s.bus.limit = none) :
    canProgramPulse s = .ok (s.bus.boolAnswer s.bus.nBool)
      (s.advance s.speedOk [.canProgramPulse (s.bus.boolAnswer s.bus.nBool)] 1 0) :=
  busQuery_eq h _

/-! ### Growth in general -/

/-- How the bus record may change while a command runs: the script stands, the answers are drawn in
order, `es` is added to the history, and a limit counts down by one per event. -/
structure Bus.Grows (es : List BusEvent) (b c : Bus) : Prop where
  bools : c.bools = b.bools
  bytes : c.bytes = b.bytes
  nBool : b.nBool ≤ c.nBool
  nByte : b.nByte ≤ c.nByte
  trace : c.trace = b.trace ++ es
  limit : b.limit = c.limit.map (· + es.length)

theorem Bus.Grows.refl (b : Bus) : Bus.Grows [] b b :=
  ⟨rfl, rfl, le_refl _, le_refl _, by simp, by simp⟩

theorem Bus.Grows.trans {es fs : List BusEvent} {a b c : Bus} (h : Bus.Grows es a b)
    (k : Bus.Grows fs b c) : Bus.Grows (es ++ fs) a c where
  bools := k.bools.trans h.bools
  bytes := k.bytes.trans h.bytes
  nBool := h.nBool.trans k.nBool
  nByte := h.nByte.trans k.nByte
  trace := by rw [k.trace, h.trace, List.append_assoc]
  limit := by
    rw [h.limit, k.limit]
    cases c.limit <;> simp [Nat.add_comm, Nat.add_left_comm]

/-- A running command is cut off only where its limit is used up. -/
def Run.CutsAtLimit {α : Type} (r : Run α) : Prop := ∀ t, r = .cut t → t.bus.limit = some 0

theorem Run.CutsAtLimit.bind {α β : Type} {r : Run α} {k : α → State → Run β}
    (hr : r.CutsAtLimit) (hk : ∀ a s, (k a s).CutsAtLimit) : (r.bind k).CutsAtLimit := by
  intro t h
  rcases Run.bind_eq_cut.1 h with h | ⟨a, s, -, h⟩
  · exact hr t h
  · exact hk a s t h

theorem busEvent_cutsAtLimit (e : BusEvent) (s : State) : (busEvent e s).CutsAtLimit := by
  intro t h
  unfold busEvent at h
  split at h <;> simp_all

/-- What one event can do: be recorded, or be cut off. -/
theorem busEvent_cases (e : BusEvent) (s : State) :
    (busEvent e s = .cut s ∧ s.bus.limit = some 0) ∨
      ∃ b, busEvent e s = .ok () { s with bus := b } ∧ Bus.Grows [e] s.bus b ∧
        b.nBool = s.bus.nBool ∧ b.nByte = s.bus.nByte := by
  unfold busEvent
  split
  · exact .inl ⟨rfl, by assumption⟩
  · rename_i k hk
    exact .inr ⟨_, rfl, ⟨rfl, rfl, le_refl _, le_refl _, rfl, by simp [hk]⟩, rfl, rfl⟩
  · rename_i hk
    exact .inr ⟨_, rfl, ⟨rfl, rfl, le_refl _, le_refl _, rfl, by simp [hk]⟩, rfl, rfl⟩

/-- What a query can do. -/
theorem busQuery_cases (mk : Bool → BusEvent) (s : State) :
    (busQuery mk s = .cut s ∧ s.bus.limit = some 0) ∨
      ∃ a b, busQuery mk s = .ok a { s with bus := b } ∧ Bus.Grows [mk a] s.bus b := by
  rcases busEvent_cases (mk (s.bus.boolAnswer s.bus.nBool)) s with ⟨h, hl⟩ | ⟨b, h, hg, h1, h2⟩
  · exact .inl ⟨by rw [busQuery, h]; rfl, hl⟩
  · refine .inr ⟨_, { b with nBool := s.bus.nBool + 1 }, by rw [busQuery, h]; rfl, ?_⟩
    exact ⟨hg.bools, hg.bytes, by simp, hg.nByte, hg.trace, hg.limit⟩

/-- What receiving can do: the bytes are the next of the answers. -/
theorem busRecv_cases (n : Nat) (s : State) :
    (busRecv n s = .cut s ∧ s.bus.limit = some 0) ∨
      ∃ b, busRecv n s = .ok (s.bus.byteAnswers s.bus.nByte n) { s with bus := b } ∧
        Bus.Grows [.recv (List.replicate n Config.receiveDrive)
          (s.bus.byteAnswers s.bus.nByte n)] s.bus b := by
  rcases busEvent_cases (.recv (List.replicate n Config.receiveDrive)
    (s.bus.byteAnswers s.bus.nByte n)) s with ⟨h, hl⟩ | ⟨b, h, hg, h1, h2⟩
  · exact .inl ⟨by rw [busRecv, h]; rfl, hl⟩
  · refine .inr ⟨{ b with nByte := s.bus.nByte + n }, by rw [busRecv, h]; rfl, ?_⟩
    exact ⟨hg.bools, hg.bytes, hg.nBool, by simp, hg.trace, hg.limit⟩

end Sys2Proof.Machine
end

