-- ==== Sys2Proof/Laws/State.lean ====
section
/-! SUPPORT. What each named update of State does to each field: one lemma per field per update, so
that no later proof unfolds a record update. -/

namespace Sys2Proof.Machine

variable (s : State)

/-! ### start -/

@[simp] theorem State.start_desc (l : Option Nat) : (s.start l).desc = s.desc := rfl
@[simp] theorem State.start_busy (l : Option Nat) : (s.start l).busy = true := rfl
@[simp] theorem State.start_speedOk (l : Option Nat) : (s.start l).speedOk = s.speedOk := rfl
@[simp] theorem State.start_contOk (l : Option Nat) : (s.start l).contOk = s.contOk := rfl
@[simp] theorem State.start_spState (l : Option Nat) : (s.start l).spState = s.spState := rfl
@[simp] theorem State.start_err (l : Option Nat) : (s.start l).err = s.err := rfl
@[simp] theorem State.start_fault (l : Option Nat) : (s.start l).fault = s.fault := rfl
@[simp] theorem State.start_pw (l : Option Nat) : (s.start l).pw = s.pw := rfl
@[simp] theorem State.start_result (l : Option Nat) : (s.start l).result = s.result := rfl
@[simp] theorem State.start_argAddr (l : Option Nat) : (s.start l).argAddr = s.argAddr := rfl
@[simp] theorem State.start_argLen (l : Option Nat) : (s.start l).argLen = s.argLen := rfl
@[simp] theorem State.start_argOff (l : Option Nat) : (s.start l).argOff = s.argOff := rfl
@[simp] theorem State.start_argPage (l : Option Nat) : (s.start l).argPage = s.argPage := rfl
@[simp] theorem State.start_argPage2 (l : Option Nat) : (s.start l).argPage2 = s.argPage2 := rfl
@[simp] theorem State.start_argSeed (l : Option Nat) : (s.start l).argSeed = s.argSeed := rfl
@[simp] theorem State.start_argByte (l : Option Nat) : (s.start l).argByte = s.argByte := rfl
@[simp] theorem State.start_verify (l : Option Nat) : (s.start l).verify = s.verify := rfl
@[simp] theorem State.start_acc8 (l : Option Nat) : (s.start l).acc8 = s.acc8 := rfl
@[simp] theorem State.start_acc16 (l : Option Nat) : (s.start l).acc16 = s.acc16 := rfl
@[simp] theorem State.start_spTA (l : Option Nat) : (s.start l).spTA = s.spTA := rfl
@[simp] theorem State.start_spLen (l : Option Nat) : (s.start l).spLen = s.spLen := rfl
@[simp] theorem State.start_spES (l : Option Nat) : (s.start l).spES = s.spES := rfl
@[simp] theorem State.start_spBuf (l : Option Nat) : (s.start l).spBuf = s.spBuf := rfl
@[simp] theorem State.start_dbuf (l : Option Nat) : (s.start l).dbuf = s.dbuf := rfl
@[simp] theorem State.start_bus (l : Option Nat) :
    (s.start l).bus = { s.bus with limit := l } := rfl
@[simp] theorem State.start_host (l : Option Nat) : (s.start l).host = s.host := rfl
@[simp] theorem State.start_hostOut (l : Option Nat) : (s.start l).hostOut = s.hostOut := rfl

/-! ### finish -/

@[simp] theorem State.finish_desc (d : Done) : (s.finish d).desc = s.desc := rfl
@[simp] theorem State.finish_busy (d : Done) : (s.finish d).busy = false := rfl
@[simp] theorem State.finish_speedOk (d : Done) : (s.finish d).speedOk = s.speedOk := rfl
@[simp] theorem State.finish_contOk (d : Done) : (s.finish d).contOk = s.contOk := rfl
@[simp] theorem State.finish_spState (d : Done) : (s.finish d).spState = s.spState := rfl
@[simp] theorem State.finish_err (d : Done) : (s.finish d).err = none := rfl
@[simp] theorem State.finish_fault (d : Done) : (s.finish d).fault = s.fault := rfl
@[simp] theorem State.finish_pw (d : Done) : (s.finish d).pw = s.pw := rfl
@[simp] theorem State.finish_result (d : Done) : (s.finish d).result = d.value := rfl
@[simp] theorem State.finish_argAddr (d : Done) : (s.finish d).argAddr = s.argAddr := rfl
@[simp] theorem State.finish_argLen (d : Done) : (s.finish d).argLen = s.argLen := rfl
@[simp] theorem State.finish_argOff (d : Done) : (s.finish d).argOff = s.argOff := rfl
@[simp] theorem State.finish_argPage (d : Done) : (s.finish d).argPage = s.argPage := rfl
@[simp] theorem State.finish_argPage2 (d : Done) : (s.finish d).argPage2 = s.argPage2 := rfl
@[simp] theorem State.finish_argSeed (d : Done) : (s.finish d).argSeed = s.argSeed := rfl
@[simp] theorem State.finish_argByte (d : Done) : (s.finish d).argByte = s.argByte := rfl
@[simp] theorem State.finish_verify (d : Done) : (s.finish d).verify = s.verify := rfl
@[simp] theorem State.finish_acc8 (d : Done) : (s.finish d).acc8 = s.acc8 := rfl
@[simp] theorem State.finish_acc16 (d : Done) : (s.finish d).acc16 = s.acc16 := rfl
@[simp] theorem State.finish_spTA (d : Done) : (s.finish d).spTA = s.spTA := rfl
@[simp] theorem State.finish_spLen (d : Done) : (s.finish d).spLen = s.spLen := rfl
@[simp] theorem State.finish_spES (d : Done) : (s.finish d).spES = s.spES := rfl
@[simp] theorem State.finish_spBuf (d : Done) : (s.finish d).spBuf = s.spBuf := rfl
@[simp] theorem State.finish_dbuf (d : Done) :
    (s.finish d).dbuf = s.dbuf.writeRange d.off d.data := rfl
@[simp] theorem State.finish_bus (d : Done) :
    (s.finish d).bus = { s.bus with limit := none } := rfl
@[simp] theorem State.finish_host (d : Done) : (s.finish d).host = s.host := rfl
@[simp] theorem State.finish_hostOut (d : Done) : (s.finish d).hostOut = s.hostOut := rfl

/-! ### raise -/

@[simp] theorem State.raise_desc (c : CommandClass) (e : Err) :
    (s.raise c e).desc = s.desc := by cases c <;> rfl
@[simp] theorem State.raise_busy (c : CommandClass) (e : Err) :
    (s.raise c e).busy = false := by cases c <;> rfl
@[simp] theorem State.raise_err (c : CommandClass) (e : Err) :
    (s.raise c e).err = some e := by cases c <;> rfl
@[simp] theorem State.raise_fault (c : CommandClass) (e : Err) :
    (s.raise c e).fault = s.fault := by cases c <;> rfl
@[simp] theorem State.raise_pw (c : CommandClass) (e : Err) :
    (s.raise c e).pw = s.pw := by cases c <;> rfl
@[simp] theorem State.raise_result (c : CommandClass) (e : Err) :
    (s.raise c e).result = 0 := by cases c <;> rfl
@[simp] theorem State.raise_argAddr (c : CommandClass) (e : Err) :
    (s.raise c e).argAddr = s.argAddr := by cases c <;> rfl
@[simp] theorem State.raise_argLen (c : CommandClass) (e : Err) :
    (s.raise c e).argLen = s.argLen := by cases c <;> rfl
@[simp] theorem State.raise_argOff (c : CommandClass) (e : Err) :
    (s.raise c e).argOff = s.argOff := by cases c <;> rfl
@[simp] theorem State.raise_argPage (c : CommandClass) (e : Err) :
    (s.raise c e).argPage = s.argPage := by cases c <;> rfl
@[simp] theorem State.raise_argPage2 (c : CommandClass) (e : Err) :
    (s.raise c e).argPage2 = s.argPage2 := by cases c <;> rfl
@[simp] theorem State.raise_argSeed (c : CommandClass) (e : Err) :
    (s.raise c e).argSeed = s.argSeed := by cases c <;> rfl
@[simp] theorem State.raise_argByte (c : CommandClass) (e : Err) :
    (s.raise c e).argByte = s.argByte := by cases c <;> rfl
@[simp] theorem State.raise_verify (c : CommandClass) (e : Err) :
    (s.raise c e).verify = s.verify := by cases c <;> rfl
@[simp] theorem State.raise_acc8 (c : CommandClass) (e : Err) :
    (s.raise c e).acc8 = s.acc8 := by cases c <;> rfl
@[simp] theorem State.raise_acc16 (c : CommandClass) (e : Err) :
    (s.raise c e).acc16 = s.acc16 := by cases c <;> rfl
@[simp] theorem State.raise_spTA (c : CommandClass) (e : Err) :
    (s.raise c e).spTA = s.spTA := by cases c <;> rfl
@[simp] theorem State.raise_spLen (c : CommandClass) (e : Err) :
    (s.raise c e).spLen = s.spLen := by cases c <;> rfl
@[simp] theorem State.raise_spES (c : CommandClass) (e : Err) :
    (s.raise c e).spES = s.spES := by cases c <;> rfl
@[simp] theorem State.raise_spBuf (c : CommandClass) (e : Err) :
    (s.raise c e).spBuf = s.spBuf := by cases c <;> rfl
@[simp] theorem State.raise_dbuf (c : CommandClass) (e : Err) :
    (s.raise c e).dbuf = s.dbuf := by cases c <;> rfl
@[simp] theorem State.raise_bus (c : CommandClass) (e : Err) :
    (s.raise c e).bus = { s.bus with limit := none } := by cases c <;> rfl
@[simp] theorem State.raise_host (c : CommandClass) (e : Err) :
    (s.raise c e).host = s.host := by cases c <;> rfl
@[simp] theorem State.raise_hostOut (c : CommandClass) (e : Err) :
    (s.raise c e).hostOut = s.hostOut := by cases c <;> rfl

@[simp] theorem State.raise_contOk (c : CommandClass) (e : Err) :
    (s.raise c e).contOk = if c = .internal then s.contOk else false := by cases c <;> rfl
@[simp] theorem State.raise_speedOk (c : CommandClass) (e : Err) :
    (s.raise c e).speedOk = (s.speedOk && !clearsSpeed c e) := by
  cases c <;> simp [State.raise, State.raiseFlags, clearsSpeed]
@[simp] theorem State.raise_spState (c : CommandClass) (e : Err) :
    (s.raise c e).spState = if c = .internal then s.spState else s.spState.abandon := by
  cases c <;> rfl

/-! ### takeFault -/

@[simp] theorem State.takeFault_desc (f : FaultCode) : (s.takeFault f).desc = s.desc := rfl
@[simp] theorem State.takeFault_busy (f : FaultCode) : (s.takeFault f).busy = false := rfl
@[simp] theorem State.takeFault_speedOk (f : FaultCode) :
    (s.takeFault f).speedOk = s.speedOk := rfl
@[simp] theorem State.takeFault_contOk (f : FaultCode) : (s.takeFault f).contOk = s.contOk := rfl
@[simp] theorem State.takeFault_spState (f : FaultCode) :
    (s.takeFault f).spState = s.spState := rfl
@[simp] theorem State.takeFault_err (f : FaultCode) : (s.takeFault f).err = s.err := rfl
@[simp] theorem State.takeFault_fault (f : FaultCode) : (s.takeFault f).fault = some f := rfl
@[simp] theorem State.takeFault_pw (f : FaultCode) : (s.takeFault f).pw = s.pw := rfl
@[simp] theorem State.takeFault_result (f : FaultCode) : (s.takeFault f).result = s.result := rfl
@[simp] theorem State.takeFault_argAddr (f : FaultCode) :
    (s.takeFault f).argAddr = s.argAddr := rfl
@[simp] theorem State.takeFault_argLen (f : FaultCode) : (s.takeFault f).argLen = s.argLen := rfl
@[simp] theorem State.takeFault_argOff (f : FaultCode) : (s.takeFault f).argOff = s.argOff := rfl
@[simp] theorem State.takeFault_argPage (f : FaultCode) :
    (s.takeFault f).argPage = s.argPage := rfl
@[simp] theorem State.takeFault_argPage2 (f : FaultCode) :
    (s.takeFault f).argPage2 = s.argPage2 := rfl
@[simp] theorem State.takeFault_argSeed (f : FaultCode) :
    (s.takeFault f).argSeed = s.argSeed := rfl
@[simp] theorem State.takeFault_argByte (f : FaultCode) :
    (s.takeFault f).argByte = s.argByte := rfl
@[simp] theorem State.takeFault_verify (f : FaultCode) : (s.takeFault f).verify = s.verify := rfl
@[simp] theorem State.takeFault_acc8 (f : FaultCode) : (s.takeFault f).acc8 = s.acc8 := rfl
@[simp] theorem State.takeFault_acc16 (f : FaultCode) : (s.takeFault f).acc16 = s.acc16 := rfl
@[simp] theorem State.takeFault_spTA (f : FaultCode) : (s.takeFault f).spTA = s.spTA := rfl
@[simp] theorem State.takeFault_spLen (f : FaultCode) : (s.takeFault f).spLen = s.spLen := rfl
@[simp] theorem State.takeFault_spES (f : FaultCode) : (s.takeFault f).spES = s.spES := rfl
@[simp] theorem State.takeFault_spBuf (f : FaultCode) : (s.takeFault f).spBuf = s.spBuf := rfl
@[simp] theorem State.takeFault_dbuf (f : FaultCode) : (s.takeFault f).dbuf = s.dbuf := rfl
@[simp] theorem State.takeFault_bus (f : FaultCode) : (s.takeFault f).bus = s.bus := rfl
@[simp] theorem State.takeFault_host (f : FaultCode) : (s.takeFault f).host = s.host := rfl
@[simp] theorem State.takeFault_hostOut (f : FaultCode) :
    (s.takeFault f).hostOut = s.hostOut := rfl

/-! ### abandonSp -/

@[simp] theorem State.abandonSp_desc : (s.abandonSp).desc = s.desc := rfl
@[simp] theorem State.abandonSp_busy : (s.abandonSp).busy = s.busy := rfl
@[simp] theorem State.abandonSp_speedOk : (s.abandonSp).speedOk = s.speedOk := rfl
@[simp] theorem State.abandonSp_contOk : (s.abandonSp).contOk = s.contOk := rfl
@[simp] theorem State.abandonSp_spState : (s.abandonSp).spState = s.spState.abandon := rfl
@[simp] theorem State.abandonSp_err : (s.abandonSp).err = s.err := rfl
@[simp] theorem State.abandonSp_fault : (s.abandonSp).fault = s.fault := rfl
@[simp] theorem State.abandonSp_pw : (s.abandonSp).pw = s.pw := rfl
@[simp] theorem State.abandonSp_result : (s.abandonSp).result = s.result := rfl
@[simp] theorem State.abandonSp_argAddr : (s.abandonSp).argAddr = s.argAddr := rfl
@[simp] theorem State.abandonSp_argLen : (s.abandonSp).argLen = s.argLen := rfl
@[simp] theorem State.abandonSp_argOff : (s.abandonSp).argOff = s.argOff := rfl
@[simp] theorem State.abandonSp_argPage : (s.abandonSp).argPage = s.argPage := rfl
@[simp] theorem State.abandonSp_argPage2 : (s.abandonSp).argPage2 = s.argPage2 := rfl
@[simp] theorem State.abandonSp_argSeed : (s.abandonSp).argSeed = s.argSeed := rfl
@[simp] theorem State.abandonSp_argByte : (s.abandonSp).argByte = s.argByte := rfl
@[simp] theorem State.abandonSp_verify : (s.abandonSp).verify = s.verify := rfl
@[simp] theorem State.abandonSp_acc8 : (s.abandonSp).acc8 = s.acc8 := rfl
@[simp] theorem State.abandonSp_acc16 : (s.abandonSp).acc16 = s.acc16 := rfl
@[simp] theorem State.abandonSp_spTA : (s.abandonSp).spTA = s.spTA := rfl
@[simp] theorem State.abandonSp_spLen : (s.abandonSp).spLen = s.spLen := rfl
@[simp] theorem State.abandonSp_spES : (s.abandonSp).spES = s.spES := rfl
@[simp] theorem State.abandonSp_spBuf : (s.abandonSp).spBuf = s.spBuf := rfl
@[simp] theorem State.abandonSp_dbuf : (s.abandonSp).dbuf = s.dbuf := rfl
@[simp] theorem State.abandonSp_bus : (s.abandonSp).bus = s.bus := rfl
@[simp] theorem State.abandonSp_host : (s.abandonSp).host = s.host := rfl
@[simp] theorem State.abandonSp_hostOut : (s.abandonSp).hostOut = s.hostOut := rfl

/-! ### resetMachine -/

@[simp] theorem State.resetMachine_desc : (s.resetMachine).desc = s.desc := rfl
@[simp] theorem State.resetMachine_busy : (s.resetMachine).busy = false := rfl
@[simp] theorem State.resetMachine_speedOk : (s.resetMachine).speedOk = false := rfl
@[simp] theorem State.resetMachine_contOk : (s.resetMachine).contOk = false := rfl
@[simp] theorem State.resetMachine_spState : (s.resetMachine).spState = .idle := rfl
@[simp] theorem State.resetMachine_err : (s.resetMachine).err = none := rfl
@[simp] theorem State.resetMachine_fault : (s.resetMachine).fault = none := rfl
@[simp] theorem State.resetMachine_pw :
    (s.resetMachine).pw = ⟨.cleared s.desc, .cleared s.desc, .cleared s.desc⟩ := rfl
@[simp] theorem State.resetMachine_result : (s.resetMachine).result = 0 := rfl
@[simp] theorem State.resetMachine_argAddr : (s.resetMachine).argAddr = 0 := rfl
@[simp] theorem State.resetMachine_argLen : (s.resetMachine).argLen = 0 := rfl
@[simp] theorem State.resetMachine_argOff : (s.resetMachine).argOff = 0 := rfl
@[simp] theorem State.resetMachine_argPage : (s.resetMachine).argPage = 0 := rfl
@[simp] theorem State.resetMachine_argPage2 : (s.resetMachine).argPage2 = 0 := rfl
@[simp] theorem State.resetMachine_argSeed : (s.resetMachine).argSeed = 0 := rfl
@[simp] theorem State.resetMachine_argByte : (s.resetMachine).argByte = 0 := rfl
@[simp] theorem State.resetMachine_verify : (s.resetMachine).verify = true := rfl
@[simp] theorem State.resetMachine_acc8 : (s.resetMachine).acc8 = 0 := rfl
@[simp] theorem State.resetMachine_acc16 : (s.resetMachine).acc16 = 0 := rfl
@[simp] theorem State.resetMachine_spTA : (s.resetMachine).spTA = 0 := rfl
@[simp] theorem State.resetMachine_spLen : (s.resetMachine).spLen = 0 := rfl
@[simp] theorem State.resetMachine_spES : (s.resetMachine).spES = 0 := rfl
@[simp] theorem State.resetMachine_spBuf :
    (s.resetMachine).spBuf = List.replicate s.desc.spSize 0 := rfl
@[simp] theorem State.resetMachine_dbuf : (s.resetMachine).dbuf = [] := rfl
@[simp] theorem State.resetMachine_bus : (s.resetMachine).bus = { s.bus with limit := none } := rfl
@[simp] theorem State.resetMachine_host : (s.resetMachine).host = s.host := rfl
@[simp] theorem State.resetMachine_hostOut : (s.resetMachine).hostOut = s.hostOut := rfl

/-! ### answerHost -/

@[simp] theorem State.answerHost_desc (v : Word) : (s.answerHost v).desc = s.desc := rfl
@[simp] theorem State.answerHost_busy (v : Word) : (s.answerHost v).busy = s.busy := rfl
@[simp] theorem State.answerHost_speedOk (v : Word) : (s.answerHost v).speedOk = s.speedOk := rfl
@[simp] theorem State.answerHost_contOk (v : Word) : (s.answerHost v).contOk = s.contOk := rfl
@[simp] theorem State.answerHost_spState (v : Word) : (s.answerHost v).spState = s.spState := rfl
@[simp] theorem State.answerHost_err (v : Word) : (s.answerHost v).err = s.err := rfl
@[simp] theorem State.answerHost_fault (v : Word) : (s.answerHost v).fault = s.fault := rfl
@[simp] theorem State.answerHost_pw (v : Word) : (s.answerHost v).pw = s.pw := rfl
@[simp] theorem State.answerHost_result (v : Word) : (s.answerHost v).result = s.result := rfl
@[simp] theorem State.answerHost_argAddr (v : Word) : (s.answerHost v).argAddr = s.argAddr := rfl
@[simp] theorem State.answerHost_argLen (v : Word) : (s.answerHost v).argLen = s.argLen := rfl
@[simp] theorem State.answerHost_argOff (v : Word) : (s.answerHost v).argOff = s.argOff := rfl
@[simp] theorem State.answerHost_argPage (v : Word) : (s.answerHost v).argPage = s.argPage := rfl
@[simp] theorem State.answerHost_argPage2 (v : Word) :
    (s.answerHost v).argPage2 = s.argPage2 := rfl
@[simp] theorem State.answerHost_argSeed (v : Word) : (s.answerHost v).argSeed = s.argSeed := rfl
@[simp] theorem State.answerHost_argByte (v : Word) : (s.answerHost v).argByte = s.argByte := rfl
@[simp] theorem State.answerHost_verify (v : Word) : (s.answerHost v).verify = s.verify := rfl
@[simp] theorem State.answerHost_acc8 (v : Word) : (s.answerHost v).acc8 = s.acc8 := rfl
@[simp] theorem State.answerHost_acc16 (v : Word) : (s.answerHost v).acc16 = s.acc16 := rfl
@[simp] theorem State.answerHost_spTA (v : Word) : (s.answerHost v).spTA = s.spTA := rfl
@[simp] theorem State.answerHost_spLen (v : Word) : (s.answerHost v).spLen = s.spLen := rfl
@[simp] theorem State.answerHost_spES (v : Word) : (s.answerHost v).spES = s.spES := rfl
@[simp] theorem State.answerHost_spBuf (v : Word) : (s.answerHost v).spBuf = s.spBuf := rfl
@[simp] theorem State.answerHost_dbuf (v : Word) : (s.answerHost v).dbuf = s.dbuf := rfl
@[simp] theorem State.answerHost_bus (v : Word) : (s.answerHost v).bus = s.bus := rfl
@[simp] theorem State.answerHost_host (v : Word) : (s.answerHost v).host = s.host := rfl
@[simp] theorem State.answerHost_hostOut (v : Word) :
    (s.answerHost v).hostOut = s.hostOut ++ [v] := rfl

/-! ### requeue -/

@[simp] theorem State.requeue_desc (ops : List (Nat × HostOp)) :
    (s.requeue ops).desc = s.desc := rfl
@[simp] theorem State.requeue_busy (ops : List (Nat × HostOp)) :
    (s.requeue ops).busy = s.busy := rfl
@[simp] theorem State.requeue_speedOk (ops : List (Nat × HostOp)) :
    (s.requeue ops).speedOk = s.speedOk := rfl
@[simp] theorem State.requeue_contOk (ops : List (Nat × HostOp)) :
    (s.requeue ops).contOk = s.contOk := rfl
@[simp] theorem State.requeue_spState (ops : List (Nat × HostOp)) :
    (s.requeue ops).spState = s.spState := rfl
@[simp] theorem State.requeue_err (ops : List (Nat × HostOp)) : (s.requeue ops).err = s.err := rfl
@[simp] theorem State.requeue_fault (ops : List (Nat × HostOp)) :
    (s.requeue ops).fault = s.fault := rfl
@[simp] theorem State.requeue_pw (ops : List (Nat × HostOp)) : (s.requeue ops).pw = s.pw := rfl
@[simp] theorem State.requeue_result (ops : List (Nat × HostOp)) :
    (s.requeue ops).result = s.result := rfl
@[simp] theorem State.requeue_argAddr (ops : List (Nat × HostOp)) :
    (s.requeue ops).argAddr = s.argAddr := rfl
@[simp] theorem State.requeue_argLen (ops : List (Nat × HostOp)) :
    (s.requeue ops).argLen = s.argLen := rfl
@[simp] theorem State.requeue_argOff (ops : List (Nat × HostOp)) :
    (s.requeue ops).argOff = s.argOff := rfl
@[simp] theorem State.requeue_argPage (ops : List (Nat × HostOp)) :
    (s.requeue ops).argPage = s.argPage := rfl
@[simp] theorem State.requeue_argPage2 (ops : List (Nat × HostOp)) :
    (s.requeue ops).argPage2 = s.argPage2 := rfl
@[simp] theorem State.requeue_argSeed (ops : List (Nat × HostOp)) :
    (s.requeue ops).argSeed = s.argSeed := rfl
@[simp] theorem State.requeue_argByte (ops : List (Nat × HostOp)) :
    (s.requeue ops).argByte = s.argByte := rfl
@[simp] theorem State.requeue_verify (ops : List (Nat × HostOp)) :
    (s.requeue ops).verify = s.verify := rfl
@[simp] theorem State.requeue_acc8 (ops : List (Nat × HostOp)) :
    (s.requeue ops).acc8 = s.acc8 := rfl
@[simp] theorem State.requeue_acc16 (ops : List (Nat × HostOp)) :
    (s.requeue ops).acc16 = s.acc16 := rfl
@[simp] theorem State.requeue_spTA (ops : List (Nat × HostOp)) :
    (s.requeue ops).spTA = s.spTA := rfl
@[simp] theorem State.requeue_spLen (ops : List (Nat × HostOp)) :
    (s.requeue ops).spLen = s.spLen := rfl
@[simp] theorem State.requeue_spES (ops : List (Nat × HostOp)) :
    (s.requeue ops).spES = s.spES := rfl
@[simp] theorem State.requeue_spBuf (ops : List (Nat × HostOp)) :
    (s.requeue ops).spBuf = s.spBuf := rfl
@[simp] theorem State.requeue_dbuf (ops : List (Nat × HostOp)) :
    (s.requeue ops).dbuf = s.dbuf := rfl
@[simp] theorem State.requeue_bus (ops : List (Nat × HostOp)) : (s.requeue ops).bus = s.bus := rfl
@[simp] theorem State.requeue_host (ops : List (Nat × HostOp)) :
    (s.requeue ops).host = ops.map (fun e => .op e.2) ++ s.host := rfl
@[simp] theorem State.requeue_hostOut (ops : List (Nat × HostOp)) :
    (s.requeue ops).hostOut = s.hostOut := rfl

/-! ### latchBusy -/

@[simp] theorem State.latchBusy_desc :
    (s.latchBusy).desc = s.desc := by unfold State.latchBusy; split <;> rfl
@[simp] theorem State.latchBusy_busy :
    (s.latchBusy).busy = s.busy := by unfold State.latchBusy; split <;> rfl
@[simp] theorem State.latchBusy_speedOk :
    (s.latchBusy).speedOk = s.speedOk := by unfold State.latchBusy; split <;> rfl
@[simp] theorem State.latchBusy_contOk :
    (s.latchBusy).contOk = s.contOk := by unfold State.latchBusy; split <;> rfl
@[simp] theorem State.latchBusy_spState :
    (s.latchBusy).spState = s.spState := by unfold State.latchBusy; split <;> rfl
@[simp] theorem State.latchBusy_err :
    (s.latchBusy).err = s.err := by unfold State.latchBusy; split <;> rfl
@[simp] theorem State.latchBusy_fault :
    (s.latchBusy).fault = if s.fault = none then some .busy else s.fault := by
  unfold State.latchBusy; split <;> rfl
@[simp] theorem State.latchBusy_pw :
    (s.latchBusy).pw = s.pw := by unfold State.latchBusy; split <;> rfl
@[simp] theorem State.latchBusy_result :
    (s.latchBusy).result = s.result := by unfold State.latchBusy; split <;> rfl
@[simp] theorem State.latchBusy_argAddr :
    (s.latchBusy).argAddr = s.argAddr := by unfold State.latchBusy; split <;> rfl
@[simp] theorem State.latchBusy_argLen :
    (s.latchBusy).argLen = s.argLen := by unfold State.latchBusy; split <;> rfl
@[simp] theorem State.latchBusy_argOff :
    (s.latchBusy).argOff = s.argOff := by unfold State.latchBusy; split <;> rfl
@[simp] theorem State.latchBusy_argPage :
    (s.latchBusy).argPage = s.argPage := by unfold State.latchBusy; split <;> rfl
@[simp] theorem State.latchBusy_argPage2 :
    (s.latchBusy).argPage2 = s.argPage2 := by unfold State.latchBusy; split <;> rfl
@[simp] theorem State.latchBusy_argSeed :
    (s.latchBusy).argSeed = s.argSeed := by unfold State.latchBusy; split <;> rfl
@[simp] theorem State.latchBusy_argByte :
    (s.latchBusy).argByte = s.argByte := by unfold State.latchBusy; split <;> rfl
@[simp] theorem State.latchBusy_verify :
    (s.latchBusy).verify = s.verify := by unfold State.latchBusy; split <;> rfl
@[simp] theorem State.latchBusy_acc8 :
    (s.latchBusy).acc8 = s.acc8 := by unfold State.latchBusy; split <;> rfl
@[simp] theorem State.latchBusy_acc16 :
    (s.latchBusy).acc16 = s.acc16 := by unfold State.latchBusy; split <;> rfl
@[simp] theorem State.latchBusy_spTA :
    (s.latchBusy).spTA = s.spTA := by unfold State.latchBusy; split <;> rfl
@[simp] theorem State.latchBusy_spLen :
    (s.latchBusy).spLen = s.spLen := by unfold State.latchBusy; split <;> rfl
@[simp] theorem State.latchBusy_spES :
    (s.latchBusy).spES = s.spES := by unfold State.latchBusy; split <;> rfl
@[simp] theorem State.latchBusy_spBuf :
    (s.latchBusy).spBuf = s.spBuf := by unfold State.latchBusy; split <;> rfl
@[simp] theorem State.latchBusy_dbuf :
    (s.latchBusy).dbuf = s.dbuf := by unfold State.latchBusy; split <;> rfl
@[simp] theorem State.latchBusy_bus :
    (s.latchBusy).bus = s.bus := by unfold State.latchBusy; split <;> rfl
@[simp] theorem State.latchBusy_host :
    (s.latchBusy).host = s.host := by unfold State.latchBusy; split <;> rfl
@[simp] theorem State.latchBusy_hostOut :
    (s.latchBusy).hostOut = s.hostOut := by unfold State.latchBusy; split <;> rfl

/-! ### writePort -/

@[simp] theorem State.writePort_desc (i : Nat) (b : Byte) :
    (s.writePort i b).desc = s.desc := by unfold State.writePort; split <;> rfl
@[simp] theorem State.writePort_busy (i : Nat) (b : Byte) :
    (s.writePort i b).busy = s.busy := by unfold State.writePort; split <;> rfl
@[simp] theorem State.writePort_speedOk (i : Nat) (b : Byte) :
    (s.writePort i b).speedOk = s.speedOk := by unfold State.writePort; split <;> rfl
@[simp] theorem State.writePort_contOk (i : Nat) (b : Byte) :
    (s.writePort i b).contOk = s.contOk := by unfold State.writePort; split <;> rfl
@[simp] theorem State.writePort_spState (i : Nat) (b : Byte) :
    (s.writePort i b).spState = s.spState := by unfold State.writePort; split <;> rfl
@[simp] theorem State.writePort_err (i : Nat) (b : Byte) :
    (s.writePort i b).err = s.err := by unfold State.writePort; split <;> rfl
@[simp] theorem State.writePort_fault (i : Nat) (b : Byte) :
    (s.writePort i b).fault = s.fault := by unfold State.writePort; split <;> rfl
@[simp] theorem State.writePort_pw (i : Nat) (b : Byte) :
    (s.writePort i b).pw = s.pw := by unfold State.writePort; split <;> rfl
@[simp] theorem State.writePort_result (i : Nat) (b : Byte) :
    (s.writePort i b).result = s.result := by unfold State.writePort; split <;> rfl
@[simp] theorem State.writePort_argAddr (i : Nat) (b : Byte) :
    (s.writePort i b).argAddr = s.argAddr := by unfold State.writePort; split <;> rfl
@[simp] theorem State.writePort_argLen (i : Nat) (b : Byte) :
    (s.writePort i b).argLen = s.argLen := by unfold State.writePort; split <;> rfl
@[simp] theorem State.writePort_argOff (i : Nat) (b : Byte) :
    (s.writePort i b).argOff = s.argOff := by unfold State.writePort; split <;> rfl
@[simp] theorem State.writePort_argPage (i : Nat) (b : Byte) :
    (s.writePort i b).argPage = s.argPage := by unfold State.writePort; split <;> rfl
@[simp] theorem State.writePort_argPage2 (i : Nat) (b : Byte) :
    (s.writePort i b).argPage2 = s.argPage2 := by unfold State.writePort; split <;> rfl
@[simp] theorem State.writePort_argSeed (i : Nat) (b : Byte) :
    (s.writePort i b).argSeed = s.argSeed := by unfold State.writePort; split <;> rfl
@[simp] theorem State.writePort_argByte (i : Nat) (b : Byte) :
    (s.writePort i b).argByte = s.argByte := by unfold State.writePort; split <;> rfl
@[simp] theorem State.writePort_verify (i : Nat) (b : Byte) :
    (s.writePort i b).verify = s.verify := by unfold State.writePort; split <;> rfl
@[simp] theorem State.writePort_acc8 (i : Nat) (b : Byte) :
    (s.writePort i b).acc8 = s.acc8 := by unfold State.writePort; split <;> rfl
@[simp] theorem State.writePort_acc16 (i : Nat) (b : Byte) :
    (s.writePort i b).acc16 = s.acc16 := by unfold State.writePort; split <;> rfl
@[simp] theorem State.writePort_spTA (i : Nat) (b : Byte) :
    (s.writePort i b).spTA = s.spTA := by unfold State.writePort; split <;> rfl
@[simp] theorem State.writePort_spLen (i : Nat) (b : Byte) :
    (s.writePort i b).spLen = s.spLen := by unfold State.writePort; split <;> rfl
@[simp] theorem State.writePort_spES (i : Nat) (b : Byte) :
    (s.writePort i b).spES = s.spES := by unfold State.writePort; split <;> rfl
@[simp] theorem State.writePort_spBuf (i : Nat) (b : Byte) :
    (s.writePort i b).spBuf = s.spBuf := by unfold State.writePort; split <;> rfl
@[simp] theorem State.writePort_bus (i : Nat) (b : Byte) :
    (s.writePort i b).bus = s.bus := by unfold State.writePort; split <;> rfl
@[simp] theorem State.writePort_host (i : Nat) (b : Byte) :
    (s.writePort i b).host = s.host := by unfold State.writePort; split <;> rfl
@[simp] theorem State.writePort_hostOut (i : Nat) (b : Byte) :
    (s.writePort i b).hostOut = s.hostOut := by unfold State.writePort; split <;> rfl

/-! ### The FSM state -/

@[simp] theorem SpState.abandon_abandon (p : SpState) : p.abandon.abandon = p.abandon := by
  cases p <;> rfl
@[simp] theorem SpState.abandon_isOpen (p : SpState) : p.abandon.isOpen = false := by
  cases p <;> rfl
theorem SpState.abandon_of_closed {p : SpState} (h : p.isOpen = false) : p.abandon = p := by
  cases p <;> simp_all [SpState.isOpen, SpState.abandon]
theorem SpState.abandon_of_open {p : SpState} (h : p.isOpen = true) : p.abandon = .aborted := by
  cases p <;> simp_all [SpState.isOpen, SpState.abandon]

end Sys2Proof.Machine
end

