-- ==== Sys2Proof/Laws/Procedures.lean ====
section
/-! SUPPORT. What each shared procedure can do, once for every ending (spec/41_bank.md R120 to
R127, spec/42_paged.md R142, R143, spec/43_otp.md R160, spec/44_scratchpad.md R182 to R190): which
fields of the state it may change, how many bus events it makes, that it is cut off only at a limit
and that it never faults. -/

namespace Sys2Proof.Machine

variable {α β : Type}

/-! ### Endings -/

/-- Every state the piece leaves has `P`; it is cut off only where the limit is used up; it does
not fault. -/
structure Run.Ends (P : State → Prop) (r : Run α) : Prop where
  all : r.All P
  cuts : r.CutsAtLimit
  sound : ∀ f, r ≠ .faulted f

theorem Run.Ends.ok {P : State → Prop} {a : α} {s : State} (h : P s) : (Run.ok a s).Ends P :=
  ⟨h, fun _ h => by simp at h, fun _ h => by simp at h⟩

theorem Run.Ends.raised {P : State → Prop} {e : Err} {s : State} (h : P s) :
    (Run.raised e s : Run α).Ends P := ⟨h, fun _ h => by simp at h, fun _ h => by simp at h⟩

theorem Run.Ends.cut {P : State → Prop} {s : State} (h : P s) (hl : s.bus.limit = some 0) :
    (Run.cut s : Run α).Ends P :=
  ⟨h, fun _ h => by cases h; exact hl, fun _ h => by simp at h⟩

theorem Run.Ends.mono {P Q : State → Prop} {r : Run α} (hr : r.Ends P) (h : ∀ t, P t → Q t) :
    r.Ends Q := ⟨hr.all.mono h, hr.cuts, hr.sound⟩

theorem Run.Ends.bind {P Q : State → Prop} {r : Run α} {k : α → State → Run β} (hr : r.Ends P)
    (hPQ : ∀ t, P t → Q t) (hk : ∀ a t, r = .ok a t → P t → (k a t).Ends Q) :
    (r.bind k).Ends Q := by
  cases r with
  | ok a t => exact hk a t rfl hr.all
  | raised e t => exact .raised (hPQ t hr.all)
  | faulted f => exact absurd rfl (hr.sound f)
  | cut t => exact .cut (hPQ t hr.all) (hr.cuts t rfl)

/-! ### Procedures that only use the bus -/

/-- `t` is `s` after the events `es`: only the bus record and SPEED_OK changed, and SPEED_OK was not
cleared. -/
structure BusMove (es : List BusEvent) (s t : State) : Prop where
  bus : Bus.Grows es s.bus t.bus
  speed : s.speedOk = true → t.speedOk = true
  rest : t = { s with bus := t.bus, speedOk := t.speedOk }

theorem BusMove.refl (s : State) : BusMove [] s s := ⟨.refl _, id, rfl⟩

theorem BusMove.trans {es fs : List BusEvent} {s t u : State} (h : BusMove es s t)
    (k : BusMove fs t u) : BusMove (es ++ fs) s u where
  bus := h.bus.trans k.bus
  speed := k.speed ∘ h.speed
  rest := by rw [k.rest, h.rest]

theorem BusMove.setSpeed {es : List BusEvent} {s t : State} (h : BusMove es s t) :
    BusMove es s { t with speedOk := true } where
  bus := h.bus
  speed := fun _ => rfl
  rest := by rw [h.rest]

/-- A presence check (00_scope.md R13). -/
def BusEvent.isPresenceCheck : BusEvent → Bool
  | .isPresent _ => true
  | .select _ _ | .send _ | .recv _ _ | .sendPulse _ _ | .sendProgram _ => false
  | .canDeliverPower _ | .canProgramPulse _ | .doSpeed _ | .sleep _ => false

/-- At most `n` events, at most `m` presence checks among them, and no pulse behind two bytes. -/
structure Quiet (n m : Nat) (es : List BusEvent) : Prop where
  length : es.length ≤ n
  checks : es.countP BusEvent.isPresenceCheck ≤ m
  pulses : ∀ e ∈ es, e.isLongPulse = false

theorem Quiet.nil : Quiet 0 0 [] := ⟨by simp, by simp, by simp⟩

theorem Quiet.append {n m n' m' : Nat} {es fs : List BusEvent} (h : Quiet n m es)
    (k : Quiet n' m' fs) : Quiet (n + n') (m + m') (es ++ fs) where
  length := by have := h.length; have := k.length; simp only [List.length_append]; omega
  checks := by have := h.checks; have := k.checks; simp only [List.countP_append]; omega
  pulses := fun e he => (List.mem_append.1 he).elim (h.pulses e) (k.pulses e)

theorem Quiet.mono {n m n' m' : Nat} {es : List BusEvent} (h : Quiet n m es) (hn : n ≤ n')
    (hm : m ≤ m') : Quiet n' m' es := ⟨h.length.trans hn, h.checks.trans hm, h.pulses⟩

/-- `t` is `s` after some events, quiet as `n` and `m` say. -/
def Went (n m : Nat) (s t : State) : Prop := ∃ es, BusMove es s t ∧ Quiet n m es

theorem Went.refl (s : State) : Went 0 0 s s := ⟨[], .refl s, .nil⟩

theorem Went.mono {n m n' m' : Nat} {s t : State} (h : Went n m s t) (hn : n ≤ n' := by omega)
    (hm : m ≤ m' := by omega) : Went n' m' s t := by
  obtain ⟨es, h, q⟩ := h
  exact ⟨es, h, q.mono hn hm⟩

theorem Went.trans {n m n' m' : Nat} {s t u : State} (h : Went n m s t) (k : Went n' m' t u) :
    Went (n + n') (m + m') s u := by
  obtain ⟨es, h, q⟩ := h
  obtain ⟨fs, k, r⟩ := k
  exact ⟨es ++ fs, h.trans k, q.append r⟩

theorem Went.desc {n m : Nat} {s t : State} (h : Went n m s t) : t.desc = s.desc := by
  obtain ⟨es, h, -⟩ := h
  rw [h.rest]

/-- Sequencing adds the bounds up. -/
theorem Run.Ends.went {n m n' m' : Nat} {s : State} {r : Run α} {k : α → State → Run β}
    (hr : r.Ends (Went n m s)) (hk : ∀ a t, t.desc = s.desc → (k a t).Ends (Went n' m' t)) :
    (r.bind k).Ends (Went (n + n') (m + m') s) :=
  hr.bind (fun _ h => h.mono) fun a t _ h => (hk a t h.desc).mono fun _ g => h.trans g

theorem Run.Ends.weaken {n m n' m' : Nat} {s : State} {r : Run α} (hr : r.Ends (Went n m s))
    (hn : n ≤ n' := by omega) (hm : m ≤ m' := by omega) : r.Ends (Went n' m' s) :=
  hr.mono fun _ h => h.mono hn hm

variable (s : State)

theorem ok_ends (a : α) : (Run.ok a s).Ends (Went 0 0 s) := .ok (.refl s)
theorem raised_ends (e : Err) : (Run.raised e s : Run α).Ends (Went 0 0 s) := .raised (.refl s)

/-- An event that is no pulse behind two bytes. -/
theorem busEvent_ends (e : BusEvent) (hp : e.isLongPulse = false) :
    (busEvent e s).Ends (Went 1 e.isPresenceCheck.toNat s) := by
  have hq : Quiet 1 e.isPresenceCheck.toNat [e] :=
    ⟨by simp, by cases h : e.isPresenceCheck <;> simp [h], by simpa using hp⟩
  rcases busEvent_cases e s with ⟨h, hl⟩ | ⟨b, h, hg, -, -⟩
  · rw [h]; exact .cut (Went.refl s).mono hl
  · rw [h]; exact .ok ⟨[e], ⟨hg, id, rfl⟩, hq⟩

theorem busQuery_ends (mk : Bool → BusEvent) (m : Nat)
    (hp : ∀ a, (mk a).isLongPulse = false ∧ (mk a).isPresenceCheck.toNat ≤ m) :
    (busQuery mk s).Ends (Went 1 m s) := by
  rcases busQuery_cases mk s with ⟨h, hl⟩ | ⟨a, b, h, hg⟩
  · rw [h]; exact .cut (Went.refl s).mono hl
  · rw [h]
    refine .ok ⟨[mk a], ⟨hg, id, rfl⟩, ⟨by simp, ?_, by simpa using (hp a).1⟩⟩
    have := (hp a).2
    cases h : (mk a).isPresenceCheck <;> simp_all

theorem busRecv_ends (n : Nat) : (busRecv n s).Ends (Went 1 0 s) := by
  rcases busRecv_cases n s with ⟨h, hl⟩ | ⟨b, h, hg⟩
  · rw [h]; exact .cut (Went.refl s).mono hl
  · rw [h]; exact .ok ⟨_, ⟨hg, id, rfl⟩, ⟨by simp, by simp [BusEvent.isPresenceCheck], by
      simp [BusEvent.isLongPulse]⟩⟩

theorem busSend_ends (xs : List Byte) : (busSend xs s).Ends (Went 1 0 s) :=
  busEvent_ends s (.send xs) rfl
theorem busSendProgram_ends (xs : List Byte) : (busSendProgram xs s).Ends (Went 1 0 s) :=
  busEvent_ends s (.sendProgram xs) rfl
theorem busSleep_ends (d : Nat) : (busSleep d s).Ends (Went 1 0 s) :=
  busEvent_ends s (.sleep d) rfl
theorem busSelect_ends : (busSelect s).Ends (Went 1 0 s) :=
  busQuery_ends s _ 0 fun _ => ⟨rfl, le_refl _⟩
theorem doSpeed_ends : (doSpeed s).Ends (Went 1 0 s) :=
  busQuery_ends s _ 0 fun _ => ⟨rfl, le_refl _⟩
theorem isPresent_ends : (isPresent s).Ends (Went 1 1 s) :=
  busQuery_ends s _ 1 fun _ => ⟨rfl, le_refl _⟩
theorem canDeliverPower_ends : (canDeliverPower s).Ends (Went 1 0 s) :=
  busQuery_ends s _ 0 fun _ => ⟨rfl, le_refl _⟩
theorem canProgramPulse_ends : (canProgramPulse s).Ends (Went 1 0 s) :=
  busQuery_ends s _ 0 fun _ => ⟨rfl, le_refl _⟩

theorem confirmSpeed_ends : (confirmSpeed s).Ends (Went 1 0 s) := by
  unfold confirmSpeed
  split
  · exact (ok_ends s ()).weaken
  · refine (doSpeed_ends s).bind (fun _ h => h) fun a t _ ⟨es, h, q⟩ => ?_
    split
    · exact .ok ⟨es, h.setSpeed, q⟩
    · exact .raised ⟨es, h, q⟩

theorem selectDevice_ends : (selectDevice s).Ends (Went 1 0 s) :=
  (busSelect_ends s).went (n' := 0) (m' := 0) fun a t _ => by
    split
    · exact ok_ends t ()
    · exact raised_ends t _

theorem prologue_ends (cont : Bool) : (prologue cont s).Ends (Went 2 0 s) := by
  unfold prologue
  split
  · exact (ok_ends s ()).weaken
  · exact (confirmSpeed_ends s).went fun a t _ => selectDevice_ends t

theorem requirePower_ends : (requirePower s).Ends (Went 1 0 s) :=
  (canDeliverPower_ends s).went (n' := 0) (m' := 0) fun a t _ => by
    split
    · exact ok_ends t ()
    · exact raised_ends t _

theorem requireProgramPulse_ends : (requireProgramPulse s).Ends (Went 1 0 s) :=
  (canProgramPulse_ends s).went (n' := 0) (m' := 0) fun a t _ => by
    split
    · exact ok_ends t ()
    · exact raised_ends t _

/-- A challenge's pulse carries one byte. -/
theorem challenge_ends (slot : PwSlot) (ta : Nat) : (challenge slot ta s).Ends (Went 4 0 s) :=
  (requirePower_ends s).went (n' := 3) (m' := 0) fun _ t _ =>
  (busSend_ends t _).went (n' := 2) (m' := 0) fun _ t _ =>
  (busEvent_ends t (.sendPulse [_] _) rfl).went (n' := 1) (m' := 0) fun _ t _ =>
  (busRecv_ends t 1).went (n' := 0) (m' := 0) fun a t _ => by
    split
    · exact raised_ends t _
    · exact ok_ends t ()

theorem openRead_ends (cont : Bool) (slot : PwSlot) (ta : Nat) :
    (openRead cont slot ta s).Ends (Went 6 0 s) :=
  (prologue_ends s cont).went (n' := 4) (m' := 0) fun _ t _ => by
    split
    · exact challenge_ends t slot ta
    · exact (ok_ends t ()).weaken

/-- The busy poll makes at most `left` presence checks. -/
theorem pollRead_ends (p n : Nat) (slot : PwSlot) (left : Nat) : ∀ (d : List Byte) (s : State),
    (pollRead p n slot left d s).Ends (Went (10 * left) left s) := by
  induction left with
  | zero => exact fun d s => ok_ends s d
  | succ left ih =>
    intro d s
    unfold pollRead
    split
    · refine Run.Ends.weaken (n := 1 + (1 + (6 + (1 + (1 + 10 * left)))))
        (m := 0 + (1 + (0 + (0 + (0 + left))))) ?_
      refine (busSleep_ends s _).went fun _ s _ => ?_
      refine (isPresent_ends s).went fun present s _ => ?_
      split
      · refine (openRead_ends s false slot p).went fun _ s _ => ?_
        refine (busSend_ends s _).went fun _ s _ => ?_
        exact (busRecv_ends s n).went fun d s _ => ih d s
      · exact (raised_ends s _).weaken
    · exact (ok_ends s d).weaken

theorem readBytes_ends (p n : Nat) (cont : Bool) (slot : PwSlot) :
    (readBytes p n cont slot s).Ends
      (Went (2 + 10 * (s.desc.pollMax - 1)) (s.desc.pollMax - 1) s) := by
  have h1 : (if cont then .ok () s else busSend (Config.seqRead p n) s : Run Unit).Ends
      (Went 1 0 s) := by
    split
    · exact (ok_ends s ()).weaken
    · exact busSend_ends s _
  refine Run.Ends.weaken (n := 1 + (1 + 10 * (s.desc.pollMax - 1)))
    (m := 0 + (0 + (s.desc.pollMax - 1))) (h1.went fun _ t ht => ?_)
  refine (busRecv_ends t n).went fun d u hu => ?_
  rw [← ht, ← hu]
  split
  · exact pollRead_ends p n slot _ d u
  · exact (ok_ends u d).weaken

theorem writeCheck_ends : (writeCheck s).Ends (Went 0 0 s) := by
  unfold writeCheck
  split
  · exact raised_ends s _
  · exact ok_ends s ()

theorem powerCheck_ends : (powerCheck s).Ends (Went 2 0 s) := by
  have h1 : (if s.desc.flagPDeliv then requirePower s else .ok () s : Run Unit).Ends
      (Went 1 0 s) := by
    split
    · exact requirePower_ends s
    · exact (ok_ends s ()).weaken
  refine h1.went (n' := 1) (m' := 0) fun _ t _ => ?_
  split
  · exact requireProgramPulse_ends t
  · exact (ok_ends t ()).weaken

theorem directWrite_ends (p : Nat) (xs : List Byte) : (directWrite p xs s).Ends (Went 3 0 s) :=
  (prologue_ends s false).went (n' := 1) (m' := 0) fun _ t _ => by
    split
    · exact busSendProgram_ends t _
    · exact busSend_ends t _

theorem readBack_ends (p : Nat) (xs : List Byte) (slot : PwSlot) :
    (readBack p xs slot s).Ends
      (Went (8 + 10 * (s.desc.pollMax - 1)) (s.desc.pollMax - 1) s) := by
  unfold readBack
  split
  · refine Run.Ends.weaken (n := 6 + ((2 + 10 * (s.desc.pollMax - 1)) + 0))
      (m := 0 + ((s.desc.pollMax - 1) + 0)) ((openRead_ends s false slot p).went fun _ t ht => ?_)
    rw [← ht]
    refine (readBytes_ends t _ _ _ _).went fun d u _ => ?_
    split
    · exact raised_ends u _
    · exact ok_ends u ()
  · exact (ok_ends s ()).weaken

theorem readExtra_ends (absPage : Nat) : (readExtra absPage s).Ends (Went 4 0 s) :=
  (prologue_ends s false).went (n' := 2) (m' := 0) fun _ t _ =>
  (busSend_ends t _).went (n' := 1) (m' := 0) fun _ t _ => busRecv_ends t _

theorem readCrcPage_ends (p : Nat) (cont : Bool) : (readCrcPage p cont s).Ends (Went 2 0 s) := by
  have h1 : (if cont then .ok () s else busSend (Config.seqAutoCrcRead p) s : Run Unit).Ends
      (Went 1 0 s) := by
    split
    · exact (ok_ends s ()).weaken
    · exact busSend_ends s _
  refine h1.went (n' := 1) (m' := 0) fun _ t _ => ?_
  refine (busRecv_ends t _).went (n' := 0) (m' := 0) fun d u _ => ?_
  split
  · exact raised_ends u _
  · exact ok_ends u _

theorem statusRead_ends (seq : List Byte) : (statusRead seq s).Ends (Went 4 0 s) :=
  (prologue_ends s false).went (n' := 2) (m' := 0) fun _ t _ =>
  (busSend_ends t _).went (n' := 1) (m' := 0) fun _ t _ =>
  (busRecv_ends t 1).went (n' := 0) (m' := 0) fun _ t _ => ok_ends t _

/-! ### Procedures that may pulse -/

/-- `t` is `s` after some events of any kind. -/
def Moved (s t : State) : Prop := ∃ es, BusMove es s t

theorem Moved.refl (s : State) : Moved s s := ⟨[], .refl s⟩
theorem Moved.trans {s t u : State} (h : Moved s t) (k : Moved t u) : Moved s u := by
  obtain ⟨es, h⟩ := h
  obtain ⟨fs, k⟩ := k
  exact ⟨es ++ fs, h.trans k⟩
theorem Went.moved {n m : Nat} {s t : State} (h : Went n m s t) : Moved s t :=
  let ⟨es, h, _⟩ := h; ⟨es, h⟩
theorem Moved.spState {s t : State} (h : Moved s t) : t.spState = s.spState := by
  obtain ⟨es, h⟩ := h
  rw [h.rest]
theorem Went.spState {n m : Nat} {s t : State} (h : Went n m s t) : t.spState = s.spState :=
  h.moved.spState
theorem Run.Ends.moved {n m : Nat} {s : State} {r : Run α} (hr : r.Ends (Went n m s)) :
    r.Ends (Moved s) := hr.mono fun _ h => h.moved
theorem Run.Ends.move {s : State} {r : Run α} {k : α → State → Run β} (hr : r.Ends (Moved s))
    (hk : ∀ a t, (k a t).Ends (Moved t)) : (r.bind k).Ends (Moved s) :=
  hr.bind (fun _ h => h) fun a t _ h => (hk a t).mono fun _ g => h.trans g

theorem busSendPulse_moved (xs : List Byte) (d : Nat) : (busSendPulse xs d s).Ends (Moved s) := by
  rcases busEvent_cases (.sendPulse xs d) s with ⟨h, hl⟩ | ⟨b, h, hg, -, -⟩
  · rw [busSendPulse, h]; exact .cut (.refl s) hl
  · rw [busSendPulse, h]; exact .ok ⟨_, ⟨hg, id, rfl⟩⟩

theorem programSend_moved (seq : List Byte) : (programSend seq s).Ends (Moved s) :=
  (prologue_ends s false).moved.move fun _ t => by
    split
    · exact (busSendProgram_ends t _).moved
    · split
      · exact busSendPulse_moved t _ _
      · exact (busSend_ends t _).moved

/-! ### Procedures of the scratchpad -/

/-- `t` is `s` after the events `es` of a scratchpad procedure: the bus record, SPEED_OK, which is
not cleared, and the scratchpad's registers. -/
structure SpMove (es : List BusEvent) (s t : State) : Prop where
  bus : Bus.Grows es s.bus t.bus
  speed : s.speedOk = true → t.speedOk = true
  rest : t = { s with
    bus := t.bus, speedOk := t.speedOk, spState := t.spState
    spTA := t.spTA, spLen := t.spLen, spES := t.spES, spBuf := t.spBuf }

theorem SpMove.refl (s : State) : SpMove [] s s := ⟨.refl _, id, rfl⟩

theorem SpMove.trans {es fs : List BusEvent} {s t u : State} (h : SpMove es s t)
    (k : SpMove fs t u) : SpMove (es ++ fs) s u where
  bus := h.bus.trans k.bus
  speed := k.speed ∘ h.speed
  rest := by rw [k.rest, h.rest]

theorem BusMove.sp {es : List BusEvent} {s t : State} (h : BusMove es s t) : SpMove es s t where
  bus := h.bus
  speed := h.speed
  rest := by rw [h.rest]

/-- A scratchpad of a well-formed size (00_scope.md R6). -/
abbrev SpSized (d : Descriptor) : Prop := 1 ≤ d.spSize ∧ d.spSize ≤ 256

/-- A bank whose scratchpad, if any, is of a well-formed size. -/
abbrev SpBank (d : Descriptor) : Prop := d.spPresent = true → SpSized d

/-- What holds of the scratchpad's registers on such a bank: without a scratchpad the state is IDLE;
SPBUF has SP_SIZE bytes, SP_LEN is at most that, an open transaction has staged a byte, AUTHED is on
a password-gated bank only (10_state.md R34, R36, R37; 44_scratchpad.md R180). -/
structure SpOk (s : State) : Prop where
  idle : s.desc.spPresent = false → s.spState = .idle
  buf : s.spBuf.length = s.desc.spSize
  len : s.spLen.toNat ≤ s.desc.spSize
  staged : s.spState.isOpen = true → 1 ≤ s.spLen.toNat
  authed : s.spState = .authed → s.desc.pwGated = true

/-- An open transaction is on a bank with a scratchpad. -/
theorem SpOk.present {s : State} (h : SpOk s) (ho : s.spState.isOpen = true) :
    s.desc.spPresent = true := by
  by_contra hp
  rw [h.idle (by simpa using hp)] at ho
  cases ho

/-- `t` is `s` after some events of a scratchpad procedure, and the scratchpad's registers still are
as they should be. -/
def SpWent (s t : State) : Prop := ∃ es, SpMove es s t ∧ (SpBank s.desc → SpOk s → SpOk t)

theorem SpMove.desc {es : List BusEvent} {s t : State} (h : SpMove es s t) : t.desc = s.desc := by
  rw [h.rest]

theorem SpWent.refl (s : State) : SpWent s s := ⟨[], .refl s, fun _ => id⟩
theorem SpWent.trans {s t u : State} (h : SpWent s t) (k : SpWent t u) : SpWent s u := by
  obtain ⟨es, h, i⟩ := h
  obtain ⟨fs, k, j⟩ := k
  exact ⟨es ++ fs, h.trans k, fun b o => j (by rw [h.desc]; exact b) (i b o)⟩
theorem SpWent.desc {s t : State} (h : SpWent s t) : t.desc = s.desc := by
  obtain ⟨es, h, -⟩ := h
  rw [h.rest]
theorem Moved.spWent {s t : State} (h : Moved s t) : SpWent s t := by
  obtain ⟨es, h⟩ := h
  refine ⟨es, h.sp, fun _ k => ?_⟩
  rw [h.rest]
  exact ⟨k.idle, k.buf, k.len, k.staged, k.authed⟩
theorem Run.Ends.spWent {s : State} {r : Run α} (hr : r.Ends (Moved s)) : r.Ends (SpWent s) :=
  hr.mono fun _ h => h.spWent
theorem Run.Ends.spMove {s : State} {r : Run α} {k : α → State → Run β} (hr : r.Ends (SpWent s))
    (hk : ∀ a t, r = .ok a t → SpWent s t → (k a t).Ends (SpWent t)) :
    (r.bind k).Ends (SpWent s) :=
  hr.bind (fun _ h => h) fun a t e h => (hk a t e h).mono fun _ g => h.trans g

/-- A change of the FSM state alone. -/
theorem SpWent.setState (p : SpState)
    (hi : s.desc.spPresent = false → s.spState = .idle → p = .idle)
    (ho : p.isOpen = true → s.spState.isOpen = true) (ha : p = .authed → s.desc.pwGated = true) :
    SpWent s { s with spState := p } :=
  ⟨[], ⟨.refl _, id, rfl⟩,
    fun _ k => ⟨fun h => hi h (k.idle h), k.buf, k.len, fun h => k.staged (ho h), ha⟩⟩

/-- A change of the FSM state of an open transaction. -/
theorem SpWent.setOpen (p : SpState) (ho : s.spState.isOpen = true)
    (ha : p = .authed → s.desc.pwGated = true) : SpWent s { s with spState := p } :=
  SpWent.setState s p (fun _ h => by rw [h] at ho; cases ho) (fun _ => ho) ha

/-- A stage of at most SP_SIZE bytes, and at least one, keeps the registers in order. -/
theorem spWriteProc_spWent (ta : Nat) (xs : List Byte)
    (h : SpBank s.desc → s.desc.spPresent = true ∧ SpSized s.desc ∧ 0 < xs.length ∧
      xs.length ≤ s.desc.spSize) :
    (spWriteProc ta xs s).Ends (SpWent s) := by
  refine (prologue_ends s false).moved.spWent.spMove fun _ t _ ht => ?_
  refine (busSend_ends t _).moved.spWent.spMove fun _ u _ hu => ?_
  have hd : u.desc = s.desc := hu.desc.trans ht.desc
  refine .ok ⟨[], ⟨.refl _, id, rfl⟩, fun b k => ?_⟩
  rw [hd] at b
  obtain ⟨h0, h1, h2, h3⟩ := h b
  refine ⟨fun hp => ?_, ?_, ?_, fun _ => ?_, nofun⟩
  · have hp' : s.desc.spPresent = false := by rw [← hd]; exact hp
    rw [h0] at hp'; cases hp'
  · have := k.buf
    simp only [List.length_append, List.length_drop, this, hd]
    omega
  · simp only [BitVec.toNat_ofNat, hd]
    omega
  · simp only [BitVec.toNat_ofNat]
    omega

theorem recvIf_ends (present : Bool) (n : Nat) : (recvIf present n s).Ends (Went 1 0 s) := by
  unfold recvIf
  split
  · exact busRecv_ends s n
  · exact (ok_ends s _).weaken

/-- `SpVerifyProc` from an open transaction: it stays as it is, or becomes VERIFIED. -/
theorem spVerifyProc_spWent (ho : s.spState.isOpen = true) :
    (spVerifyProc s).Ends (SpWent s) := by
  have keep : ∀ {t : State} {n m : Nat}, t.spState.isOpen = true → ∀ {u : State},
      Went n m t u → u.spState.isOpen = true := fun h _ w => w.spState ▸ h
  refine (prologue_ends s false).bind (fun _ h => h.moved.spWent) fun _ t _ ht => ?_
  refine ((busSend_ends t _).bind (Q := SpWent t) (fun _ h => h.moved.spWent)
    fun _ u _ hu => ?_).mono fun _ g => ht.moved.spWent.trans g
  refine ((recvIf_ends u _ _).bind (Q := SpWent u) (fun _ h => h.moved.spWent)
    fun hdr v _ hv => ?_).mono fun _ g => hu.moved.spWent.trans g
  refine ((busRecv_ends v _).bind (Q := SpWent v) (fun _ h => h.moved.spWent)
    fun d w _ hw => ?_).mono fun _ g => hv.moved.spWent.trans g
  refine ((recvIf_ends w _ _).bind (Q := SpWent w) (fun _ h => h.moved.spWent)
    fun c x _ hx => ?_).mono fun _ g => hw.moved.spWent.trans g
  refine Run.Ends.mono (P := SpWent x) ?_ fun _ g => hx.moved.spWent.trans g
  have hox := keep (keep (keep (keep (keep ho ht) hu) hv) hw) hx
  split
  · exact .raised (.refl x)
  · split
    · exact .raised (.refl x)
    · split
      · exact .raised (.refl x)
      · exact .ok ⟨[], ⟨.refl _, id, rfl⟩, fun _ k =>
          ⟨fun h => by simp [k.idle h, SpState.isOpen] at hox, k.buf, k.len,
            fun _ => k.staged hox, nofun⟩⟩

/-- `SpCopyProc` from an open transaction. -/
theorem spCopyProc_spWent (ho : s.spState.isOpen = true) : (spCopyProc s).Ends (SpWent s) := by
  refine (requirePower_ends s).moved.bind (fun _ h => h.spWent) fun _ t _ h1 => ?_
  refine (prologue_ends t false).moved.bind (fun _ h => (h1.trans h).spWent) fun _ u _ h2 => ?_
  refine (busSendPulse_moved u _ _).bind (fun _ h => ((h1.trans h2).trans h).spWent)
    fun _ v _ h3 => ?_
  refine (busRecv_ends v 1).moved.bind (fun _ h => (((h1.trans h2).trans h3).trans h).spWent)
    fun r w _ h4 => ?_
  have hw := ((h1.trans h2).trans h3).trans h4
  split
  · exact .raised hw.spWent
  · exact .ok (hw.spWent.trans (SpWent.setOpen w _ (hw.spState ▸ ho) nofun))

/-- The challenge of a chunk, in an open transaction, which stays open. -/
theorem chunkChallenge_spWent (slot : PwSlot) (ho : s.spState.isOpen = true) :
    (chunkChallenge slot s).Ends fun t => SpWent s t ∧ t.spState.isOpen = true := by
  unfold chunkChallenge
  split
  · rename_i hg
    refine (prologue_ends s false).moved.bind (fun _ h => ⟨h.spWent, h.spState ▸ ho⟩)
      fun _ t _ h1 => ?_
    refine (challenge_ends t slot _).moved.bind
      (fun _ h => ⟨(h1.trans h).spWent, (h1.trans h).spState ▸ ho⟩) fun _ u _ h2 => ?_
    have hu := h1.trans h2
    exact .ok ⟨hu.spWent.trans (SpWent.setOpen u _ (hu.spState ▸ ho)
      fun _ => hu.spWent.desc ▸ hg), rfl⟩
  · exact .ok ⟨.refl s, ho⟩

/-- Where `SpWriteProc` goes on, the transaction is WRITTEN. -/
theorem spWriteProc_ok {ta : Nat} {xs : List Byte} {s t : State}
    (h : spWriteProc ta xs s = .ok () t) : t.spState = .written := by
  obtain ⟨_, _, _, h⟩ := Run.bind_eq_ok.1 h
  obtain ⟨_, _, _, h⟩ := Run.bind_eq_ok.1 h
  cases h; rfl

/-- Where `SpVerifyProc` goes on, the transaction is VERIFIED. -/
theorem spVerifyProc_ok {s t : State} (h : spVerifyProc s = .ok () t) : t.spState = .verified := by
  obtain ⟨_, _, _, h⟩ := Run.bind_eq_ok.1 h
  obtain ⟨_, _, _, h⟩ := Run.bind_eq_ok.1 h
  obtain ⟨_, _, _, h⟩ := Run.bind_eq_ok.1 h
  obtain ⟨_, _, _, h⟩ := Run.bind_eq_ok.1 h
  obtain ⟨_, _, _, h⟩ := Run.bind_eq_ok.1 h
  split at h
  · cases h
  · split at h
    · cases h
    · split at h
      · cases h
      · cases h; rfl

/-- Where `SpCopyProc` goes on, the transaction is COMMITTED. -/
theorem spCopyProc_ok {s t : State} (h : spCopyProc s = .ok () t) : t.spState = .committed := by
  obtain ⟨_, _, _, h⟩ := Run.bind_eq_ok.1 h
  obtain ⟨_, _, _, h⟩ := Run.bind_eq_ok.1 h
  obtain ⟨_, _, _, h⟩ := Run.bind_eq_ok.1 h
  obtain ⟨_, _, _, h⟩ := Run.bind_eq_ok.1 h
  split at h
  · cases h
  · cases h; rfl

/-! ### The write path -/

theorem chunkLen_pos {d : Descriptor} (hd : SpSized d) (p : Nat) {n : Nat} (hn : 0 < n) :
    0 < chunkLen d p n ∧ chunkLen d p n ≤ n ∧ chunkLen d p n ≤ d.spSize := by
  have := Nat.mod_lt p hd.1
  unfold chunkLen
  omega

theorem writeChunks_spWent (slot : PwSlot) (rounds : Nat) :
    ∀ (p : Nat) (xs : List Byte) (s : State), s.desc.spPresent = true →
      (writeChunks slot rounds p xs s).Ends (SpWent s) := by
  induction rounds with
  | zero => exact fun p xs s _ => .ok (.refl s)
  | succ rounds ih =>
    intro p xs s hd
    unfold writeChunks
    split
    · exact .ok (.refl s)
    · rename_i hx
      have hn : 0 < xs.length := by
        cases xs with
        | nil => simp at hx
        | cons => simp
      refine (spWriteProc_spWent s p _ fun b => ?_).spMove fun _ t he ht => ?_
      · obtain ⟨h0, h1, h2⟩ := chunkLen_pos (b hd) p hn
        exact ⟨hd, b hd, by simp; omega, by simp; omega⟩
      have hw := spWriteProc_ok he
      refine (spVerifyProc_spWent t (by rw [hw]; rfl)).spMove fun _ u he hu => ?_
      have hv := spVerifyProc_ok he
      refine (chunkChallenge_spWent u slot (by rw [hv]; rfl)).bind (fun _ h => h.1)
        fun _ v _ hv => ?_
      refine ((spCopyProc_spWent v hv.2).spMove fun _ w _ hw => ?_).mono fun _ g => hv.1.trans g
      exact ih _ _ w (by rw [hw.desc, hv.1.desc, hu.desc, ht.desc]; exact hd)

/-- Where the chunk loop goes on, the last chunk is COMMITTED, or there was none. -/
theorem writeChunks_ok (slot : PwSlot) (rounds : Nat) :
    ∀ (p : Nat) (xs : List Byte) (s t : State), writeChunks slot rounds p xs s = .ok () t →
      t.spState = .committed ∨ t = s := by
  induction rounds with
  | zero => intro p xs s t h; cases h; exact .inr rfl
  | succ rounds ih =>
    intro p xs s t h
    unfold writeChunks at h
    split at h
    · cases h; exact .inr rfl
    · obtain ⟨_, _, _, h⟩ := Run.bind_eq_ok.1 h
      obtain ⟨_, _, _, h⟩ := Run.bind_eq_ok.1 h
      obtain ⟨_, _, _, h⟩ := Run.bind_eq_ok.1 h
      obtain ⟨_, u, hc, h⟩ := Run.bind_eq_ok.1 h
      rcases ih _ _ u t h with h | rfl
      · exact .inl h
      · exact .inl (spCopyProc_ok hc)

/-- The transfer on a bank without a scratchpad only uses the bus. -/
theorem transferBytes_went (p : Nat) (xs : List Byte) (slot : PwSlot)
    (hs : s.desc.spPresent = false) : (transferBytes p xs slot s).Ends (Went 3 0 s) := by
  rw [transferBytes, hs]
  simp only [Bool.false_eq_true, if_false]
  split
  · exact directWrite_ends s p xs
  · exact (ok_ends s ()).weaken

theorem transferBytes_spWent (p : Nat) (xs : List Byte) (slot : PwSlot) :
    (transferBytes p xs slot s).Ends (SpWent s) := by
  cases hs : s.desc.spPresent with
  | false => exact (transferBytes_went s p xs slot hs).moved.spWent
  | true =>
    rw [transferBytes, hs]
    exact writeChunks_spWent slot _ p xs s hs

theorem State.abandonSp_spWent : SpWent s s.abandonSp :=
  SpWent.setState s s.spState.abandon (fun _ h => by rw [h]; rfl) (fun h => by simp at h)
    fun h => by
    have : s.spState.abandon.isOpen = true := by rw [h]; rfl
    simp at this

/-- `WriteBytes`, whatever the bank. -/
theorem writeBytes_spWent (a : Nat) (xs : List Byte) (slot : PwSlot) :
    (writeBytes a xs slot s).Ends (SpWent s) := by
  unfold writeBytes
  split
  · exact .raised (.refl s)
  · refine (writeCheck_ends s).moved.spWent.spMove fun _ t _ _ => ?_
    refine (powerCheck_ends t).moved.spWent.spMove fun _ u _ _ => ?_
    refine Run.Ends.mono (P := SpWent u.abandonSp) ?_ fun _ g => (u.abandonSp_spWent).trans g
    refine (transferBytes_spWent u.abandonSp _ xs slot).spMove fun _ v _ _ => ?_
    exact (readBack_ends v _ _ _).moved.spWent

end Sys2Proof.Machine
end

