-- ==== Sys2Proof/Laws/Commands.lean ====
section
/-! SUPPORT. Commands as runs of their rules (spec/60_exceptions.md R203, R204, R210, R220): `exec`
is the run of `commandBody`, the four endings of a run, and what each rule can do, once for every
ending. -/

namespace Sys2Proof.Machine

variable {α β : Type}

/-! ### The run of a command -/

/-- `exec` runs the command's rule to its end (30_encoding.md R84). -/
theorem exec_eq (i : Instr) (s : State) :
    exec i s = .next (s.runCommand (commandClass i) (commandBody i)) := by
  cases i <;> rfl

/-- The next state of `exec` is the run's. -/
theorem exec_next {i : Instr} {s t : State} :
    exec i s = .next t ↔ t = s.runCommand (commandClass i) (commandBody i) := by
  rw [exec_eq]
  exact ⟨fun h => by injection h with h; exact h.symm, fun h => by rw [h]⟩

/-- The bus commands are those of a class with bus flags (60_exceptions.md R204). -/
theorem isBus_eq (i : Instr) : isBus i = true ↔ commandClass i ≠ .internal := by
  cases i <;> simp [isBus, commandClass]

theorem runWith_ok {l : Option Nat} {c : CommandClass} {body : State → Run Done} {s t : State}
    {d : Done} (h : body (s.start l) = .ok d t) : s.runWith l c body = t.finish d := by
  simp [State.runWith, h]

theorem runWith_raised {l : Option Nat} {c : CommandClass} {body : State → Run Done} {s t : State}
    {e : Err} (h : body (s.start l) = .raised e t) : s.runWith l c body = t.raise c e := by
  simp [State.runWith, h]

theorem runWith_faulted {l : Option Nat} {c : CommandClass} {body : State → Run Done} {s : State}
    {f : FaultCode} (h : body (s.start l) = .faulted f) : s.runWith l c body = s.takeFault f := by
  simp [State.runWith, h]

theorem runWith_cut {l : Option Nat} {c : CommandClass} {body : State → Run Done} {s t : State}
    (h : body (s.start l) = .cut t) : s.runWith l c body = t := by
  simp [State.runWith, h]

/-! ### Rules that fault before anything else, or run -/

/-- A rule faults, and then before any effect, or its endings have `P`. -/
def Run.Starts (P : State → Prop) (r : Run α) : Prop := (∃ f, r = .faulted f) ∨ r.Ends P

theorem Run.Ends.starts {P : State → Prop} {r : Run α} (h : r.Ends P) : r.Starts P := .inr h

theorem Run.Starts.mono {P Q : State → Prop} {r : Run α} (h : r.Starts P) (k : ∀ t, P t → Q t) :
    r.Starts Q := h.imp id fun h => h.mono k

theorem withSlot_starts {P : State → Prop} {pwsel : BitVec 2} {k : PwSlot → Run α}
    (h : ∀ slot, (k slot).Starts P) : (withSlot pwsel k).Starts P := by
  rcases withSlot_cases pwsel k with ⟨slot, -, e⟩ | e
  · rw [e]; exact h slot
  · exact .inl ⟨_, e⟩

theorem withWindow_starts {P : State → Prop} {n : Nat} {s : State} {k : Run α}
    (h : s.argOff.toNat + n ≤ s.desc.dbufSize → k.Starts P) : (withWindow n s k).Starts P := by
  rcases withWindow_cases n s k with ⟨e, hw⟩ | e
  · rw [e]; exact h hw
  · exact .inl ⟨_, e⟩

theorem withInput_starts {P : State → Prop} {n : Nat} {s : State} {k : List Byte → Run α}
    (h : ∀ xs : List Byte, xs.length = n → (k xs).Starts P) : (withInput n s k).Starts P := by
  rcases withInput_cases n s k with ⟨xs, hr, -, e⟩ | ⟨f, e⟩
  · rw [e]; exact h xs ((Memory.readRange_eq_some _ _ _ _).1 hr).1
  · exact .inl ⟨f, e⟩

theorem withCont_starts {P : State → Prop} {cont : Bool} {s : State} {k : Run α}
    (h : (cont = true → s.contOk = true) → k.Starts P) : (withCont cont s k).Starts P := by
  unfold withCont
  split
  · exact .inl ⟨_, rfl⟩
  · rename_i hc
    refine h fun hc' => ?_
    cases hk : s.contOk with
    | true => rfl
    | false => exact absurd ⟨hc', hk⟩ hc

/-! ### Rules that only use the bus -/

/-- `t` is `s` after some events with `Q`, an open scratchpad transaction perhaps given up: only the
bus record, SPEED_OK, which is not cleared, CONT_OK and SP_STATE changed. -/
def Held (Q : List BusEvent → Prop) (s t : State) : Prop :=
  ∃ es, Q es ∧ Bus.Grows es s.bus t.bus ∧ (s.speedOk = true → t.speedOk = true) ∧
    t = { s with bus := t.bus, speedOk := t.speedOk, contOk := t.contOk, spState := t.spState } ∧
    (t.spState = s.spState ∨ t.spState = s.spState.abandon)

theorem Held.mono {Q R : List BusEvent → Prop} {s t : State} (h : Held Q s t)
    (k : ∀ es, Q es → R es) : Held R s t := by
  obtain ⟨es, q, h⟩ := h
  exact ⟨es, k es q, h⟩

theorem Held.setCont {Q : List BusEvent → Prop} {s t : State} (h : Held Q s t) (c : Bool) :
    Held Q s { t with contOk := c } := by
  obtain ⟨es, q, hb, hs, hr, hp⟩ := h
  exact ⟨es, q, hb, hs, by rw [hr], hp⟩

/-- The states from which rules use the bus: CONT_OK perhaps cleared, an open scratchpad transaction
perhaps given up. -/
inductive Base (s : State) : State → Prop where
  | same : Base s s
  | cont (c : Bool) : Base s { s with contOk := c }
  | abandoned : Base s s.abandonSp
  | both (c : Bool) : Base s ({ s with contOk := c } : State).abandonSp

theorem Base.held {n m : Nat} {s r t : State} (h : Base s r) (w : Went n m r t) :
    Held (Quiet n m) s t := by
  obtain ⟨es, w, q⟩ := w
  have hr := w.rest
  cases h with
  | same => exact ⟨es, q, w.bus, w.speed, by rw [hr], .inl (by rw [hr])⟩
  | cont c => exact ⟨es, q, w.bus, w.speed, by rw [hr], .inl (by rw [hr])⟩
  | abandoned => exact ⟨es, q, w.bus, w.speed, by rw [hr]; rfl, .inr (by rw [hr]; rfl)⟩
  | both c => exact ⟨es, q, w.bus, w.speed, by rw [hr]; rfl, .inr (by rw [hr]; rfl)⟩

theorem Base.heldMoved {s r t : State} (h : Base s r) (w : Moved r t) :
    Held (fun _ => True) s t := by
  obtain ⟨es, w⟩ := w
  have hr := w.rest
  cases h with
  | same => exact ⟨es, trivial, w.bus, w.speed, by rw [hr], .inl (by rw [hr])⟩
  | cont c => exact ⟨es, trivial, w.bus, w.speed, by rw [hr], .inl (by rw [hr])⟩
  | abandoned => exact ⟨es, trivial, w.bus, w.speed, by rw [hr]; rfl, .inr (by rw [hr]; rfl)⟩
  | both c => exact ⟨es, trivial, w.bus, w.speed, by rw [hr]; rfl, .inr (by rw [hr]; rfl)⟩

theorem Base.start {s r : State} (h : Base s r) (n m : Nat) : Held (Quiet n m) s r :=
  h.held ((Went.refl r).mono)

variable (s : State)

theorem bodyRead_starts (cont : Bool) (pwsel : BitVec 2) :
    (bodyRead cont pwsel s).Starts
      (Held (Quiet (8 + 10 * (s.desc.pollMax - 1)) (s.desc.pollMax - 1)) s) := by
  refine withSlot_starts fun slot => withWindow_starts fun _ => withCont_starts fun _ => ?_
  split
  · exact (Run.Ends.raised (Base.same.start _ _)).starts
  · refine Run.Ends.starts ?_
    refine (openRead_ends s.abandonSp cont slot _).bind
      (fun _ h => Base.abandoned.held h.mono) fun _ t _ ht => ?_
    have hd : t.desc = s.desc := ht.desc
    refine (readBytes_ends t _ _ cont slot).bind ?_ fun d u _ hu => ?_
    · intro u hu
      rw [hd] at hu
      exact Base.abandoned.held ((ht.trans hu).mono)
    · rw [hd] at hu
      exact .ok ((Base.abandoned.held ((ht.trans hu).mono)).setCont true)

/-- The reading part of the five page reads. -/
theorem pageRead_ends {n m : Nat} {γ : Type} (cont : Bool) (slot : PwSlot) (p : Nat)
    (transfer : State → Run γ) (k : γ → State → Run Done)
    (ht : ∀ t, t.desc = s.desc → (transfer t).Ends (Went n m t))
    (hk : ∀ a t, t.desc = s.desc → (k a t).Ends fun u => ∃ c v, u = { v with contOk := c } ∧
      Went 4 0 t v) :
    ((openRead cont slot p s.abandonSp).bind fun _ t => (transfer t).bind k).Ends
      (Held (Quiet (10 + n) m) s) := by
  refine (openRead_ends s.abandonSp cont slot p).bind
    (fun _ h => Base.abandoned.held h.mono) fun _ t _ h1 => ?_
  refine (ht t h1.desc).bind (fun _ h => Base.abandoned.held ((h1.trans h).mono)) fun a u _ h2 => ?_
  refine (hk a u (h2.desc.trans h1.desc)).mono fun w hw => ?_
  obtain ⟨c, v, rfl, hv⟩ := hw
  exact (Base.abandoned.held (((h1.trans h2).trans hv).mono)).setCont c

theorem bodyReadPage_starts (cont : Bool) (pwsel : BitVec 2) :
    (bodyReadPage cont pwsel s).Starts
      (Held (Quiet (12 + 10 * (s.desc.pollMax - 1)) (s.desc.pollMax - 1)) s) := by
  refine withSlot_starts fun slot => withWindow_starts fun _ => withCont_starts fun _ => ?_
  split
  · exact (Run.Ends.raised (Base.same.start _ _)).starts
  · refine Run.Ends.starts (Run.Ends.mono (pageRead_ends s (n := 2 + 10 * (s.desc.pollMax - 1))
      (m := s.desc.pollMax - 1) cont slot s.pagePhys _ _ (fun t h => ?_) fun a t _ => ?_)
      fun _ h => h.mono fun _ q => q.mono (by omega) (le_refl _))
    · rw [← h]; exact readBytes_ends t _ _ cont slot
    · exact .ok ⟨true, t, rfl, (Went.refl t).mono⟩

theorem bodyReadPageExtra_starts (cont : Bool) (pwsel : BitVec 2) :
    (bodyReadPageExtra cont pwsel s).Starts
      (Held (Quiet (12 + 10 * (s.desc.pollMax - 1)) (s.desc.pollMax - 1)) s) := by
  refine withSlot_starts fun slot => withWindow_starts fun _ => withCont_starts fun _ => ?_
  split
  · exact (Run.Ends.raised (Base.same.start _ _)).starts
  · split
    · exact (Run.Ends.raised (Base.same.start _ _)).starts
    · refine Run.Ends.starts (Run.Ends.mono (pageRead_ends s (n := 2 + 10 * (s.desc.pollMax - 1))
        (m := s.desc.pollMax - 1) cont slot s.pagePhys _ _ (fun t h => ?_) fun a t _ => ?_)
        fun _ h => h.mono fun _ q => q.mono (by omega) (le_refl _))
      · rw [← h]; exact readBytes_ends t _ _ cont slot
      · refine (readExtra_ends t _).bind (fun u h => ⟨u.contOk, u, rfl, h⟩) fun e u _ h => ?_
        exact .ok ⟨false, u, rfl, h⟩

theorem bodyReadPageCrc_starts (cont : Bool) (pwsel : BitVec 2) :
    (bodyReadPageCrc cont pwsel s).Starts (Held (Quiet 12 0) s) := by
  refine withSlot_starts fun slot => withWindow_starts fun _ => withCont_starts fun _ => ?_
  split
  · exact (Run.Ends.raised (Base.same.start _ _)).starts
  · split
    · exact (Run.Ends.raised (Base.same.start _ _)).starts
    · refine Run.Ends.starts (pageRead_ends s (n := 2) cont slot s.pagePhys _ _
        (fun t _ => readCrcPage_ends t _ _) fun a t _ => ?_)
      exact .ok ⟨true, t, rfl, (Went.refl t).mono⟩

theorem bodyReadPageCrcExtra_starts (cont : Bool) (pwsel : BitVec 2) :
    (bodyReadPageCrcExtra cont pwsel s).Starts (Held (Quiet 12 0) s) := by
  refine withSlot_starts fun slot => withWindow_starts fun _ => withCont_starts fun _ => ?_
  split
  · exact (Run.Ends.raised (Base.same.start _ _)).starts
  · split
    · exact (Run.Ends.raised (Base.same.start _ _)).starts
    · refine Run.Ends.starts (pageRead_ends s (n := 2) cont slot s.pagePhys _ _
        (fun t _ => readCrcPage_ends t _ _) fun a t _ => ?_)
      refine (readExtra_ends t _).bind (fun u h => ⟨u.contOk, u, rfl, h⟩) fun e u _ h => ?_
      exact .ok ⟨false, u, rfl, h⟩

theorem bodyReadPagePacket_starts (cont : Bool) (pwsel : BitVec 2) :
    (bodyReadPagePacket cont pwsel s).Starts
      (Held (Quiet (12 + 10 * (s.desc.pollMax - 1)) (s.desc.pollMax - 1)) s) := by
  refine withSlot_starts fun slot => withWindow_starts fun _ => withCont_starts fun _ => ?_
  split
  · exact (Run.Ends.raised (Base.same.start _ _)).starts
  · refine Run.Ends.starts (Run.Ends.mono (pageRead_ends s (n := 2 + 10 * (s.desc.pollMax - 1))
      (m := s.desc.pollMax - 1) cont slot s.pagePhys _ _ (fun t h => ?_) fun a t _ => ?_)
      fun _ h => h.mono fun _ q => q.mono (by omega) (le_refl _))
    · rw [← h]; exact readBytes_ends t _ _ cont slot
    · split
      · exact .raised ⟨t.contOk, t, rfl, (Went.refl t).mono⟩
      · exact .raised ⟨t.contOk, t, rfl, (Went.refl t).mono⟩
      · exact .ok ⟨true, t, rfl, (Went.refl t).mono⟩

theorem otpQuery_starts (supported : Bool) (seq : List Byte) (answer : Byte → Half) :
    (otpQuery supported seq answer s).Starts (Held (Quiet 4 0) s) := by
  unfold otpQuery
  split
  · exact (Run.Ends.ok ((Base.cont false).start _ _)).starts
  · split
    · exact (Run.Ends.raised ((Base.cont false).start _ _)).starts
    · refine Run.Ends.starts ((statusRead_ends _ seq).bind
        (fun _ h => (Base.both false).held h) fun b t _ h => ?_)
      exact .ok ((Base.both false).held h)

/-- The device part of a one-way transition. -/
theorem otpMutate_ends (seq statusSeq : List Byte) (confirms : Byte → Bool) (v : Half) :
    (otpMutate seq statusSeq confirms v { s with contOk := false }).Ends
      (Held (fun _ => True) s) := by
  refine (powerCheck_ends _).bind (fun _ h => (Base.cont false).heldMoved h.moved)
    fun _ t _ ht => ?_
  have ht' : Held (fun _ => True) s t := (Base.cont false).heldMoved ht.moved
  have glue : ∀ {u : State}, Moved t.abandonSp u → Held (fun _ => True) s u := by
    rintro u ⟨fs, hu⟩
    obtain ⟨es, ht, -⟩ := ht
    have e1 := ht.rest
    have e2 := hu.rest
    refine ⟨es ++ fs, trivial, ht.bus.trans hu.bus, hu.speed ∘ ht.speed, ?_, .inr ?_⟩
    · rw [e2, e1]; rfl
    · rw [e2, e1]; rfl
  refine (programSend_moved t.abandonSp seq).bind (fun _ h => glue h) fun _ u _ hu => ?_
  refine (statusRead_ends u statusSeq).moved.bind (fun _ h => glue (hu.trans h)) fun b w _ hw => ?_
  split
  · exact .ok (glue (hu.trans hw))
  · exact .raised (glue (hu.trans hw))

theorem bodyLockPage_starts : (bodyLockPage s).Starts (Held (fun _ => True) s) := by
  unfold bodyLockPage
  split
  · exact (Run.Ends.raised ((Base.cont false).heldMoved (.refl _))).starts
  · split
    · exact (Run.Ends.raised ((Base.cont false).heldMoved (.refl _))).starts
    · exact (otpMutate_ends s _ _ _ _).starts

theorem bodyRedirectPage_starts : (bodyRedirectPage s).Starts (Held (fun _ => True) s) := by
  unfold bodyRedirectPage
  split
  · exact (Run.Ends.raised ((Base.cont false).heldMoved (.refl _))).starts
  · split
    · exact (Run.Ends.raised ((Base.cont false).heldMoved (.refl _))).starts
    · split
      · exact (Run.Ends.raised ((Base.cont false).heldMoved (.refl _))).starts
      · exact (otpMutate_ends s _ _ _ _).starts

theorem bodyLockRedirectPage_starts :
    (bodyLockRedirectPage s).Starts (Held (fun _ => True) s) := by
  unfold bodyLockRedirectPage
  split
  · exact (Run.Ends.raised ((Base.cont false).heldMoved (.refl _))).starts
  · split
    · exact (Run.Ends.raised ((Base.cont false).heldMoved (.refl _))).starts
    · exact (otpMutate_ends s _ _ _ _).starts

theorem bodySpVerifyPassword_starts (pwsel : BitVec 2) :
    (bodySpVerifyPassword pwsel s).Starts fun t =>
      ∃ u, Held (Quiet 6 0) s u ∧ u.spState = s.spState ∧
        (t = u ∨ (t = { u with spState := .authed } ∧ s.spState = .verified ∧
          s.desc.pwGated = true)) := by
  refine withSlot_starts fun slot => ?_
  split
  · exact .inl ⟨_, rfl⟩
  · rename_i hst
    split
    · exact (Run.Ends.raised ⟨_, (Base.cont false).start _ _, rfl, .inl rfl⟩).starts
    · rename_i hg
      have hg' : s.desc.pwGated = true := by simpa using hg
      have hv : s.spState = .verified := by
        by_contra h
        exact hst ⟨hg', h⟩
      have keep : ∀ {n m : Nat} {t : State}, Went n m { s with contOk := false } t →
          t.spState = s.spState := by
        rintro n m t ⟨es, h, -⟩
        rw [h.rest]
      refine Run.Ends.starts ((prologue_ends _ false).bind
        (fun t h => ⟨t, (Base.cont false).held h.mono, keep h, .inl rfl⟩) fun _ t _ h1 => ?_)
      refine (challenge_ends t slot _).bind (fun u h =>
        ⟨u, (Base.cont false).held (h1.trans h).mono, keep (h1.trans h), .inl rfl⟩)
        fun _ u _ h2 => ?_
      exact .ok ⟨u, (Base.cont false).held (h1.trans h2).mono, keep (h1.trans h2),
        .inr ⟨rfl, hv, hg'⟩⟩

/-! ### Rules of the scratchpad and the write path -/

/-- `t` is `s` after some events of a scratchpad rule: the bus record, SPEED_OK, which is not
cleared, CONT_OK and the scratchpad's registers changed, and those are in order if they were. -/
def SpHeld (s t : State) : Prop :=
  ∃ es, Bus.Grows es s.bus t.bus ∧ (s.speedOk = true → t.speedOk = true) ∧
    t = { s with
      bus := t.bus, speedOk := t.speedOk, contOk := t.contOk, spState := t.spState
      spTA := t.spTA, spLen := t.spLen, spES := t.spES, spBuf := t.spBuf } ∧
    (SpBank s.desc → SpOk s → SpOk t)

theorem SpWent.held {s r t : State} (h : Base s r) (w : SpWent r t) : SpHeld s t := by
  obtain ⟨es, w, k⟩ := w
  have hr := w.rest
  cases h with
  | same => exact ⟨es, w.bus, w.speed, by rw [hr], k⟩
  | cont c =>
    exact ⟨es, w.bus, w.speed, by rw [hr],
      fun b o => k b ⟨o.idle, o.buf, o.len, o.staged, o.authed⟩⟩
  | abandoned =>
    obtain ⟨fs, m, j⟩ := s.abandonSp_spWent
    exact ⟨es, w.bus, w.speed, by rw [hr]; rfl, fun b o => k b (j b o)⟩
  | both c =>
    obtain ⟨fs, m, j⟩ := ({ s with contOk := c } : State).abandonSp_spWent
    exact ⟨es, w.bus, w.speed, by rw [hr]; rfl,
      fun b o => k b (j b ⟨o.idle, o.buf, o.len, o.staged, o.authed⟩)⟩

theorem Base.spHeld {s r : State} (h : Base s r) : SpHeld s r := SpWent.held h (.refl r)

theorem bodyWrite_starts (pwsel : BitVec 2) :
    (bodyWrite pwsel s).Starts (SpHeld s) := by
  refine withSlot_starts fun slot => withInput_starts fun xs _ => Run.Ends.starts ?_
  refine (writeBytes_spWent { s with contOk := false } _ xs slot).bind
    (fun _ h => SpWent.held (.cont false) h) fun _ t _ h => ?_
  exact .ok (SpWent.held (.cont false) h)

theorem bodyWritePagePacket_starts (pwsel : BitVec 2) :
    (bodyWritePagePacket pwsel s).Starts (SpHeld s) := by
  refine withSlot_starts fun slot => withInput_starts fun xs _ => Run.Ends.starts ?_
  dsimp only
  split
  · exact .raised (Base.cont false).spHeld
  · split
    · exact .raised (Base.cont false).spHeld
    · refine (writeBytes_spWent { s with contOk := false } _ _ slot).bind
        (fun _ h => SpWent.held (.cont false) h) fun _ t _ h => ?_
      exact .ok (SpWent.held (.cont false) h)

theorem spWriteInRange (h : spWriteOutOfRange s = false) :
    0 < s.argLen.toNat ∧ s.argLen.toNat ≤ s.desc.spSize ∧
      s.argAddr.toNat + s.argLen.toNat ≤ s.desc.size ∧
      s.argPhys % s.desc.spSize + s.argLen.toNat ≤ s.desc.spSize := by
  simp only [spWriteOutOfRange, decide_eq_false_iff_not] at h
  omega

theorem bodySpWrite_starts : (bodySpWrite s).Starts (SpHeld s) := by
  refine withInput_starts fun xs hx => Run.Ends.starts ?_
  dsimp only
  split
  · exact .raised (Base.cont false).spHeld
  · rename_i hp
    split
    · exact .raised (Base.cont false).spHeld
    · rename_i hr
      obtain ⟨h0, h1, -, -⟩ := spWriteInRange s (by simpa using hr)
      refine (spWriteProc_spWent ({ s with contOk := false } : State).abandonSp _ xs
        fun b => ⟨by simpa using hp, b (by simpa using hp), by omega, by rw [hx]; exact h1⟩).bind
        (fun _ h => SpWent.held (.both false) h) fun _ t _ h => ?_
      exact .ok (SpWent.held (.both false) h)

theorem bodySpReadVerify_starts : (bodySpReadVerify s).Starts (SpHeld s) := by
  unfold bodySpReadVerify
  split
  · exact .inl ⟨_, rfl⟩
  · rename_i hst
    split
    · exact (Run.Ends.raised (Base.cont false).spHeld).starts
    · rename_i hp
      have hw : s.spState = .written := by
        by_contra h
        exact hst ⟨by simpa using hp, h⟩
      refine Run.Ends.starts ((spVerifyProc_spWent { s with contOk := false } (by
        show s.spState.isOpen = true
        rw [hw]; rfl)).bind (fun _ h => SpWent.held (.cont false) h) fun _ t _ h => ?_)
      exact .ok (SpWent.held (.cont false) h)

theorem bodySpCopy_starts : (bodySpCopy s).Starts (SpHeld s) := by
  unfold bodySpCopy
  split
  · exact .inl ⟨_, rfl⟩
  · rename_i h1
    split
    · exact .inl ⟨_, rfl⟩
    · rename_i h2
      split
      · exact (Run.Ends.raised (Base.cont false).spHeld).starts
      · rename_i h3
        have ho : s.spState.isOpen = true := by
          cases hg : s.desc.pwGated with
          | false =>
            have : s.spState = .verified := by
              by_contra h
              exact h1 ⟨by simpa using h3, hg, h⟩
            rw [this]; rfl
          | true =>
            have : s.spState = .authed := by
              by_contra h
              exact h2 ⟨hg, h⟩
            rw [this]; rfl
        refine Run.Ends.starts ((spCopyProc_spWent { s with contOk := false } ho).bind
          (fun _ h => SpWent.held (.cont false) h) fun _ t _ h => ?_)
        exact .ok (SpWent.held (.cont false) h)

/-! ### Rules that make no bus event -/

/-- A CRC rule changes at most one accumulator, and CRC16_EMIT none. -/
theorem withInput_acc (n : Nat) (k : List Byte → Run Done) (P : State → Prop)
    (h : ∀ xs, (k xs).Ends P) : (withInput n s k).Starts P :=
  withInput_starts fun xs _ => (h xs).starts

theorem bodyCrc8Block_starts :
    (bodyCrc8Block s).Starts fun t => t = { s with acc8 := t.acc8 } :=
  withInput_acc s _ _ _ fun _ => .ok rfl

theorem bodyCrc8Check_starts :
    (bodyCrc8Check s).Starts fun t => t = { s with acc8 := t.acc8 } :=
  withInput_acc s _ _ _ fun _ => by
    split
    · exact .raised rfl
    · exact .ok rfl

theorem bodyCrc16Block_starts :
    (bodyCrc16Block s).Starts fun t => t = { s with acc16 := t.acc16 } :=
  withInput_acc s _ _ _ fun _ => .ok rfl

theorem bodyCrc16Check_starts :
    (bodyCrc16Check s).Starts fun t => t = { s with acc16 := t.acc16 } :=
  withInput_acc s _ _ _ fun _ => by
    split
    · exact .raised rfl
    · exact .ok rfl

theorem bodyCrc16Emit_starts : (bodyCrc16Emit s).Starts fun t => t = s :=
  withWindow_starts fun _ => (Run.Ends.ok (P := fun t => t = s) rfl).starts

theorem bodyPwLoad_starts (pwsel : BitVec 2) :
    (bodyPwLoad pwsel s).Starts fun t => t = s ∨ ∃ slot xs, slotOf pwsel = some slot ∧
      xs.length = slotLen s.desc ∧ t = { s with pw := s.pw.set slot ⟨xs, true⟩ } := by
  unfold bodyPwLoad
  rcases withSlot_cases pwsel (fun slot => withInput (slotLen s.desc) s fun xs =>
    if s.desc.pwGated = false then .raised .capability s
    else .ok (.plain 0) { s with pw := s.pw.set slot ⟨xs, true⟩ } : PwSlot → Run Done)
    with ⟨slot, hs, e⟩ | e
  · rw [e]
    refine withInput_starts fun xs hx => ?_
    split
    · exact (Run.Ends.raised (.inl rfl)).starts
    · exact (Run.Ends.ok (.inr ⟨slot, xs, hs, hx, rfl⟩)).starts
  · exact .inl ⟨_, e⟩

theorem bodyPwClear_starts (pwsel : BitVec 2) :
    (bodyPwClear pwsel s).Starts fun t => t = s ∨ ∃ slot, slotOf pwsel = some slot ∧
      t = { s with pw := s.pw.set slot (PwEntry.cleared s.desc) } := by
  unfold bodyPwClear
  rcases withSlot_cases pwsel (fun slot => if s.desc.pwGated = false then .raised .capability s
    else .ok (.plain 0) { s with pw := s.pw.set slot (PwEntry.cleared s.desc) } :
      PwSlot → Run Done) with ⟨slot, hs, e⟩ | e
  · rw [e]
    split
    · exact (Run.Ends.raised (.inl rfl)).starts
    · exact (Run.Ends.ok (.inr ⟨slot, hs, rfl⟩)).starts
  · exact .inl ⟨_, e⟩

end Sys2Proof.Machine
end

