-- ==== Sys2Proof/Laws/Frame.lean ====
section
/-! SUPPORT. What a command's rule can change, for every command and every ending before `finish` or
`raise` (spec/10_state.md R30 to R39, spec/60_exceptions.md R203, R204). -/

namespace Sys2Proof.Machine

/-- What the rule of command `i`, run from `s`, may leave in `t`. -/
structure Framed (i : Instr) (s t : State) : Prop where
  /-- the history grew and the answers were drawn in order -/
  grows : ∃ es, Bus.Grows es s.bus t.bus
  /-- nothing outside these fields changed: no host register, no DBUF byte, no ERR, no FAULT -/
  rest : t = { s with
    bus := t.bus, speedOk := t.speedOk, contOk := t.contOk, spState := t.spState
    spTA := t.spTA, spLen := t.spLen, spES := t.spES, spBuf := t.spBuf
    acc8 := t.acc8, acc16 := t.acc16, pw := t.pw }
  acc8 : i ∉ [.crc8Init, .crc8Byte, .crc8Block, .crc8Check] → t.acc8 = s.acc8
  acc16 : i ∉ [.crc16Init, .crc16Byte, .crc16Block, .crc16Check] → t.acc16 = s.acc16
  /-- a command that is no bus command makes no bus event and touches no bus flag, but for
  FORCE_VERIFY -/
  internal : isBus i = false → t.bus = s.bus ∧ t.spState = s.spState ∧
    (i ≠ .forceVerify → t.speedOk = s.speedOk ∧ t.contOk = s.contOk)
  /-- the staged transaction -/
  staged : i ≠ .spWrite → writesBank i = false → t.spTA = s.spTA ∧ t.spLen = s.spLen ∧
    t.spBuf = s.spBuf ∧ (i ≠ .spReadVerify → t.spES = s.spES)
  /-- SPEED_OK is not cleared before a raise, but by FORCE_VERIFY -/
  speed : i ≠ .forceVerify → s.speedOk = true → t.speedOk = true
  /-- the password slots -/
  slots : ∀ slot, (∀ k, (i = .pwLoad k ∨ i = .pwClear k) → slotOf k ≠ some slot) →
    t.pw.get slot = s.pw.get slot
  slotsOk : (∀ slot, (s.pw.get slot).Ok s.desc) → ∀ slot, (t.pw.get slot).Ok s.desc
  /-- the scratchpad's registers stay in order -/
  spOk : SpBank s.desc → SpOk s → SpOk t

variable {i : Instr} {s t : State}

theorem Held.framed {Q : List BusEvent → Prop} (hb : isBus i = true) (h : Held Q s t) :
    Framed i s t := by
  obtain ⟨es, -, g, sp, r, p⟩ := h
  refine ⟨⟨es, g⟩, by rw [r], by rw [r]; simp, by rw [r]; simp, by simp [hb], by rw [r]; simp,
    fun _ => sp, by rw [r]; simp, by rw [r]; simp, fun _ k => ?_⟩
  rw [r]
  rcases p with p | p
  · exact ⟨fun h => p.trans (k.idle h), k.buf, k.len, fun h => k.staged (p ▸ h),
      fun h => k.authed (p.symm.trans h)⟩
  · refine ⟨fun h => ?_, k.buf, k.len, fun h => ?_, fun h => ?_⟩
    · show t.spState = .idle
      rw [p, k.idle h]; rfl
    · change t.spState.isOpen = true at h
      simp [p] at h
    · change t.spState = .authed at h
      have : t.spState.isOpen = true := by rw [h]; rfl
      simp [p] at this

theorem SpHeld.framed (hb : isBus i = true) (h : SpHeld s t)
    (hs : i ≠ .spWrite → writesBank i = false → t.spTA = s.spTA ∧ t.spLen = s.spLen ∧
      t.spBuf = s.spBuf ∧ (i ≠ .spReadVerify → t.spES = s.spES)) : Framed i s t := by
  obtain ⟨es, g, sp, r, k⟩ := h
  exact ⟨⟨es, g⟩, by rw [r], by rw [r]; simp, by rw [r]; simp, by simp [hb], hs, fun _ => sp,
    by rw [r]; simp, by rw [r]; simp, k⟩

theorem framed_acc8 (hi : i ∈ [.crc8Init, .crc8Byte, .crc8Block, .crc8Check])
    (e : t = { s with acc8 := t.acc8 }) : Framed i s t := by
  refine ⟨⟨[], by rw [e]; exact .refl _⟩, by rw [e], fun h => absurd hi h, by rw [e]; simp,
    by rw [e]; simp, by rw [e]; simp, by rw [e]; simp, by rw [e]; simp, by rw [e]; simp,
    fun _ k => ?_⟩
  rw [e]; exact ⟨k.idle, k.buf, k.len, k.staged, k.authed⟩

theorem framed_acc16 (hi : i ∈ [.crc16Init, .crc16Byte, .crc16Block, .crc16Check])
    (e : t = { s with acc16 := t.acc16 }) : Framed i s t := by
  refine ⟨⟨[], by rw [e]; exact .refl _⟩, by rw [e], by rw [e]; simp, fun h => absurd hi h,
    by rw [e]; simp, by rw [e]; simp, by rw [e]; simp, by rw [e]; simp, by rw [e]; simp,
    fun _ k => ?_⟩
  rw [e]; exact ⟨k.idle, k.buf, k.len, k.staged, k.authed⟩

theorem framed_refl : Framed i s s :=
  ⟨⟨[], .refl _⟩, rfl, fun _ => rfl, fun _ => rfl, fun _ => ⟨rfl, rfl, fun _ => ⟨rfl, rfl⟩⟩,
    fun _ _ => ⟨rfl, rfl, rfl, fun _ => rfl⟩, fun _ => id, fun _ _ => rfl, id, fun _ => id⟩

/-- A write of a slot leaves the other slots alone. -/
theorem PwFile.get_set (p : PwFile) (a b : PwSlot) (e : PwEntry) :
    (p.set a e).get b = if a = b then e else p.get b := by
  cases a <;> cases b <;> rfl

theorem framed_pw {k : BitVec 2} {slot : PwSlot} {e : PwEntry} (hi : i = .pwLoad k ∨ i = .pwClear k)
    (hs : slotOf k = some slot) (ho : e.Ok s.desc) :
    Framed i s { s with pw := s.pw.set slot e } := by
  refine ⟨⟨[], .refl _⟩, rfl, fun _ => rfl, fun _ => rfl,
    fun _ => ⟨rfl, rfl, fun _ => ⟨rfl, rfl⟩⟩, fun _ _ => ⟨rfl, rfl, rfl, fun _ => rfl⟩,
    fun _ => id, fun sl h => ?_, fun h sl => ?_,
    fun _ k => ⟨k.idle, k.buf, k.len, k.staged, k.authed⟩⟩
  · show (s.pw.set slot e).get sl = _
    rw [PwFile.get_set, if_neg]
    rintro rfl
    exact h k hi hs
  · show ((s.pw.set slot e).get sl).Ok s.desc
    rw [PwFile.get_set]
    split
    · exact ho
    · exact h sl

theorem PwEntry.cleared_ok (d : Descriptor) : (PwEntry.cleared d).Ok d :=
  ⟨by simp [PwEntry.cleared], fun _ => rfl⟩

/-- Two properties of every ending together. -/
theorem Run.Starts.and {α : Type} {P Q : State → Prop} {r : Run α} (h : r.Starts P)
    (k : r.Starts Q) : r.Starts fun t => P t ∧ Q t := by
  rcases h with h | h
  · exact .inl h
  · rcases k with k | k
    · exact .inl k
    · refine .inr ⟨?_, h.cuts, h.sound⟩
      have a := h.all
      have b := k.all
      cases r <;> first | exact ⟨a, b⟩ | trivial

/-- The staged transaction's registers but SP_ES. -/
def SameStage (s t : State) : Prop := t.spTA = s.spTA ∧ t.spLen = s.spLen ∧ t.spBuf = s.spBuf

theorem Moved.sameStage (h : Moved s t) : SameStage s t ∧ t.spES = s.spES := by
  obtain ⟨es, h⟩ := h
  rw [h.rest]
  exact ⟨⟨rfl, rfl, rfl⟩, rfl⟩

theorem SameStage.trans {u : State} (h : SameStage s t) (k : SameStage t u) : SameStage s u :=
  ⟨k.1.trans h.1, k.2.1.trans h.2.1, k.2.2.trans h.2.2⟩

/-- `SpVerifyProc` keeps the staged transaction but its echo. -/
theorem spVerifyProc_sameStage (s : State) : (spVerifyProc s).Ends (SameStage s) := by
  refine (prologue_ends s false).bind (fun _ h => h.moved.sameStage.1) fun _ t _ h1 => ?_
  refine (busSend_ends t _).bind (fun _ h => (h1.trans h).moved.sameStage.1) fun _ u _ h2 => ?_
  have h2' := h1.trans h2
  refine (recvIf_ends u _ _).bind (fun _ h => (h2'.trans h).moved.sameStage.1) fun _ v _ h3 => ?_
  have h3' := h2'.trans h3
  refine (busRecv_ends v _).bind (fun _ h => (h3'.trans h).moved.sameStage.1) fun _ w _ h4 => ?_
  have h4' := h3'.trans h4
  refine (recvIf_ends w _ _).bind (fun _ h => (h4'.trans h).moved.sameStage.1) fun _ x _ h5 => ?_
  have h5' := (h4'.trans h5).moved.sameStage.1
  split
  · exact .raised h5'
  · split
    · exact .raised h5'
    · split
      · exact .raised h5'
      · exact .ok h5'

/-- `SpCopyProc` keeps the staged transaction. -/
theorem spCopyProc_sameStage (s : State) :
    (spCopyProc s).Ends fun t => SameStage s t ∧ t.spES = s.spES := by
  refine (requirePower_ends s).moved.bind (fun _ h => h.sameStage) fun _ t _ h1 => ?_
  refine (prologue_ends t false).moved.bind (fun _ h => (h1.trans h).sameStage) fun _ u _ h2 => ?_
  refine (busSendPulse_moved u _ _).bind (fun _ h => ((h1.trans h2).trans h).sameStage)
    fun _ v _ h3 => ?_
  refine (busRecv_ends v 1).moved.bind (fun _ h => (((h1.trans h2).trans h3).trans h).sameStage)
    fun r w _ h4 => ?_
  have hw := (((h1.trans h2).trans h3).trans h4).sameStage
  split
  · exact .raised hw
  · exact .ok hw

theorem bodySpReadVerify_sameStage (s : State) : (bodySpReadVerify s).Starts (SameStage s) := by
  unfold bodySpReadVerify
  split
  · exact .inl ⟨_, rfl⟩
  · split
    · exact (Run.Ends.raised ⟨rfl, rfl, rfl⟩).starts
    · exact (Run.Ends.bind (spVerifyProc_sameStage { s with contOk := false }) (fun _ h => h)
        fun _ t _ h => .ok h).starts

theorem bodySpCopy_sameStage (s : State) :
    (bodySpCopy s).Starts fun t => SameStage s t ∧ t.spES = s.spES := by
  unfold bodySpCopy
  split
  · exact .inl ⟨_, rfl⟩
  · split
    · exact .inl ⟨_, rfl⟩
    · split
      · exact (Run.Ends.raised ⟨⟨rfl, rfl, rfl⟩, rfl⟩).starts
      · exact (Run.Ends.bind (spCopyProc_sameStage { s with contOk := false }) (fun _ h => h)
          fun _ t _ h => .ok h).starts

theorem bodySpVerifyPassword_framed (s : State) (pwsel : BitVec 2) :
    (bodySpVerifyPassword pwsel s).Starts (Framed (.spVerifyPassword pwsel) s) := by
  refine (bodySpVerifyPassword_starts s pwsel).mono fun t h => ?_
  obtain ⟨u, hu, he, rfl | ⟨rfl, hv, hg⟩⟩ := h
  · exact hu.framed rfl
  · have f := hu.framed (i := .spVerifyPassword pwsel) rfl
    refine ⟨f.grows, ?_, f.acc8, f.acc16, by simp [isBus], f.staged, f.speed, f.slots, f.slotsOk,
      fun b k => ?_⟩
    · have := f.rest
      rw [this]
    · have o := f.spOk b k
      refine ⟨fun h => ?_, o.buf, o.len, fun _ => o.staged (by rw [he, hv]; rfl), fun _ => ?_⟩
      · have := o.idle h
        rw [he, hv] at this; cases this
      · have hd : u.desc = s.desc := by rw [f.rest]
        show u.desc.pwGated = true
        rw [hd]; exact hg

/-- The frame of every command's rule. -/
theorem commandBody_framed (i : Instr) (s : State) : (commandBody i s).Starts (Framed i s) := by
  cases i with
  | crc8Init => exact (Run.Ends.ok (framed_acc8 (by simp) rfl)).starts
  | crc8Byte => exact (Run.Ends.ok (framed_acc8 (by simp) rfl)).starts
  | crc8Block => exact (bodyCrc8Block_starts s).mono fun t h => framed_acc8 (by simp) h
  | crc8Check => exact (bodyCrc8Check_starts s).mono fun t h => framed_acc8 (by simp) h
  | crc16Init => exact (Run.Ends.ok (framed_acc16 (by simp) rfl)).starts
  | crc16Byte => exact (Run.Ends.ok (framed_acc16 (by simp) rfl)).starts
  | crc16Block => exact (bodyCrc16Block_starts s).mono fun t h => framed_acc16 (by simp) h
  | crc16Check => exact (bodyCrc16Check_starts s).mono fun t h => framed_acc16 (by simp) h
  | crc16Emit => exact (bodyCrc16Emit_starts s).mono fun t h => by rw [h]; exact framed_refl
  | forceVerify =>
    refine (Run.Ends.ok ?_).starts
    exact ⟨⟨[], .refl _⟩, rfl, fun _ => rfl, fun _ => rfl,
      fun _ => ⟨rfl, rfl, fun h => absurd rfl h⟩, fun _ _ => ⟨rfl, rfl, rfl, fun _ => rfl⟩,
      fun h => absurd rfl h, fun _ _ => rfl, id,
      fun _ k => ⟨k.idle, k.buf, k.len, k.staged, k.authed⟩⟩
  | read c p => exact (bodyRead_starts s c p).mono fun t h => h.framed rfl
  | readPage c p => exact (bodyReadPage_starts s c p).mono fun t h => h.framed rfl
  | readPageExtra c p => exact (bodyReadPageExtra_starts s c p).mono fun t h => h.framed rfl
  | readPageCrc c p => exact (bodyReadPageCrc_starts s c p).mono fun t h => h.framed rfl
  | readPageCrcExtra c p => exact (bodyReadPageCrcExtra_starts s c p).mono fun t h => h.framed rfl
  | readPagePacket c p => exact (bodyReadPagePacket_starts s c p).mono fun t h => h.framed rfl
  | lockPage => exact (bodyLockPage_starts s).mono fun t h => h.framed rfl
  | redirectPage => exact (bodyRedirectPage_starts s).mono fun t h => h.framed rfl
  | lockRedirectPage => exact (bodyLockRedirectPage_starts s).mono fun t h => h.framed rfl
  | isPageLocked => exact (otpQuery_starts s _ _ _).mono fun t h => h.framed rfl
  | getRedirectedPage => exact (otpQuery_starts s _ _ _).mono fun t h => h.framed rfl
  | isRedirectPageLocked => exact (otpQuery_starts s _ _ _).mono fun t h => h.framed rfl
  | write p => exact (bodyWrite_starts s p).mono fun t h => h.framed rfl (by simp [writesBank])
  | writePagePacket p =>
    exact (bodyWritePagePacket_starts s p).mono fun t h => h.framed rfl (by simp [writesBank])
  | spWrite => exact (bodySpWrite_starts s).mono fun t h => h.framed rfl (by simp)
  | spVerifyPassword p => exact bodySpVerifyPassword_framed s p
  | spReadVerify =>
    exact ((bodySpReadVerify_starts s).and (bodySpReadVerify_sameStage s)).mono
      fun t h => h.1.framed rfl fun _ _ => ⟨h.2.1, h.2.2.1, h.2.2.2, fun h => absurd rfl h⟩
  | spCopy =>
    exact ((bodySpCopy_starts s).and (bodySpCopy_sameStage s)).mono
      fun t h => h.1.framed rfl fun _ _ => ⟨h.2.1.1, h.2.1.2.1, h.2.1.2.2, fun _ => h.2.2⟩
  | pwLoad p =>
    refine (bodyPwLoad_starts s p).mono fun t h => ?_
    rcases h with rfl | ⟨slot, xs, hs, hx, rfl⟩
    · exact framed_refl
    · exact framed_pw (.inl rfl) hs ⟨hx, nofun⟩
  | pwClear p =>
    refine (bodyPwClear_starts s p).mono fun t h => ?_
    rcases h with rfl | ⟨slot, hs, rfl⟩
    · exact framed_refl
    · exact framed_pw (.inr rfl) hs (PwEntry.cleared_ok _)

/-! ### The four endings of a command -/

/-- The endings of a command with no limit: it finishes, raises or faults, and is not cut off. -/
theorem runCommand_cases (i : Instr) (s : State) :
    (∃ d t, commandBody i (s.start none) = .ok d t ∧
        s.runCommand (commandClass i) (commandBody i) = t.finish d ∧ Framed i (s.start none) t) ∨
      (∃ e t, commandBody i (s.start none) = .raised e t ∧
        s.runCommand (commandClass i) (commandBody i) = t.raise (commandClass i) e ∧
        Framed i (s.start none) t) ∨
      ∃ f, commandBody i (s.start none) = .faulted f ∧
        s.runCommand (commandClass i) (commandBody i) = s.takeFault f := by
  rcases commandBody_framed i (s.start none) with ⟨f, h⟩ | h
  · exact .inr (.inr ⟨f, h, runWith_faulted h⟩)
  · cases hb : commandBody i (s.start none) with
    | ok d t => exact .inl ⟨d, t, rfl, runWith_ok hb, by have := h.all; rwa [hb] at this⟩
    | raised e t =>
      exact .inr (.inl ⟨e, t, rfl, runWith_raised hb, by have := h.all; rwa [hb] at this⟩)
    | faulted f => exact absurd hb (h.sound f)
    | cut t =>
      have hf := h.all
      rw [hb] at hf
      obtain ⟨es, g⟩ := hf.grows
      have hl := g.limit
      rw [h.cuts t hb] at hl
      cases hl

end Sys2Proof.Machine
end

