-- ==== Sys2Proof/Laws/Host.lean ====
section
/-! SUPPORT. What a step does with the host's next input (spec/60_exceptions.md R211, R212, R220;
spec/10_state.md R24, R25; spec/70_reset_and_hazards.md R233). -/

namespace Sys2Proof.Machine

variable {s : State} {rest : List HostInput}

theorem step_idle (h : s.host = []) : step s = .next s := by
  rw [step, h]

theorem step_op {o : HostOp} (h : s.host = .op o :: rest) :
    step s = hostOp o { s with host := rest } := by
  rw [step, h]

theorem step_during {w : Word} {landing : List (Nat × HostOp)}
    (h : s.host = .during w landing :: rest) :
    step s = commandDuring w landing { s with host := rest } := by
  rw [step, h]

/-- A host write on a machine that is neither busy nor faulted is done. -/
theorem hostWrite_free (write : State → Host.Outcome State Fault Refusal) (hf : s.fault = none)
    (hb : s.busy = false) : hostWrite write s = write s := by
  rw [hostWrite, if_neg (by simp [hf]), if_neg (by simp [hb])]

/-- A host write of a faulted machine is ignored. -/
theorem hostWrite_faulted (write : State → Host.Outcome State Fault Refusal) (hf : s.fault ≠ none) :
    hostWrite write s = .next s := by
  rw [hostWrite, if_pos hf]

/-- A CMD write with a window, on a machine that takes it. -/
theorem commandDuring_free {w : Word} {i : Instr} (landing : List (Nat × HostOp))
    (hf : s.fault = none) (hb : s.busy = false) (hd : decode w = .ok i) :
    commandDuring w landing s = .next (windowRun i 0 false landing s) := by
  rw [commandDuring, if_neg (by simp [hf]), if_neg (by simp [hb]), hd]

/-- Right after its start a command runs. -/
theorem midCommand_zero_busy (i : Instr) (s : State) : (s.midCommand i 0).busy = true := rfl

/-- The host's access at a point where the command still runs finds it cut off there, with as many
bus events as the point says. -/
theorem midCommand_cut {i : Instr} {k : Nat} (h : (s.midCommand i (k + 1)).busy = true) :
    ∃ t es, s.midCommand i (k + 1) = t ∧ Framed i (s.start (some k)) t ∧
      t.bus.trace = s.bus.trace ++ es ∧ es.length = k := by
  simp only [State.midCommand] at h ⊢
  cases hc : commandBody i (s.start (some k)) with
  | ok d t => rw [runWith_ok hc] at h; cases h
  | raised e t => rw [runWith_raised hc] at h; simp at h
  | faulted f => rw [runWith_faulted hc] at h; cases h
  | cut t =>
    rcases commandBody_framed i (s.start (some k)) with ⟨f, h'⟩ | h'
    · rw [h'] at hc; cases hc
    · have f := h'.all
      rw [hc] at f
      obtain ⟨es, g⟩ := f.grows
      have hl := g.limit
      rw [h'.cuts t hc] at hl
      exact ⟨t, es, runWith_cut hc, f, g.trace, by simpa using hl.symm⟩

theorem withInput_uncut {n : Nat} {k : List Byte → Run Done} (h : ∀ xs t, k xs ≠ .cut t)
    (t : State) : withInput n s k ≠ .cut t := by
  rcases withInput_cases n s k with ⟨xs, -, -, e⟩ | ⟨f, e⟩ <;> rw [e]
  · exact h xs t
  · simp

theorem withSlot_uncut {pwsel : BitVec 2} {k : PwSlot → Run Done} (h : ∀ slot t, k slot ≠ .cut t)
    (t : State) : withSlot pwsel k ≠ .cut t := by
  rcases withSlot_cases pwsel k with ⟨slot, -, e⟩ | e <;> rw [e]
  · exact h slot t
  · simp

/-- A command that is no bus command makes no bus event at which it could be cut off. -/
theorem internal_uncut {i : Instr} (h : isBus i = false) (t : State) :
    commandBody i s ≠ .cut t := by
  cases i with
  | crc8Block => exact withInput_uncut (by simp) t
  | crc16Block => exact withInput_uncut (by simp) t
  | crc8Check => exact withInput_uncut (fun xs t => by split <;> simp) t
  | crc16Check => exact withInput_uncut (fun xs t => by split <;> simp) t
  | crc16Emit =>
    show withWindow 2 s _ ≠ _
    rw [withWindow]; split <;> simp
  | pwLoad p =>
    exact withSlot_uncut (fun slot => withInput_uncut fun xs t => by split <;> simp) t
  | pwClear p => exact withSlot_uncut (fun slot t => by split <;> simp) t
  | crc8Init | crc8Byte | crc16Init | crc16Byte | forceVerify => simp [commandBody, bodyCrc8Init,
      bodyCrc8Byte, bodyCrc16Init, bodyCrc16Byte, bodyForceVerify]
  | _ => cases h

/-- While a command runs, BUSY is 1 and nothing but the bus, its flags and the staged transaction
differs from before its start (10_state.md R24, 60_exceptions.md R202). -/
theorem midCommand_running {i : Instr} {k : Nat} (h : (s.midCommand i k).busy = true) :
    ∃ t, t = s.midCommand i k ∧ t = { s with
      busy := true, bus := t.bus, speedOk := t.speedOk, contOk := t.contOk, spState := t.spState
      spTA := t.spTA, spLen := t.spLen, spES := t.spES, spBuf := t.spBuf } := by
  cases k with
  | zero => exact ⟨_, rfl, rfl⟩
  | succ k =>
    refine ⟨_, rfl, ?_⟩
    simp only [State.midCommand] at h ⊢
    cases hc : commandBody i (s.start (some k)) with
    | ok d t => rw [runWith_ok hc] at h; cases h
    | raised e t => rw [runWith_raised hc] at h; simp at h
    | faulted f => rw [runWith_faulted hc] at h; cases h
    | cut t =>
      have hbus : isBus i = true := by
        by_contra hn
        exact internal_uncut (by simpa using hn) t hc
      have f : Framed i (s.start (some k)) t := by
        rcases commandBody_framed i (s.start (some k)) with ⟨f, h'⟩ | h'
        · rw [h'] at hc; cases hc
        · have := h'.all; rwa [hc] at this
      rw [runWith_cut hc]
      have a8 : t.acc8 = s.acc8 := f.acc8 fun hi => by
        simp only [List.mem_cons, List.not_mem_nil, or_false] at hi
        rcases hi with rfl | rfl | rfl | rfl <;> cases hbus
      have a16 : t.acc16 = s.acc16 := f.acc16 fun hi => by
        simp only [List.mem_cons, List.not_mem_nil, or_false] at hi
        rcases hi with rfl | rfl | rfl | rfl <;> cases hbus
      have slots := fun slot => f.slots slot (by rintro p (rfl | rfl) <;> cases hbus)
      have pw : t.pw = s.pw := by
        have e : ∀ p : PwFile,
          p = ⟨p.get .readOnly, p.get .readWrite, p.get .writeOnly⟩ := fun _ => rfl
        rw [e t.pw, slots, slots, slots]; rfl
      have r := f.rest
      rw [a8, a16, pw] at r
      exact r

/-- The end of a window in which the host wrote or did not. -/
theorem endWindow_eq (i : Instr) (wrote : Bool) (s : State) :
    s.endWindow i wrote =
      if wrote then (s.runCommand (commandClass i) (commandBody i)).latchBusy
      else s.runCommand (commandClass i) (commandBody i) := rfl

/-- A property that ignores the host's records passes through a window, if the command's end and the
reset keep it. -/
theorem windowRun_induct {i : Instr} (P : State → Prop)
    (hrun : ∀ s, P s → P (s.runCommand (commandClass i) (commandBody i)))
    (hlatch : ∀ s, P s → P s.latchBusy)
    (hanswer : ∀ s v, P s → P (s.answerHost v))
    (hqueue : ∀ s ops, P s → P (s.requeue ops))
    (hreset : ∀ s k, P s → (s.midCommand i k).busy = true → P (s.midCommand i k).resetMachine)
    (landing : List (Nat × HostOp)) :
    ∀ (point : Nat) (wrote : Bool) (s : State), P s → P (windowRun i point wrote landing s) := by
  have hend : ∀ (wrote : Bool) (s : State), P s → P (s.endWindow i wrote) := by
    intro wrote s h
    rw [endWindow_eq]
    split
    · exact hlatch _ (hrun s h)
    · exact hrun s h
  induction landing with
  | nil => exact fun point wrote s h => hend wrote s h
  | cons e rest ih =>
    obtain ⟨delay, o⟩ := e
    intro point wrote s h
    unfold windowRun
    dsimp only
    split
    · rename_i hb
      cases o with
      | regRead n => exact ih _ _ _ (hanswer s _ h)
      | dbufRead j => exact ih _ _ _ (hanswer s _ h)
      | regWrite n v => exact ih _ _ _ h
      | dbufWrite j b => exact ih _ _ _ h
      | reset => exact hqueue _ _ (hreset s _ h hb)
    · exact hqueue _ _ (hend wrote s h)

/-! ### The bounds of DBUF -/

/-- A command writes DBUF below DBUF_SIZE only: where its rule goes on, its DBUF write lies in a
legal window. -/
theorem withWindow_ok {n : Nat} {k : Run Done} {d : Done} {t : State}
    (h : withWindow n s k = .ok d t) : s.argOff.toNat + n ≤ s.desc.dbufSize ∧ k = .ok d t := by
  rcases withWindow_cases n s k with ⟨e, hw⟩ | e
  · rw [e] at h; exact ⟨hw, h⟩
  · rw [e] at h; cases h

theorem withInput_ok {n : Nat} {k : List Byte → Run Done} {d : Done} {t : State}
    (h : withInput n s k = .ok d t) :
    ∃ xs, s.dbuf.readRange s.argOff.toNat n = some xs ∧
      s.argOff.toNat + n ≤ s.desc.dbufSize ∧ k xs = .ok d t := by
  rcases withInput_cases n s k with ⟨xs, hr, hw, e⟩ | ⟨f, e⟩
  · rw [e] at h; exact ⟨xs, hr, hw, h⟩
  · rw [e] at h; cases h

theorem withSlot_ok {pwsel : BitVec 2} {k : PwSlot → Run Done} {d : Done} {t : State}
    (h : withSlot pwsel k = .ok d t) : ∃ slot, slotOf pwsel = some slot ∧ k slot = .ok d t := by
  rcases withSlot_cases pwsel k with ⟨slot, hs, e⟩ | e
  · rw [e] at h; exact ⟨slot, hs, h⟩
  · rw [e] at h; cases h

theorem withCont_ok {cont : Bool} {k : Run Done} {d : Done} {t : State}
    (h : withCont cont s k = .ok d t) : (cont = true → s.contOk = true) ∧ k = .ok d t := by
  unfold withCont at h
  split at h
  · cases h
  · rename_i hc
    refine ⟨fun hc' => ?_, h⟩
    cases hk : s.contOk with
    | true => rfl
    | false => exact absurd ⟨hc', hk⟩ hc

end Sys2Proof.Machine
end

