-- ==== Sys2Proof/Laws/Done.lean ====
section
/-! SUPPORT. What a command hands to `finish` (spec/60_exceptions.md R203): where and how much it
writes into DBUF (spec/10_state.md R30), and what CONT_OK is then (spec/10_state.md R32). -/

namespace Sys2Proof.Machine

variable {s t : State}

/-! ### Lengths of what is read -/

theorem busRecv_length {n : Nat} {d : List Byte} (h : busRecv n s = .ok d t) : d.length = n := by
  rcases busRecv_cases n s with ⟨e, -⟩ | ⟨b, e, -⟩
  · rw [e] at h; cases h
  · rw [e] at h; cases h; simp

theorem pollRead_length {p n : Nat} {slot : PwSlot} (left : Nat) :
    ∀ {d e : List Byte} {s t : State},
    pollRead p n slot left d s = .ok e t → d.length = n → e.length = n := by
  induction left with
  | zero => intro d e s t h hd; cases h; exact hd
  | succ left ih =>
    intro d e s t h hd
    unfold pollRead at h
    split at h
    · obtain ⟨_, s1, _, h⟩ := Run.bind_eq_ok.1 h
      obtain ⟨present, s2, _, h⟩ := Run.bind_eq_ok.1 h
      split at h
      · obtain ⟨_, s3, _, h⟩ := Run.bind_eq_ok.1 h
        obtain ⟨_, s4, _, h⟩ := Run.bind_eq_ok.1 h
        obtain ⟨d', s5, hr, h⟩ := Run.bind_eq_ok.1 h
        exact ih h (busRecv_length hr)
      · cases h
    · cases h; exact hd

theorem readBytes_length {p n : Nat} {cont : Bool} {slot : PwSlot} {d : List Byte}
    (h : readBytes p n cont slot s = .ok d t) : d.length = n := by
  obtain ⟨_, s1, _, h⟩ := Run.bind_eq_ok.1 h
  obtain ⟨d', s2, hr, h⟩ := Run.bind_eq_ok.1 h
  split at h
  · exact pollRead_length _ h (busRecv_length hr)
  · cases h; exact busRecv_length hr

theorem readCrcPage_length {p : Nat} {cont : Bool} {d : List Byte}
    (h : readCrcPage p cont s = .ok d t) : d.length ≤ s.desc.pageLen := by
  have h1 : ∀ {a : Unit} {u : State},
      (if cont then .ok () s else busSend (Config.seqAutoCrcRead p) s : Run Unit) = .ok a u →
      u.desc = s.desc := by
    intro a u h
    split at h
    · cases h; rfl
    · have := (busSend_ends s (Config.seqAutoCrcRead p)).all
      rw [h] at this
      exact this.desc
  obtain ⟨_, s1, e1, h⟩ := Run.bind_eq_ok.1 h
  obtain ⟨r, s2, e2, h⟩ := Run.bind_eq_ok.1 h
  have hd : s2.desc = s1.desc := by
    have := (busRecv_ends s1 (s1.desc.pageLen + 2)).all
    rw [e2] at this
    exact this.desc
  split at h
  · cases h
  · cases h
    rw [List.length_take, hd, h1 e1]
    omega

theorem readExtra_length {a : Nat} {d : List Byte} (h : readExtra a s = .ok d t) :
    d.length = s.desc.extraLen := by
  obtain ⟨_, s1, e1, h⟩ := Run.bind_eq_ok.1 h
  obtain ⟨_, s2, e2, h⟩ := Run.bind_eq_ok.1 h
  have h1 : s1.desc = s.desc := by
    have := (prologue_ends s false).all
    rw [e1] at this; exact this.desc
  have h2 : s2.desc = s1.desc := by
    have := (busSend_ends s1 (Config.seqExtra a)).all
    rw [e2] at this; exact this.desc
  rw [busRecv_length h, h2, h1]

theorem udpDecode_length {pageLen a len : Nat} {raw ys : List Byte}
    (h : udpDecode pageLen a raw = .payload len ys) : ys.length ≤ pageLen - 3 := by
  unfold udpDecode at h
  dsimp only at h
  split at h
  · cases h
  · split at h
    · cases h
    · cases h
      rw [List.length_take]
      omega

/-! ### CONT_OK while a rule runs -/

theorem Moved.contOk (h : Moved s t) : t.contOk = s.contOk := by
  obtain ⟨es, h⟩ := h
  rw [h.rest]

theorem SpWent.contOk (h : SpWent s t) : t.contOk = s.contOk := by
  obtain ⟨es, h, -⟩ := h
  rw [h.rest]

/-- A rule that finishes finds CONT_OK as its procedures left it. -/
theorem Run.Ends.of_ok {α : Type} {P : State → Prop} {r : Run α} (h : r.Ends P) {a : α}
    (e : r = .ok a t) : P t := by
  have := h.all
  rw [e] at this
  exact this

theorem otpQuery_done {supported : Bool} {seq : List Byte} {answer : Byte → Half} {d : Done}
    (h : otpQuery supported seq answer s = .ok d t) : d.data = [] ∧ t.contOk = false := by
  unfold otpQuery at h
  dsimp only at h
  split at h
  · cases h; exact ⟨rfl, rfl⟩
  · split at h
    · cases h
    · obtain ⟨b, u, e, h⟩ := Run.bind_eq_ok.1 h
      cases h
      exact ⟨rfl, ((statusRead_ends _ seq).of_ok e).moved.contOk⟩

theorem otpMutate_done {seq statusSeq : List Byte} {confirms : Byte → Bool} {v : Half} {d : Done}
    (hs : s.contOk = false) (h : otpMutate seq statusSeq confirms v s = .ok d t) :
    d.data = [] ∧ t.contOk = false := by
  obtain ⟨_, u, e1, h⟩ := Run.bind_eq_ok.1 h
  obtain ⟨_, w, e2, h⟩ := Run.bind_eq_ok.1 h
  obtain ⟨b, x, e3, h⟩ := Run.bind_eq_ok.1 h
  have h1 := ((powerCheck_ends s).of_ok e1).moved.contOk
  have h2 := ((programSend_moved _ seq).of_ok e2).contOk
  have h3 := ((statusRead_ends _ statusSeq).of_ok e3).moved.contOk
  split at h
  · cases h; exact ⟨rfl, h3.trans (h2.trans (h1.trans hs))⟩
  · cases h

/-- What a command hands to `finish`: its DBUF write lies in its output window, which is legal; and
CONT_OK is 1 after the four reads that set it, 0 after the other bus commands. -/
theorem commandBody_done {i : Instr} {d : Done} (h : commandBody i s = .ok d t) :
    (d.data = [] ∨ (d.off = s.argOff.toNat ∧ d.data.length ≤ outputWindow i s ∧
      s.argOff.toNat + outputWindow i s ≤ s.desc.dbufSize)) ∧
    (isBus i = true → t.contOk = setsCont i) := by
  cases i with
  | crc8Init => cases h; exact ⟨.inl rfl, nofun⟩
  | crc8Byte => cases h; exact ⟨.inl rfl, nofun⟩
  | crc8Block => obtain ⟨xs, -, -, h⟩ := withInput_ok h; cases h; exact ⟨.inl rfl, nofun⟩
  | crc8Check =>
    obtain ⟨xs, -, -, h⟩ := withInput_ok h
    split at h
    · cases h
    · cases h; exact ⟨.inl rfl, nofun⟩
  | crc16Init => cases h; exact ⟨.inl rfl, nofun⟩
  | crc16Byte => cases h; exact ⟨.inl rfl, nofun⟩
  | crc16Block => obtain ⟨xs, -, -, h⟩ := withInput_ok h; cases h; exact ⟨.inl rfl, nofun⟩
  | crc16Check =>
    obtain ⟨xs, -, -, h⟩ := withInput_ok h
    split at h
    · cases h
    · cases h; exact ⟨.inl rfl, nofun⟩
  | crc16Emit =>
    obtain ⟨hw, h⟩ := withWindow_ok h
    cases h
    exact ⟨.inr ⟨rfl, le_refl _, hw⟩, nofun⟩
  | forceVerify => cases h; exact ⟨.inl rfl, nofun⟩
  | read c p =>
    obtain ⟨slot, -, h⟩ := withSlot_ok h
    obtain ⟨hw, h⟩ := withWindow_ok h
    obtain ⟨-, h⟩ := withCont_ok h
    split at h
    · cases h
    · obtain ⟨_, u, _, h⟩ := Run.bind_eq_ok.1 h
      obtain ⟨x, v, hr, h⟩ := Run.bind_eq_ok.1 h
      cases h
      exact ⟨.inr ⟨rfl, le_of_eq (readBytes_length hr), hw⟩, fun _ => rfl⟩
  | readPage c p =>
    obtain ⟨slot, -, h⟩ := withSlot_ok h
    obtain ⟨hw, h⟩ := withWindow_ok h
    obtain ⟨-, h⟩ := withCont_ok h
    split at h
    · cases h
    · obtain ⟨_, u, _, h⟩ := Run.bind_eq_ok.1 h
      obtain ⟨x, v, hr, h⟩ := Run.bind_eq_ok.1 h
      cases h
      exact ⟨.inr ⟨rfl, le_of_eq (readBytes_length hr), hw⟩, fun _ => rfl⟩
  | readPageExtra c p =>
    obtain ⟨slot, -, h⟩ := withSlot_ok h
    obtain ⟨hw, h⟩ := withWindow_ok h
    obtain ⟨-, h⟩ := withCont_ok h
    split at h
    · cases h
    · split at h
      · cases h
      · obtain ⟨_, u, e1, h⟩ := Run.bind_eq_ok.1 h
        obtain ⟨x, v, e2, h⟩ := Run.bind_eq_ok.1 h
        obtain ⟨e, w, e3, h⟩ := Run.bind_eq_ok.1 h
        cases h
        refine ⟨.inr ⟨rfl, ?_, hw⟩, fun _ => rfl⟩
        have hu : u.desc = s.desc := ((openRead_ends s.abandonSp c slot _).of_ok e1).desc
        have hv : v.desc = u.desc := ((readBytes_ends u _ _ c slot).of_ok e2).desc
        rw [List.length_append, readBytes_length e2, readExtra_length e3, hv, hu]
        exact le_refl _
  | readPageCrc c p =>
    obtain ⟨slot, -, h⟩ := withSlot_ok h
    obtain ⟨hw, h⟩ := withWindow_ok h
    obtain ⟨-, h⟩ := withCont_ok h
    split at h
    · cases h
    · split at h
      · cases h
      · obtain ⟨_, u, e1, h⟩ := Run.bind_eq_ok.1 h
        obtain ⟨x, v, e2, h⟩ := Run.bind_eq_ok.1 h
        cases h
        refine ⟨.inr ⟨rfl, ?_, hw⟩, fun _ => rfl⟩
        have hu : u.desc = s.desc := ((openRead_ends s.abandonSp c slot _).of_ok e1).desc
        have := readCrcPage_length e2
        rw [hu] at this
        exact this
  | readPageCrcExtra c p =>
    obtain ⟨slot, -, h⟩ := withSlot_ok h
    obtain ⟨hw, h⟩ := withWindow_ok h
    obtain ⟨-, h⟩ := withCont_ok h
    split at h
    · cases h
    · split at h
      · cases h
      · obtain ⟨_, u, e1, h⟩ := Run.bind_eq_ok.1 h
        obtain ⟨x, v, e2, h⟩ := Run.bind_eq_ok.1 h
        obtain ⟨e, w, e3, h⟩ := Run.bind_eq_ok.1 h
        cases h
        refine ⟨.inr ⟨rfl, ?_, hw⟩, fun _ => rfl⟩
        have hu : u.desc = s.desc := ((openRead_ends s.abandonSp c slot _).of_ok e1).desc
        have hv : v.desc = u.desc := ((readCrcPage_ends u _ c).of_ok e2).desc
        have := readCrcPage_length e2
        rw [hu] at this
        rw [List.length_append, readExtra_length e3, hv, hu]
        exact Nat.add_le_add_right this _
  | readPagePacket c p =>
    obtain ⟨slot, -, h⟩ := withSlot_ok h
    obtain ⟨hw, h⟩ := withWindow_ok h
    obtain ⟨-, h⟩ := withCont_ok h
    split at h
    · cases h
    · obtain ⟨_, u, _, h⟩ := Run.bind_eq_ok.1 h
      obtain ⟨x, v, _, h⟩ := Run.bind_eq_ok.1 h
      split at h
      · cases h
      · cases h
      · rename_i hu
        cases h
        exact ⟨.inr ⟨rfl, udpDecode_length hu, hw⟩, fun _ => rfl⟩
  | write p =>
    obtain ⟨slot, -, h⟩ := withSlot_ok h
    obtain ⟨xs, -, -, h⟩ := withInput_ok h
    obtain ⟨_, u, e, h⟩ := Run.bind_eq_ok.1 h
    cases h
    exact ⟨.inl rfl, fun _ => ((writeBytes_spWent _ _ xs slot).of_ok e).contOk⟩
  | writePagePacket p =>
    obtain ⟨slot, -, h⟩ := withSlot_ok h
    obtain ⟨xs, -, -, h⟩ := withInput_ok h
    dsimp only at h
    split at h
    · cases h
    · split at h
      · cases h
      · obtain ⟨_, u, e, h⟩ := Run.bind_eq_ok.1 h
        cases h
        exact ⟨.inl rfl, fun _ => ((writeBytes_spWent _ _ _ slot).of_ok e).contOk⟩
  | lockPage =>
    simp only [commandBody, bodyLockPage] at h
    split at h
    · cases h
    · split at h
      · cases h
      · have := otpMutate_done rfl h
        exact ⟨.inl this.1, fun _ => this.2⟩
  | redirectPage =>
    simp only [commandBody, bodyRedirectPage] at h
    split at h
    · cases h
    · split at h
      · cases h
      · split at h
        · cases h
        · have := otpMutate_done rfl h
          exact ⟨.inl this.1, fun _ => this.2⟩
  | lockRedirectPage =>
    simp only [commandBody, bodyLockRedirectPage] at h
    split at h
    · cases h
    · split at h
      · cases h
      · have := otpMutate_done rfl h
        exact ⟨.inl this.1, fun _ => this.2⟩
  | isPageLocked => have := otpQuery_done h; exact ⟨.inl this.1, fun _ => this.2⟩
  | getRedirectedPage => have := otpQuery_done h; exact ⟨.inl this.1, fun _ => this.2⟩
  | isRedirectPageLocked => have := otpQuery_done h; exact ⟨.inl this.1, fun _ => this.2⟩
  | spWrite =>
    obtain ⟨xs, hr, -, h⟩ := withInput_ok h
    dsimp only at h
    split at h
    · cases h
    · split at h
      · cases h
      · obtain ⟨_, u, e, h⟩ := Run.bind_eq_ok.1 h
        cases h
        obtain ⟨_, v, e1, e⟩ := Run.bind_eq_ok.1 e
        obtain ⟨_, w, e2, e⟩ := Run.bind_eq_ok.1 e
        cases e
        have h1 := ((prologue_ends _ false).of_ok e1).moved.contOk
        have h2 := ((busSend_ends _ _).of_ok e2).moved.contOk
        exact ⟨.inl rfl, fun _ => h2.trans h1⟩
  | spReadVerify =>
    simp only [commandBody, bodySpReadVerify] at h
    split at h
    · cases h
    · rename_i h0
      split at h
      · cases h
      · rename_i h1
        obtain ⟨_, u, e, h⟩ := Run.bind_eq_ok.1 h
        cases h
        have hw : s.spState = .written := by
          by_contra hn
          exact h0 ⟨by simpa using h1, hn⟩
        exact ⟨.inl rfl, fun _ => ((spVerifyProc_spWent _ (by
          show s.spState.isOpen = true
          rw [hw]; rfl)).of_ok e).contOk⟩
  | spVerifyPassword p =>
    obtain ⟨slot, -, h⟩ := withSlot_ok h
    split at h
    · cases h
    · dsimp only at h
      split at h
      · cases h
      · obtain ⟨_, u, e1, h⟩ := Run.bind_eq_ok.1 h
        obtain ⟨_, v, e2, h⟩ := Run.bind_eq_ok.1 h
        cases h
        have h1 := ((prologue_ends _ false).of_ok e1).moved.contOk
        have h2 := ((challenge_ends _ slot _).of_ok e2).moved.contOk
        exact ⟨.inl rfl, fun _ => h2.trans h1⟩
  | spCopy =>
    simp only [commandBody, bodySpCopy] at h
    split at h
    · cases h
    · split at h
      · cases h
      · split at h
        · cases h
        · obtain ⟨_, u, e, h⟩ := Run.bind_eq_ok.1 h
          cases h
          obtain ⟨_, v, e1, e⟩ := Run.bind_eq_ok.1 e
          obtain ⟨_, w, e2, e⟩ := Run.bind_eq_ok.1 e
          obtain ⟨_, x, e3, e⟩ := Run.bind_eq_ok.1 e
          obtain ⟨r, y, e4, e⟩ := Run.bind_eq_ok.1 e
          have h1 := ((requirePower_ends _).of_ok e1).moved.contOk
          have h2 := ((prologue_ends _ false).of_ok e2).moved.contOk
          have h3 := ((busSendPulse_moved _ _ _).of_ok e3).contOk
          have h4 := ((busRecv_ends _ 1).of_ok e4).moved.contOk
          split at e
          · cases e
          · cases e
            exact ⟨.inl rfl, fun _ => h4.trans (h3.trans (h2.trans h1))⟩
  | pwLoad p =>
    obtain ⟨slot, -, h⟩ := withSlot_ok h
    obtain ⟨xs, -, -, h⟩ := withInput_ok h
    split at h
    · cases h
    · cases h; exact ⟨.inl rfl, nofun⟩
  | pwClear p =>
    obtain ⟨slot, -, h⟩ := withSlot_ok h
    split at h
    · cases h
    · cases h; exact ⟨.inl rfl, nofun⟩

end Sys2Proof.Machine
end

