-- ==== Sys2Proof/Laws/Abandon.lean ====
section
/-! SUPPORT. A bus command that is no scratchpad step and finishes after bus work leaves no open
scratchpad transaction (spec/44_scratchpad.md R180, R181). -/

namespace Sys2Proof.Machine

variable {s t : State}

/-- The commands that step the scratchpad transaction (44_scratchpad.md R180). -/
def isSpStep : Instr → Bool
  | .spWrite | .spReadVerify | .spVerifyPassword _ | .spCopy => true
  | .read _ _ | .write _ | .readPage _ _ | .readPageExtra _ _ | .readPageCrc _ _ => false
  | .readPageCrcExtra _ _ | .readPagePacket _ _ | .writePagePacket _ => false
  | .lockPage | .isPageLocked | .redirectPage | .getRedirectedPage => false
  | .lockRedirectPage | .isRedirectPageLocked => false
  | .crc8Init | .crc8Byte | .crc8Block | .crc8Check => false
  | .crc16Init | .crc16Byte | .crc16Block | .crc16Check | .crc16Emit => false
  | .forceVerify | .pwLoad _ | .pwClear _ => false

/-- No transaction is open. -/
abbrev State.closed (s : State) : Prop := s.spState.isOpen = false

theorem Moved.closed (h : Moved s t) (hs : s.closed) : t.closed := by
  rw [State.closed, h.spState]; exact hs

theorem spCopyProc_closed (h : spCopyProc s = .ok () t) : t.closed := by
  obtain ⟨_, u, -, h⟩ := Run.bind_eq_ok.1 h
  obtain ⟨_, u, -, h⟩ := Run.bind_eq_ok.1 h
  obtain ⟨_, u, -, h⟩ := Run.bind_eq_ok.1 h
  obtain ⟨r, u, -, h⟩ := Run.bind_eq_ok.1 h
  split at h
  · cases h
  · cases h; rfl

/-- The rows of a write leave no transaction open (41_bank.md R126). -/
theorem writeChunks_closed {slot : PwSlot} (rounds : Nat) :
    ∀ (p : Nat) (xs : List Byte) (s : State), s.closed →
      writeChunks slot rounds p xs s = .ok () t → t.closed := by
  induction rounds with
  | zero => intro p xs s hs h; cases h; exact hs
  | succ rounds ih =>
    intro p xs s hs h
    rw [writeChunks] at h
    split at h
    · cases h; exact hs
    · obtain ⟨_, u, -, h⟩ := Run.bind_eq_ok.1 h
      obtain ⟨_, u, -, h⟩ := Run.bind_eq_ok.1 h
      obtain ⟨_, u, -, h⟩ := Run.bind_eq_ok.1 h
      obtain ⟨_, u, e, h⟩ := Run.bind_eq_ok.1 h
      exact ih _ _ u (spCopyProc_closed e) h

theorem writeBytes_closed {a : Nat} {xs : List Byte} {slot : PwSlot}
    (h : writeBytes a xs slot s = .ok () t) : t.closed := by
  rw [writeBytes] at h
  split at h
  · cases h
  · obtain ⟨_, u, -, h⟩ := Run.bind_eq_ok.1 h
    obtain ⟨_, v, -, h⟩ := Run.bind_eq_ok.1 h
    obtain ⟨_, w, e, h⟩ := Run.bind_eq_ok.1 h
    have hv : v.abandonSp.closed := SpState.abandon_isOpen _
    refine ((readBack_ends w _ xs slot).of_ok h).moved.closed ?_
    rw [transferBytes] at e
    split at e
    · exact writeChunks_closed _ _ _ _ hv e
    · split at e
      · exact ((directWrite_ends _ _ xs).of_ok e).moved.closed hv
      · cases e; exact hv

theorem otpMutate_closed {seq statusSeq : List Byte} {confirms : Byte → Bool} {v : Half} {d : Done}
    (h : otpMutate seq statusSeq confirms v s = .ok d t) : t.closed := by
  obtain ⟨_, u, e1, h⟩ := Run.bind_eq_ok.1 h
  obtain ⟨_, w, e2, h⟩ := Run.bind_eq_ok.1 h
  obtain ⟨b, x, e3, h⟩ := Run.bind_eq_ok.1 h
  have hx := ((statusRead_ends _ statusSeq).of_ok e3).moved.closed
    (((programSend_moved _ seq).of_ok e2).closed (SpState.abandon_isOpen _))
  split at h
  · cases h; exact hx
  · cases h

theorem otpQuery_closed {supported : Bool} {seq : List Byte} {answer : Byte → Half} {d : Done}
    (h : otpQuery supported seq answer s = .ok d t) : t.closed ∨ t.bus = s.bus := by
  unfold otpQuery at h
  dsimp only at h
  split at h
  · cases h; exact .inr rfl
  · split at h
    · cases h
    · obtain ⟨b, u, e, h⟩ := Run.bind_eq_ok.1 h
      cases h
      exact .inl (((statusRead_ends _ seq).of_ok e).moved.closed (SpState.abandon_isOpen _))

/-- A command that is no scratchpad step and finishes has made no bus event, or leaves no
transaction open (44_scratchpad.md R180, R181). -/
theorem commandBody_closed {i : Instr} {d : Done} (hb : isBus i = true) (hi : isSpStep i = false)
    (h : commandBody i s = .ok d t) : t.closed ∨ t.bus = s.bus := by
  have ha : s.abandonSp.closed := SpState.abandon_isOpen _
  cases i with
  | read c p =>
    obtain ⟨slot, -, h⟩ := withSlot_ok h
    obtain ⟨-, h⟩ := withWindow_ok h
    obtain ⟨-, h⟩ := withCont_ok h
    split at h
    · cases h
    · obtain ⟨_, u, e1, h⟩ := Run.bind_eq_ok.1 h
      obtain ⟨x, v, e2, h⟩ := Run.bind_eq_ok.1 h
      cases h
      exact .inl (((readBytes_ends u _ _ c slot).of_ok e2).moved.closed
        (((openRead_ends _ c slot _).of_ok e1).moved.closed ha))
  | readPage c p =>
    obtain ⟨slot, -, h⟩ := withSlot_ok h
    obtain ⟨-, h⟩ := withWindow_ok h
    obtain ⟨-, h⟩ := withCont_ok h
    split at h
    · cases h
    · obtain ⟨_, u, e1, h⟩ := Run.bind_eq_ok.1 h
      obtain ⟨x, v, e2, h⟩ := Run.bind_eq_ok.1 h
      cases h
      exact .inl (((readBytes_ends u _ _ c slot).of_ok e2).moved.closed
        (((openRead_ends _ c slot _).of_ok e1).moved.closed ha))
  | readPageExtra c p =>
    obtain ⟨slot, -, h⟩ := withSlot_ok h
    obtain ⟨-, h⟩ := withWindow_ok h
    obtain ⟨-, h⟩ := withCont_ok h
    split at h
    · cases h
    · split at h
      · cases h
      · obtain ⟨_, u, e1, h⟩ := Run.bind_eq_ok.1 h
        obtain ⟨x, v, e2, h⟩ := Run.bind_eq_ok.1 h
        obtain ⟨e, w, e3, h⟩ := Run.bind_eq_ok.1 h
        cases h
        exact .inl (((readExtra_ends v _).of_ok e3).moved.closed
          (((readBytes_ends u _ _ c slot).of_ok e2).moved.closed
            (((openRead_ends _ c slot _).of_ok e1).moved.closed ha)))
  | readPageCrc c p =>
    obtain ⟨slot, -, h⟩ := withSlot_ok h
    obtain ⟨-, h⟩ := withWindow_ok h
    obtain ⟨-, h⟩ := withCont_ok h
    split at h
    · cases h
    · split at h
      · cases h
      · obtain ⟨_, u, e1, h⟩ := Run.bind_eq_ok.1 h
        obtain ⟨x, v, e2, h⟩ := Run.bind_eq_ok.1 h
        cases h
        exact .inl (((readCrcPage_ends u _ c).of_ok e2).moved.closed
          (((openRead_ends _ c slot _).of_ok e1).moved.closed ha))
  | readPageCrcExtra c p =>
    obtain ⟨slot, -, h⟩ := withSlot_ok h
    obtain ⟨-, h⟩ := withWindow_ok h
    obtain ⟨-, h⟩ := withCont_ok h
    split at h
    · cases h
    · split at h
      · cases h
      · obtain ⟨_, u, e1, h⟩ := Run.bind_eq_ok.1 h
        obtain ⟨x, v, e2, h⟩ := Run.bind_eq_ok.1 h
        obtain ⟨e, w, e3, h⟩ := Run.bind_eq_ok.1 h
        cases h
        exact .inl (((readExtra_ends v _).of_ok e3).moved.closed
          (((readCrcPage_ends u _ c).of_ok e2).moved.closed
            (((openRead_ends _ c slot _).of_ok e1).moved.closed ha)))
  | readPagePacket c p =>
    obtain ⟨slot, -, h⟩ := withSlot_ok h
    obtain ⟨-, h⟩ := withWindow_ok h
    obtain ⟨-, h⟩ := withCont_ok h
    split at h
    · cases h
    · obtain ⟨_, u, e1, h⟩ := Run.bind_eq_ok.1 h
      obtain ⟨x, v, e2, h⟩ := Run.bind_eq_ok.1 h
      split at h
      · cases h
      · cases h
      · cases h
        exact .inl (((readBytes_ends u _ _ c slot).of_ok e2).moved.closed
          (((openRead_ends _ c slot _).of_ok e1).moved.closed ha))
  | write p =>
    obtain ⟨slot, -, h⟩ := withSlot_ok h
    obtain ⟨xs, -, -, h⟩ := withInput_ok h
    obtain ⟨_, u, e, h⟩ := Run.bind_eq_ok.1 h
    cases h
    exact .inl (writeBytes_closed e)
  | writePagePacket p =>
    obtain ⟨slot, -, h⟩ := withSlot_ok h
    obtain ⟨xs, -, -, h⟩ := withInput_ok h
    dsimp only at h
    split at h
    · cases h
    · split at h
      · cases h
      · obtain ⟨_, u, e, h⟩ := Run.bind_eq_ok.1 h
        cases h
        exact .inl (writeBytes_closed e)
  | lockPage =>
    simp only [commandBody, bodyLockPage] at h
    split at h
    · cases h
    · split at h
      · cases h
      · exact .inl (otpMutate_closed h)
  | redirectPage =>
    simp only [commandBody, bodyRedirectPage] at h
    split at h
    · cases h
    · split at h
      · cases h
      · split at h
        · cases h
        · exact .inl (otpMutate_closed h)
  | lockRedirectPage =>
    simp only [commandBody, bodyLockRedirectPage] at h
    split at h
    · cases h
    · split at h
      · cases h
      · exact .inl (otpMutate_closed h)
  | isPageLocked => exact otpQuery_closed h
  | getRedirectedPage => exact otpQuery_closed h
  | isRedirectPageLocked => exact otpQuery_closed h
  | spWrite | spReadVerify | spVerifyPassword p | spCopy => cases hi
  | _ => cases hb

end Sys2Proof.Machine
end

