-- ==== Sys2Proof/Laws/Answers.lean ====
section
/-! SUPPORT. What the shared procedures answer and which events they make, from the answers the bus
gives, in a command that no limit cuts (spec/41_bank.md R120 to R127, spec/42_paged.md R143,
spec/43_otp.md R160, spec/44_scratchpad.md R182 to R190). -/

namespace Sys2Proof.Machine

variable {s : State}

/-! ### Answers in a row -/

theorem Bus.yes_mono {b : Bus} {m n : Nat} (h : b.yes n) (k : m ≤ n) : b.yes m :=
  fun j hj => h j (by omega)

/-- The first of a row of yes answers. -/
theorem Bus.yes_first {b : Bus} {n : Nat} (h : b.yes (n + 1)) : b.boolAnswer b.nBool = true := by
  simpa using h 0 (by omega)

/-- The rest of a row of yes answers, after `m` of them were drawn. -/
theorem State.advance_yes {m n : Nat} (h : s.bus.yes (m + n)) (v : Bool) (es : List BusEvent)
    (ny : Nat) : (s.advance v es m ny).bus.yes n := by
  intro j hj
  have := h (m + j) (by omega)
  simpa [Nat.add_assoc] using this

/-! ### The prologue -/

theorem confirmSpeed_yes (hl : s.bus.limit = none) (h : s.speedOk = true ∨ s.bus.yes 1) :
    confirmSpeed s = .ok () (s.advance true (if s.speedOk then [] else [.doSpeed true])
      (if s.speedOk then 0 else 1) 0) := by
  cases hs : s.speedOk with
  | true =>
    have := s.advance_nil
    rw [hs] at this
    simp [confirmSpeed, hs, this]
  | false =>
    have hy : s.bus.boolAnswer s.bus.nBool = true :=
      Bus.yes_first (h.resolve_left (by simp [hs]))
    rw [confirmSpeed, if_neg (by simp [hs]), doSpeed_eq hl, Run.bind_ok, hy]
    rfl

/-- The prologue of a command that is not continued, where every question is answered yes
(41_bank.md R120). -/
theorem prologue_yes (hl : s.bus.limit = none) (h : s.bus.yes s.prologueAsks) :
    prologue false s =
      .ok () (s.advance true (prologueEvents s.desc s.speedOk) s.prologueAsks 0) := by
  have h0 : s.speedOk = true ∨ s.bus.yes 1 := by
    cases hs : s.speedOk with
    | true => exact .inl rfl
    | false => exact .inr (Bus.yes_mono h (by simp [State.prologueAsks, hs]))
  have e := confirmSpeed_yes hl h0
  generalize hf : (if s.speedOk then [] else [.doSpeed true] : List BusEvent) = fs at e
  have hy : (s.advance true fs (if s.speedOk then 0 else 1) 0).bus.yes 1 :=
    State.advance_yes (Bus.yes_mono h (by unfold State.prologueAsks; split <;> simp)) _ _ _
  have hb := Bus.yes_first hy
  rw [prologue, if_neg (by simp), e, Run.bind_ok, selectDevice, busSelect_eq (by simpa using hl),
    Run.bind_ok, hb]
  simp only [if_true, State.advance_speedOk, State.advance_advance, State.advance_desc, ← hf,
    prologueEvents]
  unfold State.prologueAsks
  split <;> rfl

/-- The prologue on a confirmed speed whose device is not selected (41_bank.md R120). -/
theorem prologue_unselected (hl : s.bus.limit = none) (hs : s.speedOk = true)
    (h : s.bus.boolAnswer s.bus.nBool = false) :
    prologue false s =
      .raised .communication (s.advance true [.select s.desc.devAddr false] 1 0) := by
  rw [prologue, if_neg (by simp), confirmSpeed, if_pos hs, Run.bind_ok, selectDevice,
    busSelect_eq hl, Run.bind_ok, h, hs]
  rfl

/-- The prologue where some question is answered no, with its events (41_bank.md R120). -/
theorem prologue_no (hl : s.bus.limit = none) (h : ¬ s.bus.yes s.prologueAsks) :
    ∃ v nb, prologue false s = .raised .communication (s.advance v
      (failedPrologue s.desc s.speedOk (s.bus.boolAnswer s.bus.nBool)) nb 0) := by
  cases hs : s.speedOk with
  | true =>
    refine ⟨true, 1, prologue_unselected hl hs ?_⟩
    by_contra hc
    refine h fun k hk => ?_
    obtain rfl : k = 0 := by simpa [State.prologueAsks, hs] using hk
    simpa using hc
  | false =>
    cases hb : s.bus.boolAnswer s.bus.nBool with
    | false =>
      refine ⟨s.speedOk, 1, ?_⟩
      rw [prologue, if_neg (by simp), confirmSpeed, if_neg (by simp [hs]), doSpeed_eq hl,
        Run.bind_ok, hb]
      rfl
    | true =>
      have h1 : s.bus.yes 1 := fun k hk => by obtain rfl : k = 0 := by omega
                                              simpa using hb
      have e := confirmSpeed_yes hl (.inr h1)
      rw [if_neg (by simp [hs]), if_neg (by simp [hs])] at e
      refine ⟨true, 2, ?_⟩
      have hn : s.bus.boolAnswer (s.bus.nBool + 1) = false := by
        by_contra hc
        refine h fun k hk => ?_
        rcases Nat.lt_or_ge k 1 with hk' | hk'
        · exact h1 k hk'
        · obtain rfl : k = 1 := by simp [State.prologueAsks, hs] at hk; omega
          simpa using hc
      rw [prologue, if_neg (by simp), e, Run.bind_ok, selectDevice,
        busSelect_eq (by simpa using hl), Run.bind_ok]
      simp only [State.advance_boolAnswer, State.advance_nBool, hn, Bool.false_eq_true, if_false,
        State.advance_advance, State.advance_speedOk, State.advance_desc]
      rfl

/-! ### Power, challenge, opening -/

theorem requirePower_yes (hl : s.bus.limit = none) (h : s.bus.yes 1) :
    requirePower s = .ok () (s.advance s.speedOk [.canDeliverPower true] 1 0) := by
  rw [requirePower, canDeliverPower_eq hl, Run.bind_ok, Bus.yes_first h]
  rfl

theorem requirePower_no (hl : s.bus.limit = none) (h : s.bus.boolAnswer s.bus.nBool = false) :
    requirePower s =
      .raised .powerUnavailable (s.advance s.speedOk [.canDeliverPower false] 1 0) := by
  rw [requirePower, canDeliverPower_eq hl, Run.bind_ok, h]
  rfl

theorem requireProgramPulse_yes (hl : s.bus.limit = none) (h : s.bus.yes 1) :
    requireProgramPulse s = .ok () (s.advance s.speedOk [.canProgramPulse true] 1 0) := by
  rw [requireProgramPulse, canProgramPulse_eq hl, Run.bind_ok, Bus.yes_first h]
  rfl

theorem requireProgramPulse_no (hl : s.bus.limit = none)
    (h : s.bus.boolAnswer s.bus.nBool = false) :
    requireProgramPulse s =
      .raised .powerUnavailable (s.advance s.speedOk [.canProgramPulse false] 1 0) := by
  rw [requireProgramPulse, canProgramPulse_eq hl, Run.bind_ok, h]
  rfl

/-- A challenge where power can be delivered: accepted or not by the byte answered
(44_scratchpad.md R186). -/
theorem challenge_yes (hl : s.bus.limit = none) (h : s.bus.yes 1) (slot : PwSlot) (ta : Nat) :
    challenge slot ta s =
      if s.bus.byteAnswer s.bus.nByte = s.desc.pwAccept then
        .ok () (s.advance s.speedOk (challengeEvents s.desc (s.pw.get slot).bytes ta
          (s.bus.byteAnswer s.bus.nByte)) 1 1)
      else .raised .authentication (s.advance s.speedOk (challengeEvents s.desc
        (s.pw.get slot).bytes ta (s.bus.byteAnswer s.bus.nByte)) 1 1) := by
  rw [challenge, requirePower_yes hl h, Run.bind_ok]
  simp only []
  rw [busSend_eq (by simpa using hl), Run.bind_ok, busSendPulse_eq (by simpa using hl), Run.bind_ok,
    busRecv_eq (by simpa using hl), Run.bind_ok]
  simp only [State.advance_advance, State.advance_speedOk, State.advance_nByte, Nat.add_zero,
    Bus.byteAnswers_one, List.headD_cons, State.advance_desc, ne_eq, State.advance_byteAnswer,
    ite_not]
  rfl

/-- A challenge where power cannot be delivered (44_scratchpad.md R186). -/
theorem challenge_no (hl : s.bus.limit = none) (h : s.bus.boolAnswer s.bus.nBool = false)
    (slot : PwSlot) (ta : Nat) :
    challenge slot ta s =
      .raised .powerUnavailable (s.advance s.speedOk [.canDeliverPower false] 1 0) := by
  rw [challenge, requirePower_no hl h, Run.bind_raised]

/-- The opening of a read that succeeds (41_bank.md R121). -/
theorem openRead_yes (hl : s.bus.limit = none) (cont : Bool) (slot : PwSlot) (ta : Nat)
    (hc : cont = true → s.speedOk = true) (h : s.readOpens cont) :
    openRead cont slot ta s =
      .ok () (s.advance true (s.openEvents cont slot ta) (s.openAsks cont) (s.openBytes cont)) := by
  cases cont with
  | true =>
    have := s.advance_nil
    rw [hc rfl] at this
    simp [openRead, prologue, State.openAsks, State.openBytes, State.openEvents, openEvents, this]
  | false =>
    obtain ⟨hy, hb⟩ := h
    simp only [State.openAsks, Bool.false_eq_true, if_false] at hy
    have e := prologue_yes hl (Bus.yes_mono hy (by omega))
    cases hg : s.desc.pwGated with
    | false => simp [openRead, e, hg, State.openAsks, State.openBytes, State.openEvents, openEvents]
    | true =>
      rw [hg] at hy
      have f := challenge_yes (s := s.advance true (prologueEvents s.desc s.speedOk)
        s.prologueAsks 0) (by simpa using hl) (State.advance_yes hy _ _ _) slot ta
      have ha := hb (by simp [State.openBytes, hg])
      rw [openRead, e, Run.bind_ok, if_pos ⟨by simpa using hg, rfl⟩, f]
      simp [ha, State.openAsks, State.openBytes, hg, State.openEvents, openEvents]

/-- The opening of a read whose challenge is not accepted (44_scratchpad.md R186). -/
theorem openRead_rejected (hl : s.bus.limit = none) (slot : PwSlot) (ta : Nat)
    (hg : s.desc.pwGated = true) (hy : s.bus.yes (s.prologueAsks + 1))
    (hb : s.bus.byteAnswer s.bus.nByte ≠ s.desc.pwAccept) :
    openRead false slot ta s =
      .raised .authentication (s.advance true (s.openEvents false slot ta)
        (s.prologueAsks + 1) 1) := by
  have f := challenge_yes (s := s.advance true (prologueEvents s.desc s.speedOk)
    s.prologueAsks 0) (by simpa using hl) (State.advance_yes hy _ _ _) slot ta
  rw [openRead, prologue_yes hl (Bus.yes_mono hy (by omega)), Run.bind_ok,
    if_pos ⟨by simpa using hg, rfl⟩, f, if_neg (by simpa using hb)]
  simp [State.openEvents, openEvents, hg]

/-- The opening of a read where power cannot be delivered (44_scratchpad.md R186). -/
theorem openRead_unpowered (hl : s.bus.limit = none) (slot : PwSlot) (ta : Nat)
    (hg : s.desc.pwGated = true) (hy : s.bus.yes s.prologueAsks)
    (hb : s.bus.boolAnswer (s.bus.nBool + s.prologueAsks) = false) :
    openRead false slot ta s =
      .raised .powerUnavailable (s.advance true
        (prologueEvents s.desc s.speedOk ++ [.canDeliverPower false]) (s.prologueAsks + 1) 0) := by
  rw [openRead, prologue_yes hl hy, Run.bind_ok, if_pos ⟨by simpa using hg, rfl⟩,
    challenge_no (by simpa using hl) (by simpa using hb)]
  simp

/-- The opening of a read where the device does not answer, with its events (41_bank.md R120). -/
theorem openRead_no (hl : s.bus.limit = none) (slot : PwSlot) (ta : Nat)
    (h : ¬ s.bus.yes s.prologueAsks) :
    ∃ v nb, openRead false slot ta s = .raised .communication (s.advance v
      (failedPrologue s.desc s.speedOk (s.bus.boolAnswer s.bus.nBool)) nb 0) := by
  obtain ⟨v, nb, e⟩ := prologue_no hl h
  exact ⟨v, nb, by rw [openRead, e, Run.bind_raised]⟩

/-- The opening of a read on a confirmed speed whose device is not selected (41_bank.md R121). -/
theorem openRead_unselected (hl : s.bus.limit = none) (hs : s.speedOk = true)
    (h : s.bus.boolAnswer s.bus.nBool = false) (slot : PwSlot) (ta : Nat) :
    openRead false slot ta s =
      .raised .communication (s.advance true [.select s.desc.devAddr false] 1 0) := by
  rw [openRead, prologue_unselected hl hs h, Run.bind_raised]

/-- What an opening that fails, fails by, is the same for states with the same answers. -/
theorem State.OpenFails.congr {t : State} (hd : t.desc = s.desc)
    (hx : t.bus.bools = s.bus.bools) (hy : t.bus.bytes = s.bus.bytes) {pw : List Byte} {so : Bool}
    {q k ta : Nat} {e : Err} {es : List BusEvent} (h : s.OpenFails pw so q k ta e es) :
    t.OpenFails pw so q k ta e es := by
  have hb : ∀ j, t.bus.boolAnswer j = s.bus.boolAnswer j := fun j => by simp [Bus.boolAnswer, hx]
  have hc : ∀ j, t.bus.byteAnswer j = s.bus.byteAnswer j := fun j => by simp [Bus.byteAnswer, hy]
  cases h with
  | unselected no =>
    rw [← hd, ← hb]
    exact .unselected (by simpa only [Bus.yesFrom, hb] using no)
  | unpowered gated yes no =>
    rw [← hd]
    exact .unpowered (by rw [hd]; exact gated) (by simpa only [Bus.yesFrom, hb] using yes)
      (by rw [hb]; exact no)
  | rejected gated yes wrong =>
    rw [← hd, ← hc]
    exact .rejected (by rw [hd]; exact gated) (by simpa only [Bus.yesFrom, hb] using yes)
      (by rw [hc, hd]; exact wrong)

/-- The opening of a read that fails (41_bank.md R120, R121; 44_scratchpad.md R186). -/
theorem openRead_fails (hl : s.bus.limit = none) {slot : PwSlot} {ta : Nat} {e : Err}
    {es : List BusEvent}
    (h : s.OpenFails (s.pw.get slot).bytes s.speedOk s.bus.nBool s.bus.nByte ta e es) :
    ∃ v nb ny, openRead false slot ta s = .raised e (s.advance v es nb ny) ∧
      (e = .powerUnavailable → v = true) ∧
      (e ∈ [.communication, .powerUnavailable, .authentication]) := by
  cases h with
  | unselected no =>
    obtain ⟨v, nb, e⟩ := openRead_no hl slot ta no
    exact ⟨v, nb, 0, e, nofun, by simp⟩
  | unpowered gated yes no =>
    exact ⟨true, _, _, openRead_unpowered hl slot ta gated yes no, fun _ => rfl, by simp⟩
  | rejected gated yes wrong =>
    exact ⟨true, _, _, openRead_rejected hl slot ta gated yes wrong, nofun, by simp⟩

/-! ### Reading bytes -/

theorem pollRead_takes {p n : Nat} {slot : PwSlot} {left : Nat} {d : List Byte}
    (h : ¬(0 < n ∧ d.all (· == 0xFF) = true)) : pollRead p n slot left d s = .ok d s := by
  cases left with
  | zero => rfl
  | succ left => rw [pollRead, if_neg h]

/-- The first part of a read: the command sequence, unless it is continued. -/
theorem readSend_eq (hl : s.bus.limit = none) (cont : Bool) (seq : List Byte) :
    (if cont then .ok () s else busSend seq s : Run Unit) =
      .ok () (s.advance s.speedOk (if cont then [] else [.send seq]) 0 0) := by
  cases cont with
  | true => simp [s.advance_nil]
  | false => simp [busSend_eq hl]

theorem takenAtOnce_stops {d : Descriptor} {n : Nat} {block : List Byte} (hb : block.length = n)
    (h : takenAtOnce d block) (hp : d.busyPoll = true) :
    ¬(0 < n ∧ block.all (· == 0xFF) = true) := by
  rintro ⟨h0, ha⟩
  rcases h with h | h | ⟨b, hm, hne⟩
  · simp [hp] at h
  · subst h; simp at hb; omega
  · rw [List.all_eq_true] at ha
    exact hne (by simpa using ha b hm)

/-- A read whose block is taken at once (41_bank.md R122). -/
theorem readBytes_once (hl : s.bus.limit = none) (p n : Nat) (cont : Bool) (slot : PwSlot)
    (h : takenAtOnce s.desc (s.bus.byteAnswers s.bus.nByte n)) :
    readBytes p n cont slot s =
      .ok (s.bus.byteAnswers s.bus.nByte n) (s.advance s.speedOk
        (transferEvents cont (Config.seqRead p n) (s.bus.byteAnswers s.bus.nByte n)) 0 n) := by
  rw [readBytes, readSend_eq hl, Run.bind_ok, busRecv_eq (by simpa using hl), Run.bind_ok]
  simp only [State.advance_nByte, Nat.add_zero, State.advance_byteAnswers, State.advance_desc,
    State.advance_advance, State.advance_speedOk, Nat.zero_add]
  split
  · rw [pollRead_takes (takenAtOnce_stops (by simp) h (by assumption))]
    rfl
  · rfl

/-- The busy poll before its retry opens: the device is asked whether it is present
(41_bank.md R122). -/
theorem pollRead_asks (hl : s.bus.limit = none) {p n left : Nat} {slot : PwSlot} {d : List Byte}
    (hn : 0 < n) (hd : d.all (· == 0xFF) = true) :
    pollRead p n slot (left + 1) d s =
      if s.bus.boolAnswer s.bus.nBool = true then
        (openRead false slot p (s.advance s.speedOk
            [.sleep s.desc.pollDelay, .isPresent true] 1 0)).bind fun _ t =>
          (busSend (Config.seqRead p n) t).bind fun _ t =>
          (busRecv n t).bind fun d t => pollRead p n slot left d t
      else .raised .communication
        (s.advance s.speedOk [.sleep s.desc.pollDelay, .isPresent false] 1 0) := by
  rw [pollRead, if_pos ⟨hn, hd⟩, busSleep_eq hl, Run.bind_ok, isPresent_eq (by simpa using hl),
    Run.bind_ok]
  simp only [State.advance_boolAnswer, State.advance_nBool, Nat.add_zero, State.advance_advance,
    State.advance_speedOk, Nat.zero_add]
  split <;> rename_i h <;> simp [h]

/-- A retry that finds the device present, selects it and has its challenge accepted: it goes on
with the next block (41_bank.md R122). -/
theorem pollRead_retry (hl : s.bus.limit = none) (hs : s.speedOk = true) {p n left : Nat}
    {slot : PwSlot} {d : List Byte} (hn : 0 < n) (hd : d.all (· == 0xFF) = true)
    (hy : s.bus.yes (2 + s.desc.pwGated.toNat))
    (hb : s.desc.pwGated = true → s.bus.byteAnswer s.bus.nByte = s.desc.pwAccept) :
    pollRead p n slot (left + 1) d s =
      pollRead p n slot left (s.bus.bytesAfter s.desc.pwGated.toNat n)
        (s.advance true ([.sleep s.desc.pollDelay, .isPresent true] ++
          openEvents s.desc true false (s.pw.get slot).bytes p (s.bus.byteAnswer s.bus.nByte) ++
          transferEvents false (Config.seqRead p n)
            (s.bus.bytesAfter s.desc.pwGated.toNat n))
          (2 + s.desc.pwGated.toNat) (s.desc.pwGated.toNat + n)) := by
  rw [pollRead_asks hl hn hd, if_pos (Bus.yes_first (n := 1 + s.desc.pwGated.toNat)
    (by simpa [Nat.add_comm, Nat.add_left_comm] using hy))]
  generalize hu : s.advance s.speedOk [.sleep s.desc.pollDelay, .isPresent true] 1 0 = u
  have huy : u.bus.yes (1 + s.desc.pwGated.toNat) := by
    subst hu; exact State.advance_yes (by simpa [← Nat.add_assoc] using hy) _ _ _
  have h1 : u.openAsks false = 1 + s.desc.pwGated.toNat := by
    subst hu; simp [State.openAsks, State.prologueAsks, hs]
  have h2 : u.openBytes false = s.desc.pwGated.toNat := by subst hu; simp [State.openBytes]
  have ho : u.readOpens false := by
    refine ⟨by rw [h1]; exact huy, fun hg => ?_⟩
    subst hu
    simpa using hb (by simpa [h2] using hg)
  rw [openRead_yes (by subst hu; simpa using hl) false slot p (by simp) ho, Run.bind_ok, h1, h2]
  subst hu
  rw [busSend_eq (by simpa using hl), Run.bind_ok, busRecv_eq (by simpa using hl), Run.bind_ok]
  simp only [State.advance_advance, State.advance_speedOk, State.advance_nByte,
    State.advance_byteAnswers, Nat.add_zero, Nat.zero_add, State.openEvents, State.advance_desc,
    State.advance_byteAnswer, Bus.bytesAfter, transferEvents, hs, List.append_assoc]
  congr 1
  rw [← Nat.add_assoc]
  rfl

/-- Which block a poll picks depends on the answers alone. -/
theorem pollPick_congr {b c : Bus} (h : b.bytes = c.bytes) (n left : Nat) :
    ∀ k, pollPick b k n left = pollPick c k n left := by
  induction left with
  | zero => exact fun k => Bus.byteAnswers_congr h n k
  | succ left ih => intro k; simp only [pollPick, ih, Bus.byteAnswers_congr h n k]

/-- A polling read without a password: it ends with the block the poll picks (41_bank.md R122). -/
theorem pollRead_picks (p n : Nat) (slot : PwSlot) (left : Nat) : ∀ (s : State) (k : Nat),
    s.bus.limit = none → s.desc.pwGated = false → s.speedOk = true → s.bus.yes (2 * left) →
    s.bus.nByte = k + n →
    ∃ es nb ny, pollRead p n slot left (s.bus.byteAnswers k n) s =
      .ok (pollPick s.bus k n left) (s.advance true es nb ny) := by
  induction left with
  | zero =>
    intro s k hl hg hs hy hk
    have := s.advance_nil
    rw [hs] at this
    exact ⟨[], 0, 0, by rw [this]; rfl⟩
  | succ left ih =>
    intro s k hl hg hs hy hk
    rw [pollPick]
    by_cases hp : 0 < n ∧ (s.bus.byteAnswers k n).all (· == 0xFF) = true
    · rw [pollRead_retry hl hs hp.1 hp.2 (Bus.yes_mono hy (by rw [hg]; simp)) (by simp [hg]),
        if_pos hp, hg]
      simp only [Bool.toNat_false, Nat.add_zero, Nat.zero_add, Bus.bytesAfter, hk]
      generalize [BusEvent.sleep s.desc.pollDelay, .isPresent true] ++ _ ++ _ = es
      obtain ⟨fs, nb, ny, f⟩ := ih (s.advance true es 2 n) (k + n) (by simpa using hl)
        (by simpa using hg) rfl
        (State.advance_yes (Bus.yes_mono hy (by omega)) _ _ _) (by simp [hk])
      rw [State.advance_byteAnswers] at f
      rw [f, State.advance_advance]
      exact ⟨_, _, _, congrArg₂ Run.ok (pollPick_congr (by simp) n left _) rfl⟩
    · have := s.advance_nil
      rw [hs] at this
      exact ⟨[], 0, 0, by rw [pollRead_takes hp, if_neg hp, this]⟩

/-- A read behind its opening up to its block `r` (41_bank.md R122). -/
theorem readBytes_polls (hl : s.bus.limit = none) (hs : s.speedOk = true) (p n : Nat) (cont : Bool)
    (slot : PwSlot) {r : Nat} (h : s.PollsTo s.bus.nBool s.bus.nByte n r) :
    readBytes p n cont slot s =
      pollRead p n slot (retriesOf s.desc - r) (s.pollBlock s.bus.nByte n r)
        (s.advance true (s.pollEvents cont (s.pw.get slot).bytes p n s.bus.nByte r)
          (r * retryAsks s.desc) (n + r * retryBytes s.desc n)) := by
  induction r with
  | zero =>
    rw [readBytes, readSend_eq hl, Run.bind_ok, busRecv_eq (by simpa using hl), Run.bind_ok]
    simp only [State.advance_nByte, Nat.add_zero, State.advance_byteAnswers, State.advance_desc,
      State.advance_advance, State.advance_speedOk, hs]
    simp only [retriesOf, State.pollBlock, State.pollEvents, transferEvents, Nat.zero_mul,
      Nat.add_zero, Nat.zero_add, List.range_zero, List.flatMap_nil, List.append_nil, Nat.sub_zero]
    split <;> rfl
  | succ r ih =>
    have hm := h.most
    rw [ih ⟨by omega, fun j hj => h.busy j (by omega),
      fun j hj => h.asks j (by rw [Nat.succ_mul]; omega),
      fun hg j hj => h.accepted hg j (by omega)⟩]
    obtain ⟨hn, hd⟩ := h.busy r (by omega)
    have hy : s.bus.yes (r * retryAsks s.desc + retryAsks s.desc) := by
      rw [← Nat.succ_mul]; exact h.asks
    have hleft : retriesOf s.desc - r = retriesOf s.desc - (r + 1) + 1 := by omega
    rw [hleft, pollRead_retry (by simpa using hl) rfl hn (by simpa [List.all_eq_true] using hd)
      (State.advance_yes hy _ _ _) (fun hg => by
        have := h.accepted (by simpa using hg) r (by omega)
        simpa [State.pollAnswer, Nat.add_assoc] using this)]
    simp only [State.advance_advance, State.advance_desc]
    have hblock : (s.advance true (s.pollEvents cont (s.pw.get slot).bytes p n s.bus.nByte r)
        (r * retryAsks s.desc) (n + r * retryBytes s.desc n)).bus.bytesAfter
          s.desc.pwGated.toNat n = s.pollBlock s.bus.nByte n (r + 1) := by
      simp only [Bus.bytesAfter, State.pollBlock, State.advance_byteAnswers, State.advance_nByte,
        Nat.succ_mul, retryBytes]
      congr 1; omega
    rw [hblock]
    congr 2
    · simp [State.pollEvents, List.range_succ, State.retryEvents, State.pollAnswer, Nat.add_assoc]
    · simp only [Nat.succ_mul, retryAsks]
    · simp only [Nat.succ_mul, retryBytes]; omega

/-- A read behind its opening that ends with its block `r` (41_bank.md R122). -/
theorem readBytes_takes (hl : s.bus.limit = none) (hs : s.speedOk = true) (p n : Nat) (cont : Bool)
    (slot : PwSlot) {r : Nat} (h : s.TakesBlock s.bus.nBool s.bus.nByte n r) :
    readBytes p n cont slot s = .ok (s.pollBlock s.bus.nByte n r)
      (s.advance true (s.pollEvents cont (s.pw.get slot).bytes p n s.bus.nByte r)
        (r * retryAsks s.desc) (n + r * retryBytes s.desc n)) := by
  rw [readBytes_polls hl hs p n cont slot h.polls]
  rcases h.taken with h | h
  · rw [h, Nat.sub_self]; rfl
  · exact pollRead_takes (by simpa [State.pollBusy, List.all_eq_true] using h)

/-- A read behind its opening, a retry of which fails (41_bank.md R122). -/
theorem readBytes_fails (hl : s.bus.limit = none) (hs : s.speedOk = true) {p n : Nat} {cont : Bool}
    {slot : PwSlot} {e : Err} {es : List BusEvent}
    (h : s.PollFails cont (s.pw.get slot).bytes p n s.bus.nBool s.bus.nByte e es) :
    ∃ v nb ny, readBytes p n cont slot s = .raised e (s.advance v es nb ny) ∧
      (e = .powerUnavailable → v = true) ∧
      (e ∈ [.communication, .powerUnavailable, .authentication]) := by
  have hasks : ∀ {r : Nat}, r < retriesOf s.desc →
      retriesOf s.desc - r = retriesOf s.desc - (r + 1) + 1 := by omega
  cases h with
  | @absent r polls more busy no =>
    rw [readBytes_polls hl hs p n cont slot polls, hasks more,
      pollRead_asks (by simpa using hl) busy.1 (by simpa [List.all_eq_true] using busy.2),
      if_neg (by simpa using no), State.advance_advance]
    exact ⟨_, _, _, rfl, nofun, by simp⟩
  | @unopened r e fs polls more busy present no =>
    rw [readBytes_polls hl hs p n cont slot polls, hasks more,
      pollRead_asks (by simpa using hl) busy.1 (by simpa [List.all_eq_true] using busy.2),
      if_pos (by simpa using present), State.advance_advance]
    obtain ⟨v, nb, ny, f, g⟩ := openRead_fails (s := s.advance true
      (s.pollEvents cont (s.pw.get slot).bytes p n s.bus.nByte r ++
        [.sleep s.desc.pollDelay, .isPresent true])
      (r * retryAsks s.desc + 1) (n + r * retryBytes s.desc n)) (slot := slot) (by simpa using hl)
      (by simpa [Nat.add_assoc] using
        State.OpenFails.congr (s := s) (t := s.advance true _ _ _) rfl rfl rfl no)
    simp only [State.advance_speedOk, State.advance_desc, Nat.add_zero]
    rw [f, Run.bind_raised, State.advance_advance]
    exact ⟨v, _, _, rfl, g⟩

section
variable {t : State} {q k n r : Nat}

/-- The blocks of a read are the same for states with the same answers. -/
theorem State.pollBlock_congr (hd : t.desc = s.desc) (hy : t.bus.bytes = s.bus.bytes)
    (k n j : Nat) : t.pollBlock k n j = s.pollBlock k n j := by
  rw [State.pollBlock, State.pollBlock, hd, Bus.byteAnswers_congr hy]

theorem State.pollAnswer_congr (hd : t.desc = s.desc) (hy : t.bus.bytes = s.bus.bytes)
    (k n j : Nat) : t.pollAnswer k n j = s.pollAnswer k n j := by
  simp [State.pollAnswer, hd, Bus.byteAnswer, hy]

theorem State.pollEvents_congr (hd : t.desc = s.desc) (hy : t.bus.bytes = s.bus.bytes)
    (cont : Bool) (pw : List Byte) (p n k r : Nat) :
    t.pollEvents cont pw p n k r = s.pollEvents cont pw p n k r := by
  have : t.retryEvents pw p n k = s.retryEvents pw p n k := funext fun j => by
    simp only [State.retryEvents, State.pollBlock_congr hd hy, State.pollAnswer_congr hd hy, hd]
  rw [State.pollEvents, State.pollEvents, this, State.pollBlock_congr hd hy]

theorem State.PollsTo.congr (hd : t.desc = s.desc) (hx : t.bus.bools = s.bus.bools)
    (hy : t.bus.bytes = s.bus.bytes) (h : s.PollsTo q k n r) : t.PollsTo q k n r where
  most := by rw [hd]; exact h.most
  busy j hj := by rw [State.pollBusy, State.pollBlock_congr hd hy]; exact h.busy j hj
  asks j hj := by
    have := h.asks j (by rwa [← hd])
    simpa only [Bus.boolAnswer, hx] using this
  accepted hg j hj := by
    rw [State.pollAnswer_congr hd hy, hd]; exact h.accepted (by rwa [← hd]) j hj

/-- With which block a read ends is the same for states with the same answers. -/
theorem State.TakesBlock.congr (hd : t.desc = s.desc) (hx : t.bus.bools = s.bus.bools)
    (hy : t.bus.bytes = s.bus.bytes) (h : s.TakesBlock q k n r) : t.TakesBlock q k n r where
  polls := h.polls.congr hd hx hy
  taken := by rw [State.pollBusy, State.pollBlock_congr hd hy, hd]; exact h.taken

/-- How a retry fails is the same for states with the same answers. -/
theorem State.PollFails.congr (hd : t.desc = s.desc) (hx : t.bus.bools = s.bus.bools)
    (hy : t.bus.bytes = s.bus.bytes) {cont : Bool} {pw : List Byte} {p : Nat} {e : Err}
    {es : List BusEvent} (h : s.PollFails cont pw p n q k e es) :
    t.PollFails cont pw p n q k e es := by
  have hb : ∀ j, t.bus.boolAnswer j = s.bus.boolAnswer j := fun j => by simp [Bus.boolAnswer, hx]
  cases h with
  | absent polls more busy no =>
    rw [← State.pollEvents_congr hd hy, ← hd]
    exact .absent (polls.congr hd hx hy) (by rwa [hd])
      (by rw [State.pollBusy, State.pollBlock_congr hd hy]; exact busy) (by rw [hd, hb]; exact no)
  | unopened polls more busy present no =>
    rw [← State.pollEvents_congr hd hy, ← hd]
    exact .unopened (polls.congr hd hx hy) (by rwa [hd])
      (by rw [State.pollBusy, State.pollBlock_congr hd hy]; exact busy)
      (by rw [hd, hb]; exact present) (by rw [hd]; exact no.congr hd hx hy)

variable {v : Bool} {fs : List BusEvent} {nb ny : Nat}

@[simp] theorem State.advance_pollBlock (k n j : Nat) :
    (s.advance v fs nb ny).pollBlock k n j = s.pollBlock k n j :=
  State.pollBlock_congr (s := s) (t := s.advance v fs nb ny) rfl rfl k n j
@[simp] theorem State.advance_pollEvents (cont : Bool) (pw : List Byte) (p n k r : Nat) :
    (s.advance v fs nb ny).pollEvents cont pw p n k r = s.pollEvents cont pw p n k r :=
  State.pollEvents_congr (s := s) (t := s.advance v fs nb ny) rfl rfl cont pw p n k r

theorem State.TakesBlock.advance (h : s.TakesBlock q k n r) :
    (s.advance v fs nb ny).TakesBlock q k n r :=
  State.TakesBlock.congr (s := s) (t := s.advance v fs nb ny) rfl rfl rfl h

theorem State.PollFails.advance {cont : Bool} {pw : List Byte} {p : Nat} {e : Err}
    {es : List BusEvent} (h : s.PollFails cont pw p n q k e es) :
    (s.advance v fs nb ny).PollFails cont pw p n q k e es :=
  State.PollFails.congr (s := s) (t := s.advance v fs nb ny) rfl rfl rfl h
end

/-! ### Pages, status bytes, programming -/

/-- The extra-info transaction where the device answers (42_paged.md R142). -/
theorem readExtra_yes (hl : s.bus.limit = none) (h : s.bus.yes s.prologueAsks) (absPage : Nat) :
    readExtra absPage s = .ok (s.bus.byteAnswers s.bus.nByte s.desc.extraLen)
      (s.advance true (prologueEvents s.desc s.speedOk ++ transferEvents false
        (Config.seqExtra absPage) (s.bus.byteAnswers s.bus.nByte s.desc.extraLen))
        s.prologueAsks s.desc.extraLen) := by
  rw [readExtra, prologue_yes hl h, Run.bind_ok, busSend_eq (by simpa using hl), Run.bind_ok,
    busRecv_eq (by simpa using hl)]
  simp [transferEvents]

/-- The extra-info transaction whose device is not selected (42_paged.md R142). -/
theorem readExtra_unselected (hl : s.bus.limit = none) (hs : s.speedOk = true)
    (h : s.bus.boolAnswer s.bus.nBool = false) (absPage : Nat) :
    readExtra absPage s =
      .raised .communication (s.advance true [.select s.desc.devAddr false] 1 0) := by
  rw [readExtra, prologue_unselected hl hs h, Run.bind_raised]

/-- The device-CRC page transfer, by the CRC over the covered and the answered bytes
(42_paged.md R143). -/
theorem readCrcPage_eq (hl : s.bus.limit = none) (p : Nat) (cont : Bool) :
    readCrcPage p cont s =
      if crc16 (autoCrcCover s.desc p cont ++
          s.bus.byteAnswers s.bus.nByte (s.desc.pageLen + 2)) 0 = Config.accept16 then
        .ok (s.bus.byteAnswers s.bus.nByte s.desc.pageLen)
          (s.advance s.speedOk (transferEvents cont (Config.seqAutoCrcRead p)
            (s.bus.byteAnswers s.bus.nByte (s.desc.pageLen + 2))) 0 (s.desc.pageLen + 2))
      else .raised .integrity (s.advance s.speedOk (transferEvents cont (Config.seqAutoCrcRead p)
        (s.bus.byteAnswers s.bus.nByte (s.desc.pageLen + 2))) 0 (s.desc.pageLen + 2)) := by
  rw [readCrcPage, readSend_eq hl, Run.bind_ok, busRecv_eq (by simpa using hl), Run.bind_ok]
  simp only [State.advance_advance, State.advance_speedOk, State.advance_nByte, Nat.add_zero,
    Nat.zero_add, State.advance_byteAnswers, State.advance_desc, ne_eq, ite_not, transferEvents]
  rw [Bus.byteAnswers_add, List.take_left' (by simp)]

/-- A status read where the device answers (43_otp.md R160 f). -/
theorem statusRead_yes (hl : s.bus.limit = none) (h : s.bus.yes s.prologueAsks)
    (seq : List Byte) :
    statusRead seq s = .ok (s.bus.byteAnswer s.bus.nByte)
      (s.advance true (statusEvents s.desc s.speedOk seq (s.bus.byteAnswer s.bus.nByte))
        s.prologueAsks 1) := by
  rw [statusRead, prologue_yes hl h, Run.bind_ok, busSend_eq (by simpa using hl), Run.bind_ok,
    busRecv_eq (by simpa using hl), Run.bind_ok]
  simp [statusEvents]

/-- A programming transaction where the device answers (43_otp.md R160 f). -/
theorem programSend_yes (hl : s.bus.limit = none) (h : s.bus.yes s.prologueAsks)
    (seq : List Byte) :
    programSend seq s =
      .ok () (s.advance true (programEvents s.desc s.speedOk seq) s.prologueAsks 0) := by
  rw [programSend, prologue_yes hl h, Run.bind_ok]
  rw [busSendProgram_eq (by simpa using hl), busSendPulse_eq (by simpa using hl),
    busSend_eq (by simpa using hl)]
  cases hp : s.desc.flagPPulse <;> cases hd : s.desc.flagPDeliv <;> simp [programEvents, hp, hd]

/-- The write check passes on a bank that can be written (41_bank.md R124). -/
theorem writeCheck_ok (h : Writable s.desc) : writeCheck s = .ok () s := by
  obtain ⟨h0, h1⟩ := h
  rw [writeCheck, if_neg]
  rintro (h | ⟨h2, h3⟩)
  · simp [h0] at h
  · simp [h2, h3] at h1

/-- The power check where every question is answered yes (41_bank.md R125). -/
theorem powerCheck_yes (hl : s.bus.limit = none) (h : s.bus.yes (powerAsks s.desc)) :
    powerCheck s = .ok () (s.advance s.speedOk s.powerEvents (powerAsks s.desc) 0) := by
  cases hd : s.desc.flagPDeliv with
  | false =>
    cases hp : s.desc.flagPPulse with
    | false => simp [powerCheck, State.powerEvents, powerAsks, hd, hp, s.advance_nil]
    | true =>
      have hy : s.bus.yes 1 := by simpa [powerAsks, hd, hp] using h
      have := Bus.yes_first hy
      simp [powerCheck, State.powerEvents, powerAsks, hd, hp, requireProgramPulse_yes hl hy, this]
  | true =>
    have hy : s.bus.yes 1 := Bus.yes_mono h (by simp [powerAsks, hd])
    have h0 := Bus.yes_first hy
    cases hp : s.desc.flagPPulse with
    | false => simp [powerCheck, State.powerEvents, powerAsks, hd, hp, requirePower_yes hl hy, h0]
    | true =>
      have hz : (s.advance s.speedOk [.canDeliverPower true] 1 0).bus.yes 1 :=
        State.advance_yes (by simpa [powerAsks, hd, hp] using h) _ _ _
      have h1 := Bus.yes_first hz
      simp only [State.advance_boolAnswer, State.advance_nBool] at h1
      simp [powerCheck, State.powerEvents, powerAsks, hd, hp, requirePower_yes hl hy,
        requireProgramPulse_yes (s := s.advance s.speedOk [.canDeliverPower true] 1 0)
          (by simpa using hl) hz, h0, h1]

/-- The power check of a transport that cannot do what the bank needs (41_bank.md R125). -/
theorem powerCheck_missing (hl : s.bus.limit = none) (h : s.powerMissing) :
    ∃ nb, powerCheck s =
      .raised .powerUnavailable (s.advance s.speedOk s.powerEvents nb 0) := by
  rcases h with ⟨hd, h0⟩ | ⟨hp, h0, h1⟩
  · exact ⟨1, by simp [powerCheck, State.powerEvents, hd, h0, requirePower_no hl h0]⟩
  · cases hd : s.desc.flagPDeliv with
    | false =>
      rw [hd] at h1
      have h1 : s.bus.boolAnswer s.bus.nBool = false := by simpa using h1
      exact ⟨1, by
        simp [powerCheck, State.powerEvents, hd, hp, requireProgramPulse_no hl h1, h1]⟩
    | true =>
      rw [hd] at h1
      have h0 := h0 hd
      have hy : s.bus.yes 1 := fun k hk => by
        obtain rfl : k = 0 := by omega
        simpa using h0
      have h1 : s.bus.boolAnswer (s.bus.nBool + 1) = false := by simpa using h1
      exact ⟨2, by
        simp [powerCheck, State.powerEvents, hd, hp, requirePower_yes hl hy, h0, h1,
          requireProgramPulse_no (s := s.advance s.speedOk [.canDeliverPower true] 1 0)
            (by simpa using hl) (by simpa using h1)]⟩

/-- A direct write where the device answers (41_bank.md R127). -/
theorem directWrite_yes (hl : s.bus.limit = none) (h : s.bus.yes s.prologueAsks) (p : Nat)
    (xs : List Byte) :
    directWrite p xs s =
      .ok () (s.advance true (directEvents s.desc s.speedOk p xs) s.prologueAsks 0) := by
  rw [directWrite, prologue_yes hl h, Run.bind_ok]
  rw [busSendProgram_eq (by simpa using hl), busSend_eq (by simpa using hl)]
  cases hp : s.desc.flagPPulse <;> simp [directEvents, hp]

/-- The opened read-back of a write that ends with its block `r`, by whether that block is what was
written (41_bank.md R122, R126). -/
theorem readBack_on (hl : s.bus.limit = none) (hv : s.verify = true) (p : Nat) (xs : List Byte)
    (slot : PwSlot) (ho : s.readOpens false) {r : Nat}
    (ht : s.TakesBlock (s.bus.nBool + s.openAsks false) (s.bus.nByte + s.openBytes false)
      xs.length r) :
    ∃ nb ny t, t = s.advance true (s.openEvents false slot p ++ s.pollEvents false
        (s.pw.get slot).bytes p xs.length (s.bus.nByte + s.openBytes false) r) nb ny ∧
      readBack p xs slot s =
        if s.pollBlock (s.bus.nByte + s.openBytes false) xs.length r ≠ xs then
          .raised .verification t
        else .ok () t := by
  rw [readBack, if_pos hv, openRead_yes hl false slot p (by simp) ho, Run.bind_ok]
  have hu := ht.advance (v := true) (fs := s.openEvents false slot p) (nb := s.openAsks false)
    (ny := s.openBytes false)
  rw [readBytes_takes (by simpa using hl) rfl p xs.length false slot hu, Run.bind_ok]
  simp only [State.advance_advance, State.advance_pollBlock, State.advance_pollEvents,
    State.advance_pw, State.advance_nByte]
  exact ⟨_, _, _, rfl, rfl⟩

/-- The opened read-back of a write, a retry of which fails (41_bank.md R122, R126). -/
theorem readBack_fails (hl : s.bus.limit = none) (hv : s.verify = true) (p : Nat) (xs : List Byte)
    (slot : PwSlot) (ho : s.readOpens false) {e : Err} {es : List BusEvent}
    (h : s.PollFails false (s.pw.get slot).bytes p xs.length (s.bus.nBool + s.openAsks false)
      (s.bus.nByte + s.openBytes false) e es) :
    ∃ v nb ny, readBack p xs slot s =
        .raised e (s.advance v (s.openEvents false slot p ++ es) nb ny) ∧
      (e = .powerUnavailable → v = true) ∧
      (e ∈ [.communication, .powerUnavailable, .authentication]) := by
  obtain ⟨v, nb, ny, f, g⟩ := readBytes_fails (s := s.advance true (s.openEvents false slot p)
    (s.openAsks false) (s.openBytes false)) (by simpa using hl) rfl h.advance
  rw [readBack, if_pos hv, openRead_yes hl false slot p (by simp) ho, Run.bind_ok, f,
    Run.bind_raised, State.advance_advance]
  exact ⟨v, _, _, rfl, g⟩

/-- Without verification the read-back does nothing (70_reset_and_hazards.md R244). -/
theorem readBack_off (hv : s.verify = false) (p : Nat) (xs : List Byte) (slot : PwSlot) :
    readBack p xs slot s = .ok () s := by
  rw [readBack, if_neg (by simp [hv])]

/-! ### The scratchpad -/

/-- The state `SpWriteProc` leaves (44_scratchpad.md R182). -/
def State.staged (ta : Nat) (xs : List Byte) (s : State) : State :=
  { s with
    spTA := BitVec.ofNat 16 ta
    spLen := BitVec.ofNat 9 xs.length
    spBuf := xs ++ s.spBuf.drop xs.length
    spES := 0
    spState := .written }

theorem spWriteProc_yes (hl : s.bus.limit = none) (h : s.bus.yes s.prologueAsks) (ta : Nat)
    (xs : List Byte) :
    spWriteProc ta xs s =
      .ok () ((s.advance true (stageEvents s.desc s.speedOk ta xs) s.prologueAsks 0).staged
        ta xs) := by
  rw [spWriteProc, prologue_yes hl h, Run.bind_ok, busSend_eq (by simpa using hl), Run.bind_ok]
  simp only [State.advance_advance, State.advance_speedOk, Nat.add_zero]
  rfl

theorem recvIf_eq (hl : s.bus.limit = none) (present : Bool) (n : Nat) :
    recvIf present n s = .ok (s.bus.byteAnswers s.bus.nByte (if present then n else 0))
      (s.advance s.speedOk (if present then
          [received (s.bus.byteAnswers s.bus.nByte (if present then n else 0))] else []) 0
        (if present then n else 0)) := by
  cases present with
  | true => simp [recvIf, busRecv_eq hl]
  | false => simp [recvIf, Bus.byteAnswers, s.advance_nil]

/-- The outcome of `SpVerifyProc` in state `t`, from the header, the data and the CRC bytes received
(44_scratchpad.md R184). -/
def verifyOutcome (hdr d c : List Byte) (t : State) : Run Unit :=
  if t.desc.spCrc = true ∧
      crc16 (t.desc.cmdRS :: hdr ++ d ++ c) 0 ≠ Config.accept16 then .raised .integrity t
  else if t.desc.spAddr = true ∧ echoOk t hdr = false then .raised .verification t
  else if d ≠ t.spBuf.take t.spLen.toNat then .raised .verification t
  else .ok () { t with
    spES := if t.desc.spAddr then hdr.getD 2 0 else t.spES
    spState := .verified }

/-- `SpVerifyProc` where the device answers. -/
theorem spVerifyProc_yes (hl : s.bus.limit = none) (h : s.bus.yes s.prologueAsks) :
    spVerifyProc s =
      verifyOutcome (s.bus.byteAnswers s.bus.nByte (hdrLen s.desc))
        (s.bus.byteAnswers (s.bus.nByte + hdrLen s.desc) s.spLen.toNat)
        (s.bus.byteAnswers (s.bus.nByte + hdrLen s.desc + s.spLen.toNat) (crcLen s.desc))
        (s.advance true (verifyEvents s.desc s.speedOk
          (s.bus.byteAnswers s.bus.nByte (hdrLen s.desc))
          (s.bus.byteAnswers (s.bus.nByte + hdrLen s.desc) s.spLen.toNat)
          (s.bus.byteAnswers (s.bus.nByte + hdrLen s.desc + s.spLen.toNat) (crcLen s.desc)))
          s.prologueAsks (hdrLen s.desc + s.spLen.toNat + crcLen s.desc)) := by
  rw [spVerifyProc, prologue_yes hl h, Run.bind_ok, busSend_eq (by simpa using hl), Run.bind_ok]
  simp only [State.advance_advance, State.advance_speedOk, Nat.add_zero, State.advance_desc]
  rw [recvIf_eq (by simpa using hl), Run.bind_ok, busRecv_eq (by simpa using hl), Run.bind_ok,
    recvIf_eq (by simpa using hl), Run.bind_ok]
  change verifyOutcome _ _ _ _ = _
  simp only [State.advance_advance, State.advance_speedOk, Nat.add_zero, State.advance_desc,
    State.advance_nByte, State.advance_byteAnswers, State.advance_spLen, Nat.zero_add,
    ← Nat.add_assoc, verifyEvents, List.append_assoc, hdrLen, crcLen]

/-- A target address cut to 16 bits has the same two bytes. -/
theorem targetBytes_mod (ta : Nat) : targetBytes (ta % 65536) = targetBytes ta := by
  have h1 : BitVec.ofNat 8 (ta % 65536) = BitVec.ofNat 8 ta := by
    apply BitVec.eq_of_toNat_eq; simp only [BitVec.toNat_ofNat]; omega
  have h2 : BitVec.ofNat 8 (ta % 65536 / 256) = BitVec.ofNat 8 (ta / 256) := by
    apply BitVec.eq_of_toNat_eq; simp only [BitVec.toNat_ofNat]; omega
  rw [targetBytes, h1, h2, targetBytes]

/-- `SpCopyProc` where power can be delivered and the device answers, by the confirmation byte
(44_scratchpad.md R190). -/
theorem spCopyProc_yes (hl : s.bus.limit = none) (h : s.bus.yes (s.prologueAsks + 1)) :
    spCopyProc s =
      if s.bus.byteAnswer s.bus.nByte = Config.commitFail then
        .raised .commit (s.advance true (copyEvents s.desc s.speedOk s.spTA.toNat s.spES
          (s.bus.byteAnswer s.bus.nByte)) (1 + s.prologueAsks) 1)
      else .ok () { s.advance true (copyEvents s.desc s.speedOk s.spTA.toNat s.spES
          (s.bus.byteAnswer s.bus.nByte)) (1 + s.prologueAsks) 1 with
        spState := .committed } := by
  have f := prologue_yes (s := s.advance s.speedOk [.canDeliverPower true] 1 0)
    (by simpa using hl)
    (State.advance_yes (n := s.prologueAsks) (by rw [Nat.add_comm]; exact h) _ _ _)
  rw [spCopyProc, requirePower_yes hl (Bus.yes_mono h (by omega)), Run.bind_ok, f, Run.bind_ok,
    busSendPulse_eq (by simpa using hl), Run.bind_ok, busRecv_eq (by simpa using hl), Run.bind_ok]
  have hp : (s.advance s.speedOk [.canDeliverPower true] 1 0).prologueAsks = s.prologueAsks := rfl
  simp only [State.advance_advance, State.advance_speedOk, Nat.add_zero, State.advance_desc,
    State.advance_nByte, Nat.zero_add, Bus.byteAnswers_one, State.advance_byteAnswer,
    List.headD_cons, hp, List.append_assoc]
  rfl

/-- `SpCopyProc` where power cannot be delivered (44_scratchpad.md R190). -/
theorem spCopyProc_no (hl : s.bus.limit = none) (h : s.bus.boolAnswer s.bus.nBool = false) :
    spCopyProc s =
      .raised .powerUnavailable (s.advance s.speedOk [.canDeliverPower false] 1 0) := by
  rw [spCopyProc, requirePower_no hl h, Run.bind_raised]

end Sys2Proof.Machine
end

