-- ==== Sys2Proof/Laws/Cut.lean ====
section
/-! SUPPORT. A command cut off at one of its bus events against the same command run to its end
(spec/70_reset_and_hazards.md R233, notes/assumptions/8.md): up to the cut both do the same, so the
events of the cut run are the first of the events of the whole run. -/

namespace Sys2Proof.Machine

variable {α β : Type}

/-- `s` with at most `k` further bus events. -/
def State.limited (k : Nat) (s : State) : State := { s with bus := { s.bus with limit := some k } }

/-- `r` is a piece of a command run from `s`, `r'` the same piece run with at most `k` bus events:
they end alike after as many events as `r` makes, or `r'` is cut off after `k` events, and `r` goes
on from there. -/
inductive Follows (s : State) (k : Nat) : Run α → Run α → Prop where
  | ok {a : α} {u : State} {es : List BusEvent} (g : Bus.Grows es s.bus u.bus)
      (h : es.length ≤ k) : Follows s k (.ok a u) (.ok a (u.limited (k - es.length)))
  | raised {e : Err} {u : State} {es : List BusEvent} (g : Bus.Grows es s.bus u.bus)
      (h : es.length ≤ k) : Follows s k (.raised e u) (.raised e (u.limited (k - es.length)))
  | cut {r : Run α} {t : State} {es : List BusEvent} (g : Bus.Grows es (s.limited k).bus t.bus)
      (later : r.All fun u => ∃ fs, Bus.Grows fs { t.bus with limit := none } u.bus)
      (sound : ∀ f, r ≠ .faulted f) : Follows s k r (.cut t)

/-! ### Sequencing -/

theorem Bus.Grows.free {es : List BusEvent} {b c : Bus} (g : Bus.Grows es b c)
    (h : b.limit = none) : c.limit = none := by
  have := g.limit
  rw [h] at this
  cases hc : c.limit with
  | none => rfl
  | some n => rw [hc] at this; cases this

/-- Events before a limited run count against the limit. -/
theorem Bus.Grows.limited {es : List BusEvent} {s u : State} {k : Nat}
    (g : Bus.Grows es s.bus u.bus) (h : es.length ≤ k) :
    Bus.Grows es (s.limited k).bus (u.limited (k - es.length)).bus where
  bools := g.bools
  bytes := g.bytes
  nBool := g.nBool
  nByte := g.nByte
  trace := g.trace
  limit := by simp [State.limited, Nat.sub_add_cancel h]

/-- The cut run's events, then the rest of the whole run's. -/
theorem Bus.Grows.rejoin {es fs : List BusEvent} {s u : State} {k : Nat} {t : Bus}
    (hl : s.bus.limit = none) (g : Bus.Grows es (s.limited k).bus t)
    (h : Bus.Grows fs { t with limit := none } u.bus) : Bus.Grows (es ++ fs) s.bus u.bus where
  bools := h.bools.trans g.bools
  bytes := h.bytes.trans g.bytes
  nBool := g.nBool.trans h.nBool
  nByte := g.nByte.trans h.nByte
  trace := by rw [h.trace, ← List.append_assoc]; exact congrArg (· ++ fs) g.trace
  limit := by rw [hl, h.free rfl]; rfl

/-- The whole run only adds events, and does not fault. -/
theorem Follows.grows {s : State} {k : Nat} {r r' : Run α} (h : Follows s k r r')
    (hl : s.bus.limit = none) :
    (r.All fun u => ∃ es, Bus.Grows es s.bus u.bus) ∧ ∀ f, r ≠ .faulted f := by
  cases h with
  | ok g h => exact ⟨⟨_, g⟩, fun _ h => by cases h⟩
  | raised g h => exact ⟨⟨_, g⟩, fun _ h => by cases h⟩
  | cut g later sound =>
    exact ⟨later.mono fun u ⟨fs, h⟩ => ⟨_, Bus.Grows.rejoin hl g h⟩, sound⟩

theorem Follows.after {s u : State} {k : Nat} {es : List BusEvent} {r r' : Run α}
    (g : Bus.Grows es s.bus u.bus) (h : es.length ≤ k) (f : Follows u (k - es.length) r r') :
    Follows s k r r' := by
  cases f with
  | @ok a v fs g' h' =>
    have := Follows.ok (k := k) (a := a) (g.trans g') (by simp; omega)
    rwa [List.length_append, ← Nat.sub_sub] at this
  | @raised e v fs g' h' =>
    have := Follows.raised (α := α) (k := k) (e := e) (g.trans g') (by simp; omega)
    rwa [List.length_append, ← Nat.sub_sub] at this
  | cut g' later sound => exact .cut ((g.limited h).trans g') later sound

/-- What is changed beside the bus before a piece starts does not matter. -/
theorem Follows.based {s u : State} {k : Nat} {r r' : Run α} (h : u.bus = s.bus)
    (f : Follows u k r r') : Follows s k r r' :=
  .after (es := []) (by rw [h]; exact .refl _) (Nat.zero_le k) f

theorem Follows.bind {s : State} {k : Nat} {r r' : Run α} {f : α → State → Run β}
    (h : Follows s k r r') (hl : s.bus.limit = none)
    (hf : ∀ a u n, u.bus.limit = none → Follows u n (f a u) (f a (u.limited n))) :
    Follows s k (r.bind f) (r'.bind f) := by
  cases h with
  | ok g h => exact (hf _ _ _ (g.free hl)).after g h
  | raised g h => exact .raised g h
  | @cut r t es g later sound =>
    cases r with
    | ok a u =>
      obtain ⟨fs, h⟩ := later
      have hu := hf a u 0 (h.free rfl)
      exact .cut g ((hu.grows (h.free rfl)).1.mono fun v ⟨gs, h'⟩ => ⟨_, h.trans h'⟩)
        (hu.grows (h.free rfl)).2
    | raised e u => exact .cut g later (fun _ h => by cases h)
    | faulted e => exact absurd rfl (sound e)
    | cut u => exact .cut g later (fun _ h => by cases h)

theorem Follows.ite {s : State} {k : Nat} {c : Prop} [Decidable c] {a b a' b' : Run α}
    (h : c → Follows s k a a') (h' : ¬c → Follows s k b b') :
    Follows s k (if c then a else b) (if c then a' else b') := by
  split
  · exact h ‹_›
  · exact h' ‹_›

/-- A piece that makes no bus event and goes on. -/
theorem Follows.pure {s : State} {k : Nat} (a : α) (u : State) (h : u.bus = s.bus) :
    Follows s k (.ok a u) (.ok a (u.limited k)) :=
  .ok (es := []) (by rw [h]; exact .refl _) (Nat.zero_le k)

/-- A piece that makes no bus event and raises. -/
theorem Follows.stop {s : State} {k : Nat} (e : Err) (u : State) (h : u.bus = s.bus) :
    Follows s k (.raised e u : Run α) (.raised e (u.limited k)) :=
  .raised (es := []) (by rw [h]; exact .refl _) (Nat.zero_le k)

/-! ### The bus primitives -/

variable {s : State} {k : Nat}

theorem busEvent_follows (hl : s.bus.limit = none) (e : BusEvent) :
    Follows s k (busEvent e s) (busEvent e (s.limited k)) := by
  have hs : busEvent e s = .ok () { s with bus := { s.bus with trace := s.bus.trace ++ [e] } } := by
    simp [busEvent, hl]
  have g : Bus.Grows [e] s.bus { s.bus with trace := s.bus.trace ++ [e] } :=
    ⟨rfl, rfl, le_refl _, le_refl _, rfl, by simp [hl]⟩
  rw [hs]
  cases k with
  | zero =>
    exact .cut (es := []) (.refl _) ⟨[e], rfl, rfl, le_refl _, le_refl _, rfl, by simp [hl]⟩
      (fun _ h => by cases h)
  | succ k =>
    exact .ok (u := { s with bus := { s.bus with trace := s.bus.trace ++ [e] } }) g (by simp)

theorem busQuery_follows (hl : s.bus.limit = none) (mk : Bool → BusEvent) :
    Follows s k (busQuery mk s) (busQuery mk (s.limited k)) := by
  let b := s.bus.boolAnswer s.bus.nBool
  let u : State := { s with bus := { s.bus with
    trace := s.bus.trace ++ [mk b], nBool := s.bus.nBool + 1 } }
  have hs : busQuery mk s = .ok b u := by simp [busQuery, busEvent, hl, b, u]
  have g : Bus.Grows [mk b] s.bus u.bus :=
    ⟨rfl, rfl, Nat.le_succ _, le_refl _, rfl, by simp [hl, u]⟩
  rw [hs]
  cases k with
  | zero =>
    exact .cut (es := []) (.refl _)
      ⟨[mk b], rfl, rfl, Nat.le_succ _, le_refl _, rfl, by simp [hl, u]⟩
      (fun _ h => by cases h)
  | succ k => exact .ok (u := u) g (by simp)

theorem busRecv_follows (hl : s.bus.limit = none) (n : Nat) :
    Follows s k (busRecv n s) (busRecv n (s.limited k)) := by
  let xs := s.bus.byteAnswers s.bus.nByte n
  have hx : (s.limited k).bus.byteAnswers (s.limited k).bus.nByte n = xs :=
    Bus.byteAnswers_congr (by rfl) n _
  let e : BusEvent := .recv (List.replicate n Config.receiveDrive) xs
  let u : State := { s with bus := { s.bus with
    trace := s.bus.trace ++ [e], nByte := s.bus.nByte + n } }
  have hs : busRecv n s = .ok xs u := by simp [busRecv, busEvent, hl, e, xs, u]
  have g : Bus.Grows [e] s.bus u.bus :=
    ⟨rfl, rfl, le_refl _, Nat.le_add_right _ _, rfl, by simp [hl, u]⟩
  rw [hs, busRecv, hx]
  cases k with
  | zero =>
    exact .cut (es := []) (.refl _)
      ⟨[e], rfl, rfl, le_refl _, Nat.le_add_right _ _, rfl, by simp [hl, u]⟩
      (fun _ h => by cases h)
  | succ k => exact .ok (u := u) g (by simp)

/-! ### The shared procedures -/

theorem confirmSpeed_follows (hl : s.bus.limit = none) :
    Follows s k (confirmSpeed s) (confirmSpeed (s.limited k)) := by
  unfold confirmSpeed
  exact .ite (fun _ => .pure _ _ rfl) fun _ => (busQuery_follows hl _).bind hl fun a t n _ =>
    .ite (fun _ => .pure _ { t with speedOk := true } rfl) fun _ => .stop _ _ rfl

theorem selectDevice_follows (hl : s.bus.limit = none) :
    Follows s k (selectDevice s) (selectDevice (s.limited k)) :=
  (busQuery_follows hl (.select s.desc.devAddr)).bind hl fun _ _ _ _ =>
    .ite (fun _ => .pure _ _ rfl) fun _ => .stop _ _ rfl

theorem prologue_follows (hl : s.bus.limit = none) (cont : Bool) :
    Follows s k (prologue cont s) (prologue cont (s.limited k)) := by
  unfold prologue
  exact .ite (fun _ => .pure _ _ rfl) fun _ => (confirmSpeed_follows hl).bind hl fun _ _ _ h =>
    selectDevice_follows h

theorem requirePower_follows (hl : s.bus.limit = none) :
    Follows s k (requirePower s) (requirePower (s.limited k)) :=
  (busQuery_follows hl _).bind hl fun _ _ _ _ =>
    .ite (fun _ => .pure _ _ rfl) fun _ => .stop _ _ rfl

theorem requireProgramPulse_follows (hl : s.bus.limit = none) :
    Follows s k (requireProgramPulse s) (requireProgramPulse (s.limited k)) :=
  (busQuery_follows hl _).bind hl fun _ _ _ _ =>
    .ite (fun _ => .pure _ _ rfl) fun _ => .stop _ _ rfl

theorem challenge_follows (hl : s.bus.limit = none) (slot : PwSlot) (ta : Nat) :
    Follows s k (challenge slot ta s) (challenge slot ta (s.limited k)) :=
  (requirePower_follows hl).bind hl fun _ _ _ h =>
  (busEvent_follows h (.send _)).bind h fun _ _ _ h =>
  (busEvent_follows h (.sendPulse _ _)).bind h fun _ _ _ h =>
  (busRecv_follows h 1).bind h fun _ _ _ _ =>
    .ite (fun _ => .stop _ _ rfl) fun _ => .pure _ _ rfl

theorem openRead_follows (hl : s.bus.limit = none) (cont : Bool) (slot : PwSlot) (ta : Nat) :
    Follows s k (openRead cont slot ta s) (openRead cont slot ta (s.limited k)) :=
  (prologue_follows hl cont).bind hl fun _ _ _ h =>
    .ite (fun _ => challenge_follows h slot ta) fun _ => .pure _ _ rfl

theorem pollRead_follows (p n : Nat) (slot : PwSlot) (left : Nat) :
    ∀ (d : List Byte) {s : State} {k : Nat}, s.bus.limit = none →
      Follows s k (pollRead p n slot left d s) (pollRead p n slot left d (s.limited k)) := by
  induction left with
  | zero => exact fun d s k _ => .pure _ _ rfl
  | succ left ih =>
    intro d s k hl
    unfold pollRead
    exact .ite (fun _ => (busEvent_follows hl (.sleep _)).bind hl fun _ _ _ h =>
      (busQuery_follows h _).bind h fun _ _ _ h =>
        .ite (fun _ => (openRead_follows h false slot p).bind h fun _ _ _ h =>
          (busEvent_follows h (.send _)).bind h fun _ _ _ h =>
          (busRecv_follows h n).bind h fun d _ _ h => ih d h) fun _ => .stop _ _ rfl)
      fun _ => .pure _ _ rfl

theorem readSend_follows (hl : s.bus.limit = none) (cont : Bool) (seq : List Byte) :
    Follows s k (if cont then .ok () s else busSend seq s : Run Unit)
      (if cont then .ok () (s.limited k) else busSend seq (s.limited k)) :=
  .ite (fun _ => .pure _ _ rfl) fun _ => busEvent_follows hl _

theorem readBytes_follows (hl : s.bus.limit = none) (p n : Nat) (cont : Bool) (slot : PwSlot) :
    Follows s k (readBytes p n cont slot s) (readBytes p n cont slot (s.limited k)) :=
  (readSend_follows hl cont _).bind hl fun _ _ _ h =>
  (busRecv_follows h n).bind h fun d t _ h =>
    .ite (fun _ => pollRead_follows p n slot (t.desc.pollMax - 1) d h) fun _ => .pure _ _ rfl

theorem writeCheck_follows : Follows s k (writeCheck s) (writeCheck (s.limited k)) := by
  unfold writeCheck
  exact .ite (fun _ => .stop _ _ rfl) fun _ => .pure _ _ rfl

theorem powerCheck_follows (hl : s.bus.limit = none) :
    Follows s k (powerCheck s) (powerCheck (s.limited k)) := by
  have h : Follows s k (if s.desc.flagPDeliv then requirePower s else .ok () s : Run Unit)
      (if s.desc.flagPDeliv then requirePower (s.limited k) else .ok () (s.limited k)) :=
    .ite (fun _ => requirePower_follows hl) fun _ => .pure _ _ rfl
  exact h.bind hl fun _ _ _ h =>
    .ite (fun _ => requireProgramPulse_follows h) fun _ => .pure _ _ rfl

theorem spWriteProc_follows (hl : s.bus.limit = none) (ta : Nat) (xs : List Byte) :
    Follows s k (spWriteProc ta xs s) (spWriteProc ta xs (s.limited k)) :=
  (prologue_follows hl false).bind hl fun _ _ _ h =>
  (busEvent_follows h (.send _)).bind h fun _ t _ _ =>
    .pure () { t with
      spTA := BitVec.ofNat 16 ta
      spLen := BitVec.ofNat 9 xs.length
      spBuf := xs ++ t.spBuf.drop xs.length
      spES := 0
      spState := .written } rfl

theorem recvIf_follows (hl : s.bus.limit = none) (present : Bool) (n : Nat) :
    Follows s k (recvIf present n s) (recvIf present n (s.limited k)) := by
  unfold recvIf
  exact .ite (fun _ => busRecv_follows hl n) fun _ => .pure _ _ rfl

theorem spVerifyProc_follows (hl : s.bus.limit = none) :
    Follows s k (spVerifyProc s) (spVerifyProc (s.limited k)) :=
  (prologue_follows hl false).bind hl fun _ _ _ h =>
  (busEvent_follows h (.send _)).bind h fun _ t _ h =>
  (recvIf_follows h t.desc.spAddr 3).bind h fun hdr t _ h =>
  (busRecv_follows h t.spLen.toNat).bind h fun _ t _ h =>
  (recvIf_follows h t.desc.spCrc 2).bind h fun _ t _ _ =>
    .ite (fun _ => .stop _ _ rfl) fun _ =>
    .ite (fun _ => .stop _ _ rfl) fun _ =>
    .ite (fun _ => .stop _ _ rfl) fun _ =>
    .pure () { t with
      spES := if t.desc.spAddr then hdr.getD 2 0 else t.spES
      spState := .verified } rfl

theorem spCopyProc_follows (hl : s.bus.limit = none) :
    Follows s k (spCopyProc s) (spCopyProc (s.limited k)) :=
  (requirePower_follows hl).bind hl fun _ _ _ h =>
  (prologue_follows h false).bind h fun _ _ _ h =>
  (busEvent_follows h (.sendPulse _ _)).bind h fun _ _ _ h =>
  (busRecv_follows h 1).bind h fun _ t _ _ =>
    .ite (fun _ => .stop _ _ rfl) fun _ => .pure () { t with spState := .committed } rfl

theorem chunkChallenge_follows (hl : s.bus.limit = none) (slot : PwSlot) :
    Follows s k (chunkChallenge slot s) (chunkChallenge slot (s.limited k)) := by
  unfold chunkChallenge
  exact .ite (fun _ => (prologue_follows hl false).bind hl fun _ t _ h =>
    (challenge_follows h slot t.spTA.toNat).bind h fun _ t _ _ =>
      .pure () { t with spState := .authed } rfl) fun _ => .pure _ _ rfl

theorem writeChunks_follows (slot : PwSlot) (rounds : Nat) :
    ∀ (p : Nat) (xs : List Byte) {s : State} {k : Nat}, s.bus.limit = none →
      Follows s k (writeChunks slot rounds p xs s)
        (writeChunks slot rounds p xs (s.limited k)) := by
  induction rounds with
  | zero => exact fun p xs s k _ => .pure _ _ rfl
  | succ rounds ih =>
    intro p xs s k hl
    unfold writeChunks
    exact .ite (fun _ => .pure _ _ rfl) fun _ =>
      (spWriteProc_follows hl p _).bind hl fun _ _ _ h =>
      (spVerifyProc_follows h).bind h fun _ _ _ h =>
      (chunkChallenge_follows h slot).bind h fun _ _ _ h =>
      (spCopyProc_follows h).bind h fun _ _ _ h => ih _ _ h

theorem directWrite_follows (hl : s.bus.limit = none) (p : Nat) (xs : List Byte) :
    Follows s k (directWrite p xs s) (directWrite p xs (s.limited k)) :=
  (prologue_follows hl false).bind hl fun _ _ _ h =>
    .ite (fun _ => busEvent_follows h (.sendProgram _)) fun _ => busEvent_follows h (.send _)

theorem transferBytes_follows (hl : s.bus.limit = none) (p : Nat) (xs : List Byte)
    (slot : PwSlot) :
    Follows s k (transferBytes p xs slot s) (transferBytes p xs slot (s.limited k)) := by
  unfold transferBytes
  exact .ite (fun _ => writeChunks_follows slot xs.length p xs hl) fun _ =>
    .ite (fun _ => directWrite_follows hl p xs) fun _ => .pure _ _ rfl

theorem readBack_follows (hl : s.bus.limit = none) (p : Nat) (xs : List Byte) (slot : PwSlot) :
    Follows s k (readBack p xs slot s) (readBack p xs slot (s.limited k)) := by
  unfold readBack
  exact .ite (fun _ => (openRead_follows hl false slot p).bind hl fun _ _ _ h =>
    (readBytes_follows h p xs.length false slot).bind h fun _ _ _ _ =>
      .ite (fun _ => .stop _ _ rfl) fun _ => .pure _ _ rfl) fun _ => .pure _ _ rfl

theorem writeBytes_follows (hl : s.bus.limit = none) (a : Nat) (xs : List Byte) (slot : PwSlot) :
    Follows s k (writeBytes a xs slot s) (writeBytes a xs slot (s.limited k)) := by
  unfold writeBytes
  exact .ite (fun _ => .stop _ _ rfl) fun _ => writeCheck_follows.bind hl fun _ _ _ h =>
    (powerCheck_follows h).bind h fun _ t _ h =>
    .based (u := t.abandonSp) rfl <|
    (transferBytes_follows (s := t.abandonSp) h (t.desc.physOff + a) xs slot).bind h
      fun _ u _ h => readBack_follows h (u.desc.physOff + a) xs slot

theorem statusRead_follows (hl : s.bus.limit = none) (seq : List Byte) :
    Follows s k (statusRead seq s) (statusRead seq (s.limited k)) :=
  (prologue_follows hl false).bind hl fun _ _ _ h =>
  (busEvent_follows h (.send _)).bind h fun _ _ _ h =>
  (busRecv_follows h 1).bind h fun _ _ _ _ => .pure _ _ rfl

theorem programSend_follows (hl : s.bus.limit = none) (seq : List Byte) :
    Follows s k (programSend seq s) (programSend seq (s.limited k)) :=
  (prologue_follows hl false).bind hl fun _ _ _ h =>
    .ite (fun _ => busEvent_follows h (.sendProgram _)) fun _ =>
    .ite (fun _ => busEvent_follows h (.sendPulse _ _)) fun _ => busEvent_follows h (.send _)

theorem readExtra_follows (hl : s.bus.limit = none) (absPage : Nat) :
    Follows s k (readExtra absPage s) (readExtra absPage (s.limited k)) :=
  (prologue_follows hl false).bind hl fun _ _ _ h =>
  (busEvent_follows h (.send _)).bind h fun _ _ _ h => busRecv_follows h _

theorem readCrcPage_follows (hl : s.bus.limit = none) (p : Nat) (cont : Bool) :
    Follows s k (readCrcPage p cont s) (readCrcPage p cont (s.limited k)) :=
  (readSend_follows hl cont _).bind hl fun _ _ _ h =>
  (busRecv_follows h _).bind h fun _ _ _ _ =>
    .ite (fun _ => .stop _ _ rfl) fun _ => .pure _ _ rfl

theorem otpQuery_follows (hl : s.bus.limit = none) (supported : Bool) (seq : List Byte)
    (answer : Byte → Half) :
    Follows s k (otpQuery supported seq answer s)
      (otpQuery supported seq answer (s.limited k)) := by
  unfold otpQuery
  exact .ite (fun _ => .pure _ { s with contOk := false } rfl) fun _ =>
    .ite (fun _ => .stop _ { s with contOk := false } rfl) fun _ =>
    .based (u := { s with contOk := false }.abandonSp) rfl <|
    (statusRead_follows (s := { s with contOk := false }.abandonSp) hl seq).bind hl
      fun b t _ _ => .pure (Done.plain (answer b)) t rfl

theorem otpMutate_follows (hl : s.bus.limit = none) (seq statusSeq : List Byte)
    (confirms : Byte → Bool) (v : Half) :
    Follows s k (otpMutate seq statusSeq confirms v s)
      (otpMutate seq statusSeq confirms v (s.limited k)) :=
  (powerCheck_follows hl).bind hl fun _ t _ h =>
  .based (u := t.abandonSp) rfl <|
  (programSend_follows (s := t.abandonSp) h seq).bind h fun _ _ _ h =>
  (statusRead_follows h statusSeq).bind h fun b t _ _ =>
    .ite (c := confirms b = true) (fun _ => .pure (Done.plain v) t rfl)
      fun _ => .stop .verification t rfl

/-! ### The commands -/

/-- Both runs fault, and then before any event, or one follows the other. -/
def Launches (s : State) (k : Nat) (r r' : Run α) : Prop :=
  (∃ f, r = .faulted f ∧ r' = .faulted f) ∨ Follows s k r r'

theorem Launches.fault (f : FaultCode) : Launches s k (.faulted f : Run α) (.faulted f) :=
  .inl ⟨f, rfl, rfl⟩

theorem Launches.ite {c : Prop} [Decidable c] {a b a' b' : Run α} (h : Launches s k a a')
    (h' : ¬c → Launches s k b b') :
    Launches s k (if c then a else b) (if c then a' else b') := by
  split
  · exact h
  · exact h' ‹_›

theorem withSlot_launches {pwsel : BitVec 2} {f f' : PwSlot → Run α}
    (h : ∀ slot, Launches s k (f slot) (f' slot)) :
    Launches s k (withSlot pwsel f) (withSlot pwsel f') := by
  unfold withSlot
  split
  · exact h _
  · exact .fault _

theorem withWindow_launches {n : Nat} {r r' : Run α} (h : Launches s k r r') :
    Launches s k (withWindow n s r) (withWindow n (s.limited k) r') := by
  unfold withWindow State.windowOk
  exact .ite h fun _ => .fault _

theorem withInput_launches {n : Nat} {f f' : List Byte → Run α}
    (h : ∀ xs, Launches s k (f xs) (f' xs)) :
    Launches s k (withInput n s f) (withInput n (s.limited k) f') := by
  refine withWindow_launches ?_
  change Launches s k (match s.dbuf.readRange s.argOff.toNat n with
    | some xs => f xs | none => .faulted .undef) (match s.dbuf.readRange s.argOff.toNat n with
    | some xs => f' xs | none => .faulted .undef)
  cases s.dbuf.readRange s.argOff.toNat n with
  | some xs => exact h xs
  | none => exact .fault _

theorem withCont_launches {cont : Bool} {r r' : Run α} (h : Launches s k r r') :
    Launches s k (withCont cont s r) (withCont cont (s.limited k) r') := by
  unfold withCont
  exact .ite (.fault _) fun _ => h

/-- A read command behind its start checks: the opening and what follows it. -/
theorem reading_follows (hl : s.bus.limit = none) (cont : Bool) (slot : PwSlot) (p : Nat)
    {f : State → Run α}
    (hf : ∀ (t : State) (n : Nat), t.bus.limit = none → Follows t n (f t) (f (t.limited n))) :
    Follows s k ((openRead cont slot p s.abandonSp).bind fun _ t => f t)
      ((openRead cont slot p (s.limited k).abandonSp).bind fun _ t => f t) :=
  .based (u := s.abandonSp) rfl <| (openRead_follows (s := s.abandonSp) hl cont slot p).bind hl
    fun _ t n h => hf t n h

variable (hl : s.bus.limit = none)
include hl

theorem bodyRead_launches (cont : Bool) (pwsel : BitVec 2) :
    Launches s k (bodyRead cont pwsel s) (bodyRead cont pwsel (s.limited k)) :=
  withSlot_launches fun slot => withWindow_launches <| withCont_launches <| .inr <|
    .ite (fun _ => .stop .range s rfl) fun _ =>
    reading_follows hl cont slot s.argPhys fun _ _ h =>
    (readBytes_follows h s.argPhys s.argLen.toNat cont slot).bind h fun d t _ _ =>
      .pure (⟨s.argLen, s.argOff.toNat, d⟩ : Done) { t with contOk := true } rfl

theorem bodyReadPage_launches (cont : Bool) (pwsel : BitVec 2) :
    Launches s k (bodyReadPage cont pwsel s) (bodyReadPage cont pwsel (s.limited k)) :=
  withSlot_launches fun slot => withWindow_launches <| withCont_launches <| .inr <|
    .ite (fun _ => .stop .range s rfl) fun _ =>
    reading_follows hl cont slot s.pagePhys fun _ _ h =>
    (readBytes_follows h s.pagePhys s.desc.pageLen cont slot).bind h fun d t _ _ =>
      .pure (⟨BitVec.ofNat 16 s.desc.pageLen, s.argOff.toNat, d⟩ : Done)
        { t with contOk := true } rfl

theorem bodyReadPageExtra_launches (cont : Bool) (pwsel : BitVec 2) :
    Launches s k (bodyReadPageExtra cont pwsel s) (bodyReadPageExtra cont pwsel (s.limited k)) :=
  withSlot_launches fun slot => withWindow_launches <| withCont_launches <| .inr <|
    .ite (fun _ => .stop .capability s rfl) fun _ =>
    .ite (fun _ => .stop .range s rfl) fun _ =>
    reading_follows hl cont slot s.pagePhys fun _ _ h =>
    (readBytes_follows h s.pagePhys s.desc.pageLen cont slot).bind h fun d _ _ h =>
    (readExtra_follows h s.pageAbs).bind h fun e t _ _ =>
      .pure (⟨BitVec.ofNat 16 s.desc.pageLen, s.argOff.toNat, d ++ e⟩ : Done)
        { t with contOk := false } rfl

theorem bodyReadPageCrc_launches (cont : Bool) (pwsel : BitVec 2) :
    Launches s k (bodyReadPageCrc cont pwsel s) (bodyReadPageCrc cont pwsel (s.limited k)) :=
  withSlot_launches fun slot => withWindow_launches <| withCont_launches <| .inr <|
    .ite (fun _ => .stop .capability s rfl) fun _ =>
    .ite (fun _ => .stop .range s rfl) fun _ =>
    reading_follows hl cont slot s.pagePhys fun _ _ h =>
    (readCrcPage_follows h s.pagePhys cont).bind h fun d t _ _ =>
      .pure (⟨BitVec.ofNat 16 s.desc.pageLen, s.argOff.toNat, d⟩ : Done)
        { t with contOk := true } rfl

theorem bodyReadPageCrcExtra_launches (cont : Bool) (pwsel : BitVec 2) :
    Launches s k (bodyReadPageCrcExtra cont pwsel s)
      (bodyReadPageCrcExtra cont pwsel (s.limited k)) :=
  withSlot_launches fun slot => withWindow_launches <| withCont_launches <| .inr <|
    .ite (fun _ => .stop .capability s rfl) fun _ =>
    .ite (fun _ => .stop .range s rfl) fun _ =>
    reading_follows hl cont slot s.pagePhys fun _ _ h =>
    (readCrcPage_follows h s.pagePhys cont).bind h fun d _ _ h =>
    (readExtra_follows h s.pageAbs).bind h fun e t _ _ =>
      .pure (⟨BitVec.ofNat 16 s.desc.pageLen, s.argOff.toNat, d ++ e⟩ : Done)
        { t with contOk := false } rfl

theorem bodyReadPagePacket_launches (cont : Bool) (pwsel : BitVec 2) :
    Launches s k (bodyReadPagePacket cont pwsel s)
      (bodyReadPagePacket cont pwsel (s.limited k)) :=
  withSlot_launches fun slot => withWindow_launches <| withCont_launches <| .inr <|
    .ite (fun _ => .stop .range s rfl) fun _ =>
    reading_follows hl cont slot s.pagePhys fun _ _ h =>
    (readBytes_follows h s.pagePhys s.desc.pageLen cont slot).bind h fun raw t n _ => by
      generalize udpDecode s.desc.pageLen s.pageAbs raw = u
      cases u with
      | formatError => exact .stop .format t rfl
      | integrityError => exact .stop .integrity t rfl
      | payload len ys =>
        exact .pure (⟨BitVec.ofNat 16 len, s.argOff.toNat, ys⟩ : Done)
          { t with contOk := true } rfl

/-- A write behind its start checks. -/
theorem writing_follows (a : Nat) (xs : List Byte) (slot : PwSlot) (d : Done) :
    Follows s k ((writeBytes a xs slot { s with contOk := false }).bind fun _ t => .ok d t)
      ((writeBytes a xs slot { s.limited k with contOk := false }).bind fun _ t => .ok d t) :=
  .based (u := { s with contOk := false }) rfl <|
    (writeBytes_follows (s := { s with contOk := false }) hl a xs slot).bind hl
      fun _ t _ _ => .pure d t rfl

theorem bodyWrite_launches (pwsel : BitVec 2) :
    Launches s k (bodyWrite pwsel s) (bodyWrite pwsel (s.limited k)) :=
  withSlot_launches fun slot => withInput_launches fun xs => .inr <|
    writing_follows hl s.argAddr.toNat xs slot (.plain s.argLen)

theorem bodyWritePagePacket_launches (pwsel : BitVec 2) :
    Launches s k (bodyWritePagePacket pwsel s) (bodyWritePagePacket pwsel (s.limited k)) :=
  withSlot_launches fun slot => withInput_launches fun xs => .inr <|
    .ite (fun _ => .stop .format { s with contOk := false } rfl) fun _ =>
    .ite (fun _ => .stop .range { s with contOk := false } rfl) fun _ =>
    writing_follows hl s.pageAddr (udpEncode s.pageAbs xs) slot (.plain s.argLen)

/-- An OTP mutation behind its start checks. -/
theorem mutating_follows (seq statusSeq : List Byte) (confirms : Byte → Bool) (v : Half) :
    Follows s k (otpMutate seq statusSeq confirms v { s with contOk := false })
      (otpMutate seq statusSeq confirms v { s.limited k with contOk := false }) :=
  .based (u := { s with contOk := false }) rfl <|
    otpMutate_follows (s := { s with contOk := false }) hl seq statusSeq confirms v

theorem bodyLockPage_launches : Launches s k (bodyLockPage s) (bodyLockPage (s.limited k)) :=
  .inr <| .ite (fun _ => .stop .capability { s with contOk := false } rfl) fun _ =>
    .ite (fun _ => .stop .range { s with contOk := false } rfl) fun _ =>
    mutating_follows hl (Config.seqLock s.pageAbs s.desc.lockKey) (Config.seqLockStatus s.pageAbs)
      (fun b => b == s.desc.lockedSentinel) 1

theorem bodyRedirectPage_launches :
    Launches s k (bodyRedirectPage s) (bodyRedirectPage (s.limited k)) :=
  .inr <| .ite (fun _ => .stop .capability { s with contOk := false } rfl) fun _ =>
    .ite (fun _ => .stop .range { s with contOk := false } rfl) fun _ =>
    .ite (fun _ => .stop .range { s with contOk := false } rfl) fun _ =>
    mutating_follows hl (Config.seqRedirect s.pageAbs s.argPage2.toNat)
      (Config.seqRedirectStatus s.pageAbs)
      (fun b => redirectDecode s.desc b == s.argPage2.toNat) s.argPage2

theorem bodyLockRedirectPage_launches :
    Launches s k (bodyLockRedirectPage s) (bodyLockRedirectPage (s.limited k)) :=
  .inr <| .ite (fun _ => .stop .capability { s with contOk := false } rfl) fun _ =>
    .ite (fun _ => .stop .range { s with contOk := false } rfl) fun _ =>
    mutating_follows hl (Config.seqLockRedirect s.pageAbs s.desc.lockKey)
      (Config.seqRedirectLockStatus s.pageAbs) (fun b => b == s.desc.rlockedSentinel) 1

theorem bodySpWrite_launches : Launches s k (bodySpWrite s) (bodySpWrite (s.limited k)) :=
  withInput_launches fun xs => .inr <|
    .ite (fun _ => .stop .capability { s with contOk := false } rfl) fun _ =>
    .ite (c := spWriteOutOfRange s = true)
      (fun _ => .stop .range { s with contOk := false } rfl) fun _ =>
    .based (u := { s with contOk := false }.abandonSp) rfl <|
    (spWriteProc_follows (s := { s with contOk := false }.abandonSp) hl s.argPhys xs).bind hl
      fun _ t _ _ => .pure (Done.plain s.argLen) t rfl

theorem bodySpReadVerify_launches :
    Launches s k (bodySpReadVerify s) (bodySpReadVerify (s.limited k)) :=
  .ite (.fault _) fun _ => .inr <|
    .ite (fun _ => .stop .capability { s with contOk := false } rfl) fun _ =>
    .based (u := { s with contOk := false }) rfl <|
    (spVerifyProc_follows (s := { s with contOk := false }) hl).bind hl
      fun _ t _ _ => .pure (Done.plain (t.spLen.setWidth 16)) t rfl

theorem bodySpVerifyPassword_launches (pwsel : BitVec 2) :
    Launches s k (bodySpVerifyPassword pwsel s) (bodySpVerifyPassword pwsel (s.limited k)) :=
  withSlot_launches fun slot => .ite (.fault _) fun _ => .inr <|
    .ite (fun _ => .stop .capability { s with contOk := false } rfl) fun _ =>
    .based (u := { s with contOk := false }) rfl <|
    (prologue_follows (s := { s with contOk := false }) hl false).bind hl fun _ t _ h =>
    (challenge_follows h slot t.spTA.toNat).bind h fun _ t _ _ =>
      .pure (Done.plain 0) { t with spState := .authed } rfl

theorem bodySpCopy_launches : Launches s k (bodySpCopy s) (bodySpCopy (s.limited k)) :=
  .ite (.fault _) fun _ => .ite (.fault _) fun _ => .inr <|
    .ite (fun _ => .stop .capability { s with contOk := false } rfl) fun _ =>
    .based (u := { s with contOk := false }) rfl <|
    (spCopyProc_follows (s := { s with contOk := false }) hl).bind hl
      fun _ t _ _ => .pure (Done.plain (t.spLen.setWidth 16)) t rfl

/-- A command that is cut off does what the whole command does, up to the cut. -/
theorem commandBody_launches (i : Instr) :
    Launches s k (commandBody i s) (commandBody i (s.limited k)) := by
  cases i with
  | crc8Init => exact .inr (.pure _ { s with acc8 := 0 } rfl)
  | crc8Byte => exact .inr (.pure _ { s with acc8 := crc8Step s.acc8 s.argByte } rfl)
  | crc8Block => exact withInput_launches fun xs => .inr (.pure _ { s with acc8 := crc8 xs } rfl)
  | crc8Check =>
    exact withInput_launches fun xs => .inr <|
      .ite (fun _ => .stop _ { s with acc8 := crc8 xs } rfl) fun _ =>
        .pure _ { s with acc8 := crc8 xs } rfl
  | crc16Init => exact .inr (.pure _ { s with acc16 := s.argSeed } rfl)
  | crc16Byte => exact .inr (.pure _ { s with acc16 := crc16Step s.acc16 s.argByte } rfl)
  | crc16Block =>
    exact withInput_launches fun xs => .inr (.pure _ { s with acc16 := crc16 xs s.argSeed } rfl)
  | crc16Check =>
    exact withInput_launches fun xs => .inr <|
      .ite (fun _ => .stop _ { s with acc16 := crc16 xs s.argSeed } rfl) fun _ =>
        .pure _ { s with acc16 := crc16 xs s.argSeed } rfl
  | crc16Emit => exact withWindow_launches (.inr (.pure _ s rfl))
  | read c p => exact bodyRead_launches hl c p
  | write p => exact bodyWrite_launches hl p
  | forceVerify => exact .inr (.pure _ { s with speedOk := false, contOk := false } rfl)
  | readPage c p => exact bodyReadPage_launches hl c p
  | readPageExtra c p => exact bodyReadPageExtra_launches hl c p
  | readPageCrc c p => exact bodyReadPageCrc_launches hl c p
  | readPageCrcExtra c p => exact bodyReadPageCrcExtra_launches hl c p
  | readPagePacket c p => exact bodyReadPagePacket_launches hl c p
  | writePagePacket p => exact bodyWritePagePacket_launches hl p
  | lockPage => exact bodyLockPage_launches hl
  | isPageLocked => exact .inr (otpQuery_follows hl s.desc.canLock _ _)
  | redirectPage => exact bodyRedirectPage_launches hl
  | getRedirectedPage => exact .inr (otpQuery_follows hl s.desc.canRedirect _ _)
  | lockRedirectPage => exact bodyLockRedirectPage_launches hl
  | isRedirectPageLocked => exact .inr (otpQuery_follows hl s.desc.canLockRedirect _ _)
  | spWrite => exact bodySpWrite_launches hl
  | spReadVerify => exact bodySpReadVerify_launches hl
  | spVerifyPassword p => exact bodySpVerifyPassword_launches hl p
  | spCopy => exact bodySpCopy_launches hl
  | pwLoad p =>
    exact withSlot_launches fun slot => withInput_launches fun xs => .inr <|
      .ite (fun _ => .stop _ s rfl) fun _ =>
        .pure _ { s with pw := s.pw.set slot ⟨xs, true⟩ } rfl
  | pwClear p =>
    exact withSlot_launches fun slot => .inr <|
      .ite (fun _ => .stop _ s rfl) fun _ =>
        .pure _ { s with pw := s.pw.set slot (PwEntry.cleared s.desc) } rfl

omit hl in
/-- At a point inside a command stand exactly the first of the bus events of the whole command, and
no more answers are drawn than the whole command draws (70_reset_and_hazards.md R233). -/
theorem midCommand_prefix {i : Instr} (h : (s.midCommand i (k + 1)).busy = true) :
    ∃ made later, made.length = k ∧
      (s.midCommand i (k + 1)).bus.trace = s.bus.trace ++ made ∧
      (s.runCommand (commandClass i) (commandBody i)).bus.trace =
        s.bus.trace ++ (made ++ later) ∧
      s.bus.nBool ≤ (s.midCommand i (k + 1)).bus.nBool ∧
      (s.midCommand i (k + 1)).bus.nBool ≤
        (s.runCommand (commandClass i) (commandBody i)).bus.nBool ∧
      s.bus.nByte ≤ (s.midCommand i (k + 1)).bus.nByte ∧
      (s.midCommand i (k + 1)).bus.nByte ≤
        (s.runCommand (commandClass i) (commandBody i)).bus.nByte := by
  have e := commandBody_launches (s := s.start none) (k := k) rfl i
  change Launches _ _ _ (commandBody i (s.start (some k))) at e
  simp only [State.midCommand] at h ⊢
  generalize hr : commandBody i (s.start none) = r at e
  generalize hr' : commandBody i (s.start (some k)) = r' at e
  rcases e with ⟨f, -, rfl⟩ | e
  · rw [runWith_faulted hr'] at h; cases h
  cases e with
  | ok g _ => rw [runWith_ok hr'] at h; cases h
  | raised g _ => rw [runWith_raised hr'] at h; simp at h
  | @cut _ t made g later sound =>
    rw [runWith_cut hr'] at h ⊢
    have hk : made.length = k := by
      have hg := g.limit
      rw [(commandBody_framed i (s.start (some k))).resolve_left (by rw [hr']; simp)
        |>.cuts t hr'] at hg
      simpa [State.limited] using hg.symm
    have key : ∀ u v : State, v.bus.trace = u.bus.trace → v.bus.nBool = u.bus.nBool →
        v.bus.nByte = u.bus.nByte → (∃ fs, Bus.Grows fs { t.bus with limit := none } u.bus) →
        ∃ made later, made.length = k ∧ t.bus.trace = s.bus.trace ++ made ∧
          v.bus.trace = s.bus.trace ++ (made ++ later) ∧ s.bus.nBool ≤ t.bus.nBool ∧
          t.bus.nBool ≤ v.bus.nBool ∧ s.bus.nByte ≤ t.bus.nByte ∧ t.bus.nByte ≤ v.bus.nByte := by
      rintro u v h1 h2 h3 ⟨fs, g'⟩
      refine ⟨made, fs, hk, g.trace, ?_, g.nBool, h2 ▸ g'.nBool, g.nByte, h3 ▸ g'.nByte⟩
      rw [h1, g'.trace, ← List.append_assoc]
      exact congrArg (· ++ fs) g.trace
    cases r with
    | ok d u => rw [State.runCommand, runWith_ok hr]; exact key u _ rfl rfl rfl later
    | raised e u =>
      rw [State.runCommand, runWith_raised hr]
      exact key u _ (by simp) (by simp) (by simp) later
    | faulted f => exact absurd rfl (sound f)
    | cut u => rw [State.runCommand, runWith_cut hr]; exact key u _ rfl rfl rfl later

end Sys2Proof.Machine
end

