-- ==== Sys2Proof/Laws/PerInstr.lean ====
section
/-! SUPPORT. The per-instruction family `EncodeFields`: the four fields of a command's word
(spec/30_encoding.md R80 to R84, R88). -/

namespace Sys2Proof.Laws.EncodeFields

/-- The word of a command has its OPC, its CONT bit, its PWSEL and 21 reserved zeros. -/
def Statement (i : Instr) : Prop :=
  opcField (encode i) = opcodeOf i ∧ contField (encode i) = contOf i ∧
    pwselField (encode i) = i.pwsel ∧ reservedField (encode i) = 0

/-- The word put together from its four fields has those fields. -/
theorem fields_of_append (a : BitVec 8) (c : Bool) (p : BitVec 2) :
    opcField (a ++ BitVec.ofBool c ++ p ++ (0 : BitVec 21)) = a ∧
      contField (a ++ BitVec.ofBool c ++ p ++ (0 : BitVec 21)) = c ∧
      pwselField (a ++ BitVec.ofBool c ++ p ++ (0 : BitVec 21)) = p ∧
      reservedField (a ++ BitVec.ofBool c ++ p ++ (0 : BitVec 21)) = 0 := by
  have bit : ∀ k, BitVec.getLsbD (w := 32) (a ++ BitVec.ofBool c ++ p ++ (0 : BitVec 21)) k =
      if k < 21 then false else if k < 23 then p.getLsbD (k - 21)
      else if k = 23 then c else a.getLsbD (k - 24) := fun k => by
    refine (BitVec.getLsbD_append (x := a ++ BitVec.ofBool c ++ p) (y := (0 : BitVec 21))).trans ?_
    simp only [BitVec.getLsbD_append, BitVec.getLsbD_ofBool]
    by_cases h1 : k < 21
    · simp [h1]
    · by_cases h2 : k < 23
      · simp [h1, h2, show k - 21 < 2 by omega]
      · by_cases h3 : k = 23
        · subst h3; simp
        · simp [h1, h2, h3, show ¬ k - 21 < 2 by omega, show ¬ k - 21 - 2 = 0 by omega,
            show k - 21 - 2 - 1 = k - 24 by omega]
  refine ⟨?_, ?_, ?_, ?_⟩
  · refine BitVec.eq_of_getLsbD_eq fun k hk => ?_
    rw [opcField, BitVec.getLsbD_extractLsb', bit]
    simp [hk, show ¬ 24 + k < 21 by omega, show ¬ 24 + k < 23 by omega,
      show ¬ 24 + k = 23 by omega]
  · rw [contField, bit]; simp
  · refine BitVec.eq_of_getLsbD_eq fun k hk => ?_
    rw [pwselField, BitVec.getLsbD_extractLsb', bit]
    simp [hk, show 21 + k < 23 by omega]
  · refine BitVec.eq_of_getLsbD_eq fun k hk => ?_
    rw [reservedField, BitVec.getLsbD_extractLsb', bit]
    simp [hk]

theorem crc8Init : Statement .crc8Init := fields_of_append _ _ _
theorem crc8Byte : Statement .crc8Byte := fields_of_append _ _ _
theorem crc8Block : Statement .crc8Block := fields_of_append _ _ _
theorem crc8Check : Statement .crc8Check := fields_of_append _ _ _
theorem crc16Init : Statement .crc16Init := fields_of_append _ _ _
theorem crc16Byte : Statement .crc16Byte := fields_of_append _ _ _
theorem crc16Block : Statement .crc16Block := fields_of_append _ _ _
theorem crc16Check : Statement .crc16Check := fields_of_append _ _ _
theorem crc16Emit : Statement .crc16Emit := fields_of_append _ _ _
theorem read (cont : Bool) (pwsel : BitVec 2) :
    Statement (.read cont pwsel) := fields_of_append _ _ _
theorem write (pwsel : BitVec 2) : Statement (.write pwsel) := fields_of_append _ _ _
theorem forceVerify : Statement .forceVerify := fields_of_append _ _ _
theorem readPage (cont : Bool) (pwsel : BitVec 2) :
    Statement (.readPage cont pwsel) := fields_of_append _ _ _
theorem readPageExtra (cont : Bool) (pwsel : BitVec 2) :
    Statement (.readPageExtra cont pwsel) := fields_of_append _ _ _
theorem readPageCrc (cont : Bool) (pwsel : BitVec 2) :
    Statement (.readPageCrc cont pwsel) := fields_of_append _ _ _
theorem readPageCrcExtra (cont : Bool) (pwsel : BitVec 2) :
    Statement (.readPageCrcExtra cont pwsel) := fields_of_append _ _ _
theorem readPagePacket (cont : Bool) (pwsel : BitVec 2) :
    Statement (.readPagePacket cont pwsel) := fields_of_append _ _ _
theorem writePagePacket (pwsel : BitVec 2) :
    Statement (.writePagePacket pwsel) := fields_of_append _ _ _
theorem lockPage : Statement .lockPage := fields_of_append _ _ _
theorem isPageLocked : Statement .isPageLocked := fields_of_append _ _ _
theorem redirectPage : Statement .redirectPage := fields_of_append _ _ _
theorem getRedirectedPage : Statement .getRedirectedPage := fields_of_append _ _ _
theorem lockRedirectPage : Statement .lockRedirectPage := fields_of_append _ _ _
theorem isRedirectPageLocked : Statement .isRedirectPageLocked := fields_of_append _ _ _
theorem spWrite : Statement .spWrite := fields_of_append _ _ _
theorem spReadVerify : Statement .spReadVerify := fields_of_append _ _ _
theorem spVerifyPassword (pwsel : BitVec 2) :
    Statement (.spVerifyPassword pwsel) := fields_of_append _ _ _
theorem spCopy : Statement .spCopy := fields_of_append _ _ _
theorem pwLoad (pwsel : BitVec 2) : Statement (.pwLoad pwsel) := fields_of_append _ _ _
theorem pwClear (pwsel : BitVec 2) : Statement (.pwClear pwsel) := fields_of_append _ _ _

end Sys2Proof.Laws.EncodeFields
end

