-- ==== Sys2Proof/Laws/Rows.lean ====
section
/-! SUPPORT. What the steps of one row of a write through the scratchpad answer: stage, verify,
challenge and copy, each where it is good and in every way it fails, in a command that no limit cuts
(spec/41_bank.md R126, spec/44_scratchpad.md R182 to R190). -/

namespace Sys2Proof.Machine

variable {s : State}

/-! ### A state with a row in its staged registers -/

/-- `s` with the row `(ta, ys)` staged, the status echo `e` and the FSM state `p`. -/
def State.inRow (ta : Nat) (ys : List Byte) (e : Byte) (p : SpState) (s : State) : State :=
  { s with
    spTA := BitVec.ofNat 16 ta
    spLen := BitVec.ofNat 9 ys.length
    spBuf := ys ++ s.spBuf.drop ys.length
    spES := e
    spState := p }

section
variable {ta : Nat} {ys : List Byte} {e : Byte} {p : SpState}

@[simp] theorem State.inRow_desc : (s.inRow ta ys e p).desc = s.desc := rfl
@[simp] theorem State.inRow_bus : (s.inRow ta ys e p).bus = s.bus := rfl
@[simp] theorem State.inRow_speedOk : (s.inRow ta ys e p).speedOk = s.speedOk := rfl
@[simp] theorem State.inRow_pw : (s.inRow ta ys e p).pw = s.pw := rfl
@[simp] theorem State.inRow_verify : (s.inRow ta ys e p).verify = s.verify := rfl
@[simp] theorem State.inRow_spTA : (s.inRow ta ys e p).spTA = BitVec.ofNat 16 ta := rfl
@[simp] theorem State.inRow_spLen : (s.inRow ta ys e p).spLen = BitVec.ofNat 9 ys.length := rfl
@[simp] theorem State.inRow_spES : (s.inRow ta ys e p).spES = e := rfl
@[simp] theorem State.inRow_spState : (s.inRow ta ys e p).spState = p := rfl
@[simp] theorem State.inRow_spBuf :
    (s.inRow ta ys e p).spBuf = ys ++ s.spBuf.drop ys.length := rfl
@[simp] theorem State.inRow_prologueAsks :
    (s.inRow ta ys e p).prologueAsks = s.prologueAsks := rfl
@[simp] theorem State.inRow_advance (v : Bool) (es : List BusEvent) (nb ny : Nat) :
    (s.inRow ta ys e p).advance v es nb ny = (s.advance v es nb ny).inRow ta ys e p := rfl
end

theorem State.prologueAsks_of_speed (hs : s.speedOk = true) : s.prologueAsks = 1 := by
  simp [State.prologueAsks, hs]

/-! ### Stage -/

theorem stageRow_yes (hl : s.bus.limit = none) (h : s.bus.yes s.prologueAsks) (ta : Nat)
    (ys : List Byte) :
    spWriteProc ta ys s =
      .ok () ((s.advance true (stageEvents s.desc s.speedOk ta ys) s.prologueAsks 0).inRow
        ta ys 0 .written) :=
  spWriteProc_yes hl h ta ys

theorem stageRow_no (hl : s.bus.limit = none) (h : ¬ s.bus.yes s.prologueAsks) (ta : Nat)
    (ys : List Byte) :
    ∃ v nb, spWriteProc ta ys s = .raised .communication (s.advance v
      (failedPrologue s.desc s.speedOk (s.bus.boolAnswer s.bus.nBool)) nb 0) := by
  obtain ⟨v, nb, e⟩ := prologue_no hl h
  exact ⟨v, nb, by rw [spWriteProc, e, Run.bind_raised]⟩

/-! ### Verify -/

theorem loByte_eq (c : Half) : loByte c.toNat = c.setWidth 8 := by
  simp [loByte, BitVec.ofNat_toNat]

theorem hiByte_eq (c : Half) : hiByte c.toNat = (c >>> 8).setWidth 8 := by
  apply BitVec.eq_of_toNat_eq
  simp [hiByte, Nat.shiftRight_eq_div_pow]

/-- The outcome of `SpVerifyProc` by whether the read-back is good (44_scratchpad.md R184). -/
theorem verifyOutcome_eq {t : State} {k : Nat} {ys : List Byte} (hd : t.desc = s.desc)
    (hl : t.spLen.toNat = ys.length) (hb : t.spBuf.take t.spLen.toNat = ys) :
    verifyOutcome (s.bus.byteAnswers k (hdrLen s.desc))
      (s.bus.byteAnswers (k + hdrLen s.desc) ys.length)
      (s.bus.byteAnswers (k + hdrLen s.desc + ys.length) (crcLen s.desc)) t =
      if s.readsBack k t.spTA ys then
        .ok () { t with
          spES := if s.desc.spAddr then s.bus.byteAnswer (k + 2) else t.spES
          spState := .verified }
      else .raised (if s.crcReadsBack k ys.length then .verification else .integrity) t := by
  have hecho : (s.desc.spAddr = true ∧
      echoOk t (s.bus.byteAnswers k (hdrLen s.desc)) = false) ↔ ¬(s.desc.spAddr = true →
        s.bus.byteAnswer k = t.spTA.setWidth 8 ∧
        s.bus.byteAnswer (k + 1) = (t.spTA >>> 8).setWidth 8 ∧
        esCount s.desc t.spTA (s.bus.byteAnswer (k + 2)) = ys.length) := by
    rw [Classical.not_imp]
    refine and_congr_right fun ha => ?_
    simp [echoOk, hdrLen, ha, Bus.byteAnswers, loByte_eq, hiByte_eq, hd, hl]
  have hcrc : (s.desc.spCrc = true ∧ crc16 (s.desc.cmdRS ::
      s.bus.byteAnswers k (hdrLen s.desc) ++ s.bus.byteAnswers (k + hdrLen s.desc) ys.length ++
      s.bus.byteAnswers (k + hdrLen s.desc + ys.length) (crcLen s.desc)) 0 ≠ Config.accept16) ↔
      ¬ s.crcReadsBack k ys.length := by
    rw [State.crcReadsBack, Classical.not_imp]; rfl
  simp only [verifyOutcome, hd, hb]
  by_cases h1 : s.crcReadsBack k ys.length
  · rw [if_neg (by rw [hcrc]; exact not_not.2 h1), if_pos h1]
    by_cases h2 : s.desc.spAddr = true ∧ echoOk t (s.bus.byteAnswers k (hdrLen s.desc)) = false
    · rw [if_pos h2, if_neg fun h => hecho.1 h2 h.2.1]
    · rw [if_neg h2]
      have h2 := not_not.1 (mt hecho.2 h2)
      by_cases h3 : s.bus.byteAnswers (k + hdrLen s.desc) ys.length = ys
      · rw [if_neg (not_not.2 h3),
          if_pos (show s.readsBack k t.spTA ys from ⟨h1, h2, h3⟩)]
        by_cases ha : s.desc.spAddr = true <;> simp [hdrLen, ha, Bus.byteAnswers]
      · rw [if_pos h3, if_neg fun h => h3 h.2.2]
  · rw [if_pos (hcrc.2 h1), if_neg h1, if_neg fun h => h1 h.1]

/-- `SpVerifyProc` of a staged row where the device is selected (44_scratchpad.md R184). -/
theorem verifyRow_yes (hl : s.bus.limit = none) (hs : s.speedOk = true) (h : s.bus.yes 1)
    {ta : Nat} {ys : List Byte} (hy : ys.length ≤ 256) :
    spVerifyProc (s.inRow ta ys 0 .written) =
      if s.readsBack s.bus.nByte (BitVec.ofNat 16 ta) ys then
        .ok () ((s.advance true (verifyEvents s.desc true
            (s.bus.byteAnswers s.bus.nByte (hdrLen s.desc)) ys
            (s.bus.byteAnswers (s.bus.nByte + hdrLen s.desc + ys.length) (crcLen s.desc))) 1
            (hdrLen s.desc + ys.length + crcLen s.desc)).inRow ta ys
          (if s.desc.spAddr then s.bus.byteAnswer (s.bus.nByte + 2) else 0) .verified)
      else .raised (if s.crcReadsBack s.bus.nByte ys.length then .verification else .integrity)
        ((s.advance true (verifyEvents s.desc true
            (s.bus.byteAnswers s.bus.nByte (hdrLen s.desc))
            (s.bus.byteAnswers (s.bus.nByte + hdrLen s.desc) ys.length)
            (s.bus.byteAnswers (s.bus.nByte + hdrLen s.desc + ys.length) (crcLen s.desc))) 1
            (hdrLen s.desc + ys.length + crcLen s.desc)).inRow ta ys 0 .written) := by
  have hn : (BitVec.ofNat 9 ys.length).toNat = ys.length := by simp; omega
  rw [spVerifyProc_yes (by simpa using hl)
    (by rw [State.inRow_prologueAsks, State.prologueAsks_of_speed hs]; simpa using h)]
  simp only [State.inRow_bus, State.inRow_desc, State.inRow_speedOk, State.inRow_spLen,
    State.inRow_prologueAsks, State.prologueAsks_of_speed hs, State.inRow_advance, hn, hs]
  rw [verifyOutcome_eq (s := s) (t := (s.advance true _ 1 _).inRow ta ys 0 .written) rfl
    (by simpa using hn) (by simp [hn])]
  simp only [State.inRow_spTA, State.inRow_spES]
  refine ite_congr rfl (fun hg => ?_) fun _ => rfl
  change Run.ok () ((s.advance true (verifyEvents s.desc true
    (s.bus.byteAnswers s.bus.nByte (hdrLen s.desc))
    (s.bus.byteAnswers (s.bus.nByte + hdrLen s.desc) ys.length)
    (s.bus.byteAnswers (s.bus.nByte + hdrLen s.desc + ys.length) (crcLen s.desc))) 1
    (hdrLen s.desc + ys.length + crcLen s.desc)).inRow ta ys _ .verified) = _
  rw [hg.2.2]

/-- `SpVerifyProc` of a staged row whose device is not selected. -/
theorem verifyRow_no (hl : s.bus.limit = none) (hs : s.speedOk = true)
    (h : s.bus.boolAnswer s.bus.nBool = false) (ta : Nat) (ys : List Byte) (e : Byte)
    (p : SpState) :
    spVerifyProc (s.inRow ta ys e p) = .raised .communication
      ((s.advance true [.select s.desc.devAddr false] 1 0).inRow ta ys e p) := by
  rw [spVerifyProc, prologue_unselected (s := s.inRow ta ys e p) (by simpa using hl) hs h,
    Run.bind_raised]
  rfl

/-! ### Challenge -/

theorem targetBytes_row (ta : Nat) : targetBytes (BitVec.ofNat 16 ta).toNat = targetBytes ta := by
  rw [BitVec.toNat_ofNat]; exact targetBytes_mod ta

/-- The challenge of a row, or none, where power can be delivered and the answer is the accept byte
(41_bank.md R126). -/
theorem challengeRow_yes (hl : s.bus.limit = none) (hs : s.speedOk = true)
    (h : s.bus.yes (2 * s.desc.pwGated.toNat))
    (hb : s.desc.pwGated = true → s.bus.byteAnswer s.bus.nByte = s.desc.pwAccept)
    (slot : PwSlot) (ta : Nat) (ys : List Byte) (e : Byte) :
    chunkChallenge slot (s.inRow ta ys e .verified) = .ok ()
      ((s.advance true (rowChallengeEvents s.desc (s.pw.get slot).bytes ta)
        (2 * s.desc.pwGated.toNat) s.desc.pwGated.toNat).inRow ta ys e
          (if s.desc.pwGated then .authed else .verified)) := by
  cases hg : s.desc.pwGated with
  | false =>
    have := s.advance_nil
    rw [hs] at this
    simp [chunkChallenge, hg, rowChallengeEvents, this]
  | true =>
    rw [hg] at h
    have hy : (s.inRow ta ys e .verified).bus.yes (s.inRow ta ys e .verified).prologueAsks := by
      rw [State.inRow_prologueAsks, State.prologueAsks_of_speed hs]
      exact Bus.yes_mono h (by simp)
    rw [chunkChallenge, if_pos (by simpa using hg), prologue_yes (by simpa using hl) hy,
      Run.bind_ok]
    simp only [State.inRow_desc, State.inRow_speedOk, State.inRow_prologueAsks,
      State.prologueAsks_of_speed hs, State.inRow_advance, hs]
    rw [challenge_yes (s := (s.advance true _ 1 _).inRow ta ys e .verified) (by simpa using hl)
      (State.advance_yes (s := s) (m := 1) (Bus.yes_mono h (by simp)) true _ 0)]
    simp only [State.inRow_bus, State.inRow_desc, State.inRow_pw, State.inRow_speedOk,
      State.inRow_spTA, State.inRow_advance, State.advance_byteAnswer, State.advance_nByte,
      State.advance_desc, State.advance_pw, State.advance_speedOk, State.advance_advance,
      Nat.add_zero, Nat.zero_add, hb hg, if_true, Run.bind_ok]
    simp only [rowChallengeEvents, hg, if_true, challengeEvents, targetBytes_row]
    rfl

/-- On a password-gated bank the challenge of a row is the opening of a read that sends no read. -/
theorem chunkChallenge_gated (slot : PwSlot) (hg : s.desc.pwGated = true) :
    chunkChallenge slot s =
      (prologue false s).bind fun _ t =>
        (challenge slot t.spTA.toNat t).bind fun _ t => .ok () { t with spState := .authed } := by
  rw [chunkChallenge, if_pos hg]

/-- The challenge of a row that fails (41_bank.md R126, 44_scratchpad.md R186). -/
theorem challengeRow_no (hl : s.bus.limit = none) (hs : s.speedOk = true)
    (hg : s.desc.pwGated = true) {slot : PwSlot} {ta : Nat} {er : Err} {es : List BusEvent}
    (h : s.OpenFails (s.pw.get slot).bytes true s.bus.nBool s.bus.nByte ta er es)
    (ys : List Byte) (e : Byte) :
    ∃ v nb ny, chunkChallenge slot (s.inRow ta ys e .verified) =
        .raised er ((s.advance v es nb ny).inRow ta ys e .verified) ∧
      (er = .powerUnavailable → v = true) ∧
      (er ∈ [.communication, .powerUnavailable, .authentication]) := by
  have hp := State.prologueAsks_of_speed hs
  rw [chunkChallenge_gated slot (by simpa using hg)]
  cases h with
  | unselected no =>
    have h0 : s.bus.boolAnswer s.bus.nBool = false := by
      by_contra hc
      refine no fun k hk => ?_
      obtain rfl : k = 0 := by simpa [asksOf] using hk
      simpa using hc
    refine ⟨true, 1, 0, ?_, nofun, by simp⟩
    rw [prologue_unselected (by simpa using hl) (by simpa using hs) (by simpa using h0),
      Run.bind_raised]
    rfl
  | unpowered _ yes no =>
    refine ⟨true, 1 + 1, 0, ?_, fun _ => rfl, by simp⟩
    rw [prologue_yes (by simpa using hl) (by
      rw [State.inRow_prologueAsks, hp]; simpa [asksOf] using yes), Run.bind_ok]
    simp only [State.inRow_advance, State.inRow_prologueAsks, hp]
    rw [challenge_no (s := (s.advance true _ 1 _).inRow ta ys e .verified)
      (by simpa using hl) (by simpa [asksOf] using no), Run.bind_raised]
    simp only [State.inRow_desc, State.inRow_speedOk, State.inRow_advance, State.advance_advance,
      State.advance_speedOk, hs]
  | rejected _ yes wrong =>
    refine ⟨true, 1 + 1, 0 + 1, ?_, nofun, by simp⟩
    rw [prologue_yes (by simpa using hl) (by
      rw [State.inRow_prologueAsks, hp]
      simpa using Bus.yes_mono (n := 2) (by simpa [asksOf] using yes) (by omega)), Run.bind_ok]
    simp only [State.inRow_advance, State.inRow_prologueAsks, hp]
    rw [challenge_yes (s := (s.advance true _ 1 _).inRow ta ys e .verified) (by simpa using hl)
      (State.advance_yes (s := s) (m := 1) (n := 1) (by simpa [asksOf] using yes) true _ 0),
      if_neg (by simpa using wrong), Run.bind_raised]
    simp only [State.inRow_desc, State.inRow_speedOk, State.inRow_bus, State.inRow_pw,
      State.inRow_spTA, State.inRow_advance, State.advance_advance, State.advance_speedOk, hs,
      State.advance_byteAnswer, State.advance_nByte, State.advance_desc, State.advance_pw,
      Nat.add_zero, challengeEvents, targetBytes_row, openEvents, hg, if_true,
      Bool.false_eq_true, if_false]

/-! ### Copy -/

/-- The copy of a row where power can be delivered and the device is selected, by the confirmation
byte (44_scratchpad.md R190). -/
theorem copyRow_yes (hl : s.bus.limit = none) (hs : s.speedOk = true) (h : s.bus.yes 2)
    (ta : Nat) (ys : List Byte) (e : Byte) (p : SpState) :
    spCopyProc (s.inRow ta ys e p) =
      if s.bus.byteAnswer s.bus.nByte = Config.commitFail then
        .raised .commit ((s.advance true (copyEvents s.desc true ta e
          (s.bus.byteAnswer s.bus.nByte)) 2 1).inRow ta ys e p)
      else .ok () ((s.advance true (copyEvents s.desc true ta e
          (s.bus.byteAnswer s.bus.nByte)) 2 1).inRow ta ys e .committed) := by
  rw [spCopyProc_yes (by simpa using hl)
    (by rw [State.inRow_prologueAsks, State.prologueAsks_of_speed hs]; simpa using h)]
  simp only [State.inRow_bus, State.inRow_desc, State.inRow_speedOk, State.inRow_spTA,
    State.inRow_spES, State.inRow_prologueAsks, State.prologueAsks_of_speed hs, hs,
    State.inRow_advance, copyEvents, copySequence, targetBytes_row]
  rfl

/-- The copy of a row where power cannot be delivered. -/
theorem copyRow_unpowered (hl : s.bus.limit = none) (hs : s.speedOk = true)
    (h : s.bus.boolAnswer s.bus.nBool = false) (ta : Nat) (ys : List Byte) (e : Byte)
    (p : SpState) :
    spCopyProc (s.inRow ta ys e p) = .raised .powerUnavailable
      ((s.advance true [.canDeliverPower false] 1 0).inRow ta ys e p) := by
  rw [spCopyProc_no (by simpa using hl) (by simpa using h), State.inRow_speedOk, hs]
  rfl

/-- A copy where power can be delivered and the prologue fails: no pulse is made
(44_scratchpad.md R190). -/
theorem spCopyProc_unselected (hl : s.bus.limit = none) (h0 : s.bus.yes 1)
    (h : ¬ s.bus.yesFrom (s.bus.nBool + 1) s.prologueAsks) :
    ∃ v nb, spCopyProc s = .raised .communication (s.advance v ([.canDeliverPower true] ++
      failedPrologue s.desc s.speedOk (s.bus.boolAnswer (s.bus.nBool + 1))) nb 0) := by
  rw [spCopyProc, requirePower_yes hl h0, Run.bind_ok]
  obtain ⟨v, nb, e⟩ := prologue_no (s := s.advance s.speedOk [.canDeliverPower true] 1 0)
    (by simpa using hl) h
  rw [e, Run.bind_raised, State.advance_advance]
  exact ⟨v, _, rfl⟩

/-- The copy of a row where power can be delivered and the device is not selected. -/
theorem copyRow_unselected (hl : s.bus.limit = none) (hs : s.speedOk = true) (h0 : s.bus.yes 1)
    (h : s.bus.boolAnswer (s.bus.nBool + 1) = false) (ta : Nat) (ys : List Byte) (e : Byte)
    (p : SpState) :
    ∃ v nb, spCopyProc (s.inRow ta ys e p) = .raised .communication
      ((s.advance v [.canDeliverPower true, .select s.desc.devAddr false] nb 0).inRow
        ta ys e p) := by
  obtain ⟨v, nb, f⟩ := spCopyProc_unselected (s := s.inRow ta ys e p) (by simpa using hl)
    (by simpa using h0) fun hc => by
      have := hc 0 (by rw [State.inRow_prologueAsks, State.prologueAsks_of_speed hs]; omega)
      simp [h] at this
  rw [State.inRow_desc, State.inRow_speedOk, hs] at f
  exact ⟨v, nb, f⟩

end Sys2Proof.Machine
end

