-- ==== Sys2Proof/Laws/Reaches.lean ====
section
/-! SUPPORT. Where a command opens a read or asks a prologue, what it did by then, and what a raise
there leaves (spec/41_bank.md R120 to R128, spec/60_exceptions.md R204 to R206). -/

namespace Sys2Proof.Machine

variable {s : State} {α β γ : Type}

theorem Run.bind_assoc (r : Run α) (f : α → State → Run β) (g : β → State → Run γ) :
    (r.bind f).bind g = r.bind fun a t => (f a t).bind g := by
  cases r <;> rfl

/-- An input window that holds `xs` lets the command run on `xs` (20_memory.md R64). -/
theorem withInput_is {n : Nat} {xs : List Byte} (h : s.inputIs n xs) (k : List Byte → Run α) :
    withInput n (s.start none) k = k xs := by
  have e : (s.start none).dbuf.readRange (s.start none).argOff.toNat n = some xs :=
    (Memory.readRange_eq_some _ _ _ _).2 ⟨h.2.1, h.2.2⟩
  rw [withInput, withWindow_of_le _ (by exact h.1), e]

theorem input_ne {xs : List Byte} (h : s.inputIs s.argLen.toNat xs) (hn : s.argLen ≠ 0) :
    xs ≠ [] := by
  rintro rfl
  exact hn (BitVec.eq_of_toNat_eq (by simpa using h.2.1.symm))

theorem withSlot_is {pwsel : BitVec 2} {slot : PwSlot} (h : slotOf pwsel = some slot)
    (k : PwSlot → Run α) : withSlot pwsel k = k slot := by
  rw [withSlot, h]

/-! ### A command on its way -/

/-- The state of a command that made the bus events `es`, asked `nb` questions and took `ny` bytes,
with SPEED_OK, CONT_OK and SP_STATE as given. -/
def State.came (v : Bool) (es : List BusEvent) (nb ny : Nat) (c : Bool) (p : SpState) (s : State) :
    State :=
  { (s.start none).advance v es nb ny with contOk := c, spState := p }

section
variable {v c : Bool} {es : List BusEvent} {nb ny : Nat} {p : SpState}

@[simp] theorem State.came_desc : (s.came v es nb ny c p).desc = s.desc := rfl
@[simp] theorem State.came_speedOk : (s.came v es nb ny c p).speedOk = v := rfl
@[simp] theorem State.came_contOk : (s.came v es nb ny c p).contOk = c := rfl
@[simp] theorem State.came_spState : (s.came v es nb ny c p).spState = p := rfl
@[simp] theorem State.came_pw : (s.came v es nb ny c p).pw = s.pw := rfl
@[simp] theorem State.came_verify : (s.came v es nb ny c p).verify = s.verify := rfl
@[simp] theorem State.came_limit : (s.came v es nb ny c p).bus.limit = none := rfl
@[simp] theorem State.came_nBool : (s.came v es nb ny c p).bus.nBool = s.bus.nBool + nb := rfl
@[simp] theorem State.came_nByte : (s.came v es nb ny c p).bus.nByte = s.bus.nByte + ny := rfl
@[simp] theorem State.came_boolAnswer (k : Nat) :
    (s.came v es nb ny c p).bus.boolAnswer k = s.bus.boolAnswer k := rfl
@[simp] theorem State.came_byteAnswer (k : Nat) :
    (s.came v es nb ny c p).bus.byteAnswer k = s.bus.byteAnswer k := rfl
@[simp] theorem State.came_prologueAsks : (s.came v es nb ny c p).prologueAsks = asksOf v := rfl
@[simp] theorem State.came_abandonSp :
    (s.came v es nb ny c p).abandonSp = s.came v es nb ny c p.abandon := rfl

theorem State.came_advance (v' : Bool) (es' : List BusEvent) (nb' ny' : Nat) :
    (s.came v es nb ny c p).advance v' es' nb' ny' =
      s.came v' (es ++ es') (nb + nb') (ny + ny') c p := by
  simp [State.came, State.advance, Nat.add_assoc]

theorem State.came_start (c : Bool) (p : SpState) :
    ({ s.start none with contOk := c, spState := p } : State) = s.came s.speedOk [] 0 0 c p := by
  simp [State.came, State.advance]

/-- What a raise that clears SPEED_OK leaves, from a state on the way (60_exceptions.md R204). -/
theorem State.came_busRaise {k : CommandClass} {e : Err} (hk : k ≠ .internal)
    (he : clearsSpeed k e = true) (hp : p.abandon = s.spState.abandon) :
    BusRaise s ((s.came v es nb ny c p).raise k e) e es := by
  cases k with
  | internal => exact absurd rfl hk
  | _ =>
    refine ⟨⟨⟨rfl, rfl, rfl, rfl, fun _ => rfl⟩, ?_, rfl, ⟨rfl, rfl, rfl, rfl, rfl, rfl, rfl, rfl,
      rfl, rfl, rfl, rfl, rfl⟩, ⟨rfl, rfl⟩, rfl⟩, hp, ⟨rfl, rfl, rfl, rfl⟩, rfl⟩
    simp [State.raise, State.raiseFlags, he]

/-- What a PowerUnavailable leaves, from a state on the way (60_exceptions.md R204). -/
theorem State.came_powerRaise {k : CommandClass} (hk : k ≠ .internal)
    (hp : p.abandon = s.spState.abandon) :
    PowerRaise s ((s.came v es nb ny c p).raise k .powerUnavailable) es v := by
  cases k with
  | internal => exact absurd rfl hk
  | _ =>
    refine ⟨⟨rfl, rfl, rfl, rfl, fun _ => rfl⟩, rfl, ?_, rfl, hp, ⟨rfl, rfl, rfl, rfl, rfl, rfl,
      rfl, rfl, rfl, rfl, rfl, rfl, rfl⟩, ⟨rfl, rfl⟩, ⟨rfl, rfl, rfl, rfl⟩, rfl⟩
    simp [State.raise, State.raiseFlags, clearsSpeed]
end

/-- Every question of a state on the way is answered by those that `s` has left. -/
theorem State.came_yes {v c : Bool} {es : List BusEvent} {nb ny n : Nat} {p : SpState}
    (h : s.bus.yes (nb + n)) : (s.came v es nb ny c p).bus.yes n := fun k hk => by
  have := h (nb + k) (by omega)
  simpa [Nat.add_assoc] using this

/-! ### Writes -/

/-- `WriteBytes` up to its transfer, where its checks pass (41_bank.md R124 to R126). -/
theorem writeBytes_checked {a : Nat} {xs : List Byte} (range : a + xs.length ≤ s.desc.size)
    (writable : Writable s.desc) (yes : s.bus.yes (powerAsks s.desc)) (slot : PwSlot) :
    writeBytes a xs slot { s.start none with contOk := false } =
      (transferBytes (s.desc.physOff + a) xs slot
        (s.came s.speedOk s.powerEvents (powerAsks s.desc) 0 false s.spState.abandon)).bind
        fun _ t => readBack (t.desc.physOff + a) xs slot t := by
  have e : ({ s.start none with contOk := false } : State) =
      s.came s.speedOk [] 0 0 false s.spState := s.came_start false s.spState
  have ep : (s.came s.speedOk [] 0 0 false s.spState).powerEvents = s.powerEvents := by
    simp [State.powerEvents]
  rw [e, writeBytes, if_neg (by simpa using range), writeCheck_ok (by simpa using writable),
    Run.bind_ok, powerCheck_yes rfl (State.came_yes (by simpa using yes)), Run.bind_ok, ep,
    State.came_advance, State.came_abandonSp]
  simp

/-- The body of WRITE is `WriteBytes` at ARG_ADDR (41_bank.md R128). -/
theorem bodyWrite_is {pwsel : BitVec 2} {slot : PwSlot} {xs : List Byte}
    (h : slotOf pwsel = some slot) (input : s.inputIs s.argLen.toNat xs) :
    bodyWrite pwsel (s.start none) =
      (writeBytes s.argAddr.toNat xs slot { s.start none with contOk := false }).bind fun _ t =>
        .ok (.plain s.argLen) t := by
  rw [bodyWrite, withSlot_is h]
  exact withInput_is input _

theorem transferBytes_nil (p : Nat) (slot : PwSlot) (t : State) :
    transferBytes p [] slot t = .ok () t := by
  rw [transferBytes]; split <;> rfl

/-! ### Openings -/

theorem State.ReachesOpen.legal {pwsel : BitVec 2} {i : Instr} {ta q : Nat} {es : List BusEvent}
    (h : s.ReachesOpen pwsel i ta q es) : pwsel ≠ 3 := by
  cases h with
  | read starts range => exact starts.1
  | page has starts range => exact starts.1
  | emptyWrite legal verify empty input range writable yes => exact legal

/-- A command that comes to the opening of a read comes to it in this state. -/
theorem reachesOpen_body {pwsel : BitVec 2} {slot : PwSlot} {i : Instr} {ta q : Nat}
    {es : List BusEvent} (hp : slotOf pwsel = some slot) (h : s.ReachesOpen pwsel i ta q es) :
    commandClass i ≠ .internal ∧ ∃ c k, commandBody i (s.start none) =
      (openRead false slot ta (s.came s.speedOk es q 0 c s.spState.abandon)).bind k := by
  have start : (s.start none).abandonSp = s.came s.speedOk [] 0 0 s.contOk s.spState.abandon := by
    simp [State.came, State.advance, State.abandonSp]
  cases h with
  | read starts range =>
    refine ⟨by simp [commandClass], s.contOk, ?_⟩
    change ∃ k, bodyRead false pwsel (s.start none) = Run.bind _ k
    rw [bodyRead, withSlot_is hp, withWindow_of_le _ (by exact starts.2.1), withCont,
      if_neg (by simp), if_neg (by simpa using range), start]
    exact ⟨_, rfl⟩
  | page has starts range =>
    have hpage : (s.start none).pageOk = true := decide_eq_true range
    simp only [List.mem_cons, Prod.mk.injEq, List.not_mem_nil, or_false, and_true] at has
    rcases has with rfl | ⟨rfl, hx⟩ | ⟨rfl, hx⟩ | ⟨rfl, hx⟩ | rfl <;>
      refine ⟨by simp [commandClass], s.contOk, ?_⟩
    · change ∃ k, bodyReadPage false pwsel (s.start none) = Run.bind _ k
      rw [bodyReadPage, withSlot_is hp, withWindow_of_le _ (by exact starts.2.1), withCont,
        if_neg (by simp), if_neg (by simp [hpage]), start]
      exact ⟨_, rfl⟩
    · change ∃ k, bodyReadPageExtra false pwsel (s.start none) = Run.bind _ k
      rw [bodyReadPageExtra, withSlot_is hp, withWindow_of_le _ (by exact starts.2.1), withCont,
        if_neg (by simp), if_neg (by simp [← hx]), if_neg (by simp [hpage]), start]
      exact ⟨_, rfl⟩
    · change ∃ k, bodyReadPageCrc false pwsel (s.start none) = Run.bind _ k
      rw [bodyReadPageCrc, withSlot_is hp, withWindow_of_le _ (by exact starts.2.1), withCont,
        if_neg (by simp), if_neg (by simp [← hx]), if_neg (by simp [hpage]), start]
      exact ⟨_, rfl⟩
    · change ∃ k, bodyReadPageCrcExtra false pwsel (s.start none) = Run.bind _ k
      simp only [Bool.true_eq, Bool.and_eq_true] at hx
      rw [bodyReadPageCrcExtra, withSlot_is hp, withWindow_of_le _ (by exact starts.2.1), withCont,
        if_neg (by simp), if_neg (by simp [hx]), if_neg (by simp [hpage]), start]
      exact ⟨_, rfl⟩
    · change ∃ k, bodyReadPagePacket false pwsel (s.start none) = Run.bind _ k
      rw [bodyReadPagePacket, withSlot_is hp, withWindow_of_le _ (by exact starts.2.1), withCont,
        if_neg (by simp), if_neg (by simp [hpage]), start]
      exact ⟨_, rfl⟩
  | emptyWrite legal verify empty input range writable yes =>
    refine ⟨by simp [commandClass], false, ?_⟩
    change ∃ k, bodyWrite pwsel (s.start none) = Run.bind _ k
    rw [bodyWrite_is (xs := []) hp (by simpa [State.inputIs, empty] using input),
      writeBytes_checked (by simpa using range) writable yes, transferBytes_nil, Run.bind_ok,
      readBack, if_pos (by simpa using verify), Run.bind_assoc]
    exact ⟨_, rfl⟩

/-! ### Prologues -/

/-- The opening of a read that is not continued begins with a prologue (41_bank.md R121). -/
theorem openRead_prologue (slot : PwSlot) (ta : Nat) (t : State) :
    ∃ k, openRead false slot ta t = (prologue false t).bind k := ⟨_, rfl⟩

/-- `UdpEncode` in the words of R145. -/
theorem udpEncode_eq (absPage : Nat) (xs : List Byte) :
    udpEncode absPage xs = packetOf absPage xs := by
  have e : ∀ c : Half, ~~~c = c ^^^ 0xFFFF := fun c => (BitVec.xor_allOnes (x := c)).symm
  simp only [udpEncode, packetOf, lowFirst, packetSeed, loByte_eq, hiByte_eq, e]
  rfl

/-- The body of WRITE_PAGE_PACKET is `WriteBytes` of the packet (42_paged.md R148). -/
theorem bodyWritePagePacket_is {pwsel : BitVec 2} {slot : PwSlot} {xs : List Byte}
    (h : slotOf pwsel = some slot) (input : s.inputIs s.argLen.toNat xs)
    (fits : s.argLen.toNat ≤ s.desc.maxPkt) (range : s.argPage.toNat < s.desc.pageCount) :
    bodyWritePagePacket pwsel (s.start none) =
      (writeBytes s.pageAddr (packetOf s.pageAbs xs) slot
        { s.start none with contOk := false }).bind fun _ t => .ok (.plain s.argLen) t := by
  rw [bodyWritePagePacket, withSlot_is h]
  refine (withInput_is input _).trans ?_
  rw [if_neg (by simpa using fits), if_neg (by simp [State.pageOk, range]),
    udpEncode_eq]
  rfl

/-- The packet of a page lies inside the bank (42_paged.md R148). -/
theorem packet_fits (wf : s.desc.WF) {xs : List Byte} (hx : xs.length = s.argLen.toNat)
    (fits : s.argLen.toNat ≤ s.desc.maxPkt) (range : s.argPage.toNat < s.desc.pageCount) :
    s.pageAddr + (packetOf s.pageAbs xs).length ≤ s.desc.size := by
  have h1 := wf.1.2.2.2.2.2
  have h2 := wf.2.1
  have h3 := wf.1.2.2.1
  have hl : (packetOf s.pageAbs xs).length = xs.length + 3 := by simp [packetOf]
  have : (s.argPage.toNat + 1) * s.desc.pageLen ≤ s.desc.pageCount * s.desc.pageLen :=
    Nat.mul_le_mul_right _ range
  rw [Nat.add_mul] at this
  rw [← h1, hl, State.pageAddr]
  omega

/-- A direct write that passes its checks comes to its prologue, and behind it with verification on
to that of its read-back (41_bank.md R126, R127). -/
theorem writeBytes_prologue {a : Nat} {xs : List Byte} (range : a + xs.length ≤ s.desc.size)
    (writable : Writable s.desc) (yes : s.bus.yes (powerAsks s.desc)) (slot : PwSlot)
    (nonempty : xs ≠ []) :
    ∃ k, writeBytes a xs slot { s.start none with contOk := false } = (prologue false
      (s.came s.speedOk s.powerEvents (powerAsks s.desc) 0 false s.spState.abandon)).bind k := by
  rw [writeBytes_checked range writable yes, transferBytes]
  split
  · cases xs with
    | nil => exact absurd rfl nonempty
    | cons x xs =>
      rw [List.length_cons, writeChunks, if_neg (by simp), spWriteProc, Run.bind_assoc,
        Run.bind_assoc]
      exact ⟨_, rfl⟩
  · rw [if_pos (List.length_pos_iff.2 nonempty), directWrite, Run.bind_assoc]
    exact ⟨_, rfl⟩

theorem writeBytes_back {a : Nat} {xs : List Byte} (range : a + xs.length ≤ s.desc.size)
    (writable : Writable s.desc) (direct : s.desc.spPresent = false) (verify : s.verify = true)
    (yes : s.bus.yes (powerAsks s.desc + s.prologueAsks)) (slot : PwSlot) (nonempty : xs ≠ []) :
    ∃ k, writeBytes a xs slot { s.start none with contOk := false } = (prologue false
      (s.came true (s.powerEvents ++ directEvents s.desc s.speedOk (s.desc.physOff + a) xs)
        (powerAsks s.desc + s.prologueAsks) 0 false s.spState.abandon)).bind k := by
  rw [writeBytes_checked range writable (Bus.yes_mono yes (by omega)), transferBytes,
    if_neg (by simp [direct]), if_pos (List.length_pos_iff.2 nonempty),
    directWrite_yes rfl (State.came_yes (by exact yes)),
    Run.bind_ok, State.came_advance, readBack, if_pos (by simpa using verify), openRead,
    Run.bind_assoc]
  exact ⟨_, rfl⟩

/-- A one-way OTP command runs `otpMutate` (43_otp.md R161, R163, R165). -/
theorem otpStarts_body {i : Instr} {seq status : List Byte} (h : s.OtpStarts i seq status) :
    commandClass i ≠ .internal ∧ ∃ confirms v, commandBody i (s.start none) =
      otpMutate seq status confirms v (s.came s.speedOk [] 0 0 false s.spState) := by
  rw [← s.came_start false s.spState]
  cases h with
  | lock can range =>
    refine ⟨by simp [commandClass], ?_⟩
    change ∃ confirms v, bodyLockPage (s.start none) = _
    rw [bodyLockPage, if_neg (by simp [can]), if_neg (by simp [State.pageOk, range])]
    exact ⟨_, _, rfl⟩
  | lockRedirect can range =>
    refine ⟨by simp [commandClass], ?_⟩
    change ∃ confirms v, bodyLockRedirectPage (s.start none) = _
    rw [bodyLockRedirectPage, if_neg (by simp [can]), if_neg (by simp [State.pageOk, range])]
    exact ⟨_, _, rfl⟩
  | redirect can range named target =>
    refine ⟨by simp [commandClass], ?_⟩
    change ∃ confirms v, bodyRedirectPage (s.start none) = _
    rw [bodyRedirectPage, if_neg (by simp [can]), if_neg (by simp [State.pageOk, range]),
      if_neg (by rintro (h | h); exacts [named h, absurd h (Nat.not_lt.2 target)])]
    exact ⟨_, _, rfl⟩

/-- The power check of a state on the way, where every question is answered yes. -/
theorem State.came_powerCheck (yes : s.bus.yes (powerAsks s.desc)) (c : Bool) (p : SpState) :
    powerCheck (s.came s.speedOk [] 0 0 c p) =
      .ok () (s.came s.speedOk s.powerEvents (powerAsks s.desc) 0 c p) := by
  have e : (s.came s.speedOk [] 0 0 c p).powerEvents = s.powerEvents := by
    simp [State.powerEvents]
  rw [powerCheck_yes rfl (State.came_yes (by simpa using yes)), e, State.came_advance]
  simp

/-- A command that comes to a prologue comes to it in this state. -/
theorem reachesPrologue_body {i : Instr} {v : Bool} {q : Nat} {es : List BusEvent}
    (h : s.ReachesPrologue i v q es) :
    commandClass i ≠ .internal ∧ ∃ c p k, p.abandon = s.spState.abandon ∧
      commandBody i (s.start none) = (prologue false (s.came v es q 0 c p)).bind k := by
  have start := s.came_start false s.spState
  have page : s.argPage.toNat < s.desc.pageCount → (s.start none).pageOk = true :=
    fun h => decide_eq_true h
  cases h with
  | opening opens =>
    obtain ⟨slot, hp⟩ := slotOf_isSome opens.legal
    obtain ⟨hc, c, k, e⟩ := reachesOpen_body hp opens
    rw [openRead, Run.bind_assoc] at e
    exact ⟨hc, c, _, _, by simp, e⟩
  | write legal input nonempty range writable yes =>
    obtain ⟨slot, hp⟩ := slotOf_isSome legal
    obtain ⟨k, e⟩ := writeBytes_prologue (by rw [input.2.1]; exact range) writable yes slot
      (input_ne input nonempty)
    refine ⟨by simp [commandClass], false, s.spState.abandon, ?_⟩
    change ∃ k, _ ∧ bodyWrite _ (s.start none) = _
    rw [bodyWrite_is hp input, e, Run.bind_assoc]
    exact ⟨_, by simp, rfl⟩
  | writeBack legal input nonempty range writable direct verify yes =>
    obtain ⟨slot, hp⟩ := slotOf_isSome legal
    obtain ⟨k, e⟩ := writeBytes_back (by rw [input.2.1]; exact range) writable direct verify yes
      slot (input_ne input nonempty)
    refine ⟨by simp [commandClass], false, s.spState.abandon, ?_⟩
    change ∃ k, _ ∧ bodyWrite _ (s.start none) = _
    rw [bodyWrite_is hp input, e, Run.bind_assoc]
    exact ⟨_, by simp, rfl⟩
  | packet wf legal input fits range writable yes =>
    obtain ⟨slot, hp⟩ := slotOf_isSome legal
    obtain ⟨k, e⟩ := writeBytes_prologue (packet_fits wf input.2.1 fits range) writable yes slot
      (by simp [packetOf])
    refine ⟨by simp [commandClass], false, s.spState.abandon, ?_⟩
    change ∃ k, _ ∧ bodyWritePagePacket _ (s.start none) = _
    rw [bodyWritePagePacket_is hp input fits range, e, Run.bind_assoc]
    exact ⟨_, by simp, rfl⟩
  | packetBack wf legal input fits range writable direct verify yes =>
    obtain ⟨slot, hp⟩ := slotOf_isSome legal
    obtain ⟨k, e⟩ := writeBytes_back (packet_fits wf input.2.1 fits range) writable direct verify
      yes slot (by simp [packetOf])
    refine ⟨by simp [commandClass], false, s.spState.abandon, ?_⟩
    change ∃ k, _ ∧ bodyWritePagePacket _ (s.start none) = _
    rw [bodyWritePagePacket_is hp input fits range, e, Run.bind_assoc]
    exact ⟨_, by simp, rfl⟩
  | otpQuery can range =>
    simp only [List.mem_cons, Prod.mk.injEq, List.not_mem_nil, or_false] at can
    have query : ∀ {seq answer}, ∃ k, otpQuery true seq answer (s.start none) =
        (prologue false (s.came s.speedOk [] 0 0 false s.spState.abandon)).bind k := by
      intro seq answer
      rw [otpQuery, if_neg (by simp), if_neg (by simp [page range]), statusRead, Run.bind_assoc]
      exact ⟨_, by rw [← s.came_start]; rfl⟩
    rcases can with ⟨rfl, hx⟩ | ⟨rfl, hx⟩ | ⟨rfl, hx⟩ <;>
      refine ⟨by simp [commandClass], false, s.spState.abandon, ?_⟩
    · change ∃ k, _ ∧ bodyIsPageLocked (s.start none) = _
      obtain ⟨k, e⟩ := query
      exact ⟨k, by simp, by rw [bodyIsPageLocked, State.start_desc, ← hx, e]⟩
    · change ∃ k, _ ∧ bodyGetRedirectedPage (s.start none) = _
      obtain ⟨k, e⟩ := query
      exact ⟨k, by simp, by rw [bodyGetRedirectedPage, State.start_desc, ← hx, e]⟩
    · change ∃ k, _ ∧ bodyIsRedirectPageLocked (s.start none) = _
      obtain ⟨k, e⟩ := query
      exact ⟨k, by simp, by rw [bodyIsRedirectPageLocked, State.start_desc, ← hx, e]⟩
  | otpProgram starts yes =>
    obtain ⟨hc, f, v, e⟩ := otpStarts_body starts
    rw [otpMutate, State.came_powerCheck yes, Run.bind_ok, State.came_abandonSp, programSend,
      Run.bind_assoc] at e
    exact ⟨hc, _, _, _, by simp, e⟩
  | otpStatus starts yes =>
    obtain ⟨hc, f, v, e⟩ := otpStarts_body starts
    rw [otpMutate, State.came_powerCheck (Bus.yes_mono yes (by omega)), Run.bind_ok,
      State.came_abandonSp, programSend_yes rfl
        (State.came_yes (by exact yes)), Run.bind_ok,
      State.came_advance, statusRead, Run.bind_assoc] at e
    exact ⟨hc, _, _, _, by simp, e⟩
  | spWrite present input nonempty range row =>
    refine ⟨by simp [commandClass], false, s.spState.abandon, ?_⟩
    change ∃ k, _ ∧ bodySpWrite (s.start none) = _
    have out : ¬ spWriteOutOfRange (s.start none) = true := by
      have := input_ne input nonempty
      have hn : s.argLen.toNat ≠ 0 := fun h => this (List.length_eq_zero_iff.1 (input.2.1.trans h))
      intro h
      have h : s.argLen.toNat = 0 ∨ s.desc.spSize < s.argLen.toNat ∨
        s.desc.size < s.argAddr.toNat + s.argLen.toNat ∨
        s.desc.spSize < s.argPhys % s.desc.spSize + s.argLen.toNat := of_decide_eq_true h
      omega
    have e : bodySpWrite (s.start none) = _ := withInput_is input _
    rw [e, if_neg (by simp [present]), if_neg out, spWriteProc, Run.bind_assoc]
    exact ⟨_, by simp, by rw [← s.came_start]; rfl⟩
  | spReadVerify present order =>
    refine ⟨by simp [commandClass], false, s.spState, ?_⟩
    change ∃ k, _ ∧ bodySpReadVerify (s.start none) = _
    rw [bodySpReadVerify, if_neg (by simp [order]), if_neg (by simp [present]), spVerifyProc,
      Run.bind_assoc]
    exact ⟨_, rfl, by rw [← start]; rfl⟩
  | spVerifyPassword legal gated order =>
    obtain ⟨slot, hp⟩ := slotOf_isSome legal
    refine ⟨by simp [commandClass], false, s.spState, ?_⟩
    change ∃ k, _ ∧ bodySpVerifyPassword _ (s.start none) = _
    rw [bodySpVerifyPassword, withSlot_is hp, if_neg (by simp [order]), if_neg (by simp [gated])]
    exact ⟨_, rfl, by rw [← start]; rfl⟩
  | spCopy present order power =>
    refine ⟨by simp [commandClass], false, s.spState, ?_⟩
    change ∃ k, _ ∧ bodySpCopy (s.start none) = _
    rw [bodySpCopy, if_neg, if_neg, if_neg (by simp [present]),
      show ({ s.start none with contOk := false } : State) = _ from start, spCopyProc,
      requirePower_yes rfl (fun j hj => by obtain rfl : j = 0 := by omega
                                           simpa using power), Run.bind_ok, Run.bind_assoc,
      State.came_advance]
    · exact ⟨_, rfl, rfl⟩
    · rintro ⟨hg, ho⟩; exact ho (by rw [State.start_desc] at hg; simp [order, hg])
    · rintro ⟨-, hg, ho⟩; exact ho (by rw [State.start_desc] at hg; simp [order, hg])

end Sys2Proof.Machine
end

