-- ==== Sys2Proof/Laws/ReadBack.lean ====
section
/-! SUPPORT. The read-back of a write that is not made through the scratchpad, and what a read that
does not open again leaves (spec/41_bank.md R122, R126, R127; spec/60_exceptions.md R204 to
R206). -/

namespace Sys2Proof.Machine

variable {s : State} {v c : Bool} {fs : List BusEvent} {nb ny : Nat} {p : SpState}

/-! ### A read of a state on the way -/

@[simp] theorem State.came_openAsks :
    (s.came v fs nb ny c p).openAsks false = asksOf v + s.desc.pwGated.toNat := by
  simp [State.openAsks]

@[simp] theorem State.came_openBytes :
    (s.came v fs nb ny c p).openBytes false = s.desc.pwGated.toNat := by
  simp [State.openBytes]

/-- The opening of a read of a state on the way whose challenge, if it makes one, is accepted. -/
theorem State.came_openEvents (slot : PwSlot) (ta : Nat) (h : s.desc.pwGated = true →
      s.bus.byteAnswer (s.bus.nByte + ny) = s.desc.pwAccept) :
    (s.came v fs nb ny c p).openEvents false slot ta =
      Machine.openEvents s.desc v false (s.pw.get slot).bytes ta s.desc.pwAccept := by
  change Machine.openEvents s.desc v false (s.pw.get slot).bytes ta
    (s.bus.byteAnswer (s.bus.nByte + ny)) = _
  cases hg : s.desc.pwGated with
  | false => simp [Machine.openEvents, hg]
  | true => rw [h hg]

@[simp] theorem State.came_pollBlock (k n j : Nat) :
    (s.came v fs nb ny c p).pollBlock k n j = s.pollBlock k n j :=
  State.pollBlock_congr (s := s) (t := s.came v fs nb ny c p) rfl rfl k n j

@[simp] theorem State.came_pollEvents (cont : Bool) (pw : List Byte) (a n k r : Nat) :
    (s.came v fs nb ny c p).pollEvents cont pw a n k r = s.pollEvents cont pw a n k r :=
  State.pollEvents_congr (s := s) (t := s.came v fs nb ny c p) rfl rfl cont pw a n k r

theorem State.TakesBlock.came {q k n r : Nat} (h : s.TakesBlock q k n r) :
    (s.came v fs nb ny c p).TakesBlock q k n r :=
  State.TakesBlock.congr (s := s) (t := s.came v fs nb ny c p) rfl rfl rfl h

theorem State.PollFails.came {cont : Bool} {pw : List Byte} {a n q k : Nat} {e : Err}
    {es : List BusEvent} (h : s.PollFails cont pw a n q k e es) :
    (s.came v fs nb ny c p).PollFails cont pw a n q k e es :=
  State.PollFails.congr (s := s) (t := s.came v fs nb ny c p) rfl rfl rfl h

/-- What a read that does not open leaves, from a state on the way (60_exceptions.md R204 to
R206). -/
theorem State.came_readStopped {k : CommandClass} {e : Err} (hk : k ≠ .internal)
    (he : e ∈ [.communication, .powerUnavailable, .authentication])
    (hv : e = .powerUnavailable → v = true) (hp : p.abandon = s.spState.abandon) :
    ReadStopped s ((s.came v fs nb ny c p).raise k e) e fs := by
  simp only [List.mem_cons, List.not_mem_nil, or_false] at he
  rcases he with rfl | rfl | rfl
  · exact State.came_busRaise hk (by cases k <;> first | exact absurd rfl hk | rfl) hp
  · rw [hv rfl]; exact State.came_powerRaise hk hp
  · exact State.came_busRaise hk (by cases k <;> first | exact absurd rfl hk | rfl) hp

/-! ### A direct write -/

/-- `WriteBytes` up to its read-back on a bank without a scratchpad, or of no byte, where every
question is answered yes (41_bank.md R124 to R127). -/
theorem writeBytes_direct {a : Nat} {xs : List Byte} (range : a + xs.length ≤ s.desc.size)
    (writable : Writable s.desc) (direct : s.desc.spPresent = false ∨ xs = [])
    (yes : s.bus.yes (powerAsks s.desc + if 0 < xs.length then s.prologueAsks else 0))
    (slot : PwSlot) :
    writeBytes a xs slot { s.start none with contOk := false } =
      readBack (s.desc.physOff + a) xs slot (s.came (s.speedOk || decide (0 < xs.length))
        (s.powerEvents ++ if 0 < xs.length then
          directEvents s.desc s.speedOk (s.desc.physOff + a) xs else [])
        (powerAsks s.desc + if 0 < xs.length then s.prologueAsks else 0) 0 false
        s.spState.abandon) := by
  rw [writeBytes_checked range writable (Bus.yes_mono yes (by omega))]
  rcases List.eq_nil_or_concat xs with rfl | ⟨ys, y, rfl⟩
  · rw [transferBytes_nil, Run.bind_ok]
    simp
  · have h : 0 < (ys.concat y).length := by simp
    simp only [if_pos h] at yes ⊢
    rw [transferBytes, if_neg (by simpa using direct), if_pos h,
      directWrite_yes rfl (State.came_yes (by exact yes)), Run.bind_ok, State.came_advance]
    simp [State.prologueAsks]
    rfl

/-- The opening of a read of a state on the way that is answered well. -/
theorem State.came_readOpens (yes : s.bus.yes (nb + (asksOf v + s.desc.pwGated.toNat)))
    (accepted : s.desc.pwGated = true →
      s.bus.byteAnswer (s.bus.nByte + ny) = s.desc.pwAccept) :
    (s.came v fs nb ny c p).readOpens false := by
  refine ⟨?_, fun h => accepted ?_⟩
  · rw [State.came_openAsks]; exact State.came_yes yes
  · cases hg : s.desc.pwGated with
    | false => simp [hg] at h
    | true => rfl

/-- The read-back of a write on the way, whose opening is answered well, by the block it ends with
(41_bank.md R122, R126). -/
theorem readBack_came (verify : s.verify = true) (a : Nat) (xs : List Byte) (slot : PwSlot)
    (yes : s.bus.yes (nb + (asksOf v + s.desc.pwGated.toNat)))
    (accepted : s.desc.pwGated = true →
      s.bus.byteAnswer (s.bus.nByte + ny) = s.desc.pwAccept) {q k r : Nat}
    (hq : q = s.bus.nBool + (nb + (asksOf v + s.desc.pwGated.toNat)))
    (hk : k = s.bus.nByte + ny + s.desc.pwGated.toNat) (takes : s.TakesBlock q k xs.length r) :
    ∃ nb' ny' t, t = s.came true (fs ++ (openEvents s.desc v false (s.pw.get slot).bytes a
        s.desc.pwAccept ++ s.pollEvents false (s.pw.get slot).bytes a xs.length k r)) nb' ny' c p ∧
      readBack a xs slot (s.came v fs nb ny c p) =
        if s.pollBlock k xs.length r ≠ xs then .raised .verification t else .ok () t := by
  have hq' : q = (s.came v fs nb ny c p).bus.nBool + (s.came v fs nb ny c p).openAsks false := by
    rw [State.came_openAsks, State.came_nBool, hq, Nat.add_assoc]
  have hk' : k = (s.came v fs nb ny c p).bus.nByte + (s.came v fs nb ny c p).openBytes false := by
    rw [State.came_openBytes, State.came_nByte, hk]
  have h := takes.came (v := v) (fs := fs) (nb := nb) (ny := ny) (c := c) (p := p)
  rw [hq', hk'] at h
  obtain ⟨nb', ny', t, ht, e⟩ := readBack_on (s := s.came v fs nb ny c p) rfl verify a xs slot
    (State.came_readOpens yes accepted) h
  rw [← hk', State.came_openEvents slot a accepted, State.came_pollEvents,
    State.came_advance] at ht
  rw [← hk', State.came_pollBlock] at e
  exact ⟨_, _, t, ht, e⟩

/-- The read-back of a write on the way, whose opening is answered well and a retry of which fails
(41_bank.md R122, R126). -/
theorem readBack_came_fails (verify : s.verify = true) (a : Nat) (xs : List Byte) (slot : PwSlot)
    (yes : s.bus.yes (nb + (asksOf v + s.desc.pwGated.toNat)))
    (accepted : s.desc.pwGated = true →
      s.bus.byteAnswer (s.bus.nByte + ny) = s.desc.pwAccept) {q k : Nat}
    (hq : q = s.bus.nBool + (nb + (asksOf v + s.desc.pwGated.toNat)))
    (hk : k = s.bus.nByte + ny + s.desc.pwGated.toNat) {e : Err} {es : List BusEvent}
    (fails : s.PollFails false (s.pw.get slot).bytes a xs.length q k e es) :
    ∃ v' nb' ny', readBack a xs slot (s.came v fs nb ny c p) = .raised e (s.came v'
        (fs ++ (openEvents s.desc v false (s.pw.get slot).bytes a s.desc.pwAccept ++ es)) nb' ny'
        c p) ∧
      (e = .powerUnavailable → v' = true) ∧
      (e ∈ [.communication, .powerUnavailable, .authentication]) := by
  have hq' : q = (s.came v fs nb ny c p).bus.nBool + (s.came v fs nb ny c p).openAsks false := by
    rw [State.came_openAsks, State.came_nBool, hq, Nat.add_assoc]
  have hk' : k = (s.came v fs nb ny c p).bus.nByte + (s.came v fs nb ny c p).openBytes false := by
    rw [State.came_openBytes, State.came_nByte, hk]
  have h := fails.came (v := v) (fs := fs) (nb := nb) (ny := ny) (c := c) (p := p)
  rw [hq', hk'] at h
  obtain ⟨v', nb', ny', f, g⟩ := readBack_fails (s := s.came v fs nb ny c p) rfl verify a xs slot
    (State.came_readOpens yes accepted) h
  rw [State.came_openEvents slot a accepted, State.came_advance] at f
  exact ⟨v', _, _, f, g⟩

end Sys2Proof.Machine
end

