-- ==== Sys2Proof/Laws/Receives.lean ====
section
/-! SUPPORT. How often the procedures of a read receive (spec/41_bank.md R121, R122,
spec/44_scratchpad.md R186): a challenge once, a read once, a poll once more for each further
read. -/

namespace Sys2Proof.Machine

variable {α β : Type}

/-- `t` is `s` after events of which at most `n` are receives; the descriptor stands. -/
def Heard (n : Nat) (s t : State) : Prop :=
  t.desc = s.desc ∧ ∃ es, AddedEvents s t es ∧ es.countP BusEvent.isRecv ≤ n

theorem Heard.refl (s : State) : Heard 0 s s := ⟨rfl, [], by simp [AddedEvents], by simp⟩

theorem Heard.mono {m n : Nat} {s t : State} (h : Heard m s t) (k : m ≤ n) : Heard n s t := by
  obtain ⟨hd, es, h, c⟩ := h
  exact ⟨hd, es, h, c.trans k⟩

theorem Heard.trans {m n : Nat} {s t u : State} (h : Heard m s t) (k : Heard n t u) :
    Heard (m + n) s u := by
  obtain ⟨hd, es, h, c⟩ := h
  obtain ⟨kd, fs, k, d⟩ := k
  refine ⟨kd.trans hd, es ++ fs, ?_, ?_⟩
  · rw [AddedEvents, k, h, List.append_assoc]
  · rw [List.countP_append]; omega

/-- Sequencing adds the receives up. -/
theorem Run.All.heard {m n : Nat} {s : State} {r : Run α} {k : α → State → Run β}
    (hr : r.All (Heard m s)) (hk : ∀ a t, t.desc = s.desc → (k a t).All (Heard n t)) :
    (r.bind k).All (Heard (m + n) s) := by
  cases r with
  | ok a t => exact (hk a t hr.1).mono fun u h => Heard.trans hr h
  | raised e t => exact Heard.mono hr (Nat.le_add_right m n)
  | faulted f => trivial
  | cut t => exact Heard.mono hr (Nat.le_add_right m n)

theorem Run.All.weakenHeard {m n : Nat} {s : State} {r : Run α} (hr : r.All (Heard m s))
    (h : m ≤ n) : r.All (Heard n s) := hr.mono fun _ k => k.mono h

variable (s : State)

theorem ok_heard (a : α) : (Run.ok a s).All (Heard 0 s) := Heard.refl s
theorem raised_heard (e : Err) : (Run.raised e s : Run α).All (Heard 0 s) := Heard.refl s

theorem busEvent_heard (e : BusEvent) :
    (busEvent e s).All (Heard e.isRecv.toNat s) := by
  rcases busEvent_cases e s with ⟨h, -⟩ | ⟨b, h, hg, -, -⟩
  · rw [h]; exact (Heard.refl s).mono (Nat.zero_le _)
  · rw [h]
    exact ⟨rfl, [e], hg.trace, by cases hr : e.isRecv <;> simp [hr]⟩

theorem busQuery_heard (mk : Bool → BusEvent) (h : ∀ a, (mk a).isRecv = false) :
    (busQuery mk s).All (Heard 0 s) := by
  rcases busQuery_cases mk s with ⟨e, -⟩ | ⟨a, b, e, hg⟩
  · rw [e]; exact Heard.refl s
  · rw [e]; exact ⟨rfl, [mk a], hg.trace, by simp [h a]⟩

theorem busRecv_heard (n : Nat) : (busRecv n s).All (Heard 1 s) := by
  rcases busRecv_cases n s with ⟨e, -⟩ | ⟨b, e, hg⟩
  · rw [e]; exact (Heard.refl s).mono (Nat.zero_le _)
  · rw [e]; exact ⟨rfl, _, hg.trace, by simp [BusEvent.isRecv]⟩

theorem prologue_heard (cont : Bool) : (prologue cont s).All (Heard 0 s) := by
  unfold prologue
  split
  · exact ok_heard s ()
  · refine Run.All.heard (m := 0) (n := 0) ?_ fun _ t _ =>
      (busQuery_heard t _ fun _ => rfl).heard (n := 0) fun a t _ => by
        split
        · exact ok_heard t ()
        · exact raised_heard t _
    unfold confirmSpeed
    split
    · exact ok_heard s ()
    · refine (busQuery_heard s _ fun _ => rfl).heard (n := 0) fun a t _ => ?_
      split
      · exact ⟨rfl, [], by simp [AddedEvents], by simp⟩
      · exact raised_heard t _

theorem challenge_heard (slot : PwSlot) (ta : Nat) : (challenge slot ta s).All (Heard 1 s) :=
  Run.All.heard (m := 0) (n := 1)
    ((busQuery_heard s _ fun _ => rfl).heard (n := 0) fun a t _ => by
      split
      · exact ok_heard t ()
      · exact raised_heard t _) fun _ t _ =>
  (busEvent_heard t (.send _)).heard (n := 1) fun _ t _ =>
  (busEvent_heard t (.sendPulse _ _)).heard (n := 1) fun _ t _ =>
  (busRecv_heard t 1).heard (n := 0) fun a t _ => by
    split
    · exact raised_heard t _
    · exact ok_heard t ()

/-- An opening receives where it makes a challenge (41_bank.md R121). -/
theorem openRead_heard (cont : Bool) (slot : PwSlot) (ta : Nat) :
    (openRead cont slot ta s).All (Heard s.desc.pwGated.toNat s) := by
  rw [← Nat.zero_add s.desc.pwGated.toNat]
  refine (prologue_heard s cont).heard fun _ t ht => ?_
  split
  · rename_i h
    rw [ht] at h
    rw [h.1]
    exact challenge_heard t slot ta
  · exact (ok_heard t ()).weakenHeard (Nat.zero_le _)

/-- Each further read of the poll receives once, and once more for its challenge (R122). -/
theorem pollRead_heard (p n : Nat) (slot : PwSlot) (left : Nat) : ∀ (d : List Byte) (s : State),
    (pollRead p n slot left d s).All (Heard ((1 + s.desc.pwGated.toNat) * left) s) := by
  induction left with
  | zero => exact fun d s => ok_heard s d
  | succ left ih =>
    intro d s
    unfold pollRead
    split
    · rw [show (1 + s.desc.pwGated.toNat) * (left + 1) = 0 + (0 + (s.desc.pwGated.toNat +
        (0 + (1 + (1 + s.desc.pwGated.toNat) * left)))) by rw [Nat.mul_succ]; omega]
      refine (busEvent_heard s (.sleep _)).heard fun _ t ht => ?_
      refine (busQuery_heard t _ fun _ => rfl).heard fun _ u hu => ?_
      rw [← ht, ← hu]
      split
      · refine (openRead_heard u false slot p).heard fun _ v hv => ?_
        refine (busEvent_heard v (.send _)).heard fun _ w hw => ?_
        refine (busRecv_heard w n).heard fun d x hx => ?_
        rw [← hv, ← hw, ← hx]
        exact ih d x
      · exact (raised_heard u _).weakenHeard (Nat.zero_le _)
    · exact (ok_heard s d).weakenHeard (Nat.zero_le _)

theorem readBytes_heard (p n : Nat) (cont : Bool) (slot : PwSlot) :
    (readBytes p n cont slot s).All
      (Heard (1 + (1 + s.desc.pwGated.toNat) * (s.desc.pollMax - 1)) s) := by
  have h : (if cont then .ok () s else busSend (Config.seqRead p n) s : Run Unit).All
      (Heard 0 s) := by
    split
    · exact ok_heard s ()
    · exact busEvent_heard s (.send _)
  rw [← Nat.zero_add (1 + _)]
  refine h.heard fun _ t ht => (busRecv_heard t n).heard fun d u hu => ?_
  rw [← ht, ← hu]
  split
  · exact pollRead_heard p n slot _ d u
  · exact (ok_heard u d).weakenHeard (Nat.zero_le _)

end Sys2Proof.Machine
end

