-- ==== Sys2Proof/Laws/Writes.lean ====
section
/-! SUPPORT. A write through the scratchpad row by row: what a good row leaves, where a row that is
not good stops it, and the chunk loop behind its good rows (spec/41_bank.md R126). -/

namespace Sys2Proof.Machine

variable {s : State}

/-! ### One row -/

/-- A row of `WriteBytes`, then `k` (41_bank.md R126). -/
def rowSteps (slot : PwSlot) (ta : Nat) (ys : List Byte) (k : State → Run Unit) (s : State) :
    Run Unit :=
  (spWriteProc ta ys s).bind fun _ t =>
  (spVerifyProc t).bind fun _ t =>
  (chunkChallenge slot t).bind fun _ t =>
  (spCopyProc t).bind fun _ t => k t

/-- SP_ES behind the read-back of a row whose bytes are answered from the next on
(44_scratchpad.md R184). -/
def State.echo (s : State) : Byte :=
  if s.desc.spAddr then s.bus.byteAnswer (s.bus.nByte + 2) else 0

/-- The events of a good row whose bytes are answered from the next on (41_bank.md R126). -/
def State.goodRowEvents (s : State) (pw : List Byte) (ta : Nat) (ys : List Byte) : List BusEvent :=
  s.rowReadEvents s.speedOk s.bus.nByte ta ys ++ rowChallengeEvents s.desc pw ta ++
    copyEvents s.desc true ta (s.bus.byteAnswer (s.bus.nByte + 2)) (s.bus.byteAnswer
      (s.bus.nByte + hdrLen s.desc + ys.length + crcLen s.desc + s.desc.pwGated.toNat))

/-- What a good row leaves (44_scratchpad.md R182, R184, R190). -/
def State.afterRow (slot : PwSlot) (s : State) (r : Nat × List Byte) : State :=
  (s.advance true (s.goodRowEvents (s.pw.get slot).bytes r.1 r.2)
    (s.prologueAsks + 3 + 2 * s.desc.pwGated.toNat) (rowBytes s.desc r.2.length)).inRow
    r.1 r.2 s.echo .committed

theorem copyEvents_echo (d : Descriptor) (ta : Nat) (e r : Byte) :
    copyEvents d true ta (if d.spAddr then e else 0) r = copyEvents d true ta e r := by
  cases h : d.spAddr <;> simp [copyEvents, copySequence, h]

/-- Every question of an advanced state is answered by those that `s` has left. -/
theorem State.yes_of_yesFrom {q n : Nat} (h : s.bus.yesFrom (s.bus.nBool + q) n) (v : Bool)
    (es : List BusEvent) (ny : Nat) : (s.advance v es q ny).bus.yes n := fun k hk => by
  simpa using h k hk

@[simp] theorem State.advance_crcReadsBack (v : Bool) (es : List BusEvent) (nb ny k n : Nat) :
    (s.advance v es nb ny).crcReadsBack k n ↔ s.crcReadsBack k n := by
  simp only [State.crcReadsBack, State.advance_desc, State.advance_byteAnswers]

@[simp] theorem State.advance_readsBack (v : Bool) (es : List BusEvent) (nb ny k : Nat) (ta : Half)
    (ys : List Byte) : (s.advance v es nb ny).readsBack k ta ys ↔ s.readsBack k ta ys := by
  simp only [State.readsBack, State.advance_crcReadsBack, State.advance_desc,
    State.advance_byteAnswers, State.advance_byteAnswer]

/-- A row up to the outcome of its read-back (41_bank.md R126, 44_scratchpad.md R184). -/
theorem rowSteps_read (hl : s.bus.limit = none) {ta : Nat} {ys : List Byte}
    (hlen : ys.length ≤ 256) (hy : s.bus.yes (s.prologueAsks + 1)) (slot : PwSlot)
    (k : State → Run Unit) :
    rowSteps slot ta ys k s =
      if s.readsBack s.bus.nByte (BitVec.ofNat 16 ta) ys then
        (chunkChallenge slot ((s.advance true (s.rowReadEvents s.speedOk s.bus.nByte ta ys)
          (s.prologueAsks + 1) (hdrLen s.desc + ys.length + crcLen s.desc)).inRow ta ys s.echo
            .verified)).bind fun _ t => (spCopyProc t).bind fun _ t => k t
      else .raised (if s.crcReadsBack s.bus.nByte ys.length then .verification else .integrity)
        ((s.advance true (stageEvents s.desc s.speedOk ta ys ++
            verifyEvents s.desc true (s.bus.byteAnswers s.bus.nByte (hdrLen s.desc))
              (s.bus.byteAnswers (s.bus.nByte + hdrLen s.desc) ys.length)
              (s.bus.byteAnswers (s.bus.nByte + hdrLen s.desc + ys.length) (crcLen s.desc)))
          (s.prologueAsks + 1) (hdrLen s.desc + ys.length + crcLen s.desc)).inRow
          ta ys 0 .written) := by
  rw [rowSteps, stageRow_yes hl (Bus.yes_mono hy (by omega)), Run.bind_ok,
    verifyRow_yes (by exact hl) rfl (State.advance_yes hy _ _ _) hlen]
  simp only [State.advance_readsBack, State.advance_crcReadsBack, State.advance_nByte,
    Nat.add_zero, State.advance_desc, State.advance_byteAnswers, State.advance_byteAnswer,
    State.advance_advance, Nat.zero_add]
  split
  · rw [Run.bind_ok]; rfl
  · rw [Run.bind_raised]

/-- A row up to its copy, where its read-back is good and its challenge accepted
(41_bank.md R126). -/
theorem rowSteps_authed (hl : s.bus.limit = none) {ta : Nat} {ys : List Byte}
    (hlen : ys.length ≤ 256) (hy : s.bus.yes (s.prologueAsks + 1 + 2 * s.desc.pwGated.toNat))
    (good : s.readsBack s.bus.nByte (BitVec.ofNat 16 ta) ys)
    (accepted : s.desc.pwGated = true →
      s.bus.byteAnswer (s.bus.nByte + hdrLen s.desc + ys.length + crcLen s.desc) =
        s.desc.pwAccept) (slot : PwSlot) (k : State → Run Unit) :
    ∃ p, p.abandon = .aborted ∧ rowSteps slot ta ys k s =
      (spCopyProc ((s.advance true (s.rowReadEvents s.speedOk s.bus.nByte ta ys ++
          rowChallengeEvents s.desc (s.pw.get slot).bytes ta)
        (s.prologueAsks + 1 + 2 * s.desc.pwGated.toNat)
        (hdrLen s.desc + ys.length + crcLen s.desc + s.desc.pwGated.toNat)).inRow ta ys s.echo
          p)).bind fun _ t => k t := by
  refine ⟨if s.desc.pwGated then .authed else .verified, by split <;> rfl, ?_⟩
  rw [rowSteps_read hl hlen (Bus.yes_mono hy (by omega)), if_pos good,
    challengeRow_yes (by exact hl) rfl
      (State.advance_yes (Bus.yes_mono hy (by simp only [State.advance_desc]; omega)) _ _ _)
      (by simpa [Nat.add_assoc] using accepted), Run.bind_ok, State.advance_advance]
  rfl

/-- The copy of such a row where power can be delivered and the device is selected. -/
theorem rowSteps_confirmed (hl : s.bus.limit = none) {ta : Nat} {ys : List Byte}
    (hlen : ys.length ≤ 256) (hy : s.bus.yes (s.prologueAsks + 3 + 2 * s.desc.pwGated.toNat))
    (good : s.readsBack s.bus.nByte (BitVec.ofNat 16 ta) ys)
    (accepted : s.desc.pwGated = true →
      s.bus.byteAnswer (s.bus.nByte + hdrLen s.desc + ys.length + crcLen s.desc) =
        s.desc.pwAccept) (slot : PwSlot) (k : State → Run Unit) :
    ∃ p, p.abandon = .aborted ∧ rowSteps slot ta ys k s =
      if s.bus.byteAnswer (s.bus.nByte + hdrLen s.desc + ys.length + crcLen s.desc +
          s.desc.pwGated.toNat) = 0xFF then
        .raised .commit { s.afterRow slot (ta, ys) with spState := p }
      else k (s.afterRow slot (ta, ys)) := by
  obtain ⟨p, hp, f⟩ :=
    rowSteps_authed hl hlen (Bus.yes_mono hy (by omega)) good accepted slot k
  refine ⟨p, hp, ?_⟩
  rw [f, copyRow_yes (by exact hl) rfl (State.advance_yes (Bus.yes_mono hy (by omega)) _ _ _)]
  simp only [State.advance_advance, State.advance_desc, State.advance_nByte,
    State.advance_byteAnswer, ← Nat.add_assoc]
  have e : copyEvents s.desc true ta s.echo (s.bus.byteAnswer (s.bus.nByte + hdrLen s.desc +
      ys.length + crcLen s.desc + s.desc.pwGated.toNat)) = copyEvents s.desc true ta
      (s.bus.byteAnswer (s.bus.nByte + 2)) (s.bus.byteAnswer (s.bus.nByte + hdrLen s.desc +
      ys.length + crcLen s.desc + s.desc.pwGated.toNat)) := copyEvents_echo _ _ _ _
  have n : s.prologueAsks + 1 + 2 * s.desc.pwGated.toNat + 2 =
      s.prologueAsks + 3 + 2 * s.desc.pwGated.toNat := by omega
  rw [e, n, show Config.commitFail = (0xFF : Byte) from rfl]
  split
  · rw [Run.bind_raised]; rfl
  · rw [Run.bind_ok]; rfl

/-- A good row lets the write go on (41_bank.md R126). -/
theorem rowSteps_good (hl : s.bus.limit = none) {ta : Nat} {ys : List Byte}
    (hlen : ys.length ≤ 256) (hy : s.bus.yes (s.prologueAsks + 3 + 2 * s.desc.pwGated.toNat))
    (good : s.readsBack s.bus.nByte (BitVec.ofNat 16 ta) ys)
    (accepted : s.desc.pwGated = true →
      s.bus.byteAnswer (s.bus.nByte + hdrLen s.desc + ys.length + crcLen s.desc) =
        s.desc.pwAccept)
    (confirmed : s.bus.byteAnswer (s.bus.nByte + hdrLen s.desc + ys.length + crcLen s.desc +
      s.desc.pwGated.toNat) ≠ 0xFF) (slot : PwSlot) (k : State → Run Unit) :
    rowSteps slot ta ys k s = k (s.afterRow slot (ta, ys)) := by
  obtain ⟨p, -, f⟩ := rowSteps_confirmed hl hlen hy good accepted slot k
  rw [f, if_neg confirmed]

/-- How a row that is not good stops the write: nothing of it staged, staged, or verified, with the
speed confirmed where the error is PowerUnavailable (41_bank.md R126, 60_exceptions.md R206). -/
inductive State.StoppedIn (s : State) (ta : Nat) (ys : List Byte) (e : Err)
    (es : List BusEvent) : RowStage → State → Prop where
  | untouched (v : Bool) (nb ny : Nat) (h : e ≠ .powerUnavailable) :
      s.StoppedIn ta ys e es .untouched (s.advance v es nb ny)
  | staged (v : Bool) (nb ny : Nat) (h : e ≠ .powerUnavailable) :
      s.StoppedIn ta ys e es .staged ((s.advance v es nb ny).inRow ta ys 0 .written)
  | verified (v : Bool) (nb ny : Nat) (p : SpState) (hp : p.abandon = .aborted)
      (h : e = .powerUnavailable → v = true) :
      s.StoppedIn ta ys e es .verified ((s.advance v es nb ny).inRow ta ys s.echo p)

/-- A row that is not good stops the write (41_bank.md R126). -/
theorem rowSteps_stops (hl : s.bus.limit = none) {ta : Nat} {ys : List Byte}
    (hlen : ys.length ≤ 256) {slot : PwSlot} {stage : RowStage} {e : Err} {es : List BusEvent}
    (h : s.RowFails (s.pw.get slot).bytes s.speedOk s.bus.nBool s.bus.nByte ta ys stage e es)
    (k : State → Run Unit) :
    (e = .powerUnavailable ∨ ∀ c ≠ CommandClass.internal, clearsSpeed c e = true) ∧
      ∃ u, rowSteps slot ta ys k s = .raised e u ∧ s.StoppedIn ta ys e es stage u := by
  have clears : ∀ e ∈ [Err.communication, .authentication, .commit, .verification, .integrity],
      e = .powerUnavailable ∨ ∀ c ≠ CommandClass.internal, clearsSpeed c e = true := by
    intro e he
    refine .inr fun c hc => ?_
    simp only [List.mem_cons, List.not_mem_nil, or_false] at he
    rcases he with rfl | rfl | rfl | rfl | rfl <;> cases c <;> first | exact absurd rfl hc | rfl
  cases h with
  | unstaged no =>
    obtain ⟨v, nb, f⟩ := stageRow_no hl no ta ys
    exact ⟨clears _ (by simp), _, by rw [rowSteps, f, Run.bind_raised],
      .untouched v nb 0 (by simp)⟩
  | unread yes no =>
    refine ⟨clears _ (by simp), _, ?_, .staged true (s.prologueAsks + 1) 0 (by simp)⟩
    have no : s.bus.boolAnswer (s.bus.nBool + s.prologueAsks) = false := no
    rw [rowSteps, stageRow_yes hl yes, Run.bind_ok,
      verifyRow_no (by exact hl) rfl (by simpa using no), Run.bind_raised, State.advance_advance]
    rfl
  | unverified yes bad =>
    refine ⟨?_, _, ?_, .staged true (s.prologueAsks + 1)
      (hdrLen s.desc + ys.length + crcLen s.desc) ?_⟩
    · split <;> exact clears _ (by simp)
    · rw [rowSteps_read hl hlen yes, if_neg bad]
    · split <;> simp
  | unauthenticated gated yes good no =>
    rw [Nat.add_assoc, Nat.add_assoc, ← Nat.add_assoc (hdrLen s.desc)] at no
    have no' := no.congr (s := s) (t := s.advance true (s.rowReadEvents s.speedOk s.bus.nByte ta ys)
      (s.prologueAsks + 1) (hdrLen s.desc + ys.length + crcLen s.desc)) rfl rfl rfl
    obtain ⟨v, nb, ny, f, hv, he⟩ := challengeRow_no (s := s.advance true
        (s.rowReadEvents s.speedOk s.bus.nByte ta ys) (s.prologueAsks + 1)
        (hdrLen s.desc + ys.length + crcLen s.desc))
      (slot := slot) (by exact hl) rfl gated no' ys s.echo
    refine ⟨?_, _, ?_, .verified v (s.prologueAsks + 1 + nb)
      (hdrLen s.desc + ys.length + crcLen s.desc + ny) .verified rfl hv⟩
    · rcases List.mem_cons.1 he with rfl | he
      · exact clears _ (by simp)
      · rcases List.mem_cons.1 he with rfl | he
        · exact .inl rfl
        · rw [List.mem_singleton.1 he]; exact clears _ (by simp)
    · rw [rowSteps_read hl hlen yes, if_pos good, f, Run.bind_raised, State.advance_advance]
  | unpowered yes good accepted no =>
    obtain ⟨p, hp, f⟩ := rowSteps_authed hl hlen yes good accepted slot k
    refine ⟨.inl rfl, _, ?_, .verified true
      (s.prologueAsks + 1 + 2 * s.desc.pwGated.toNat + 1)
      (hdrLen s.desc + ys.length + crcLen s.desc + s.desc.pwGated.toNat) p hp fun _ => rfl⟩
    have no : s.bus.boolAnswer
      (s.bus.nBool + (s.prologueAsks + 1 + 2 * s.desc.pwGated.toNat)) = false := no
    rw [f, copyRow_unpowered (by exact hl) rfl (by simpa using no), Run.bind_raised,
      State.advance_advance]
    rfl
  | uncopied yes good accepted no =>
    have asks : asksOf s.speedOk + 2 + 2 * s.desc.pwGated.toNat =
        s.prologueAsks + 1 + 2 * s.desc.pwGated.toNat + 1 := by
      simp only [asksOf, State.prologueAsks]; omega
    rw [asks] at yes no
    obtain ⟨p, hp, f⟩ := rowSteps_authed hl hlen (Bus.yes_mono yes (by omega)) good accepted slot k
    obtain ⟨v, nb, g⟩ := copyRow_unselected
      (s := s.advance true (s.rowReadEvents s.speedOk s.bus.nByte ta ys ++
        rowChallengeEvents s.desc (s.pw.get slot).bytes ta)
        (s.prologueAsks + 1 + 2 * s.desc.pwGated.toNat)
        (hdrLen s.desc + ys.length + crcLen s.desc + s.desc.pwGated.toNat))
      (by exact hl) rfl (State.advance_yes yes _ _ _) (by simpa [← Nat.add_assoc] using no)
      ta ys s.echo p
    refine ⟨clears _ (by simp), _, ?_, .verified v
      (s.prologueAsks + 1 + 2 * s.desc.pwGated.toNat + nb)
      (hdrLen s.desc + ys.length + crcLen s.desc + s.desc.pwGated.toNat) p hp (by simp)⟩
    rw [f, g, Run.bind_raised, State.advance_advance]
    rfl
  | refused yes good accepted no =>
    have asks : asksOf s.speedOk + 3 + 2 * s.desc.pwGated.toNat =
        s.prologueAsks + 3 + 2 * s.desc.pwGated.toNat := rfl
    obtain ⟨p, hp, f⟩ := rowSteps_confirmed hl hlen yes good accepted slot k
    rw [if_pos no] at f
    refine ⟨clears _ (by simp), _, f, ?_⟩
    have := State.StoppedIn.verified (s := s) (ta := ta) (ys := ys) (e := .commit)
      (es := s.goodRowEvents (s.pw.get slot).bytes ta ys) true
      (s.prologueAsks + 3 + 2 * s.desc.pwGated.toNat) (rowBytes s.desc ys.length) p hp
      fun _ => rfl
    rw [State.goodRowEvents, no] at this
    rw [State.afterRow, State.goodRowEvents, no]
    exact this

/-! ### The chunk loop -/

theorem writeChunks_nil {slot : PwSlot} {fuel p : Nat} {xs : List Byte} (hf : xs.length ≤ fuel)
    (h : bankRows s.desc fuel p xs = []) : writeChunks slot fuel p xs s = .ok () s := by
  cases fuel with
  | zero => rfl
  | succ fuel =>
    have : xs = [] := by
      by_contra hx
      rw [bankRows, if_neg hx] at h
      cases h
    rw [this]; rfl

/-- The loop runs the first row, then the rest (41_bank.md R126). -/
theorem writeChunks_cons (slot : PwSlot) {fuel p ta : Nat} {xs ys : List Byte}
    {later : List (Nat × List Byte)} (h1 : 1 ≤ s.desc.spSize) (hf : xs.length ≤ fuel)
    (h : bankRows s.desc fuel p xs = (ta, ys) :: later) :
    ys.length ≤ s.desc.spSize ∧ ∃ fuel' p' xs', xs'.length ≤ fuel' ∧
      bankRows s.desc fuel' p' xs' = later ∧
      writeChunks slot fuel p xs s = rowSteps slot ta ys (writeChunks slot fuel' p' xs') s := by
  cases fuel with
  | zero => cases h
  | succ fuel =>
    by_cases hx : xs = []
    · rw [bankRows, if_pos hx] at h; cases h
    · have hpos : 0 < xs.length := List.length_pos_iff.2 hx
      have hmod : p % s.desc.spSize < s.desc.spSize := Nat.mod_lt _ h1
      rw [bankRows, if_neg hx] at h
      simp only [List.cons.injEq, Prod.mk.injEq] at h
      obtain ⟨⟨rfl, rfl⟩, h⟩ := h
      refine ⟨by simp only [List.length_take]; omega, fuel, _, _, ?_, h, ?_⟩
      · simp only [List.length_drop]; omega
      · rw [writeChunks, if_neg (by simp [hx])]; rfl

section
variable {t : State} (hd : t.desc = s.desc) (hb : t.bus.bytes = s.bus.bytes)
include hd hb

theorem State.rowReadEvents_congr (v : Bool) (k ta : Nat) (ys : List Byte) :
    t.rowReadEvents v k ta ys = s.rowReadEvents v k ta ys := by
  simp only [State.rowReadEvents, hd, Bus.byteAnswers_congr hb]

theorem State.readsBack_congr (k : Nat) (ta : Half) (ys : List Byte) :
    t.readsBack k ta ys ↔ s.readsBack k ta ys := by
  have hc : ∀ j, t.bus.byteAnswer j = s.bus.byteAnswer j := fun j => by simp [Bus.byteAnswer, hb]
  simp only [State.readsBack, State.crcReadsBack, hd, hc, Bus.byteAnswers_congr hb]

theorem State.rowsEvents_congr (pw : List Byte) : ∀ (rows : List (Nat × List Byte)) (v : Bool)
    (k : Nat), t.rowsEvents pw v k rows = s.rowsEvents pw v k rows
  | [], _, _ => rfl
  | (ta, ys) :: rest, v, k => by
    have hc : ∀ j, t.bus.byteAnswer j = s.bus.byteAnswer j :=
      fun j => by simp [Bus.byteAnswer, hb]
    simp only [State.rowsEvents, State.rowReadEvents_congr hd hb, hd, hc,
      State.rowsEvents_congr pw rest]

theorem State.rowsAccepted_congr : ∀ (rows : List (Nat × List Byte)) (k : Nat),
    t.rowsAccepted k rows ↔ s.rowsAccepted k rows
  | [], _ => Iff.rfl
  | (ta, ys) :: rest, k => by
    have hc : ∀ j, t.bus.byteAnswer j = s.bus.byteAnswer j :=
      fun j => by simp [Bus.byteAnswer, hb]
    simp only [State.rowsAccepted, State.readsBack_congr hd hb, hd, hc,
      State.rowsAccepted_congr rest]
end

/-- Where a row fails is the same for states with the same answers. -/
theorem State.RowFails.congr {t : State} (hd : t.desc = s.desc) (hx : t.bus.bools = s.bus.bools)
    (hb : t.bus.bytes = s.bus.bytes) {pw : List Byte} {v : Bool} {q k ta : Nat} {ys : List Byte}
    {stage : RowStage} {e : Err} {es : List BusEvent}
    (h : s.RowFails pw v q k ta ys stage e es) : t.RowFails pw v q k ta ys stage e es := by
  have hq : ∀ j, t.bus.boolAnswer j = s.bus.boolAnswer j := fun j => by simp [Bus.boolAnswer, hx]
  have hc : ∀ j, t.bus.byteAnswer j = s.bus.byteAnswer j := fun j => by simp [Bus.byteAnswer, hb]
  have hy : ∀ q n, s.bus.yesFrom q n → t.bus.yesFrom q n := fun q n h j hj => by
    rw [hq]; exact h j hj
  have hr := State.rowReadEvents_congr hd hb
  have hg := State.readsBack_congr hd hb
  cases h with
  | unstaged no =>
    rw [← hd, ← hq]
    exact .unstaged fun h => no fun j hj => by rw [← hq]; exact h j hj
  | unread yes no =>
    rw [← hd]
    exact .unread (hy _ _ yes) (by rw [hq]; exact no)
  | unverified yes bad =>
    have := State.RowFails.unverified (pw := pw) (hy _ _ yes) ((hg k _ ys).not.2 bad)
    simpa only [State.crcReadsBack, hd, hc, Bus.byteAnswers_congr hb] using this
  | unauthenticated gated yes good no =>
    rw [← hr]
    exact .unauthenticated (by rw [hd]; exact gated) (hy _ _ yes) ((hg _ _ _).2 good)
      (by rw [hd]; exact State.OpenFails.congr (s := s) hd hx hb no)
  | unpowered yes good accepted no =>
    rw [← hr, ← hd]
    exact .unpowered (by rw [hd]; exact hy _ _ yes) ((hg _ _ _).2 good)
      (by rw [hd, hc]; exact accepted) (by rw [hd, hq]; exact no)
  | uncopied yes good accepted no =>
    rw [← hr, ← hd]
    exact .uncopied (by rw [hd]; exact hy _ _ yes) ((hg _ _ _).2 good)
      (by rw [hd, hc]; exact accepted) (by rw [hd, hq]; exact no)
  | refused yes good accepted no =>
    rw [← hr, ← hd, ← hc]
    exact .refused (by rw [hd]; exact hy _ _ yes) ((hg _ _ _).2 good)
      (by rw [hd, hc]; exact accepted) (by rw [hd, hc]; exact no)

theorem State.afterRow_desc (slot : PwSlot) (r : Nat × List Byte) :
    (s.afterRow slot r).desc = s.desc := rfl

/-- The loop behind its first rows, all good (41_bank.md R126). -/
theorem writeChunks_rows (slot : PwSlot) : ∀ (init later : List (Nat × List Byte))
    (fuel p : Nat) (xs : List Byte) (s : State), s.bus.limit = none → xs.length ≤ fuel →
    1 ≤ s.desc.spSize → s.desc.spSize ≤ 256 → bankRows s.desc fuel p xs = init ++ later →
    s.bus.yes (if init = [] then 0
      else s.prologueAsks - 1 + init.length * (4 + 2 * s.desc.pwGated.toNat)) →
    s.rowsAccepted s.bus.nByte init →
    ∃ fuel' p' xs', xs'.length ≤ fuel' ∧ bankRows s.desc fuel' p' xs' = later ∧
      writeChunks slot fuel p xs s =
        writeChunks slot fuel' p' xs' (init.foldl (State.afterRow slot) s) := by
  intro init
  induction init with
  | nil => intro later fuel p xs s _ hf _ _ hb _ _; exact ⟨fuel, p, xs, hf, hb, rfl⟩
  | cons r rest ih =>
    intro later fuel p xs s hl hf h1 h2 hb hy ha
    obtain ⟨ta, ys⟩ := r
    obtain ⟨hlen, fuel', p', xs', hf', hb', e⟩ := writeChunks_cons slot h1 hf hb
    obtain ⟨good, accepted, confirmed, ha'⟩ := ha
    have hp : 1 ≤ s.prologueAsks := by unfold State.prologueAsks; split <;> omega
    rw [if_neg (by simp), List.length_cons, Nat.add_mul, Nat.one_mul] at hy
    rw [e, rowSteps_good hl (by omega) (Bus.yes_mono hy (by omega)) good accepted confirmed,
      List.foldl_cons]
    refine ih later fuel' p' xs' (s.afterRow slot (ta, ys)) hl hf' h1 h2 hb' ?_ ?_
    · have : (s.afterRow slot (ta, ys)).bus.yes (rest.length * (4 + 2 * s.desc.pwGated.toNat)) :=
        State.advance_yes (s := s) (m := s.prologueAsks + 3 + 2 * s.desc.pwGated.toNat)
          (Bus.yes_mono hy (by omega)) true _ _
      refine Bus.yes_mono this ?_
      split
      · omega
      · exact Nat.le_of_eq (by simp [State.prologueAsks, State.afterRow])
    · exact (State.rowsAccepted_congr (s := s) (t := s.afterRow slot (ta, ys)) rfl rfl _ _).2 ha'

/-- How many questions `n` good rows ask (41_bank.md R126). -/
def State.rowsAsk (s : State) (n : Nat) : Nat :=
  if n = 0 then 0 else s.prologueAsks - 1 + n * (4 + 2 * s.desc.pwGated.toNat)

theorem State.rowsEvents_concat (pw : List Byte) (ta : Nat) (ys : List Byte) :
    ∀ (rows : List (Nat × List Byte)) (v : Bool) (k : Nat),
    s.rowsEvents pw v k (rows ++ [(ta, ys)]) = s.rowsEvents pw v k rows ++
      s.rowsEvents pw (v || !rows.isEmpty) (k + rowsBytes s.desc rows) [(ta, ys)]
  | [], v, k => by simp [State.rowsEvents, rowsBytes]
  | (tb, zs) :: rest, v, k => by
    have e : rowsBytes s.desc ((tb, zs) :: rest) =
        rowBytes s.desc zs.length + rowsBytes s.desc rest := by simp [rowsBytes]
    change _ ++ s.rowsEvents pw true _ (rest ++ [(ta, ys)]) =
      (_ ++ s.rowsEvents pw true _ rest) ++ _
    rw [State.rowsEvents_concat pw ta ys rest, e, ← Nat.add_assoc, ← List.append_assoc]
    simp only [List.isEmpty_cons, Bool.not_false, Bool.or_true, Bool.true_or]

/-- What good rows leave (41_bank.md R126, 44_scratchpad.md R182, R184, R190). -/
theorem State.afterRows_eq (slot : PwSlot) (s : State) (rows : List (Nat × List Byte)) :
    ∃ ta n, rows.foldl (State.afterRow slot) s =
      { s.advance (s.speedOk || !rows.isEmpty)
          (s.rowsEvents (s.pw.get slot).bytes s.speedOk s.bus.nByte rows) (s.rowsAsk rows.length)
          (rowsBytes s.desc rows) with
        spTA := ta
        spLen := n
        spES := s.echoAfter rows
        spBuf := rows.foldl (fun buf r => r.2 ++ buf.drop r.2.length) s.spBuf
        spState := if rows = [] then s.spState else .committed } ∧
      (rows = [] → ta = s.spTA ∧ n = s.spLen) ∧
      ∀ r ∈ rows.getLast?, ta = BitVec.ofNat 16 r.1 ∧ n = BitVec.ofNat 9 r.2.length := by
  induction rows using List.reverseRecOn with
  | nil =>
    refine ⟨s.spTA, s.spLen, ?_, fun _ => ⟨rfl, rfl⟩, by simp⟩
    simp [State.rowsAsk, State.echoAfter, State.rowsEvents, rowsBytes, State.advance]
  | append_singleton rows r ih =>
    obtain ⟨ta, ys⟩ := r
    obtain ⟨tb, n, e, -, -⟩ := ih
    refine ⟨BitVec.ofNat 16 ta, BitVec.ofNat 9 ys.length, ?_, by simp, by simp⟩
    have ask : s.rowsAsk (rows ++ [(ta, ys)]).length = s.rowsAsk rows.length +
        (asksOf (s.speedOk || !rows.isEmpty) + 3 + 2 * s.desc.pwGated.toNat) := by
      have hp : 1 ≤ s.prologueAsks := by unfold State.prologueAsks; split <;> omega
      rw [List.length_append, List.length_singleton, State.rowsAsk, State.rowsAsk,
        if_neg (by omega)]
      cases rows with
      | nil =>
        have : asksOf s.speedOk = s.prologueAsks := rfl
        simp only [List.length_nil, List.isEmpty_nil, Bool.not_true, Bool.or_false, this, if_true]
        omega
      | cons r rest =>
        rw [if_neg (by simp)]
        simp only [List.isEmpty_cons, Bool.not_false, Bool.or_true, asksOf, if_true, Nat.add_mul]
        omega
    have bytes : rowsBytes s.desc (rows ++ [(ta, ys)]) =
        rowsBytes s.desc rows + rowBytes s.desc ys.length := by simp [rowsBytes]
    have echo : s.echoAfter (rows ++ [(ta, ys)]) = if s.desc.spAddr then
        s.bus.byteAnswer (s.bus.nByte + rowsBytes s.desc rows + 2) else 0 := by
      simp [State.echoAfter]
    rw [List.foldl_append, List.foldl_cons, List.foldl_nil, List.foldl_append, List.foldl_cons,
      List.foldl_nil, e, State.rowsEvents_concat, ask, bytes, echo,
      if_neg (show ¬ rows ++ [(ta, ys)] = [] by simp)]
    generalize s.rowsEvents _ _ _ rows = E
    generalize rows.foldl _ s.spBuf = buf
    generalize s.rowsAsk rows.length = N
    generalize s.echoAfter rows = q
    simp [State.afterRow, State.inRow, State.advance, State.goodRowEvents, State.rowsEvents]
    refine ⟨rfl, Nat.add_assoc _ _ _, Nat.add_assoc _ _ _, ?_⟩
    exact congrArg₂ (· ++ ·) (State.rowReadEvents_congr (by rfl) (by rfl) _ _ _ _) rfl

end Sys2Proof.Machine
end

