-- ==== Sys2Proof/Tests/Slice0.lean ====
section
/-! SUPPORT. The model's own tests: the instances and vectors of spec/95_test_vectors.md, the words
of spec/30_encoding.md R84 written out, the ill-formed terms `WF` refuses, and for every statement
with hypotheses a concrete state that meets them. Expected values are the spec's. -/

open Sys2Proof Sys2Proof.Machine

namespace Sys2Proof.Tests

-- A kernel evaluation in a thread of its own takes memory for each theorem: run them in turn.
set_option Elab.async false

/-! ### Instances (95_test_vectors.md section 0) -/

/-- Instance V. EsCount(ta, es) = es and RedirectDecode(b) = b for b ≤ 3, as far as listed. -/
def instV : Descriptor := { Descriptor.plain with
  size := 128, pageLen := 32, pageCount := 4, maxPkt := 29, dbufSize := 64, flagRW := true
  cmdWS := 0xC1, cmdRS := 0xC2, cmdCS := 0xC3, csValid := 0xC4, cmdVP := 0xC5, pwAccept := 0xC6
  lockedSentinel := 0x5A, rlockedSentinel := 0x5B
  esCount := [((0x10, 8), 8), ((0x10, 7), 7), ((0, 2), 2)]
  redirectCodes := [(1, 1), (2, 2), (3, 3)] }

/-- Instance B. -/
def instB : Descriptor := { instV with busyPoll := true, pollMax := 3 }

/-- Instance S. -/
def instS : Descriptor := { instV with
  flagNV := true, flagPDeliv := true, spPresent := true, spAddr := true, spCrc := true
  spSize := 8 }

/-- Instance P. -/
def instP : Descriptor := { instS with pwGated := true, pwLen := 4 }

/-- Instance O. -/
def instO : Descriptor := { instV with
  flagRW := false, flagWO := true, flagNV := true, flagPPulse := true, canLock := true
  canRedirect := true }

/-- Instance O with CAN_LOCK_REDIRECT. -/
def instL : Descriptor := { instO with canLockRedirect := true }

/-- Instance V with AUTOCRC (an empty cover) and two bytes of extra info. -/
def instA : Descriptor := { instV with flagAutoCrc := true, flagExtra := true, extraLen := 2 }

/-- Instance V with RO in place of RW. -/
def instR : Descriptor := { instV with flagRW := false, flagRO := true }

theorem test_instances_wf :
    instV.WF ∧ instB.WF ∧ instS.WF ∧ instP.WF ∧ instO.WF ∧ instL.WF ∧ instA.WF ∧ instR.WF :=
  ⟨by decide, by decide, by decide, by decide, by decide,
    by decide, by decide, by decide⟩

/-- MAX_PKT above PAGE_LEN - 3 breaks 00_scope.md R6. -/
theorem test_instance_refused :
    State.build { instV with maxPkt := 30 } = .refused .malformedInstance :=
  if_neg (by decide)

theorem test_caps : [instV, instB, instS, instP, instO].map capsWord =
    [0x00000002, 0x00010002, 0x00007052, 0x0000F052, 0x00000634] := by rfl

/-! ### Well-formedness -/

theorem test_pwsel3_refused : ∀ c : Bool,
    ¬ (Instr.read c 3).WF ∧ ¬ (Instr.write 3).WF ∧ ¬ (Instr.readPage c 3).WF ∧
    ¬ (Instr.readPageExtra c 3).WF ∧ ¬ (Instr.readPageCrc c 3).WF ∧
    ¬ (Instr.readPageCrcExtra c 3).WF ∧ ¬ (Instr.readPagePacket c 3).WF ∧
    ¬ (Instr.writePagePacket 3).WF ∧ ¬ (Instr.spVerifyPassword 3).WF ∧ ¬ (Instr.pwLoad 3).WF ∧
    ¬ (Instr.pwClear 3).WF := by decide

/-! ### Decoding: every constructor's word, written out from 30_encoding.md R84 -/

theorem test_decode_crc :
    decode 0x01000000 = .ok .crc8Init ∧ decode 0x02000000 = .ok .crc8Byte ∧
    decode 0x03000000 = .ok .crc8Block ∧ decode 0x04000000 = .ok .crc8Check ∧
    decode 0x08000000 = .ok .crc16Init ∧ decode 0x09000000 = .ok .crc16Byte ∧
    decode 0x0A000000 = .ok .crc16Block ∧ decode 0x0B000000 = .ok .crc16Check ∧
    decode 0x0C000000 = .ok .crc16Emit := ⟨rfl, rfl, rfl, rfl, rfl, rfl, rfl, rfl, rfl⟩

theorem test_decode_bank :
    decode 0x10000000 = .ok (.read false 0) ∧ decode 0x10800000 = .ok (.read true 0) ∧
    decode 0x10C00000 = .ok (.read true 2) ∧ decode 0x11200000 = .ok (.write 1) ∧
    decode 0x1F000000 = .ok .forceVerify := ⟨rfl, rfl, rfl, rfl, rfl⟩

theorem test_decode_page :
    decode 0x20C00000 = .ok (.readPage true 2) ∧
    decode 0x21200000 = .ok (.readPageExtra false 1) ∧
    decode 0x22800000 = .ok (.readPageCrc true 0) ∧
    decode 0x23400000 = .ok (.readPageCrcExtra false 2) ∧
    decode 0x24A00000 = .ok (.readPagePacket true 1) ∧
    decode 0x25400000 = .ok (.writePagePacket 2) := ⟨rfl, rfl, rfl, rfl, rfl, rfl⟩

theorem test_decode_otp :
    decode 0x30000000 = .ok .lockPage ∧ decode 0x31000000 = .ok .isPageLocked ∧
    decode 0x32000000 = .ok .redirectPage ∧ decode 0x33000000 = .ok .getRedirectedPage ∧
    decode 0x34000000 = .ok .lockRedirectPage ∧
    decode 0x35000000 = .ok .isRedirectPageLocked := ⟨rfl, rfl, rfl, rfl, rfl, rfl⟩

theorem test_decode_scratchpad :
    decode 0x40000000 = .ok .spWrite ∧ decode 0x41000000 = .ok .spReadVerify ∧
    decode 0x42400000 = .ok (.spVerifyPassword 2) ∧ decode 0x43000000 = .ok .spCopy ∧
    decode 0x44200000 = .ok (.pwLoad 1) ∧ decode 0x45200000 = .ok (.pwClear 1) :=
  ⟨rfl, rfl, rfl, rfl, rfl, rfl⟩

/-- The illegal words of 95_test_vectors.md 2.7, one at least for each clause of R85. -/
theorem test_decode_illegal :
    decode 0x00000000 = .error .unassignedOpcode ∧ decode 0x05000000 = .error .unassignedOpcode ∧
    decode 0x26000000 = .error .unassignedOpcode ∧ decode 0xFF000000 = .error .unassignedOpcode ∧
    decode 0x01000001 = .error .reservedBits ∧ decode 0x25800000 = .error .contNotAllowed ∧
    decode 0x11800000 = .error .contNotAllowed ∧ decode 0x10E00000 = .error .pwselIllegal ∧
    decode 0x30200000 = .error .pwselNotUsed ∧ decode 0x43200000 = .error .pwselNotUsed :=
  ⟨rfl, rfl, rfl, rfl, rfl, rfl, rfl, rfl, rfl, rfl⟩

theorem test_encode : encode (.read true 2) = 0x10C00000 ∧ encode (.pwLoad 1) = 0x44200000 := by
  decide

theorem test_table_word : decodeTableWord 32 0x10800000 = some (.read true 0) ∧
    decodeTableWord 32 0x10E00000 = none := ⟨rfl, rfl⟩

/-! ### Helpers -/

/-- The reset state of an instance whose bus answers as scripted. -/
def machine (d : Descriptor) (bools : List Bool) (bytes : List Byte) : State :=
  { State.resetOf d with bus := ⟨bools, bytes, 0, 0, [], none⟩ }

/-- The answers of a device that is there and a transport that can do everything (E7). -/
def yes : List Bool := List.replicate 12 true

/-- DBUF with `xs` from `off` on and nothing else marked. -/
def bytesAt (off : Nat) (xs : List Byte) : Memory := xs.mapIdx fun k b => (off + k, b)

/-- What the state after a command shows. -/
def obs {α : Type} (view : State → α) : Host.Outcome State Fault Refusal → Option α
  | .next t => some (view t)
  | .fault _ => none
  | .refused _ => none

/-- STATUS and RESULT. -/
def ends (o : Host.Outcome State Fault Refusal) : Option (Word × Half) :=
  obs (fun t => (t.statusWord, t.result)) o

/-- The state a command leaves. -/
def ended (i : Instr) (s : State) : State := s.runCommand (commandClass i) (commandBody i)

/-- "123456789" in DBUF of V, the window on it, seed 0xFFFF. -/
def sDigits : State := { machine instV [] [] with
  dbuf := bytesAt 0 [0x31, 0x32, 0x33, 0x34, 0x35, 0x36, 0x37, 0x38, 0x39]
  argLen := 9, argSeed := 0xFFFF }

/-- The page-0 packet of "ABC" in DBUF of V, the window on it. -/
def sPacket (seed : Half) : State := { machine instV [] [] with
  dbuf := bytesAt 0 [0x03, 0x41, 0x42, 0x43, 0xDE, 0xFE], argLen := 6, argSeed := seed }

/-- V about to run a READ. -/
def sRead (addr len : Half) (bytes : List Byte) : State :=
  { machine instV yes bytes with argAddr := addr, argLen := len }

/-- V about to read a page into DBUF from 0. -/
def sPage (page : Half) (bytes : List Byte) : State :=
  { machine instV yes bytes with argPage := page }

/-- The AUTOCRC instance about to read page 0. -/
def sAuto (bytes : List Byte) : State := machine instA yes bytes

/-- V with "ABC" in DBUF, about to write page 0 as a packet. -/
def sPut (page len : Half) (bytes : List Byte) : State := { machine instV yes bytes with
  dbuf := bytesAt 0 (0x41 :: 0x42 :: 0x43 :: List.replicate 27 0), argPage := page, argLen := len }

/-- DBUF 11 22, about to write them at `addr` (V1.6). -/
def sStore (d : Descriptor) (addr : Half) (verify : Bool) (bytes : List Byte) : State :=
  { machine d yes bytes with
    dbuf := bytesAt 0 [0x11, 0x22], argAddr := addr, argLen := 2, verify := verify }

/-- An OTP command about to run. -/
def sOtp (d : Descriptor) (page page2 : Half) (bytes : List Byte) : State :=
  { machine d yes bytes with argPage := page, argPage2 := page2 }

/-- S or P with eight bytes 00 to 07 in DBUF for address 0x10 (P4). -/
def sStage (d : Descriptor) (bytes : List Byte) : State := { machine d yes bytes with
  dbuf := bytesAt 0 [0, 1, 2, 3, 4, 5, 6, 7], argAddr := 0x10, argLen := 8 }

/-- The transaction of P4 staged, in a state of the FSM. -/
def sStaged (d : Descriptor) (p : SpState) (bytes : List Byte) : State :=
  { machine d yes bytes with
    speedOk := true, spState := p, spTA := 0x10, spLen := 8, spES := 8
    spBuf := [0, 1, 2, 3, 4, 5, 6, 7] }

/-- The good read-back of P4. -/
def backGood : List Byte := [0x10, 0, 8, 0, 1, 2, 3, 4, 5, 6, 7, 0x30, 0x08]
/-- The bad read-back of P4c. -/
def backBad : List Byte := [0x10, 0, 8, 0, 1, 2, 0x13, 4, 5, 6, 7, 0x30, 0x08]

/-! ### One step each (95_test_vectors.md sections 1 and 2) -/

theorem test_crc8Init :
    obs (fun t => (t.acc8, t.result)) (exec .crc8Init { sDigits with acc8 := 0x5E })
      = some (0, 0) := by decide +kernel

theorem test_crc8Byte :
    obs (fun t => (t.acc8, t.result)) (exec .crc8Byte { sDigits with argByte := 2 })
      = some (0xBC, 0xBC) := by decide +kernel

theorem test_crc8Block :
    obs (fun t => (t.acc8, t.result)) (exec .crc8Block sDigits) = some (0xA1, 0xA1) := by
  decide +kernel

theorem test_crc8Block_empty :
    obs (fun t => (t.acc8, t.result)) (exec .crc8Block { sDigits with argLen := 0, acc8 := 7 })
      = some (0, 0) := by decide +kernel

theorem test_crc8Check :
    obs (fun t => (t.acc8, t.statusWord)) (exec .crc8Check { machine instV [] [] with
      dbuf := bytesAt 0 [0x02, 0x1C, 0xB8, 1, 0, 0, 0, 0xA2], argLen := 8 }) = some (0, 0) := by
  decide +kernel

theorem test_crc8Check_fails :
    obs (fun t => (t.acc8, t.statusWord)) (exec .crc8Check { machine instV [] [] with
      dbuf := bytesAt 0 [0x02, 0x1C, 0xB8, 1, 0, 0, 1, 0xA2], argLen := 8 })
      = some (0xC4, 0x400) := by decide +kernel

theorem test_crc16Init :
    obs (fun t => (t.acc16, t.result)) (exec .crc16Init { sDigits with argSeed := 5 })
      = some (5, 5) := by decide +kernel

theorem test_crc16Byte :
    obs (fun t => (t.acc16, t.result)) (exec .crc16Byte { sDigits with argByte := 3 })
      = some (0x140, 0x140) := by decide +kernel

theorem test_crc16Block :
    obs (fun t => (t.acc16, t.result)) (exec .crc16Block sDigits) = some (0x4B37, 0x4B37) := by
  decide +kernel

theorem test_crc16Check :
    obs (fun t => (t.acc16, t.statusWord)) (exec .crc16Check (sPacket 0)) = some (0xB001, 0) := by
  decide +kernel

theorem test_crc16Check_fails :
    obs (fun t => (t.acc16, t.statusWord))
      (exec .crc16Check { sPacket 1 with speedOk := true, contOk := true })
      = some (0x6100, 0x406) := by decide +kernel

theorem test_crc16Emit :
    obs (fun t => (t.dbuf.read 3, t.dbuf.read 4, t.dbuf.read 5, t.result, t.acc16))
      (exec .crc16Emit { sDigits with acc16 := 0x121, argOff := 4 })
      = some (some 0x34, some 0xDE, some 0xFE, 0xFEDE, 0x121) := by decide +kernel

theorem test_crc16Emit_window :
    ends (exec .crc16Emit { sDigits with argOff := 63 }) = some (0x2000, 0) := by decide +kernel

theorem test_read :
    obs (fun t => (t.statusWord, t.result, t.dbuf)) (exec (.read false 0) (sRead 0x7F 1 [0x5A]))
      = some (6, 1, [(0, 0x5A)]) := by decide +kernel

theorem test_read_busy :
    obs (fun t => (t.statusWord, t.dbuf)) (exec (.read false 0)
      { machine instB [true, true, false] [0xFF, 0xFF] with argLen := 2 })
      = some (0x800, []) := by decide +kernel

theorem test_write :
    ends (exec (.write 0) (sStore instV 4 true [0x11, 0x22])) = some (2, 2) := by decide +kernel

theorem test_write_mismatch :
    ends (exec (.write 0) (sStore instV 4 true [0x11, 0x20])) = some (0x500, 0) := by
  decide +kernel

theorem test_forceVerify :
    ends (exec .forceVerify { sDigits with speedOk := true, contOk := true, result := 9 })
      = some (0, 0) := by decide +kernel

theorem test_readPage :
    obs (fun t => (t.statusWord, t.result, t.dbuf.read 31, t.dbuf.read 32))
      (exec (.readPage false 0) (sPage 3 (List.replicate 31 0 ++ [9, 8])))
      = some (6, 32, some 9, none) := by decide +kernel

theorem test_readPage_range :
    ends (exec (.readPage false 0) (sPage 4 [])) = some (0x100, 0) := by decide +kernel

theorem test_readPageExtra :
    obs (fun t => (t.statusWord, t.result, t.dbuf.read 33))
      (exec (.readPageExtra false 0) (sAuto (List.replicate 32 0 ++ [1, 2])))
      = some (2, 32, some 2) := by decide +kernel

theorem test_readPageExtra_capability :
    ends (exec (.readPageExtra false 0) (sPage 0 [])) = some (0x200, 0) := by decide +kernel

theorem test_readPageCrc :
    ends (exec (.readPageCrc false 0)
      (sAuto ((List.range 32).map (BitVec.ofNat 8) ++ [0x95, 0x3C]))) = some (6, 32) := by
  decide +kernel

theorem test_readPageCrc_fails :
    obs (fun t => (t.statusWord, t.result, t.dbuf)) (exec (.readPageCrc false 0)
      (sAuto ((List.range 32).map (BitVec.ofNat 8) ++ [0xFF, 0xFF])))
      = some (0x400, 0, []) := by decide +kernel

theorem test_readPageCrcExtra :
    obs (fun t => (t.statusWord, t.result, t.dbuf.read 32)) (exec (.readPageCrcExtra false 0)
      (sAuto (List.replicate 32 0 ++ [0xFF, 0xFF, 0x77, 0x78])))
      = some (2, 32, some 0x77) := by decide +kernel

theorem test_readPagePacket :
    obs (fun t => (t.statusWord, t.result, t.dbuf)) (exec (.readPagePacket false 0)
      { sPage 0 ([3, 0x41, 0x42, 0x43, 0xDE, 0xFE] ++ List.replicate 26 0) with argOff := 8 })
      = some (6, 3, [(8, 0x41), (9, 0x42), (10, 0x43)]) := by decide +kernel

theorem test_readPagePacket_format :
    ends (exec (.readPagePacket false 0) (sPage 0 (0x1E :: List.replicate 31 0)))
      = some (0x300, 0) := by decide +kernel

theorem test_writePagePacket :
    ends (exec (.writePagePacket 0) (sPut 0 3 [3, 0x41, 0x42, 0x43, 0xDE, 0xFE]))
      = some (2, 3) := by decide +kernel

theorem test_writePagePacket_format :
    ends (exec (.writePagePacket 0) (sPut 4 30 [])) = some (0x300, 0) := by decide +kernel

theorem test_lockPage :
    ends (exec .lockPage (sOtp instO 2 0 [0x5A])) = some (2, 1) := by decide +kernel

theorem test_isPageLocked :
    ends (exec .isPageLocked (sOtp instO 2 0 [0])) = some (2, 0) := by decide +kernel

theorem test_redirectPage :
    ends (exec .redirectPage (sOtp instO 1 3 [3])) = some (2, 3) := by decide +kernel

theorem test_redirectPage_mismatch :
    ends (exec .redirectPage (sOtp instO 1 3 [2])) = some (0x500, 0) := by decide +kernel

theorem test_getRedirectedPage :
    ends (exec .getRedirectedPage (sOtp instO 1 0 [0x80])) = some (2, 0) := by decide +kernel

theorem test_lockRedirectPage :
    ends (exec .lockRedirectPage (sOtp instO 1 0 [])) = some (0x200, 0) := by decide +kernel

theorem test_isRedirectPageLocked :
    ends (exec .isRedirectPageLocked (sOtp instL 1 0 [0x5B])) = some (2, 1) := by decide +kernel

theorem test_spWrite :
    obs (fun t => (t.statusWord, t.result, t.spTA, t.spLen, t.bus.trace))
      (exec .spWrite (sStage instS []))
      = some (0x12, 8, 0x10, 8,
          [.doSpeed true, .select [] true, .send [0xC1, 0x10, 0, 0, 1, 2, 3, 4, 5, 6, 7]]) := by
  decide +kernel

theorem test_spWrite_row :
    ends (exec .spWrite { sStage instS [] with argAddr := 0x0E, argLen := 4 })
      = some (0x100, 0) := by decide +kernel

theorem test_spReadVerify :
    obs (fun t => (t.statusWord, t.result, t.spES))
      (exec .spReadVerify { sStaged instS .written backGood with spES := 0 })
      = some (0x22, 8, 8) := by decide +kernel

/-- A corrupted byte is found by the CRC; where there is none, a wrong echo is found. -/
theorem test_spReadVerify_corrupt :
    ends (exec .spReadVerify (sStaged instS .written backBad)) = some (0x450, 0) ∧
    ends (exec .spReadVerify (sStaged { instS with spCrc := false } .written
      ([0x10, 0, 7] ++ backGood.drop 3))) = some (0x550, 0) := by
  decide +kernel

theorem test_spVerifyPassword :
    obs (fun t => (t.statusWord, t.bus.trace)) (exec (.spVerifyPassword 1)
      { sStaged instP .verified [0xC6] with
        pw := ⟨PwEntry.cleared instP, ⟨[0x31, 0x32, 0x33, 0x34], true⟩, PwEntry.cleared instP⟩ })
      = some (0x20032, [.select [] true, .canDeliverPower true,
          .send [0xC5, 0x10, 0, 0x31, 0x32, 0x33], .sendPulse [0x34] 0, .recv [0xFF] [0xC6]]) := by
  decide +kernel

theorem test_spVerifyPassword_rejected :
    ends (exec (.spVerifyPassword 1) (sStaged instP .verified [0])) = some (0x650, 0) := by
  decide +kernel

theorem test_spCopy :
    obs (fun t => (t.statusWord, t.result, t.bus.trace))
      (exec .spCopy (sStaged instS .verified [0xAA]))
      = some (0x42, 8, [.canDeliverPower true, .select [] true,
          .sendPulse [0xC3, 0x10, 0, 8, 0xC4] 0, .recv [0xFF] [0xAA]]) := by decide +kernel

theorem test_spCopy_refused :
    ends (exec .spCopy (sStaged instS .verified [0xFF])) = some (0x750, 0) := by decide +kernel

theorem test_pwLoad :
    obs (fun t => (t.statusWord, t.pw.readWrite.bytes)) (exec (.pwLoad 1)
      { machine instP [] [] with dbuf := bytesAt 8 [0x31, 0x32, 0x33, 0x34], argOff := 8 })
      = some (0x20000, [0x31, 0x32, 0x33, 0x34]) := by decide +kernel

theorem test_pwClear :
    obs (fun t => (t.statusWord, t.pw.writeOnly.bytes)) (exec (.pwClear 2)
      { machine instP [] [] with pw := ⟨PwEntry.cleared instP, PwEntry.cleared instP,
          ⟨[1, 2, 3, 4], true⟩⟩ }) = some (0, [0, 0, 0, 0]) := by decide +kernel

/-- 95_test_vectors.md 2.8: F_UNDEF on a DBUF that was never written. -/
theorem test_undefined_byte :
    ends (exec .crc8Block { machine instV [] [] with argLen := 1 }) = some (0x3000, 0) := by
  decide +kernel

/-! ### Witnesses: the hypotheses of each statement, met together -/

/-- A state with one pending host operation. -/
def pending (o : HostOp) (s : State) : State := { s with host := [.op o] }

/-- P right after its challenge was accepted. -/
def sGated (bytes : List Byte) : State :=
  { machine instP yes bytes with argLen := 1, argOff := 63 }

/-- P with every page read, about to read page 3. -/
def sGatedPage (bytes : List Byte) : State :=
  { machine { instP with flagAutoCrc := true, flagExtra := true, extraLen := 2 } yes bytes with
    argPage := 3 }

/-- S about to write one scratchpad row without verification, its device answering `bytes`. -/
def sRowOf (bytes : List Byte) : State := { sStage instS bytes with verify := false }

@[inherit_doc sRowOf] def sRow : State := sRowOf (backGood ++ [0xAA])

/-- P and S with a scratchpad that answers neither an address nor a CRC. -/
def instPlainP : Descriptor := { instP with spAddr := false, spCrc := false }
@[inherit_doc instPlainP] def instPlainS : Descriptor :=
  { instS with spAddr := false, spCrc := false }

/-- Four bytes over two rows of a password-gated bank, with verification. -/
def sRowsOf (bytes : List Byte) : State :=
  { machine instPlainP (List.replicate 16 true) bytes with
    dbuf := bytesAt 0 [1, 2, 3, 4], argAddr := 0x0E, argLen := 4 }

/-- Two rows' good answers, then those of the read-back. -/
def sRows : State := sRowsOf [1, 2, 0xC6, 0xAA, 3, 4, 0xC6, 0xAA, 0xC6, 1, 2, 3, 4]

/-- "ABC" as the packet of page 0 of a scratchpad bank, with verification. -/
def sPutRowOf (bytes : List Byte) : State :=
  { machine instPlainS yes bytes with dbuf := bytesAt 0 [0x41, 0x42, 0x43], argLen := 3 }

@[inherit_doc sPutRowOf] def sPutRow : State :=
  sPutRowOf [3, 0x41, 0x42, 0x43, 0xDE, 0xFE, 0xAA, 3, 0x41, 0x42, 0x43, 0xDE, 0xFE]

/-- The write of vector P5, its second row's confirmation byte FF (P5b). -/
def sP5b : State :=
  { machine { instS with esCount := [((0x0E, 2), 2), ((0x10, 2), 2)] } yes
      [0x0E, 0, 2, 0x11, 0x22, 0xAB, 0x55, 0, 0x10, 0, 2, 0x33, 0x44, 0x9B, 0xDD, 0xFF] with
    dbuf := bytesAt 0 [0x11, 0x22, 0x33, 0x44], argAddr := 0x0E, argLen := 4 }

/-- `s` with the scripted Boolean answers `bools`. -/
def answered (bools : List Bool) (s : State) : State :=
  { s with bus := { s.bus with bools := bools } }

/-- V in the middle of a run of continued reads. -/
def sCont (bytes : List Byte) : State := { sPage 3 bytes with
  speedOk := true, contOk := true, argAddr := 0x7F, argLen := 1 }

/-- An instance B whose bus answers all ones, then data. -/
def sPoll (bytes : List Byte) : State := { machine instB yes bytes with argLen := 2 }

/-- A polling bank with passwords, about to read two bytes that the first attempt finds all 0xFF. -/
def instPollP : Descriptor := { instPlainP with busyPoll := true, pollMax := 3 }
@[inherit_doc instPollP] def sPollP (bytes : List Byte) : State :=
  { machine instPollP yes ([0xC6, 0xFF, 0xFF] ++ bytes) with argLen := 2 }

/-- A polling bank with extra info, about to read page 0. -/
def sPollExtra (bytes : List Byte) : State :=
  machine { instA with busyPoll := true, pollMax := 3 } yes bytes

/-- The write of `sRows` on a bank that polls, its two rows good, its read-back answered `bytes`. -/
def sRowsPoll (bools : List Bool) (bytes : List Byte) : State :=
  { machine instPollP (List.replicate 16 true ++ bools)
      ([1, 2, 0xC6, 0xAA, 3, 4, 0xC6, 0xAA, 0xC6] ++ bytes) with
    dbuf := bytesAt 0 [1, 2, 3, 4], argAddr := 0x0E, argLen := 4 }

/-- `PollsTo` from its parts. -/
theorem pollsTo_of {q k n r : Nat} {s : State} (h : r ≤ retriesOf s.desc ∧
    (∀ j < r, s.pollBusy k n j) ∧ s.bus.yesFrom q (r * retryAsks s.desc) ∧
    (s.desc.pwGated = true → ∀ j < r, s.pollAnswer k n j = s.desc.pwAccept)) :
    s.PollsTo q k n r :=
  ⟨h.1, h.2.1, h.2.2.1, h.2.2.2⟩

/-- `TakesBlock` from its parts. -/
theorem takes_of {q k n r : Nat} {s : State} (h : (r ≤ retriesOf s.desc ∧
    (∀ j < r, s.pollBusy k n j) ∧ s.bus.yesFrom q (r * retryAsks s.desc) ∧
    (s.desc.pwGated = true → ∀ j < r, s.pollAnswer k n j = s.desc.pwAccept)) ∧
    (r = retriesOf s.desc ∨ ¬ s.pollBusy k n r)) : s.TakesBlock q k n r :=
  ⟨pollsTo_of h.1, h.2⟩

/-- A first retry that finds the device absent. -/
theorem absent_of {q k n : Nat} {s : State} (cont : Bool) (pw : List Byte) (p : Nat)
    (h : 0 < retriesOf s.desc ∧ s.pollBusy k n 0 ∧ s.bus.boolAnswer q = false) :
    ∃ es, s.PollFails cont pw p n q k .communication es :=
  ⟨_, .absent (r := 0) ⟨by omega, nofun, fun j hj => by simp at hj, fun _ => nofun⟩ h.1 h.2.1
    (by simpa using h.2.2)⟩

/-- A first retry that finds the device present and does not open. -/
theorem unopened_of {q k n : Nat} {s : State} (cont : Bool) (pw : List Byte) (p : Nat) {e : Err}
    {es : List BusEvent}
    (h : 0 < retriesOf s.desc ∧ s.pollBusy k n 0 ∧ s.bus.boolAnswer q = true)
    (no : s.OpenFails pw true (q + 1) (k + n) p e es) :
    ∃ es, s.PollFails cont pw p n q k e es :=
  ⟨_, .unopened (r := 0) ⟨by omega, nofun, fun j hj => by simp at hj, fun _ => nofun⟩ h.1 h.2.1
    (by simpa using h.2.2) (by simpa using no)⟩

theorem witness_DecodeEncodeAgree :
    (Instr.read true 2).WF ∧ decode 0x10C00000 = .ok (.read true 2) := by decide +kernel

theorem witness_IllegalWords :
    decode 0x10E00000 = .error .pwselIllegal ∧
    (pending (.regWrite 0 0x10E00000) sDigits).fault = none ∧
    (pending (.regWrite 0 0x10E00000) sDigits).busy = false ∧
    (pending (.regWrite 0 0x10E00000) sDigits).host = .op (.regWrite 0 0x10E00000) :: [] :=
  ⟨rfl, rfl, rfl, rfl⟩

theorem witness_StepRunsCommand :
    (pending (.regWrite 0 0x10000000) (sRead 0 1 [])).host = .op (.regWrite 0 0x10000000) :: [] ∧
    (pending (.regWrite 0 0x10000000) (sRead 0 1 [])).fault = none ∧
    (pending (.regWrite 0 0x10000000) (sRead 0 1 [])).busy = false ∧
    decode 0x10000000 = .ok (.read false 0) := by decide +kernel

theorem witness_Inv : (pending (.regWrite 0 0x43000000) (sStaged instS .verified [0xAA])).Inv where
  desc_wf := by decide +kernel
  not_busy := by decide +kernel
  no_limit := by decide +kernel
  dbuf_wf := by decide +kernel
  dbuf_bound := by decide +kernel
  cont_speed := by decide +kernel
  idle_without_scratchpad := by decide +kernel
  authed_gated := by decide +kernel
  spBuf_length := by decide +kernel
  spLen_le := by decide +kernel
  open_staged := by decide +kernel
  pw_readOnly := ⟨by decide +kernel, by decide +kernel⟩
  pw_readWrite := ⟨by decide +kernel, by decide +kernel⟩
  pw_writeOnly := ⟨by decide +kernel, by decide +kernel⟩

theorem witness_StepKeepsInvariant :
    (pending (.regWrite 0 0x43000000) (sStaged instS .verified [0xAA])).Inv ∧
    step (pending (.regWrite 0 0x43000000) (sStaged instS .verified [0xAA])) =
      .next { ended .spCopy (sStaged instS .verified [0xAA]) with host := [] } :=
  ⟨witness_Inv, rfl⟩

theorem witness_ResetHasInvariant : instP.WF := by decide +kernel

theorem witness_ResetValues :
    (pending .reset (sStaged instS .verified [])).host = .op .reset :: [] := rfl

theorem witness_FaultedStateIsSticky :
    ∀ o ∈ [HostOp.regWrite 0 0x01000000, .regWrite 3 1, .dbufWrite 0 1, .regRead 1, .dbufRead 0,
      .reset],
    (pending o { sDigits with fault := some .seq }).fault ≠ none ∧
    (pending o { sDigits with fault := some .seq }).host = .op o :: [] := by decide +kernel

theorem witness_ResetLeavesTheRest :
    (pending .reset (sStaged instS .verified [1])).host = .op .reset :: [] := rfl

/-- A CMD write with an operation that was to land in its window. -/
theorem witness_FaultedStateIsSticky_during :
    ({ sDigits with fault := some .seq, host := [.during 0x01000000 [(0, .regRead 1)]] } :
      State).fault ≠ none ∧
    ({ sDigits with fault := some .seq, host := [.during 0x01000000 [(0, .regRead 1)]] } :
      State).host = .during 0x01000000 [(0, .regRead 1)] :: [] := by decide +kernel

/-- And a reset is a single operation that leaves FAULT 0. -/
theorem witness_FaultedStateIsSticky_reset :
    obs (fun t => t.fault) (step (pending .reset { sDigits with fault := some .seq })) =
      some none :=
  rfl

/-- Registers at the ends of their ranges, and the host's accesses to them. -/
theorem witness_RegisterFile : 0x18 < 0x19 ∧ (0x02 ∈ [0x01, 0x02]) ∧
    (0x0B ≤ 0x0B ∧ 0x0B ≤ 0x18) ∧ (0x0B ≤ 0x18 ∧ 0x18 ≤ 0x18) ∧
    (∀ n ∈ [0, 1, 0x18, 0x19], (pending (.regRead n) sDigits).host = .op (.regRead n) :: []) ∧
    (∀ n ∈ [1, 2, 3, 0x0A, 0x0B, 0x18, 0x19], n ≠ 0 ∧
      (n ∈ [0x01, 0x02] ∨ 0x0B ≤ n ∨ n ∈ [3, 0x0A]) ∧
      (pending (.regWrite n 0xFFFFFFFF) sDigits).fault = none ∧
      (pending (.regWrite n 0xFFFFFFFF) sDigits).busy = false ∧
      (pending (.regWrite n 0xFFFFFFFF) sDigits).host = .op (.regWrite n 0xFFFFFFFF) :: []) := by
  decide +kernel

theorem witness_RegisterReadAfterWrite : (∀ n ∈ [3, 0x0A], 3 ≤ n ∧ n ≤ 0x0A ∧
    (pending (.regWrite n 0xFFFFFFFF) sDigits).fault = none ∧
    (pending (.regWrite n 0xFFFFFFFF) sDigits).busy = false ∧
    (pending (.regWrite n 0xFFFFFFFF) sDigits).host = .op (.regWrite n 0xFFFFFFFF) :: []) ∧
    (sGated []).desc.pwGated = true ∧ (sGated []).desc.pwLen < 256 := by
  decide +kernel

theorem witness_RegisterReadAfterWrite_wf : sDigits.desc.WF ∧ (sGated []).desc.WF :=
  ⟨by decide +kernel, by decide +kernel⟩

/-- The last code of each field. -/
theorem witness_StatusFields :
    (sStaged instS .aborted []).spState = .aborted ∧
    ({ sDigits with err := some .powerUnavailable } : State).err = some .powerUnavailable ∧
    ({ sDigits with fault := some .busy } : State).fault = some .busy := by decide +kernel

theorem witness_DbufPort :
    sDigits.fault = none ∧ sDigits.busy = false ∧
    (∀ i ∈ [63, 64], (pending (.dbufWrite i 7) sDigits).host = .op (.dbufWrite i 7) :: []) ∧
    (pending (.dbufRead 8) sDigits).host = .op (.dbufRead 8) :: [] ∧
    8 < sDigits.desc.dbufSize ∧ sDigits.dbuf.read 8 = some 0x39 ∧
    (pending (.dbufRead 64) sDigits).host = .op (.dbufRead 64) :: [] ∧
    sDigits.desc.dbufSize ≤ 64 := by decide +kernel

/-- An access right after the start, before the first event and after the third; a command that
finishes and one that faults itself. -/
theorem witness_WriteWhileBusy :
    (∀ o ∈ [HostOp.regWrite 0 0x01000000, .dbufWrite 0 1, .regRead 0x01, .regRead 0x02,
        .regRead 0x16, .dbufRead 0], ∀ k ∈ [0, 1, 4],
      (sRead 0 1 [0x5A]).fault = none ∧ (sRead 0 1 [0x5A]).busy = false ∧
      decode 0x10000000 = .ok (.read false 0) ∧
      ({ sRead 0 1 [0x5A] with host := [.during 0x10000000 [(k, o)]] } : State).host =
        .during 0x10000000 [(k, o)] :: [] ∧
      (State.midCommand (.read false 0) k { sRead 0 1 [0x5A] with host := [] }).busy = true) ∧
    (State.midCommand .crc8Block 0 { sDigits with host := [], argOff := 60 }).busy = true ∧
    (ended (.read false 0) (sRead 0 1 [0x5A])).fault = none ∧
    (ended .crc8Block { sDigits with argOff := 60 }).fault = some .dbuf := by decide +kernel

/-- STATUS and RESULT read before the last event of a READ: BUSY and SPEED_OK, and the old RESULT
(60_exceptions.md R202). -/
theorem test_read_while_busy :
    obs (fun t => (t.hostOut, t.result)) (step { sRead 0 1 [0x5A] with
      result := 7, host := [.during 0x10000000 [(4, .regRead 1), (0, .regRead 2)]] }) =
        some ([3, 7], 1) := by decide +kernel

theorem witness_WriteWhileBusy_exec :
    exec (.read false 0) { sRead 0 1 [0x5A] with host := [] } =
      .next (ended (.read false 0) { sRead 0 1 [0x5A] with host := [] }) := rfl

/-- Right after the start, before the first event, and after the third. -/
theorem witness_ResetWhileBusy :
    (sRead 0 1 [0x5A]).fault = none ∧ (sRead 0 1 [0x5A]).busy = false ∧
    decode 0x10000000 = .ok (.read false 0) ∧
    (∀ k ∈ [0, 1, 4],
      ({ sRead 0 1 [0x5A] with host := [.during 0x10000000 [(k, .reset)]] } : State).host =
        .during 0x10000000 [(k, .reset)] :: [] ∧
      (State.midCommand (.read false 0) k
        { sRead 0 1 [0x5A] with host := [] }).busy = true) ∧
    ((ended (.read false 0) (sRead 0 1 [0x5A])).bus.trace.take 3 =
      [.doSpeed true, .select [] true, .send (Config.seqRead 0 1)]) := by
  refine ⟨by decide +kernel, by decide +kernel, by decide +kernel, by decide +kernel, rfl⟩

/-- 95_test_vectors.md 2.1: crc16_step(0x0001, 0x00) and crc16_step(0x0000, 0x01) are 0xC0C1. -/
theorem witness_CrcRegisterCommands :
    (1 : Half) ^^^ (0 : Byte).setWidth 16 = (0 : Half) ^^^ (1 : Byte).setWidth 16 ∧
    crc16Step 1 0 = 0xC0C1 ∧ crc16Step 0 1 = 0xC0C1 := by decide +kernel

theorem witness_CrcWindowCommands :
    sDigits.inputIs sDigits.argLen.toNat [0x31, 0x32, 0x33, 0x34, 0x35, 0x36, 0x37, 0x38, 0x39] ∧
    (sPacket 0).inputIs (sPacket 0).argLen.toNat [0x03, 0x41, 0x42, 0x43, 0xDE, 0xFE] ∧
    ({ sDigits with argLen := 0, argOff := 64 } : State).inputIs 0 [] := by decide +kernel

/-- A window of ARG_LEN bytes and PW_LOAD's of PW_LEN, one too far and at the end with a byte that
is unmarked. -/
theorem witness_InputWindowFaults :
    (sDigits.desc.dbufSize <
      ({ sDigits with argOff := 56 } : State).argOff.toNat + sDigits.argLen.toNat) ∧
    (({ sDigits with argOff := 55 } : State).argOff.toNat + sDigits.argLen.toNat ≤
      sDigits.desc.dbufSize) ∧
    (55 ≤ 63 ∧ 63 < 55 + sDigits.argLen.toNat ∧ sDigits.dbuf.read 63 = none) ∧
    (2 : BitVec 2) ≠ 3 ∧ (if instP.pwGated then instP.pwLen else 0) = 4 ∧
    instP.dbufSize < ({ sGated [] with argOff := 61 } : State).argOff.toNat + 4 ∧
    ({ sGated [] with argOff := 60 } : State).argOff.toNat + 4 ≤ instP.dbufSize ∧
    (60 ≤ 60 ∧ 60 < 60 + 4 ∧ (sGated []).dbuf.read 60 = none) := by decide +kernel

theorem witness_Crc16EmitCommand :
    sDigits.desc.dbufSize < ({ sDigits with argOff := 63 } : State).argOff.toNat + 2 ∧
    ({ sDigits with argOff := 62 } : State).argOff.toNat + 2 ≤ sDigits.desc.dbufSize := by
  decide +kernel

theorem witness_CrcResidualLaws : (0 : Half) ≠ 0xFFFF := by decide

/-- A command that finishes, one that raises and one that faults, for the frames. -/
theorem witness_exec :
    exec .crc8Block sDigits = .next (ended .crc8Block sDigits) ∧
    exec (.read false 0) (sRead 0x7F 2 []) = .next (ended (.read false 0) (sRead 0x7F 2 [])) ∧
    exec .spCopy (sStaged instS .written []) = .next (ended .spCopy (sStaged instS .written [])) :=
  ⟨rfl, rfl, rfl⟩

theorem witness_HostSideAndAccumulatorFrame :
    exec (.pwClear 0) sDigits = .next (ended (.pwClear 0) sDigits) ∧
    (Instr.pwClear 0 ∉ [.crc8Init, .crc8Byte, .crc8Block, .crc8Check]) ∧
    (Instr.pwClear 0 ∉ [.crc16Init, .crc16Byte, .crc16Block, .crc16Check]) :=
  ⟨rfl, by decide, by decide⟩

theorem witness_StagedAndPasswordFrame :
    exec .spReadVerify (sStaged instS .written backGood) =
      .next (ended .spReadVerify (sStaged instS .written backGood)) ∧
    Instr.spReadVerify ≠ .spWrite ∧ writesBank .spReadVerify = false ∧
    exec (.pwClear 1) (sGated []) = .next (ended (.pwClear 1) (sGated [])) ∧
    slotOf 1 ≠ some .writeOnly := ⟨rfl, by decide, rfl, rfl, by decide⟩

/-- One finish; one fault and one raise, which leave DBUF whole. -/
theorem witness_DbufFrame :
    sDigits.fault = none ∧ (ended .crc16Emit sDigits).fault = none ∧
    (ended .crc16Emit { sDigits with argOff := 63 }).fault = some .dbuf ∧
    (ended (.read false 0) (sRead 0x7F 2 [])).err = some .range ∧
    ¬ (4 ≤ 3 ∧ 3 < 4 + outputWindow .crc16Emit { sDigits with argOff := 4 }) := by decide +kernel

theorem witness_FaultChangesNothingElse :
    exec .spCopy (sStaged instS .written []) = .next (ended .spCopy (sStaged instS .written [])) ∧
    (ended .spCopy (sStaged instS .written [])).fault = some .seq := ⟨rfl, by decide +kernel⟩

/-- A raise of an internal command, one from bus data, and one before any bus event. -/
theorem witness_RaiseRules :
    (sPacket 1).fault = none ∧ (ended .crc16Check (sPacket 1)).fault = none ∧
    (ended .crc16Check (sPacket 1)).err = some .integrity ∧ isBus .crc16Check = false ∧
    (ended .spReadVerify (sStaged instS .written backBad)).fault = none ∧
    (ended .spReadVerify (sStaged instS .written backBad)).err = some .integrity ∧
    isBus .spReadVerify = true ∧
    (ended (.read false 0) (sCont [])).err = none ∧
    (ended (.read false 0) { sCont [] with argLen := 2 }).err = some .range ∧
    (sCont []).speedOk = true := by decide +kernel

/-- CONT_OK set by a read, cleared by a write, kept by a fault and by a CRC command. -/
theorem witness_ContOkRule :
    (ended (.read true 0) (sCont [9])).contOk = true ∧
    (ended (.write 0) { sCont [9] with dbuf := bytesAt 0 [9] }).contOk = false ∧
    (ended .crc8Init (sCont [])).contOk = true ∧
    (ended .spCopy { sStaged instS .written [] with contOk := true }).contOk = true := by
  decide +kernel

theorem witness_HistoryGrows :
    exec .crc8Init sDigits = .next (ended .crc8Init sDigits) ∧ isBus .crc8Init = false ∧
    Instr.crc8Init ≠ .forceVerify := ⟨rfl, rfl, by decide⟩

/-- A first read, a continued one, and one on a password-gated bank. -/
theorem witness_ReadCompletes :
    slotOf 0 = some .readOnly ∧ slotOf 2 = some .writeOnly ∧
    (∀ s ∈ [sRead 0x7F 1 [0x5A], sGated [0xC6, 0x11]],
      (s.contOk = true → s.speedOk = true) ∧ s.readStarts false 2 s.argLen.toNat ∧
      s.argAddr.toNat + s.argLen.toNat ≤ s.desc.size ∧ s.readOpens false ∧
      takenAtOnce s.desc (s.bus.bytesAfter (s.openBytes false) s.argLen.toNat)) ∧
    ((sCont [7]).contOk = true → (sCont [7]).speedOk = true) ∧
    (sCont [7]).readStarts true 0 (sCont [7]).argLen.toNat ∧
    (sCont [7]).argAddr.toNat + (sCont [7]).argLen.toNat ≤ (sCont [7]).desc.size ∧
    (sCont [7]).readOpens true ∧
    takenAtOnce (sCont [7]).desc ((sCont [7]).bus.bytesAfter 0 1) := by decide +kernel

theorem witness_ReadPolls :
    ∀ s ∈ [sPoll [0xFF, 0xFF, 0x12, 0x34], sPoll [0xFF, 0xFF, 0xFF, 0xFF, 0xFF, 0xFF]],
      s.desc.busyPoll = true ∧ s.desc.pwGated = false ∧ (s.contOk = true → s.speedOk = true) ∧
      s.readStarts false 0 s.argLen.toNat ∧ s.argAddr.toNat + s.argLen.toNat ≤ s.desc.size ∧
      s.bus.yes (s.openAsks false + 2 * (s.desc.pollMax - 1)) := by decide +kernel

/-- The operands of the retries below, of the four commands, continued or not. -/
theorem witness_ReadPolls_operands :
    slotOf 0 = some .readOnly ∧ instPollP.pwGated = true ∧
    (∀ s ∈ [sPoll [], sPollP [], { sPoll [] with speedOk := true, contOk := true }],
      (s.contOk = true → s.speedOk = true) ∧ s.readOpens s.contOk) ∧
    (sPoll []).ReadsBlock false 0 (.read false 0) 0 2 ∧
    (sPoll []).ReadsBlock false 0 (.readPage false 0) 0 32 ∧
    (sPollExtra []).ReadsBlock false 0 (.readPageExtra false 0) 0 32 ∧
    (sPoll []).ReadsBlock false 0 (.readPagePacket false 0) 0 32 ∧
    (sPollP []).ReadsBlock false 0 (.read false 0) 0 2 :=
  ⟨by decide +kernel, by decide +kernel, by decide +kernel,
    .read (by decide +kernel) (by decide +kernel),
    .page (by decide +kernel) (by decide +kernel) (by decide +kernel),
    .page (by decide +kernel) (by decide +kernel) (by decide +kernel),
    .page (by decide +kernel) (by decide +kernel) (by decide +kernel),
    .read (by decide +kernel) (by decide +kernel)⟩

/-- A block taken at the first retry, on a bank without and on one with passwords, behind a
continued read, and of a page; the last block, which is taken as it is; and the block of a bank that
does not poll. Two questions and no byte open the first, three and one the second. -/
theorem witness_ReadPolls_taken :
    (sPoll [0xFF, 0xFF, 0x12, 0x34]).TakesBlock 2 0 2 1 ∧
    (sPollP [0xC6, 0x12, 0x34]).TakesBlock 3 1 2 1 ∧
    ({ sPoll [0xFF, 0xFF, 0x12, 0x34] with speedOk := true, contOk := true } :
        State).TakesBlock 0 0 2 1 ∧
    (sPoll (List.replicate 32 0xFF ++ List.replicate 32 1)).TakesBlock 2 0 32 1 ∧
    (sPoll (List.replicate 6 0xFF)).TakesBlock 2 0 2 2 ∧ retriesOf instB = 2 ∧
    (sRead 0 1 [0xFF]).TakesBlock 2 0 1 0 ∧
    ((sPoll []).openAsks false = 2 ∧ (sPoll []).openBytes false = 0) ∧
    ((sPollP []).openAsks false = 3 ∧ (sPollP []).openBytes false = 1) :=
  ⟨takes_of (by decide +kernel), takes_of (by decide +kernel), takes_of (by decide +kernel),
    takes_of (by decide +kernel), takes_of (by decide +kernel), by decide +kernel,
    takes_of (by decide +kernel), by decide +kernel, by decide +kernel⟩

/-- The retries that fail: no presence, no selection, no power, and a wrong answer; and no presence
at a page, for the three page reads. -/
theorem witness_ReadPolls_lost :
    instPollP.WF ∧
    (∀ bools ∈ [[true, true, true, false], [true, true, true, true, false],
        [true, true, true, true, true, false], yes],
      (answered bools (sPollP [0])).readOpens false) ∧
    (∃ es, (answered [true, true, true, false] (sPollP [0])).PollFails false [0, 0, 0, 0] 0 2 3 1
      .communication es) ∧
    (∃ es, (answered [true, true, true, true, false] (sPollP [0])).PollFails false [0, 0, 0, 0] 0 2
      3 1 .communication es) ∧
    (∃ es, (answered [true, true, true, true, true, false] (sPollP [0])).PollFails false
      [0, 0, 0, 0] 0 2 3 1 .powerUnavailable es) ∧
    (∃ es, (sPollP [0]).PollFails false [0, 0, 0, 0] 0 2 3 1 .authentication es) ∧
    (∃ es, (answered [true, true, false] (sPollExtra (List.replicate 32 0xFF))).PollFails false []
      0 32 2 0 .communication es) ∧
    ∃ es, (answered [true, true, false] (sPoll (List.replicate 32 0xFF))).PollFails false []
      0 32 2 0 .communication es :=
  ⟨by decide +kernel, by decide +kernel, absent_of _ _ _ (by decide +kernel),
    unopened_of _ _ _ (by decide +kernel) (.unselected (by decide +kernel)),
    unopened_of _ _ _ (by decide +kernel) (.unpowered rfl (by decide +kernel) (by decide +kernel)),
    unopened_of _ _ _ (by decide +kernel) (.rejected rfl (by decide +kernel) (by decide +kernel)),
    absent_of _ _ _ (by decide +kernel), absent_of _ _ _ (by decide +kernel)⟩

theorem witness_ReadTraps :
    instV.dbufSize <
      ({ sCont [] with argOff := 64 } : State).argOff.toNat + (sCont []).argLen.toNat ∧
    ({ sRead 0 1 [] with argOff := 63 } : State).argOff.toNat + (sRead 0 1 []).argLen.toNat
      ≤ instV.dbufSize ∧ (sRead 0 1 []).contOk = false ∧
    (sRead 0x7F 2 []).readStarts false 0 (sRead 0x7F 2 []).argLen.toNat ∧
    (sRead 0x7F 2 []).desc.size <
      (sRead 0x7F 2 []).argAddr.toNat + (sRead 0x7F 2 []).argLen.toNat := by decide +kernel

/-- READ, the five page reads and a WRITE of no byte come to the opening of their read. -/
theorem witness_ReadRejected_opens :
    (∀ s ∈ [sGated [0], answered [true, true, false] (sGated [])],
      s.ReachesOpen 1 (.read false 1) 0 0 []) ∧
    (∀ s ∈ [sGatedPage [0], answered [true, true, false] (sGatedPage [])],
      ∀ i ∈ [Instr.readPage false 1, .readPageExtra false 1, .readPageCrc false 1,
        .readPageCrcExtra false 1, .readPagePacket false 1], s.ReachesOpen 1 i 0x60 0 []) ∧
    (∀ s ∈ [sStaged instP .idle [0], answered [true, true, false] (sStaged instP .idle [])],
      s.ReachesOpen 1 (.write 1) 0 1 [.canDeliverPower true]) := by
  refine ⟨fun s hs => ?_, fun s hs i hi => ?_, fun s hs => ?_⟩ <;>
    simp only [List.mem_cons, List.not_mem_nil, or_false] at hs
  · rcases hs with rfl | rfl <;> exact .read (by decide +kernel) (by decide +kernel)
  · simp only [List.mem_cons, List.not_mem_nil, or_false] at hi
    rcases hs with rfl | rfl <;> rcases hi with rfl | rfl | rfl | rfl | rfl <;>
      exact .page (by decide +kernel) (by decide +kernel) (by decide +kernel)
  · rcases hs with rfl | rfl <;>
      exact .emptyWrite (by decide) rfl rfl (by decide +kernel) (by decide +kernel)
        (by decide +kernel) (by decide +kernel)

/-- An answer that is not the accept byte, and power that cannot be delivered. -/
theorem witness_ReadRejected :
    slotOf 1 = some .readWrite ∧
    (∀ e ∈ [(sGated [0], 0), (sGatedPage [0], 0), (sStaged instP .idle [0], 1)],
      e.1.desc.pwGated = true ∧ e.1.bus.yes (e.2 + e.1.prologueAsks) ∧
      e.1.bus.boolAnswer (e.1.bus.nBool + (e.2 + e.1.prologueAsks)) = true ∧
      e.1.bus.byteAnswer e.1.bus.nByte ≠ e.1.desc.pwAccept) ∧
    (∀ e ∈ [(answered [true, true, false] (sGated []), 0),
        (answered [true, true, false] (sGatedPage []), 0),
        (answered [true, true, false] (sStaged instP .idle []), 1)],
      e.1.desc.pwGated = true ∧ e.1.bus.yes (e.2 + e.1.prologueAsks) ∧
      e.1.bus.boolAnswer (e.1.bus.nBool + (e.2 + e.1.prologueAsks)) = false) := by
  decide +kernel

/-- No speed and no selection, at the opening of a read. -/
theorem witness_ReadNotSelected :
    ∀ bools ∈ [[false], [true, false]],
      (answered bools (sRead 0 1 [])).ReachesPrologue (.read false 0) false 0 [] ∧
      ¬ (answered bools (sRead 0 1 [])).bus.yesFrom 0 (asksOf false) := by
  intro bools h
  simp only [List.mem_cons, List.not_mem_nil, or_false] at h
  rcases h with rfl | rfl <;>
    exact ⟨.opening (.read (by decide +kernel) (by decide +kernel)), by decide +kernel⟩

/-- WRITE and WRITE_PAGE_PACKET: the first prologue, direct and through the scratchpad, and that of
a read-back. -/
theorem witness_ReadNotSelected_writes :
    ((answered [false] (sStore instV 4 true [])).ReachesPrologue (.write 0) false 0 [] ∧
      ¬ (answered [false] (sStore instV 4 true [])).bus.yesFrom 0 (asksOf false)) ∧
    ((answered [true, false] (sStage instS [])).ReachesPrologue (.write 0) false 1
        [.canDeliverPower true] ∧
      ¬ (answered [true, false] (sStage instS [])).bus.yesFrom 1 (asksOf false)) ∧
    (∃ es, (answered [true, true, false] (sStore instV 4 true [])).ReachesPrologue (.write 0)
        true 2 es ∧
      ¬ (answered [true, true, false] (sStore instV 4 true [])).bus.yesFrom 2 (asksOf true)) ∧
    ((answered [true, false] (sPut 0 3 [])).ReachesPrologue (.writePagePacket 0) false 0 [] ∧
      ¬ (answered [true, false] (sPut 0 3 [])).bus.yesFrom 0 (asksOf false)) ∧
    ∃ es, (answered [true, true, false] (sPut 0 3 [])).ReachesPrologue (.writePagePacket 0)
        true 2 es ∧
      ¬ (answered [true, true, false] (sPut 0 3 [])).bus.yesFrom 2 (asksOf true) :=
  ⟨⟨.write (xs := [0x11, 0x22]) (by decide) (by decide +kernel) (by decide +kernel)
      (by decide +kernel) (by decide +kernel) (by decide +kernel), by decide +kernel⟩,
    ⟨.write (xs := [0, 1, 2, 3, 4, 5, 6, 7]) (by decide) (by decide +kernel) (by decide +kernel)
      (by decide +kernel) (by decide +kernel) (by decide +kernel), by decide +kernel⟩,
    ⟨_, .writeBack (xs := [0x11, 0x22]) (by decide) (by decide +kernel) (by decide +kernel)
      (by decide +kernel) (by decide +kernel) rfl rfl (by decide +kernel), by decide +kernel⟩,
    ⟨.packet (xs := [0x41, 0x42, 0x43]) (by decide +kernel) (by decide) (by decide +kernel)
      (by decide +kernel) (by decide +kernel) (by decide +kernel) (by decide +kernel),
      by decide +kernel⟩,
    ⟨_, .packetBack (xs := [0x41, 0x42, 0x43]) (by decide +kernel) (by decide)
      (by decide +kernel) (by decide +kernel) (by decide +kernel) (by decide +kernel) rfl rfl
      (by decide +kernel), by decide +kernel⟩⟩

/-- The six OTP commands, and the status read behind a program. -/
theorem witness_ReadNotSelected_otp :
    ((∀ i ∈ [Instr.isPageLocked, .getRedirectedPage, .isRedirectPageLocked],
        (answered [false] (sOtp instL 3 0 [])).ReachesPrologue i false 0 []) ∧
      ¬ (answered [false] (sOtp instL 3 0 [])).bus.yesFrom 0 (asksOf false)) ∧
    ((∀ i ∈ [Instr.lockPage, .redirectPage, .lockRedirectPage],
        (answered [true, false] (sOtp instL 3 3 [])).ReachesPrologue i false 1
          [.canProgramPulse true]) ∧
      ¬ (answered [true, false] (sOtp instL 3 3 [])).bus.yesFrom 1 (asksOf false)) ∧
    (∀ i ∈ [Instr.lockPage, .redirectPage, .lockRedirectPage],
        ∃ es, (answered [true, true, true, false] (sOtp instL 3 3 [])).ReachesPrologue i true 3
          es) ∧
      ¬ (answered [true, true, true, false] (sOtp instL 3 3 [])).bus.yesFrom 3 (asksOf true) := by
  refine ⟨⟨fun i hi => ?_, by decide +kernel⟩, ⟨fun i hi => ?_, by decide +kernel⟩,
    fun i hi => ?_, by decide +kernel⟩ <;>
    simp only [List.mem_cons, List.not_mem_nil, or_false] at hi
  · rcases hi with rfl | rfl | rfl <;> exact .otpQuery (by decide +kernel) (by decide +kernel)
  · rcases hi with rfl | rfl | rfl
    · exact .otpProgram (.lock rfl (by decide +kernel)) (by decide +kernel)
    · exact .otpProgram (.redirect rfl (by decide +kernel) (by decide) (by decide +kernel))
        (by decide +kernel)
    · exact .otpProgram (.lockRedirect rfl (by decide +kernel)) (by decide +kernel)
  · rcases hi with rfl | rfl | rfl
    · exact ⟨_, .otpStatus (.lock rfl (by decide +kernel)) (by decide +kernel)⟩
    · exact ⟨_, .otpStatus (.redirect rfl (by decide +kernel) (by decide) (by decide +kernel))
        (by decide +kernel)⟩
    · exact ⟨_, .otpStatus (.lockRedirect rfl (by decide +kernel)) (by decide +kernel)⟩

/-- The four scratchpad commands; SP_COPY with power, without and with a password. -/
theorem witness_ReadNotSelected_scratchpad :
    ((answered [true, false] (sStage instS [])).ReachesPrologue .spWrite false 0 [] ∧
      ¬ (answered [true, false] (sStage instS [])).bus.yesFrom 0 (asksOf false)) ∧
    ((answered [false] (sStaged instS .written [])).ReachesPrologue .spReadVerify true 0 [] ∧
      ¬ (answered [false] (sStaged instS .written [])).bus.yesFrom 0 (asksOf true)) ∧
    ((answered [false] (sStaged instP .verified [])).ReachesPrologue (.spVerifyPassword 1)
        true 0 [] ∧
      ¬ (answered [false] (sStaged instP .verified [])).bus.yesFrom 0 (asksOf true)) ∧
    ∀ s ∈ [answered [true, false] (sStaged instS .verified []),
        answered [true, false] (sStaged instP .authed [])],
      s.ReachesPrologue .spCopy true 1 [.canDeliverPower true] ∧
      ¬ s.bus.yesFrom 1 (asksOf true) := by
  refine ⟨⟨.spWrite (xs := [0, 1, 2, 3, 4, 5, 6, 7]) rfl (by decide +kernel) (by decide +kernel)
      (by decide +kernel) (by decide +kernel), by decide +kernel⟩,
    ⟨.spReadVerify rfl rfl, by decide +kernel⟩,
    ⟨.spVerifyPassword (by decide) rfl rfl, by decide +kernel⟩, fun s hs => ?_⟩
  simp only [List.mem_cons, List.not_mem_nil, or_false] at hs
  rcases hs with rfl | rfl <;> exact ⟨.spCopy rfl rfl rfl, by decide +kernel⟩

theorem witness_WriteTraps :
    (sStore instV 127 true []).inputIs (sStore instV 127 true []).argLen.toNat [0x11, 0x22] ∧
    (sStore instV 127 true []).desc.size <
      (sStore instV 127 true []).argAddr.toNat + (sStore instV 127 true []).argLen.toNat ∧
    (sStore instR 126 true []).inputIs (sStore instR 126 true []).argLen.toNat [0x11, 0x22] ∧
    (sStore instR 126 true []).argAddr.toNat + (sStore instR 126 true []).argLen.toNat
      ≤ (sStore instR 126 true []).desc.size ∧ ¬ Writable (sStore instR 126 true []).desc ∧
    (sPut 4 30 []).inputIs 30 (0x41 :: 0x42 :: 0x43 :: List.replicate 27 0) ∧
    (sPut 4 30 []).desc.maxPkt < (sPut 4 30 []).argLen.toNat ∧
    (sPut 4 3 []).inputIs 3 [0x41, 0x42, 0x43] ∧
    (sPut 4 3 []).argLen.toNat ≤ (sPut 4 3 []).desc.maxPkt ∧
    (sPut 4 3 []).desc.pageCount ≤ (sPut 4 3 []).argPage.toNat := by decide +kernel

/-- No power, no program pulse, and a packet for a bank that cannot be written. -/
theorem witness_WriteTraps_power :
    (instS.WF ∧ instO.WF ∧ instR.WF) ∧
    (∀ s ∈ [answered [false] (sStore instS 4 true []), answered [false] (sStore instO 4 true [])],
      s.inputIs s.argLen.toNat [0x11, 0x22] ∧ s.argAddr.toNat + s.argLen.toNat ≤ s.desc.size ∧
      Writable s.desc ∧ s.powerMissing ∧ s.argLen.toNat ≤ s.desc.maxPkt ∧
      s.argPage.toNat < s.desc.pageCount) ∧
    (sStore instR 4 true []).inputIs (sStore instR 4 true []).argLen.toNat [0x11, 0x22] ∧
    (sStore instR 4 true []).argLen.toNat ≤ instR.maxPkt ∧
    (sStore instR 4 true []).argPage.toNat < instR.pageCount ∧ ¬ Writable instR :=
  ⟨⟨by decide +kernel, by decide +kernel, by decide +kernel⟩, by decide +kernel⟩

/-- Equal and differing read-back, verification off, a bank with the program pulse, and a read-back
that is all 0xFF once; then no byte on a bank with a scratchpad, without and with passwords. With
each how many questions it draws. -/
theorem witness_WriteDirectOutcome :
    slotOf 0 = some .readOnly ∧
    (∀ e ∈ [(sStore instV 126 true [0x11, 0x22], 3), (sStore instV 4 true [0x11, 0x20], 3),
        (sStore instV 4 false [], 2), (sStore instO 4 true [0x11, 0x22], 4),
        (sStore instB 4 true [0xFF, 0xFF, 0x11, 0x22], 3)],
      e.1.desc.spPresent = false ∧ e.1.inputIs e.1.argLen.toNat [0x11, 0x22] ∧
      e.1.argAddr.toNat + e.1.argLen.toNat ≤ e.1.desc.size ∧ Writable e.1.desc ∧
      e.1.bus.yes e.2 ∧ powerAsks e.1.desc + e.1.prologueAsks + e.1.verify.toNat = e.2) ∧
    (∀ e ∈ [(sStaged instS .idle [], 2), (sStaged instP .idle [0xC6], 3)],
      e.1.argLen = 0 ∧ e.1.verify = true ∧ e.1.inputIs 0 [] ∧ Writable e.1.desc ∧
      e.1.bus.yes e.2 ∧
      powerAsks e.1.desc + (asksOf e.1.speedOk + e.1.desc.pwGated.toNat) = e.2 ∧
      (e.1.desc.pwGated = true → e.1.bus.byteAnswer e.1.bus.nByte = e.1.desc.pwAccept)) ∧
    instP.pwGated = true := by decide +kernel

/-- The blocks those read-backs end with, and two retries that fail. -/
theorem witness_WriteDirectOutcome_back :
    (sStore instV 126 true [0x11, 0x22]).TakesBlock 3 0 2 0 ∧
    (sStore instV 4 true [0x11, 0x20]).TakesBlock 3 0 2 0 ∧
    (sStore instO 4 true [0x11, 0x22]).TakesBlock 4 0 2 0 ∧
    (sStore instB 4 true [0xFF, 0xFF, 0x11, 0x22]).TakesBlock 3 0 2 1 ∧
    (sStaged instS .idle []).TakesBlock 2 0 0 0 ∧
    (sStaged instP .idle [0xC6]).TakesBlock 3 1 0 0 ∧
    (∃ es, (answered [true, true, true, false] (sStore instB 4 true [0xFF, 0xFF])).PollFails false
      [] 4 2 3 0 .communication es) ∧
    ∃ es, (answered [true, true, true, true, false] (sStore instB 4 true [0xFF, 0xFF])).PollFails
      false [] 4 2 3 0 .communication es :=
  ⟨takes_of (by decide +kernel), takes_of (by decide +kernel), takes_of (by decide +kernel),
    takes_of (by decide +kernel), takes_of (by decide +kernel), takes_of (by decide +kernel),
    absent_of _ _ _ (by decide +kernel),
    unopened_of _ _ _ (by decide +kernel) (.unselected (by decide +kernel))⟩

/-- One row, not verified. -/
theorem witness_WriteRowCompletes : sRow.desc.spPresent = true ∧ slotOf 0 = some .readOnly ∧
    sRow.inputIs sRow.argLen.toNat [0, 1, 2, 3, 4, 5, 6, 7] ∧
    sRow.argAddr.toNat + sRow.argLen.toNat ≤ sRow.desc.size ∧
    sRow.RowsGood (sRow.desc.physOff + sRow.argAddr.toNat) [0, 1, 2, 3, 4, 5, 6, 7]
      ([] ++ [(0x10, [0, 1, 2, 3, 4, 5, 6, 7])]) 0 :=
  ⟨rfl, rfl, by decide +kernel, by decide +kernel, by decide +kernel, by decide +kernel,
    by simp only [List.nil_append, State.rowsAccepted]; decide +kernel,
    by decide +kernel, nofun⟩

/-- Two rows of a password-gated bank, verified. -/
theorem witness_WriteRowCompletes_rows : sRows.desc.spPresent = true ∧
    sRows.desc.pwGated = true ∧ sRows.verify = true ∧
    sRows.inputIs sRows.argLen.toNat [1, 2, 3, 4] ∧
    sRows.argAddr.toNat + sRows.argLen.toNat ≤ sRows.desc.size ∧
    sRows.RowsGood (sRows.desc.physOff + sRows.argAddr.toNat) [1, 2, 3, 4]
      ([(0x0E, [1, 2])] ++ [(0x10, [3, 4])]) 0 :=
  ⟨rfl, rfl, rfl, by decide +kernel, by decide +kernel, by decide +kernel, by decide +kernel,
    by simp only [List.cons_append, List.nil_append, State.rowsAccepted]; decide +kernel,
    by decide +kernel, fun _ => takes_of (by decide +kernel)⟩

/-- Every question of the two rows of `sRowsPoll` and of the opening behind them is answered yes. -/
theorem rowsPoll_yes (bools : List Bool) (bytes : List Byte) :
    (sRowsPoll bools bytes).bus.yes ((sRowsPoll bools bytes).rowAsks 2 + (1 + 1)) := by
  intro k hk
  have h : k < 16 := hk
  change (List.replicate 16 true ++ bools).getD (0 + k) (Config.freeBool (0 + k)) = true
  rw [Nat.zero_add, List.getD_append _ _ _ _ (by simpa using h),
    List.getD_eq_getElem _ _ (by simpa using h), List.getElem_replicate]

/-- Both rows of `sRowsPoll` are good. -/
theorem rowsPoll_accepted (bools : List Bool) (bytes : List Byte) :
    (sRowsPoll bools bytes).rowsAccepted 0 ([(0x0E, [1, 2])] ++ [(0x10, [3, 4])]) := by
  refine ⟨⟨nofun, nofun, rfl⟩, fun _ => rfl, ?_, ⟨nofun, nofun, rfl⟩, fun _ => rfl, ?_, trivial⟩
  · change (0xAA : Byte) ≠ 0xFF; decide
  · change (0xAA : Byte) ≠ 0xFF; decide

/-- The same on a bank that polls: the read-back is all 0xFF once; and a retry of it fails, by
presence, selection, power and answer, behind rows that are all committed. -/
theorem witness_WriteRowCompletes_polls :
    instPollP.WF ∧ (sRowsPoll [] []).inputIs 4 [1, 2, 3, 4] ∧
    (sRowsPoll [true, true, true] [0xFF, 0xFF, 0xFF, 0xFF, 0xC6, 1, 2, 3, 4]).RowsGood 0x0E
      [1, 2, 3, 4] ([(0x0E, [1, 2])] ++ [(0x10, [3, 4])]) 1 ∧
    (∃ es, (sRowsPoll [false] [0xFF, 0xFF, 0xFF, 0xFF]).WriteStops [] 0x0E [1, 2, 3, 4]
      [(0x0E, [1, 2])] 0x10 [3, 4] .committed .communication es) ∧
    (∃ es, (sRowsPoll [true, false] [0xFF, 0xFF, 0xFF, 0xFF]).WriteStops [] 0x0E [1, 2, 3, 4]
      [(0x0E, [1, 2])] 0x10 [3, 4] .committed .communication es) ∧
    (∃ es, (sRowsPoll [true, true, false] [0xFF, 0xFF, 0xFF, 0xFF]).WriteStops [] 0x0E [1, 2, 3, 4]
      [(0x0E, [1, 2])] 0x10 [3, 4] .committed .powerUnavailable es) ∧
    ∃ es, (sRowsPoll [true, true, true] [0xFF, 0xFF, 0xFF, 0xFF, 0]).WriteStops [] 0x0E [1, 2, 3, 4]
      [(0x0E, [1, 2])] 0x10 [3, 4] .committed .authentication es := by
  have stops : ∀ {bools : List Bool} {bytes : List Byte} {e : Err},
      (∃ es, (sRowsPoll bools bytes).PollFails false [] 0x0E 4 16 9 e es) →
      ∃ es, (sRowsPoll bools bytes).WriteStops [] 0x0E [1, 2, 3, 4] [(0x0E, [1, 2])] 0x10 [3, 4]
        .committed e es := fun h => h.elim fun _ h =>
    ⟨_, .poll rfl (by change bankRows instPollP 4 0x0E [1, 2, 3, 4] = _; decide +kernel)
      (rowsPoll_yes _ _) (rowsPoll_accepted _ _) (fun _ => rfl) h⟩
  refine ⟨by decide +kernel, by decide +kernel, ⟨by decide +kernel, by decide +kernel,
    by simp only [List.cons_append, List.nil_append, State.rowsAccepted]; decide +kernel,
    by decide +kernel, fun _ => takes_of (by decide +kernel)⟩,
    stops (absent_of _ _ _ (by decide +kernel)),
    stops (unopened_of _ _ _ (by decide +kernel) (.unselected (by decide +kernel))),
    stops (unopened_of _ _ _ (by decide +kernel)
      (.unpowered rfl (by decide +kernel) (by decide +kernel))),
    stops (unopened_of _ _ _ (by decide +kernel)
      (.rejected rfl (by decide +kernel) (by decide +kernel)))⟩

/-- Two rows of a gated bank whose read-back polls once. -/
theorem test_write_rows :
    ends (exec (.write 0) (sRowsPoll [true, true, true]
      [0xFF, 0xFF, 0xFF, 0xFF, 0xC6, 1, 2, 3, 4])) = some (0x42, 4) := by decide +kernel

/-- A packet through the scratchpad, verified. -/
theorem witness_WriteRowCompletes_packet : sPutRow.desc.spPresent = true ∧
    sPutRow.inputIs sPutRow.argLen.toNat [0x41, 0x42, 0x43] ∧
    sPutRow.argLen.toNat ≤ sPutRow.desc.maxPkt ∧
    sPutRow.argPage.toNat < sPutRow.desc.pageCount ∧
    sPutRow.RowsGood sPutRow.pagePhys (packetOf sPutRow.pageAbs [0x41, 0x42, 0x43])
      ([] ++ [(0, [3, 0x41, 0x42, 0x43, 0xDE, 0xFE])]) 0 :=
  ⟨rfl, by decide +kernel, by decide +kernel, by decide +kernel, by decide +kernel,
    by decide +kernel,
    by simp only [List.nil_append, State.rowsAccepted]; decide +kernel,
    by decide +kernel, fun _ => takes_of (by decide +kernel)⟩

theorem witness_WriteRowCompletes_wf : sRow.desc.WF ∧ sRows.desc.WF ∧ sPutRow.desc.WF :=
  ⟨by decide +kernel, by decide +kernel, by decide +kernel⟩

/-- `RowFails.unverified` with its error evaluated. -/
theorem unverified_of {s : State} {pw ys : List Byte} {v : Bool} {q k ta : Nat} {e : Err}
    (yes : s.bus.yesFrom q (asksOf v + 1)) (bad : ¬ s.readsBack k (BitVec.ofNat 16 ta) ys)
    (he : (if s.crcReadsBack k ys.length then Err.verification else .integrity) = e) :
    ∃ es, s.RowFails pw v q k ta ys .staged e es :=
  he ▸ ⟨_, .unverified yes bad⟩

/-- One row that stops: by the selection of its stage and of its read-back, by the CRC and by the
data read back, by the power and the selection of its copy, by the confirmation byte. -/
theorem witness_WriteRowCompletes_stops :
    (∀ s ∈ [answered [true, false] sRow, answered [true, true, true, false] sRow,
        sRowOf backBad, answered [true, true, true, true, false] sRow,
        answered [true, true, true, true, true, false] sRow, sRowOf (backGood ++ [0xFF])],
      s.desc = instS ∧ s.inputIs s.argLen.toNat [0, 1, 2, 3, 4, 5, 6, 7] ∧
      s.argAddr.toNat + s.argLen.toNat ≤ s.desc.size) ∧
    (∃ es, (answered [true, false] sRow).WriteStops [] 0x10 [0, 1, 2, 3, 4, 5, 6, 7] [] 0x10
      [0, 1, 2, 3, 4, 5, 6, 7] .untouched .communication es) ∧
    (∃ es, (answered [true, true, true, false] sRow).WriteStops [] 0x10 [0, 1, 2, 3, 4, 5, 6, 7] []
      0x10 [0, 1, 2, 3, 4, 5, 6, 7] .staged .communication es) ∧
    (∃ es, (sRowOf backBad).WriteStops [] 0x10 [0, 1, 2, 3, 4, 5, 6, 7] [] 0x10
      [0, 1, 2, 3, 4, 5, 6, 7] .staged .integrity es) ∧
    (∃ es, (answered [true, true, true, true, false] sRow).WriteStops [] 0x10
      [0, 1, 2, 3, 4, 5, 6, 7] [] 0x10 [0, 1, 2, 3, 4, 5, 6, 7] .verified .powerUnavailable es) ∧
    (∃ es, (answered [true, true, true, true, true, false] sRow).WriteStops [] 0x10
      [0, 1, 2, 3, 4, 5, 6, 7] [] 0x10 [0, 1, 2, 3, 4, 5, 6, 7] .verified .communication es) ∧
    ∃ es, (sRowOf (backGood ++ [0xFF])).WriteStops [] 0x10 [0, 1, 2, 3, 4, 5, 6, 7] [] 0x10
      [0, 1, 2, 3, 4, 5, 6, 7] .verified .commit es :=
  ⟨by decide +kernel,
    ⟨_, .row [] (by decide +kernel) (by decide +kernel) trivial (.unstaged (by decide +kernel))⟩,
    ⟨_, .row [] (by decide +kernel) (by decide +kernel) trivial
      (.unread (by decide +kernel) (by decide +kernel))⟩,
    (unverified_of (by decide +kernel) (by decide +kernel) (by decide +kernel)).elim
      fun _ h => ⟨_, .row [] (by decide +kernel) (by decide +kernel) trivial h⟩,
    ⟨_, .row [] (by decide +kernel) (by decide +kernel) trivial
      (.unpowered (by decide +kernel) (by decide +kernel) (by decide +kernel) (by decide +kernel))⟩,
    ⟨_, .row [] (by decide +kernel) (by decide +kernel) trivial
      (.uncopied (by decide +kernel) (by decide +kernel) (by decide +kernel) (by decide +kernel))⟩,
    ⟨_, .row [] (by decide +kernel) (by decide +kernel) trivial
      (.refused (by decide +kernel) (by decide +kernel) (by decide +kernel) (by decide +kernel))⟩⟩

/-- On a gated bank: the data read back differ; the challenge rejected, without power and without
selection; the stage of the second row without selection; the read-back of both rows rejected. -/
theorem witness_WriteRowCompletes_gatedStops :
    (∀ s ∈ [sRowsOf [1, 3], sRowsOf [1, 2, 0],
        answered [true, true, true, true, true, false] sRows,
        answered [true, true, true, true, false] sRows,
        answered (List.replicate 8 true ++ [false]) sRows,
        sRowsOf [1, 2, 0xC6, 0xAA, 3, 4, 0xC6, 0xAA, 0]],
      s.desc = instPlainP ∧ s.inputIs s.argLen.toNat [1, 2, 3, 4] ∧
      s.argAddr.toNat + s.argLen.toNat ≤ s.desc.size) ∧
    (∃ es, (sRowsOf [1, 3]).WriteStops [] 0x0E [1, 2, 3, 4] [] 0x0E [1, 2] .staged
      .verification es) ∧
    (∃ es, (sRowsOf [1, 2, 0]).WriteStops [] 0x0E [1, 2, 3, 4] [] 0x0E [1, 2] .verified
      .authentication es) ∧
    (∃ es, (answered [true, true, true, true, true, false] sRows).WriteStops [] 0x0E [1, 2, 3, 4] []
      0x0E [1, 2] .verified .powerUnavailable es) ∧
    (∃ es, (answered [true, true, true, true, false] sRows).WriteStops [] 0x0E [1, 2, 3, 4] []
      0x0E [1, 2] .verified .communication es) ∧
    (∃ es, (answered (List.replicate 8 true ++ [false]) sRows).WriteStops [] 0x0E [1, 2, 3, 4]
      [(0x0E, [1, 2])] 0x10 [3, 4] .untouched .communication es) ∧
    ∃ es, (sRowsOf [1, 2, 0xC6, 0xAA, 3, 4, 0xC6, 0xAA, 0]).WriteStops [] 0x0E [1, 2, 3, 4]
      [(0x0E, [1, 2])] 0x10 [3, 4] .committed .authentication es :=
  ⟨by decide +kernel,
    (unverified_of (by decide +kernel) (by decide +kernel) (by decide +kernel)).elim
      fun _ h => ⟨_, .row [(0x10, [3, 4])] (by decide +kernel) (by decide +kernel) trivial h⟩,
    ⟨_, .row [(0x10, [3, 4])] (by decide +kernel) (by decide +kernel) trivial
      (.unauthenticated rfl (by decide +kernel) (by decide +kernel)
        (.rejected rfl (by decide +kernel) (by decide +kernel)))⟩,
    ⟨_, .row [(0x10, [3, 4])] (by decide +kernel) (by decide +kernel) trivial
      (.unauthenticated rfl (by decide +kernel) (by decide +kernel)
        (.unpowered rfl (by decide +kernel) (by decide +kernel)))⟩,
    ⟨_, .row [(0x10, [3, 4])] (by decide +kernel) (by decide +kernel) trivial
      (.unauthenticated rfl (by decide +kernel) (by decide +kernel)
        (.unselected (by decide +kernel)))⟩,
    ⟨_, .row [] (by decide +kernel) (by decide +kernel)
      (by simp only [State.rowsAccepted]; decide +kernel) (.unstaged (by decide +kernel))⟩,
    ⟨_, .back rfl (by decide +kernel) (by decide +kernel)
      (by simp only [List.cons_append, List.nil_append, State.rowsAccepted]; decide +kernel)
      (.rejected rfl (by decide +kernel) (by decide +kernel))⟩⟩

/-- A packet refused by the confirmation byte of its one row, and the second row of P5b. -/
theorem witness_WriteRowCompletes_refused :
    (∀ s ∈ [sPutRowOf [3, 0x41, 0x42, 0x43, 0xDE, 0xFE, 0xFF]], s.desc = instPlainS ∧
      s.inputIs s.argLen.toNat [0x41, 0x42, 0x43] ∧ s.argLen.toNat ≤ s.desc.maxPkt ∧
      s.argPage.toNat < s.desc.pageCount) ∧
    (∃ es, (sPutRowOf [3, 0x41, 0x42, 0x43, 0xDE, 0xFE, 0xFF]).WriteStops [] 0
      (packetOf 0 [0x41, 0x42, 0x43]) [] 0 [3, 0x41, 0x42, 0x43, 0xDE, 0xFE] .verified .commit
      es) ∧
    sP5b.desc.WF ∧ sP5b.inputIs sP5b.argLen.toNat [0x11, 0x22, 0x33, 0x44] ∧
    ∃ es, sP5b.WriteStops [] 0x0E [0x11, 0x22, 0x33, 0x44] [(0x0E, [0x11, 0x22])]
      0x10 [0x33, 0x44] .verified .commit es :=
  ⟨by decide +kernel, ⟨_, .row [] (by decide +kernel) (by decide +kernel) trivial
      (.refused (by decide +kernel) (by decide +kernel) (by decide +kernel) (by decide +kernel))⟩,
    by decide +kernel, by decide +kernel,
    ⟨_, .row [] (by decide +kernel) (by decide +kernel)
      (by simp only [State.rowsAccepted]; decide +kernel)
      (.refused (by decide +kernel) (by decide +kernel) (by decide +kernel) (by decide +kernel))⟩⟩

/-- P5b: STATUS, RESULT, the staged registers and the number of events (95_test_vectors.md P5). -/
theorem test_write_refused :
    obs (fun t => (t.statusWord, t.result, t.spTA, t.spLen, t.spES, t.bus.trace.length))
      (exec (.write 0) sP5b) = some (0x750, 0, 0x10, 2, 2, 24) := by decide +kernel

theorem witness_PollIsBounded :
    exec (.read false 0) (sPoll []) = .next (ended (.read false 0) (sPoll [])) ∧
    AddedEvents (sPoll []) (ended (.read false 0) (sPoll []))
      (ended (.read false 0) (sPoll [])).bus.trace ∧ 1 ≤ (sPoll []).desc.pollMax :=
  ⟨rfl, rfl, by decide +kernel⟩

theorem witness_ReadPageCompletes :
    ((sPage 3 []).contOk = true → (sPage 3 []).speedOk = true) ∧
    ({ sPage 3 [] with argOff := 32 } : State).readStarts false 0 32 ∧
    (sPage 3 []).argPage.toNat < (sPage 3 []).desc.pageCount ∧ (sPage 3 []).readOpens false ∧
    takenAtOnce (sPage 3 []).desc
      ((sPage 3 []).bus.bytesAfter ((sPage 3 []).openBytes false) (sPage 3 []).desc.pageLen) :=
  ⟨by decide +kernel, by decide +kernel, by decide +kernel, by decide +kernel, .inl rfl⟩

/-- The extra info read, and its selection failing; behind a page taken at once and behind one taken
at the first retry. -/
theorem witness_ReadPageExtraCompletes :
    (∀ s ∈ [sAuto [], answered [true, true, false] (sAuto []),
        sPollExtra (List.replicate 32 0xFF ++ [1]),
        answered [true, true, true, true, false] (sPollExtra (List.replicate 32 0xFF ++ [1]))],
      (s.contOk = true → s.speedOk = true) ∧
      s.readStarts false 0 (s.desc.pageLen + s.desc.extraLen) ∧ s.desc.flagExtra = true ∧
      s.argPage.toNat < s.desc.pageCount ∧ s.readOpens false ∧ s.openAsks false = 2 ∧
      s.openBytes false = 0 ∧ s.desc.pageLen = 32) ∧
    (sAuto []).bus.boolAnswer 2 = true ∧
    (answered [true, true, false] (sAuto [])).bus.boolAnswer 2 = false ∧
    (sAuto []).TakesBlock 2 0 32 0 ∧
    (answered [true, true, false] (sAuto [])).TakesBlock 2 0 32 0 ∧
    (sPollExtra (List.replicate 32 0xFF ++ List.replicate 32 1)).TakesBlock 2 0 32 1 ∧
    (answered [true, true, true, true, false]
      (sPollExtra (List.replicate 32 0xFF ++ List.replicate 32 1))).TakesBlock 2 0 32 1 ∧
    retryAsks (sPollExtra []).desc = 2 ∧ (sPollExtra []).bus.boolAnswer 4 = true ∧
    (answered [true, true, true, true, false] (sPollExtra [])).bus.boolAnswer 4 = false :=
  ⟨by decide +kernel, by decide +kernel, by decide +kernel,
    takes_of (by decide +kernel), takes_of (by decide +kernel), takes_of (by decide +kernel),
    takes_of (by decide +kernel), by decide +kernel, by decide +kernel, by decide +kernel⟩

/-- An accepted page and one that is not (95_test_vectors.md 2.4). -/
theorem witness_ReadPageCrcOutcome :
    (∀ s ∈ [sAuto (List.replicate 32 0 ++ [0xFF, 0xFF]), sAuto (List.replicate 34 1)],
      (s.contOk = true → s.speedOk = true) ∧ s.readStarts false 0 s.desc.pageLen ∧
      s.desc.flagAutoCrc = true ∧ s.argPage.toNat < s.desc.pageCount ∧ s.readOpens false) ∧
    (sAuto (List.replicate 32 0 ++ [0xFF, 0xFF])).pageCrcAccepted false ∧
    ¬ (sAuto (List.replicate 34 1)).pageCrcAccepted false := by decide +kernel

/-- A page not accepted, an accepted one whose extra info is not selected, and one that is read. -/
theorem witness_ReadPageCrcExtraCompletes :
    (∀ s ∈ [sAuto (List.replicate 34 1),
        answered [true, true, false] (sAuto (List.replicate 32 0 ++ [0xFF, 0xFF])),
        sAuto (List.replicate 32 0 ++ [0xFF, 0xFF, 1, 2])],
      (s.contOk = true → s.speedOk = true) ∧
      s.readStarts false 0 (s.desc.pageLen + s.desc.extraLen) ∧ s.desc.flagAutoCrc = true ∧
      s.desc.flagExtra = true ∧ s.argPage.toNat < s.desc.pageCount ∧ s.readOpens false ∧
      s.openAsks false = 2) ∧
    ¬ (sAuto (List.replicate 34 1)).pageCrcAccepted false ∧
    (answered [true, true, false]
      (sAuto (List.replicate 32 0 ++ [0xFF, 0xFF]))).pageCrcAccepted false ∧
    (answered [true, true, false] (sAuto [])).bus.boolAnswer 2 = false ∧
    (sAuto (List.replicate 32 0 ++ [0xFF, 0xFF, 1, 2])).bus.yes 3 ∧
    (sAuto (List.replicate 32 0 ++ [0xFF, 0xFF, 1, 2])).pageCrcAccepted false := by
  decide +kernel

/-- The four traps: an illegal window, no open stream, no capability, no such page. -/
theorem witness_PageReadTraps :
    instV.dbufSize < ({ sPage 0 [] with argOff := 33 } : State).argOff.toNat +
      outputWindow (.readPage true 0) (sPage 0 []) ∧
    ({ sPage 0 [] with argOff := 32 } : State).argOff.toNat +
      outputWindow (.readPage true 0) (sPage 0 []) ≤ instV.dbufSize ∧
    (sPage 0 []).contOk = false ∧
    (∀ i ∈ [Instr.readPageExtra false 0, .readPageCrc false 0, .readPageCrcExtra false 0],
      (sPage 0 []).readStarts false 0 (outputWindow i (sPage 0 []))) ∧
    (sPage 0 []).desc.flagExtra = false ∧ (sPage 0 []).desc.flagAutoCrc = false ∧
    (∀ i ∈ [Instr.readPage false 0, .readPagePacket false 0],
      (sPage 4 []).readStarts false 0 (outputWindow i (sPage 4 []))) ∧
    (sPage 4 []).desc.pageCount ≤ (sPage 4 []).argPage.toNat ∧
    (∀ i ∈ [Instr.readPageExtra false 0, .readPageCrc false 0, .readPageCrcExtra false 0],
      ({ sAuto [] with argPage := 4 } : State).readStarts false 0 (outputWindow i (sAuto []))) ∧
    (sAuto []).desc.flagExtra = true ∧ (sAuto []).desc.flagAutoCrc = true ∧
    (sAuto []).desc.pageCount ≤ ({ sAuto [] with argPage := 4 } : State).argPage.toNat := by
  decide +kernel

/-- A good packet, a bad CRC, a length byte just too great, each taken at once; and a good packet
behind a block of 0xFF. -/
theorem witness_ReadPagePacketOutcome :
    (∀ raw ∈ [[3, 0x41, 0x42, 0x43, 0xDE, 0xFE] ++ List.replicate 26 0,
        [0x1D] ++ List.replicate 31 0, [0x1E] ++ List.replicate 31 0],
      ({ sPage 0 raw with argOff := 35 } : State).readStarts false 0 29 ∧
      (sPage 0 raw).argPage.toNat < (sPage 0 raw).desc.pageCount ∧
      (sPage 0 raw).readOpens false ∧ (sPage 0 raw).pollBlock 0 32 0 = raw ∧
      (sPage 0 raw).TakesBlock 2 0 32 0) ∧
    (sPoll []).readStarts false 0 29 ∧ (sPoll []).argPage.toNat < (sPoll []).desc.pageCount ∧
    (sPoll []).readOpens false ∧
    (sPoll (List.replicate 32 0xFF ++ ([3, 0x41, 0x42, 0x43, 0xDE, 0xFE] ++
      List.replicate 26 0))).TakesBlock 2 0 32 1 :=
  ⟨fun raw h => ⟨by revert raw; decide +kernel, by revert raw; decide +kernel,
      by revert raw; decide +kernel, by revert raw; decide +kernel,
      takes_of (by revert raw; decide +kernel)⟩,
    by decide +kernel, by decide +kernel, by decide +kernel, takes_of (by decide +kernel)⟩

/-- A packet that reads back, one that reads back with its payload's last byte changed, and one that
reads back at the first retry. -/
theorem witness_WritePagePacketCompletes :
    (∀ s ∈ [sPut 0 3 [3, 0x41, 0x42, 0x43, 0xDE, 0xFE], sPut 0 3 [3, 0x41, 0x42, 0x44, 0xDE, 0xFE],
        { sPut 0 3 (List.replicate 6 0xFF ++ [3, 0x41, 0x42, 0x43, 0xDE, 0xFE]) with
          desc := instB }],
      s.inputIs 3 [0x41, 0x42, 0x43] ∧ s.argLen.toNat ≤ s.desc.maxPkt ∧ s.verify = true ∧
      s.argPage.toNat < s.desc.pageCount ∧ s.bus.yes 3 ∧
      powerAsks s.desc + s.prologueAsks + s.verify.toNat = 3 ∧ Writable s.desc ∧
      s.desc.spPresent = false ∧
      packetOf s.pageAbs [0x41, 0x42, 0x43] = [3, 0x41, 0x42, 0x43, 0xDE, 0xFE]) ∧
    instV.WF ∧ instB.WF :=
  ⟨by decide +kernel, by decide +kernel, by decide +kernel⟩

/-- The blocks those read-backs end with, and a retry that finds the device absent. -/
theorem witness_WritePagePacketCompletes_back :
    (sPut 0 3 [3, 0x41, 0x42, 0x43, 0xDE, 0xFE]).TakesBlock 3 0 6 0 ∧
    (sPut 0 3 [3, 0x41, 0x42, 0x43, 0xDE, 0xFE]).pollBlock 0 6 0 =
      [3, 0x41, 0x42, 0x43, 0xDE, 0xFE] ∧
    (sPut 0 3 [3, 0x41, 0x42, 0x44, 0xDE, 0xFE]).TakesBlock 3 0 6 0 ∧
    (sPut 0 3 [3, 0x41, 0x42, 0x44, 0xDE, 0xFE]).pollBlock 0 6 0 ≠
      [3, 0x41, 0x42, 0x43, 0xDE, 0xFE] ∧
    ({ sPut 0 3 (List.replicate 6 0xFF ++ [3, 0x41, 0x42, 0x43, 0xDE, 0xFE]) with
      desc := instB } : State).TakesBlock 3 0 6 1 ∧
    ∃ es, (answered [true, true, true, false]
      { sPut 0 3 (List.replicate 6 0xFF) with desc := instB }).PollFails false [] 0 6 3 0
      .communication es :=
  ⟨takes_of (by decide +kernel), by decide +kernel, takes_of (by decide +kernel),
    by decide +kernel, takes_of (by decide +kernel), absent_of _ _ _ (by decide +kernel)⟩

/-- The largest payload of a page, and the empty one of the smallest page. -/
theorem witness_PacketRoundTrip :
    (3 ≤ 256 ∧ 256 ≤ 256 ∧ (List.replicate 253 (0 : Byte)).length ≤ 256 - 3) ∧
    (3 ≤ 3 ∧ 3 ≤ 256 ∧ ([] : List Byte).length ≤ 3 - 3) := by decide +kernel

theorem witness_SeedBinding :
    3 ≤ 32 ∧ 32 ≤ 256 ∧ ([0x41, 0x42, 0x43] : List Byte).length ≤ 32 - 3 ∧ 0 < 65536 ∧
    65535 < 65536 ∧ 0 ≠ 65535 := by decide

/-- Unsupported, out of range, and answered on the last page. -/
theorem witness_OtpQueries :
    (instV.canLock = false ∧ instV.canRedirect = false ∧ instV.canLockRedirect = false) ∧
    (sOtp instL 4 0 []).desc.pageCount ≤ (sOtp instL 4 0 []).argPage.toNat ∧
    (sOtp instL 3 0 []).argPage.toNat < (sOtp instL 3 0 []).desc.pageCount ∧
    (sOtp instL 3 0 []).bus.yes (sOtp instL 3 0 []).prologueAsks ∧
    instL.canLock = true ∧ instL.canRedirect = true ∧ instL.canLockRedirect = true := by
  decide +kernel

theorem witness_OtpMutations :
    (sOtp instL 3 3 []).argPage.toNat < (sOtp instL 3 3 []).desc.pageCount ∧
    (sOtp instL 3 3 []).bus.yes 5 ∧ instL.canLock = true ∧ instL.canLockRedirect = true ∧
    instL.canRedirect = true ∧ (sOtp instL 3 3 []).argPage2 ≠ 0 ∧
    (sOtp instL 3 3 []).argPage2.toNat ≤ (sOtp instL 3 3 []).desc.pageCount - 1 := by
  decide +kernel

theorem witness_OtpTraps :
    (instV.canLock = false ∧ instV.canRedirect = false ∧ instV.canLockRedirect = false) ∧
    instL.pageCount ≤ (sOtp instL 4 0 []).argPage.toNat ∧
    (sOtp instL 3 0 []).argPage.toNat < instL.pageCount ∧ instL.canRedirect = true ∧
    (sOtp instL 3 0 []).argPage2 = 0 ∧
    instL.pageCount - 1 < (sOtp instL 3 4 []).argPage2.toNat ∧
    (answered [false] (sOtp instL 3 3 [])).powerMissing ∧ instL.canLock = true ∧
    instL.canLockRedirect = true ∧ (sOtp instL 3 3 []).argPage2 ≠ 0 ∧
    (sOtp instL 3 3 []).argPage2.toNat ≤ instL.pageCount - 1 := by decide +kernel

theorem witness_SpWriteCompletes :
    instS.WF ∧
    instS.spPresent = true ∧
    ({ sStage instS [] with argAddr := 0x78 } : State).inputIs 8 [0, 1, 2, 3, 4, 5, 6, 7] ∧
    ({ sStage instS [] with argAddr := 0x78 } : State).argAddr.toNat + 8 ≤ instS.size ∧
    ({ sStage instS [] with argAddr := 0x78 } : State).argPhys % instS.spSize + 8
      ≤ instS.spSize ∧
    (sStage instS []).bus.yes (sStage instS []).prologueAsks :=
  ⟨by decide +kernel, by decide +kernel⟩

theorem witness_SpReadVerifyCompletes :
    (sStaged instS .written backGood).desc.spPresent = true ∧
    (sStaged instS .written backGood).spState = .written ∧
    (sStaged instS .written backGood).spLen.toNat ≤
      (sStaged instS .written backGood).spBuf.length ∧
    (sStaged instS .written backGood).bus.yes (sStaged instS .written backGood).prologueAsks ∧
    (sStaged instS .written backGood).readsBack 0 0x10 [0, 1, 2, 3, 4, 5, 6, 7] := by
  decide +kernel

/-- Each check failing: the CRC alone; the echo's target and its byte count, where the data match;
the data alone; and CRC and data together. -/
theorem witness_SpReadVerifyMismatch :
    (∀ s ∈ [sStaged instS .written (backGood.take 11 ++ [0, 0]),
        sStaged { instS with spCrc := false } .written (0x11 :: backGood.drop 1),
        sStaged { instS with spCrc := false } .written ([0x10, 0, 7] ++ backGood.drop 3),
        sStaged instPlainS .written [0, 1, 2, 0x13, 4, 5, 6, 7], sStaged instS .written backBad],
      s.desc.spPresent = true ∧ s.spState = .written ∧ s.bus.yes s.prologueAsks ∧
      ¬ (s.backCrcOk ∧ s.backEchoOk ∧ s.backDataOk)) ∧
    (∀ s ∈ [sStaged instS .written (backGood.take 11 ++ [0, 0])],
      ¬ s.backCrcOk ∧ s.backEchoOk ∧ s.backDataOk) ∧
    (∀ s ∈ [sStaged { instS with spCrc := false } .written (0x11 :: backGood.drop 1),
        sStaged { instS with spCrc := false } .written ([0x10, 0, 7] ++ backGood.drop 3)],
      s.backCrcOk ∧ ¬ s.backEchoOk ∧ s.backDataOk) ∧
    (∀ s ∈ [sStaged instPlainS .written [0, 1, 2, 0x13, 4, 5, 6, 7]],
      s.backCrcOk ∧ s.backEchoOk ∧ ¬ s.backDataOk) := by decide +kernel

/-- No power; accepted; rejected. -/
theorem witness_SpVerifyPasswordOutcome :
    slotOf 1 = some .readWrite ∧
    (∀ s ∈ [answered [true, false] (sStaged instP .verified []), sStaged instP .verified [0xC6],
        sStaged instP .verified [0]],
      s.desc.pwGated = true ∧ s.spState = .verified ∧ s.bus.yes s.prologueAsks) ∧
    (sStaged instP .verified []).prologueAsks = 1 ∧
    (answered [true, false] (sStaged instP .verified [])).bus.boolAnswer 1 = false ∧
    (sStaged instP .verified [0xC6]).bus.boolAnswer 1 = true ∧
    (sStaged instP .verified [0xC6]).bus.byteAnswer 0 = instP.pwAccept ∧
    (sStaged instP .verified [0]).bus.byteAnswer 0 ≠ instP.pwAccept := by decide +kernel

/-- On a bank without and on one with a password, confirmed and refused. -/
theorem witness_SpCopyOutcome :
    ∀ s ∈ [sStaged instS .verified [0xAA], sStaged instS .verified [0xFF],
        sStaged instP .authed [0]],
      s.desc.spPresent = true ∧ s.spState = (if s.desc.pwGated then .authed else .verified) ∧
      s.bus.yes (s.prologueAsks + 1) := by decide +kernel

/-- No power. -/
theorem witness_SpCopyOutcome_power :
    (answered [false] (sStaged instS .verified [])).bus.boolAnswer 0 = false ∧
    (answered [false] (sStaged instS .verified [])).spState =
      (if instS.pwGated then .authed else .verified) := by decide +kernel

theorem witness_ScratchpadTraps :
    (instS.spPresent = true ∧ (sStaged instS .idle []).spState ≠ .written) ∧
    (instP.pwGated = true ∧ (sStaged instP .written []).spState ≠ .verified) ∧
    (instS.pwGated = false ∧ (sStaged instS .committed []).spState ≠ .verified) ∧
    (sStaged instP .verified []).spState ≠ .authed ∧
    (instV.spPresent = false ∧ instV.pwGated = false) ∧
    sDigits.inputIs sDigits.argLen.toNat [0x31, 0x32, 0x33, 0x34, 0x35, 0x36, 0x37, 0x38, 0x39] ∧
    ({ sDigits with argOff := 64 } : State).argOff.toNat ≤ sDigits.desc.dbufSize ∧
    (2 : BitVec 2) ≠ 3 := by decide +kernel

/-- SP_WRITE of no byte, of nine, beyond the bank, across a row. -/
theorem witness_ScratchpadTraps_range :
    ({ sStage instS [] with argLen := 0 } : State).inputIs 0 [] ∧
    ({ sDigits with desc := instS } : State).inputIs 9
      [0x31, 0x32, 0x33, 0x34, 0x35, 0x36, 0x37, 0x38, 0x39] ∧ instS.spSize < 9 ∧
    ({ sStage instS [] with argAddr := 0x7C } : State).inputIs 8 [0, 1, 2, 3, 4, 5, 6, 7] ∧
    instS.size < (0x7C : Half).toNat + 8 ∧
    ({ sStage instS [] with argAddr := 0x0E, argLen := 4 } : State).inputIs 4 [0, 1, 2, 3] ∧
    instS.spSize < (instS.physOff + (0x0E : Half).toNat) % instS.spSize + 4 := by decide +kernel

theorem witness_PasswordSlotCommands :
    instP.pwGated = true ∧ slotOf 1 = some .readWrite ∧
    ({ machine instP [] [] with dbuf := bytesAt 60 [1, 2, 3, 4], argOff := 60 } : State).inputIs
      instP.pwLen [1, 2, 3, 4] := by decide +kernel

/-- A copy from VERIFIED, and a READ that gives VERIFIED up by its bus work. -/
theorem witness_ScratchpadTransitions :
    (pending (.regWrite 0 0x43000000) (sStaged instS .verified [0xAA])).Inv ∧
    exec .spCopy (pending (.regWrite 0 0x43000000) (sStaged instS .verified [0xAA])) =
      .next (ended .spCopy (pending (.regWrite 0 0x43000000) (sStaged instS .verified [0xAA]))) ∧
    exec (.read false 0) (pending (.regWrite 0 0x43000000) (sStaged instS .verified [0xAA])) =
      .next (ended (.read false 0)
        (pending (.regWrite 0 0x43000000) (sStaged instS .verified [0xAA]))) ∧
    AddedEvents (pending (.regWrite 0 0x43000000) (sStaged instS .verified [0xAA]))
      (ended (.read false 0) (pending (.regWrite 0 0x43000000) (sStaged instS .verified [0xAA])))
      [.select [] true, .send (Config.seqRead 0 0), .recv [] []] ∧
    Instr.read false 0 ∉ [.spWrite, .spReadVerify, .spCopy] :=
  ⟨witness_Inv, rfl, rfl, rfl, by decide⟩

theorem witness_NoCommitWithoutVerify :
    exec .spCopy (sStaged instS .verified [0xAA]) =
      .next (ended .spCopy (sStaged instS .verified [0xAA])) ∧
    AddedEvents (sStaged instS .verified [0xAA]) (ended .spCopy (sStaged instS .verified [0xAA]))
      (ended .spCopy (sStaged instS .verified [0xAA])).bus.trace ∧
    (∃ e ∈ (ended .spCopy (sStaged instS .verified [0xAA])).bus.trace, e.isLongPulse = true) :=
  ⟨rfl, rfl, by decide +kernel⟩

/-- A write through the scratchpad pulses. -/
theorem witness_NoCommitWithoutVerify_write :
    exec (.write 0) sRow = .next (ended (.write 0) sRow) ∧
    AddedEvents sRow (ended (.write 0) sRow) (ended (.write 0) sRow).bus.trace ∧
    (∃ e ∈ (ended (.write 0) sRow).bus.trace, e.isLongPulse = true) ∧ sRow.desc.WF :=
  ⟨rfl, (List.nil_append _).symm, by decide +kernel, by decide +kernel⟩

theorem witness_VerifiedIsEarned :
    exec .spReadVerify (sStaged instS .written backGood) =
      .next (ended .spReadVerify (sStaged instS .written backGood)) ∧
    (ended .spReadVerify (sStaged instS .written backGood)).spState = .verified :=
  ⟨rfl, by decide +kernel⟩

end Sys2Proof.Tests
end

section
/-! SUPPORT. The register file behind the host's accesses (spec/10_state.md R20 to R23): what a read
shows of a register, which writes are ignored, and the steps of the two accesses
(spec/60_exceptions.md R220). -/

namespace Sys2Proof.Machine

/-! ### Used bits -/

/-- The bits of a host word that a register of `k` bits uses: `usedBits` of every register that has
no reserved bit between its fields. -/
def lowBits (k : Nat) : Word := (BitVec.allOnes k).setWidth 32

/-- A register of `k` bits shows nothing beyond them. -/
theorem setWidth_and_not_lowBits {k : Nat} (x : BitVec k) :
    x.setWidth 32 &&& ~~~lowBits k = 0 := by
  ext j hj
  by_cases hk : j < k
  · simp [lowBits, hk]
  · simp [lowBits, hk, BitVec.getLsbD_of_ge x j (by omega)]

/-- A register of `k` bits takes nothing beyond them. -/
theorem setWidth_and_lowBits {k : Nat} (h : k ≤ 32) (v : Word) :
    (v &&& lowBits k).setWidth k = v.setWidth k := by
  ext j hj
  have : j < 32 := by omega
  simp [lowBits, hj, this]

/-- STATUS has no field at bits 3, 7 and 19 to 31 (10_state.md R22). -/
theorem statusWord_getLsbD_reserved (s : State) {j : Nat} (h : j = 3 ∨ j = 7 ∨ 19 ≤ j) :
    s.statusWord.getLsbD j = false := by
  unfold State.statusWord
  rw [BitVec.getLsbD_setWidth]
  rcases h with rfl | rfl | h
  · simp only [BitVec.getLsbD_append]; rfl
  · simp only [BitVec.getLsbD_append]; rfl
  · rw [BitVec.getLsbD_of_ge _ j h, Bool.and_false]

theorem statusWord_and_not_usedBits (s : State) : s.statusWord &&& ~~~usedBits 1 = 0 := by
  have used_or_reserved : ∀ j < 32, (usedBits 1).getLsbD j = true ∨ j = 3 ∨ j = 7 ∨ 19 ≤ j := by
    decide
  refine BitVec.eq_of_getLsbD_eq fun j hj => ?_
  rcases used_or_reserved j hj with h | h
  · simp [h]
  · simp [statusWord_getLsbD_reserved s h]

/-! ### Reads and writes of a register -/

/-- A host read finds every reserved bit 0 (10_state.md R20): STATUS has some between its fields,
every other register is a `BitVec` of its own width. -/
theorem readReg_and_not_usedBits (s : State) (n : Nat) : s.readReg n &&& ~~~usedBits n = 0 := by
  unfold State.readReg
  split
  case h_1 => exact statusWord_and_not_usedBits s
  case h_25 => exact BitVec.zero_and
  all_goals exact setWidth_and_not_lowBits _

/-- A number above 0x18 is no register and reads 0 (10_state.md R20). -/
theorem readReg_absent (s : State) {n : Nat} (h : 0x18 < n) : s.readReg n = 0 := by
  unfold State.readReg
  split
  case h_25 => rfl
  all_goals omega

/-- Only the registers 0x03 to 0x0A take a write (10_state.md R20, R21). -/
theorem writeReg_ignored (s : State) {n : Nat} (v : Word) (h : n ≤ 2 ∨ 0x0B ≤ n) :
    s.writeReg n v = s := by
  unfold State.writeReg
  split
  case h_9 => rfl
  all_goals omega

/-- A write reaches no reserved bit (10_state.md R20). -/
theorem writeReg_and_usedBits (s : State) (n : Nat) (v : Word) :
    s.writeReg n (v &&& usedBits n) = s.writeReg n v := by
  have half : (v &&& lowBits 16).setWidth 16 = v.setWidth 16 := setWidth_and_lowBits (by decide) v
  have byte : (v &&& lowBits 8).setWidth 8 = v.setWidth 8 := setWidth_and_lowBits (by decide) v
  have bit : (v &&& 1).getLsbD 0 = v.getLsbD 0 := by simp
  unfold State.writeReg
  split
  case h_1 => exact congrArg (fun x => { s with argAddr := x }) half
  case h_2 => exact congrArg (fun x => { s with argLen := x }) half
  case h_3 => exact congrArg (fun x => { s with argOff := x }) half
  case h_4 => exact congrArg (fun x => { s with argPage := x }) half
  case h_5 => exact congrArg (fun x => { s with argPage2 := x }) half
  case h_6 => exact congrArg (fun x => { s with argSeed := x }) half
  case h_7 => exact congrArg (fun x => { s with argByte := x }) byte
  case h_8 => exact congrArg (fun x => { s with verify := x }) bit
  case h_9 => rfl

/-! ### The host's register steps -/

variable {s : State} {rest : List HostInput} {n : Nat}

/-- A host read of a register answers its value and changes nothing else, in every state
(60_exceptions.md R212, R220). -/
theorem step_regRead (h : s.host = .op (.regRead n) :: rest) :
    step s = .next { s with host := rest, hostOut := s.hostOut ++ [s.readReg n] } :=
  step_op h

/-- A host write of a register but CMD is carried out on a machine that is neither busy nor faulted
(60_exceptions.md R220). -/
theorem step_regWrite {v : Word} (hf : s.fault = none) (hb : s.busy = false) (hn : n ≠ 0)
    (h : s.host = .op (.regWrite n v) :: rest) :
    step s = .next (State.writeReg { s with host := rest } n v) := by
  obtain ⟨m, rfl⟩ := Nat.exists_eq_succ_of_ne_zero hn
  rw [step_op h]
  exact hostWrite_free (s := { s with host := rest })
    (fun s => .next (s.writeReg (m + 1) v)) hf hb

/-- Settles O10, from what a read shows, which writes are ignored, and the two steps. -/
theorem registerFile : Obligations.RegisterFile := by
  refine ⟨fun s n v => ⟨readReg_and_not_usedBits s n, fun h => ?absent, fun h => ?readOnly, rfl,
    writeReg_and_usedBits s n v⟩, fun s n v rest => ⟨step_regRead, fun hf hb h =>
      ⟨fun hn => step_regWrite hf hb hn h, fun hn => ?step⟩⟩⟩
  case absent => exact ⟨readReg_absent s h, writeReg_ignored s v (by omega)⟩
  case readOnly =>
    simp only [List.mem_cons, List.not_mem_nil, or_false] at h
    exact writeReg_ignored s v (by omega)
  case step =>
    simp only [List.mem_cons, List.not_mem_nil, or_false] at hn
    rw [step_regWrite hf hb (by omega) h, writeReg_ignored _ v (by omega)]

end Sys2Proof.Machine
end

section
/-! SUPPORT. CONT_OK over a whole command (spec/10_state.md R32): what it is where the command
finishes and where it raises. -/

namespace Sys2Proof.Machine

variable {i : Instr} {s t : State}

theorem Framed.fault (f : Framed i s t) : t.fault = s.fault := by rw [f.rest]

/-- CONT_OK where a command finishes: the internal commands but FORCE_VERIFY keep it, of the others
the four reads set it. -/
theorem contOk_of_done {d : Done} (h : commandBody i s = .ok d t) (f : Framed i s t) :
    t.contOk = if isBus i = false ∧ i ≠ .forceVerify then s.contOk else setsCont i := by
  cases hb : isBus i with
  | true => rw [if_neg (by simp), (commandBody_done h).2 hb]
  | false =>
    by_cases hi : i = .forceVerify
    · subst hi
      cases h
      rfl
    · obtain ⟨-, -, kept⟩ := f.internal hb
      rw [if_pos ⟨rfl, hi⟩, (kept hi).2]

/-- CONT_OK where a command raises, which FORCE_VERIFY never does: an internal command keeps it, a
bus command clears it (60_exceptions.md R204). -/
theorem contOk_of_raised {e : Err} (h : commandBody i s = .raised e t) (f : Framed i s t) :
    (t.raise (commandClass i) e).contOk =
      if isBus i = false ∧ i ≠ .forceVerify then s.contOk else false := by
  rw [State.raise_contOk]
  cases hb : isBus i with
  | true => rw [if_neg ((isBus_eq i).1 hb), if_neg (by simp)]
  | false =>
    have hc : commandClass i = .internal := by simpa [hb] using isBus_eq i
    have hi : i ≠ .forceVerify := by
      rintro rfl
      cases h
    obtain ⟨-, -, kept⟩ := f.internal hb
    rw [if_pos hc, if_pos ⟨rfl, hi⟩, (kept hi).2]

/-- Settles O27, by the three endings of a command; a fault is taken in the state before it. -/
theorem contOkRule : Obligations.ContOkRule := by
  refine ⟨fun i s t hs h => ?_, State.resetMachine_contOk⟩
  rw [exec_next.1 h]
  rcases runCommand_cases i s with ⟨d, u, hb, hr, f⟩ | ⟨e, u, hb, hr, f⟩ | ⟨c, -, hr⟩
  case inl =>
    have hu : u.fault = none := f.fault.trans hs
    simpa [hr, hu] using contOk_of_done hb f
  case inr.inl =>
    have hu : u.fault = none := f.fault.trans hs
    rw [hr, contOk_of_raised hb f]
    simp [hu]
  case inr.inr => simp [hr]

end Sys2Proof.Machine
end

section
/-! SUPPORT. The opcode map against its columns (spec/30_encoding.md R84), and the illegal words
(R85): when the decoder refuses a word, and the step of a CMD write of one. -/

namespace Sys2Proof.Machine

/-! ### The opcode map and its columns -/

/-- The opcode map gives a command under its own OPC value only. -/
theorem opcodeOf_of_commandOf {opc : BitVec 8} {cont : Bool} {pwsel : BitVec 2} {i : Instr}
    (h : commandOf opc cont pwsel = some i) : opcodeOf i = opc := by
  unfold commandOf at h
  split at h
  case h_31 => cases h
  all_goals
    cases h
    exact BitVec.eq_of_toNat_eq (Eq.symm ‹_›)

theorem opcodeOf_mem_assignedOpcodes (i : Instr) : opcodeOf i ∈ assignedOpcodes := by
  cases i <;> simp [opcodeOf, assignedOpcodes]

/-- Every assigned OPC value has its command, whatever the other fields are. -/
theorem commandOf_isSome_of_mem {opc : BitVec 8} (h : opc ∈ assignedOpcodes) (cont : Bool)
    (pwsel : BitVec 2) : (commandOf opc cont pwsel).isSome = true := by
  have all_some : assignedOpcodes.all (fun a => (commandOf a cont pwsel).isSome) = true := rfl
  exact List.all_eq_true.1 all_some opc h

theorem commandOf_eq_none_iff {opc : BitVec 8} {cont : Bool} {pwsel : BitVec 2} :
    commandOf opc cont pwsel = none ↔ opc ∉ assignedOpcodes := by
  refine ⟨fun h hm => ?_, fun h => Option.eq_none_iff_forall_ne_some.2 fun i hi => ?_⟩
  · simpa [h] using commandOf_isSome_of_mem hm cont pwsel
  · exact h (opcodeOf_of_commandOf hi ▸ opcodeOf_mem_assignedOpcodes i)

/-- Column "CONT allowed" by OPC value (30_encoding.md R81, R84). -/
theorem opcodeOf_mem_contOpcodes (i : Instr) : opcodeOf i ∈ contOpcodes ↔ allowsCont i = true := by
  cases i <;> simp [opcodeOf, contOpcodes, allowsCont]

/-- Column "PWSEL used" by OPC value (30_encoding.md R82, R84). -/
theorem opcodeOf_mem_pwselOpcodes (i : Instr) :
    opcodeOf i ∈ pwselOpcodes ↔ usesPwsel i = true := by
  cases i <;> simp [opcodeOf, pwselOpcodes, usesPwsel]

/-! ### The words the decoder refuses -/

variable {w : Word}

theorem decode_of_unassigned (h : opcField w ∉ assignedOpcodes) :
    decode w = .error .unassignedOpcode := by
  rw [decode, commandOf_eq_none_iff.2 h]

/-- A word with an assigned OPC is refused by the clauses (b) to (e) of 30_encoding.md R85. -/
theorem decode_error_iff_of_commandOf {i : Instr}
    (h : commandOf (opcField w) (contField w) (pwselField w) = some i) :
    (∃ e, decode w = .error e) ↔
      reservedField w ≠ 0 ∨ (contField w = true ∧ allowsCont i = false) ∨ pwselField w = 3 ∨
        (pwselField w ≠ 0 ∧ usesPwsel i = false) := by
  rw [decode, h]
  dsimp only
  split_ifs with reserved cont slot unused
  · exact iff_of_true ⟨_, rfl⟩ (.inl reserved)
  · exact iff_of_true ⟨_, rfl⟩ (.inr (.inl cont))
  · exact iff_of_true ⟨_, rfl⟩ (.inr (.inr (.inl slot)))
  · exact iff_of_true ⟨_, rfl⟩ (.inr (.inr (.inr unused)))
  · refine iff_of_false (fun ⟨_, he⟩ => by cases he) ?_
    rintro (hr | hc | hs | hu)
    exacts [reserved hr, cont hc, slot hs, unused hu]

/-- A word is refused exactly when a clause (a) to (e) of 30_encoding.md R85 holds of its fields. -/
theorem decode_error_iff :
    (∃ e, decode w = .error e) ↔
      opcField w ∉ assignedOpcodes ∨ reservedField w ≠ 0 ∨
        (contField w = true ∧ opcField w ∉ contOpcodes) ∨ pwselField w = 3 ∨
        (pwselField w ≠ 0 ∧ opcField w ∉ pwselOpcodes) := by
  cases h : commandOf (opcField w) (contField w) (pwselField w) with
  | none =>
    have unassigned := commandOf_eq_none_iff.1 h
    exact iff_of_true ⟨_, decode_of_unassigned unassigned⟩ (.inl unassigned)
  | some i =>
    rw [decode_error_iff_of_commandOf h, ← opcodeOf_of_commandOf h, opcodeOf_mem_contOpcodes,
      opcodeOf_mem_pwselOpcodes]
    simp [opcodeOf_mem_assignedOpcodes]

/-! ### The step of a refused word -/

/-- A CMD write of a refused word, where it is not ignored, latches F_ILLEGAL and does nothing else
(30_encoding.md R85, R87; 60_exceptions.md R210). -/
theorem step_cmdWrite_refused {s : State} {rest : List HostInput} {e : DecodeError}
    (hd : decode w = .error e) (hf : s.fault = none) (hb : s.busy = false)
    (h : s.host = .op (.regWrite 0 w) :: rest) :
    step s = .next { s with host := rest, fault := some .illegal } := by
  calc step s = hostWrite (commandWrite w) { s with host := rest } := step_op h
    _ = commandWrite w { s with host := rest } :=
      hostWrite_free (s := { s with host := rest }) (commandWrite w) hf hb
    _ = .next (State.takeFault .illegal { s with host := rest }) := by rw [commandWrite, hd]
    _ = .next { s with host := rest, fault := some .illegal } := by rw [State.takeFault, ← hb]

/-- Settles O2, by the decoder's branches and the step of a refused word. -/
theorem illegalWords : Obligations.IllegalWords := fun _ =>
  ⟨decode_error_iff, fun _ _ _ hd hf hb h => step_cmdWrite_refused hd hf hb h⟩

end Sys2Proof.Machine
end

section
/-! SUPPORT. The CRC step (spec/40_crc.md R100, R102), a command that answers at once, without a bus
event or a DBUF write (spec/60_exceptions.md R203), and the CRC commands that only touch registers
(spec/40_crc.md R104, R105, R108, R109). -/

namespace Sys2Proof.Machine

/-! ### The CRC step -/

section CrcStep

variable {n : Nat} (poly : BitVec n)

theorem crcShift_zero : crcShift poly 0 = 0 := by simp [crcShift]

theorem repeat_crcShift_zero (k : Nat) : Nat.repeat (crcShift poly) k 0 = 0 := by
  induction k with
  | zero => rfl
  | succ k ih => rw [Nat.repeat, ih, crcShift_zero]

/-- A CRC step depends on the register XOR the byte only. -/
theorem crcStep_congr {c c' : BitVec n} {b b' : Byte}
    (h : c ^^^ b.setWidth n = c' ^^^ b'.setWidth n) : crcStep poly c b = crcStep poly c' b' := by
  rw [crcStep, crcStep, h]

/-- A byte that cancels the register leaves nothing to shift. -/
theorem crcStep_eq_zero {c : BitVec n} {b : Byte} (h : c ^^^ b.setWidth n = 0) :
    crcStep poly c b = 0 := by
  rw [crcStep, h, repeat_crcShift_zero]

end CrcStep

/-! ### The commands that answer at once -/

/-- Finishing with a value alone writes no DBUF byte, and sets again what the start had set. -/
theorem State.finish_plain_start (s : State) (l : Option Nat) (v : Half) :
    (s.start l).finish (.plain v) = plainFinish v s := rfl

/-- A command whose rule only answers `v` and turns the state it found into `t`, both seen at the
start, finishes with `v` in `t`. -/
theorem exec_of_plain {i : Instr} {s t : State} {v : Half}
    (h : commandBody i (s.start none) = .ok (.plain v) (t.start none)) :
    exec i s = .next (plainFinish v t) := by
  rw [exec_eq, State.runCommand, runWith_ok h, State.finish_plain_start]

/-- Settles O16: the four rules only answer, and a CRC step sees only the register XOR the byte. -/
theorem crcRegisterCommands : Obligations.CrcRegisterCommands := by
  refine ⟨fun s => ?finishes, ?words, fun c => ?cancels, fun c c' b b' => ?depends⟩
  case finishes =>
    exact ⟨exec_of_plain rfl, exec_of_plain rfl, exec_of_plain rfl, exec_of_plain rfl⟩
  case words => exact ⟨rfl, rfl, rfl, rfl⟩
  case cancels => exact crcStep_eq_zero _ (by simp)
  case depends => exact crcStep_congr _

end Sys2Proof.Machine
end

section
/-! BANK. FORCE_VERIFY (spec/41_bank.md R129). -/

namespace Sys2Proof.Machine

/-- Settles O29: the rule asks nothing of the state and sends nothing on the bus, so it always
answers 0 in the state with the two flags cleared. -/
theorem forceVerifyCommand : Obligations.ForceVerifyCommand := by
  refine ⟨?word, fun s => ?finishes⟩
  case word => rfl
  case finishes =>
    have body : commandBody .forceVerify (s.start none) =
        .ok (.plain 0) ({ s with speedOk := false, contOk := false }.start none) := rfl
    exact exec_of_plain body

end Sys2Proof.Machine
end

section
/-! SUPPORT. The host's reset (spec/70_reset_and_hazards.md R230): its step, and the items of the
reset table that several registers make up: the password slots, PW_SET, STATUS and DBUF's marks. -/

namespace Sys2Proof.Machine

@[simp] theorem Memory.read_nil (a : Nat) : Memory.read [] a = none := rfl

/-- Where every slot is cleared, each holds PW_LEN zero bytes (10_state.md R39). -/
theorem PwFile.get_bytes_cleared (d : Descriptor) (slot : PwSlot) :
    (PwFile.get ⟨.cleared d, .cleared d, .cleared d⟩ slot).bytes =
      List.replicate (slotLen d) 0 := by
  cases slot <;> rfl

/-- Where every slot is cleared, PW_SET is 0 (10_state.md R39). -/
theorem PwFile.setBits_cleared (d : Descriptor) :
    PwFile.setBits ⟨.cleared d, .cleared d, .cleared d⟩ = 0 := by
  simp only [PwFile.setBits, PwEntry.cleared]
  rfl

/-- The fields of STATUS are all 0 after reset, SP_STATE with the code of IDLE (10_state.md R22,
R34). -/
theorem State.resetMachine_statusWord (s : State) : s.resetMachine.statusWord = 0 := by
  rw [State.statusWord, State.resetMachine_pw, PwFile.setBits_cleared, State.resetMachine_fault,
    State.resetMachine_err, State.resetMachine_spState, State.resetMachine_contOk,
    State.resetMachine_speedOk, State.resetMachine_busy]
  rfl

/-- A reset is carried out in every state, faulted or not (60_exceptions.md R212, R220). -/
theorem step_reset {s : State} {rest : List HostInput} (h : s.host = .op .reset :: rest) :
    step s = .next (State.resetMachine { s with host := rest }) :=
  step_op h

/-- Settles O7: the step ends in `resetMachine`, whose single registers have their simp lemmas;
PW_SET, STATUS, the slots and DBUF's marks follow from those by the lemmas above. -/
theorem resetValues : Obligations.ResetValues := by
  intro s rest h
  refine ⟨_, step_reset h, ?_⟩
  simp [PwFile.setBits_cleared, State.resetMachine_statusWord, PwFile.get_bytes_cleared]

end Sys2Proof.Machine
end

section
/-! ENCODING. The decoder and the encoder agree (spec/30_encoding.md R80 to R85, R88). -/

namespace Sys2Proof.Machine

open Laws.EncodeFields (Statement fields_of_append)

variable {opc : BitVec 8} {cont : Bool} {pwsel : BitVec 2} {i : Instr} {w : Word}

theorem encode_fields (i : Instr) : Statement i := fields_of_append _ _ _

theorem commandOf_opcodeOf (i : Instr) : commandOf (opcodeOf i) (contOf i) i.pwsel = some i := by
  cases i <;> rfl

theorem allowsCont_of_contOf (h : contOf i = true) : allowsCont i = true := by
  cases i <;> simp_all [contOf, allowsCont]

theorem usesPwsel_of_pwsel (h : i.pwsel ≠ 0) : usesPwsel i = true := by
  cases i <;> simp_all [Instr.pwsel, usesPwsel]

/-- A command takes the CONT bit of its word where its row allows CONT (30_encoding.md R81). -/
theorem contOf_of_commandOf (h : commandOf opc cont pwsel = some i) :
    contOf i = (allowsCont i && cont) := by
  unfold commandOf at h
  split at h
  case h_31 => cases h
  all_goals
    cases h
    rfl

/-- A command takes the PWSEL field of its word where its row uses PWSEL (30_encoding.md R82). -/
theorem pwsel_of_commandOf (h : commandOf opc cont pwsel = some i) :
    i.pwsel = if usesPwsel i then pwsel else 0 := by
  unfold commandOf at h
  split at h
  case h_31 => cases h
  all_goals
    cases h
    rfl

/-- A word is accepted as `i` exactly when its OPC names `i` with its fields and no clause of
30_encoding.md R85 is met. -/
theorem decode_ok_iff :
    decode w = .ok i ↔
      commandOf (opcField w) (contField w) (pwselField w) = some i ∧ reservedField w = 0 ∧
        (contField w = true → allowsCont i = true) ∧ pwselField w ≠ 3 ∧
        (pwselField w ≠ 0 → usesPwsel i = true) := by
  unfold decode
  cases hc : commandOf (opcField w) (contField w) (pwselField w) with
  | none => simp
  | some j =>
    dsimp only
    split_ifs with reserved cont slot unused
    · exact iff_of_false (by simp) fun ⟨_, hr, _⟩ => reserved hr
    · refine iff_of_false (by simp) ?_
      rintro ⟨he, -, ha, -⟩
      cases he
      simpa [cont.2] using ha cont.1
    · simp [slot]
    · refine iff_of_false (by simp) ?_
      rintro ⟨he, -, -, -, hu⟩
      cases he
      simpa [unused.2] using hu unused.1
    · rw [Except.ok.injEq, Option.some.injEq]
      refine ⟨fun he => ⟨he, not_not.1 reserved, ?_, slot, ?_⟩, fun h => h.1⟩
      · subst he
        simpa using cont
      · subst he
        simpa using unused

/-- A word is what its four fields put together (30_encoding.md R80). -/
theorem append_fields (w : Word) :
    opcField w ++ BitVec.ofBool (contField w) ++ pwselField w ++ reservedField w = w := by
  refine BitVec.eq_of_getLsbD_eq fun k hk => ?_
  refine (BitVec.getLsbD_append (x := opcField w ++ BitVec.ofBool (contField w) ++ pwselField w)
    (y := reservedField w)).trans ?_
  simp only [BitVec.getLsbD_append, BitVec.getLsbD_ofBool, opcField, contField, pwselField,
    reservedField, BitVec.getLsbD_extractLsb']
  by_cases h1 : k < 21
  · simp [h1]
  · by_cases h2 : k - 21 < 2
    · simp [h1, h2, show 21 + (k - 21) = k by omega]
    · by_cases h3 : k - 21 - 2 < 1
      · simp [show k = 23 by omega]
      · simp [h1, h2, h3, show k - 21 - 2 - 1 < 8 by omega,
          show 24 + (k - 21 - 2 - 1) = k by omega]

/-- The encoding of a well-formed command is accepted as that command. -/
theorem decode_encode (h : i.WF) : decode (encode i) = .ok i := by
  obtain ⟨opcode, cont, slot, reserved⟩ := encode_fields i
  rw [decode_ok_iff, opcode, cont, slot]
  exact ⟨commandOf_opcodeOf i, reserved, allowsCont_of_contOf, h, usesPwsel_of_pwsel⟩

/-- An accepted word is the encoding of its command, which is well formed. -/
theorem encode_of_decode (h : decode w = .ok i) : i.WF ∧ encode i = w := by
  obtain ⟨command, reserved, allowed, slot, used⟩ := decode_ok_iff.1 h
  have hcont : contOf i = contField w := by
    rw [contOf_of_commandOf command]
    cases hc : contField w with
    | true => simp [allowed hc]
    | false => simp
  have hpwsel : i.pwsel = pwselField w := by
    rw [pwsel_of_commandOf command]
    split_ifs with hu
    · rfl
    · by_contra hp
      exact hu (used (Ne.symm hp))
  refine ⟨fun h3 => slot (hpwsel ▸ h3), ?_⟩
  rw [encode, opcodeOf_of_commandOf command, hcont, hpwsel, ← reserved, append_fields]

/-- Settles O1, by the decoder's accepting branch and the fields of a word. -/
theorem decodeEncodeAgree : Obligations.DecodeEncodeAgree :=
  ⟨fun _ => decode_encode, fun _ _ => encode_of_decode⟩

/-- Settles O3, by running the decoder on the eight words. -/
theorem decodeWords : Obligations.DecodeWords :=
  ⟨rfl, rfl, rfl, rfl, rfl, rfl, rfl, rfl⟩

end Sys2Proof.Machine
end

section
/-! STEPS. The invariant of reset states and of every step (spec/10_state.md R33, R34, R39;
spec/44_scratchpad.md R180; spec/70_reset_and_hazards.md R230), the step that runs a command
(spec/30_encoding.md R87), the host's reset (spec/70_reset_and_hazards.md R231, R232) and the
faulted state (spec/60_exceptions.md R212). -/

namespace Sys2Proof.Machine

variable {i : Instr} {s t : State} {rest : List HostInput}

/-! ### Reset states -/

theorem PwEntry.cleared_length (d : Descriptor) : (PwEntry.cleared d).bytes.length = slotLen d :=
  (PwEntry.cleared_ok d).length

/-- The reset state of a well-formed descriptor meets the invariant
(70_reset_and_hazards.md R230). -/
theorem State.resetOf_inv {d : Descriptor} (h : d.WF) : (State.resetOf d).Inv where
  desc_wf := h
  not_busy := rfl
  no_limit := rfl
  dbuf_wf := List.Pairwise.nil
  dbuf_bound := fun _ hc => absurd hc (List.not_mem_nil)
  cont_speed := fun hc => hc
  idle_without_scratchpad := fun _ => rfl
  authed_gated := fun ha => by cases ha
  spBuf_length := List.length_replicate
  spLen_le := Nat.zero_le _
  open_staged := fun ho => by cases ho
  pw_readOnly := PwEntry.cleared_ok d
  pw_readWrite := PwEntry.cleared_ok d
  pw_writeOnly := PwEntry.cleared_ok d

theorem Descriptor.plain_wf : Descriptor.plain.WF := by decide

theorem Config.descriptor_wf : Config.descriptor.WF := by
  unfold Config.descriptor
  split
  · assumption
  · exact Descriptor.plain_wf

/-- Settles O6. -/
theorem resetHasInvariant : Obligations.ResetHasInvariant :=
  ⟨fun _ => State.resetOf_inv, State.resetOf_inv Config.descriptor_wf⟩

/-- A reset keeps the invariant: only the bus record and the host's records outlive it. -/
theorem State.resetMachine_inv (h : s.desc.WF) : s.resetMachine.Inv :=
  { State.resetOf_inv h with }

/-! ### The parts of the invariant -/

/-- A scratchpad row of a well-formed descriptor has at least one byte and at most a page's 256. -/
theorem spBank_of_wf {d : Descriptor} (h : d.WF) : SpBank d := fun hp => by
  obtain ⟨⟨-, -, -, hpage, -, -⟩, -, -, -, hsp, -⟩ := h
  obtain ⟨-, -, -, h1, h2⟩ := hsp hp
  exact ⟨h1, h2.trans hpage⟩

theorem State.Inv.spBank (h : s.Inv) : SpBank s.desc := spBank_of_wf h.desc_wf

theorem State.Inv.spOk (h : s.Inv) : SpOk s :=
  ⟨h.idle_without_scratchpad, h.spBuf_length, h.spLen_le, h.open_staged, h.authed_gated⟩

theorem State.Inv.slots (h : s.Inv) : ∀ slot, (s.pw.get slot).Ok s.desc
  | .readOnly => h.pw_readOnly
  | .readWrite => h.pw_readWrite
  | .writeOnly => h.pw_writeOnly

/-- The scratchpad's registers stay in order where an error gives the transaction up. -/
theorem State.raise_spOk (c : CommandClass) (e : Err) (hb : SpBank t.desc) (h : SpOk t) :
    SpOk (t.raise c e) := by
  obtain ⟨-, -, abandon⟩ := t.abandonSp_spWent
  have closed : SpOk t.abandonSp := abandon hb h
  cases c with
  | internal => exact { h with }
  | bus => exact { closed with }
  | packetRead => exact { closed with }

/-! ### SPEED_OK behind a read -/

theorem prologue_ok_speed (h : prologue false s = .ok () t) : t.speedOk = true := by
  obtain ⟨_, u, hc, hsel⟩ := Run.bind_eq_ok.1 h
  have hu : u.speedOk = true := by
    unfold confirmSpeed at hc
    split at hc
    · cases hc
      assumption
    · obtain ⟨_, v, -, hv⟩ := Run.bind_eq_ok.1 hc
      split at hv <;> cases hv
      rfl
  obtain ⟨es, moved, -⟩ := (selectDevice_ends u).of_ok hsel
  exact moved.speed hu

theorem openRead_ok_speed {cont : Bool} {slot : PwSlot} {ta : Nat}
    (h : openRead cont slot ta s = .ok () t) (hc : cont = true → s.speedOk = true) :
    t.speedOk = true := by
  obtain ⟨_, u, hp, hk⟩ := Run.bind_eq_ok.1 h
  have hu : u.speedOk = true := by
    cases cont with
    | true =>
      cases hp
      exact hc rfl
    | false => exact prologue_ok_speed hp
  split at hk
  · obtain ⟨es, moved, -⟩ := (challenge_ends u slot ta).of_ok hk
    exact moved.speed hu
  · cases hk
    exact hu

/-- A read whose opening and transfer end well has its speed confirmed when it goes on. -/
theorem opened_ok_speed {α : Type} {cont : Bool} {slot : PwSlot} {p : Nat} {n m : State → Nat}
    {transfer : State → Run α} {k : α → State → Run Done} {d : Done}
    (went : ∀ u, (transfer u).Ends (Went (n u) (m u) u))
    (h : ((openRead cont slot p s.abandonSp).bind fun _ u => (transfer u).bind k) = .ok d t)
    (hc : cont = true → s.speedOk = true) : ∃ a u, k a u = .ok d t ∧ u.speedOk = true := by
  obtain ⟨_, u, ho, h⟩ := Run.bind_eq_ok.1 h
  obtain ⟨a, v, ht, hk⟩ := Run.bind_eq_ok.1 h
  obtain ⟨es, moved, -⟩ := (went u).of_ok ht
  exact ⟨a, v, hk, moved.speed (openRead_ok_speed ho hc)⟩

/-- The four commands that set CONT_OK finish with the speed confirmed (10_state.md R33). -/
theorem commandBody_ok_speed {d : Done} (h : commandBody i s = .ok d t) (hi : setsCont i = true)
    (hs : s.contOk = true → s.speedOk = true) : t.speedOk = true := by
  cases i with
  | read cont pwsel =>
    obtain ⟨slot, -, h⟩ := withSlot_ok h
    obtain ⟨-, h⟩ := withWindow_ok h
    obtain ⟨legal, h⟩ := withCont_ok h
    split at h
    · cases h
    · obtain ⟨a, u, hk, hu⟩ :=
        opened_ok_speed (fun u => readBytes_ends u _ _ cont slot) h fun c => hs (legal c)
      cases hk
      exact hu
  | readPage cont pwsel =>
    obtain ⟨slot, -, h⟩ := withSlot_ok h
    obtain ⟨-, h⟩ := withWindow_ok h
    obtain ⟨legal, h⟩ := withCont_ok h
    split at h
    · cases h
    · obtain ⟨a, u, hk, hu⟩ :=
        opened_ok_speed (fun u => readBytes_ends u _ _ cont slot) h fun c => hs (legal c)
      cases hk
      exact hu
  | readPageCrc cont pwsel =>
    obtain ⟨slot, -, h⟩ := withSlot_ok h
    obtain ⟨-, h⟩ := withWindow_ok h
    obtain ⟨legal, h⟩ := withCont_ok h
    split at h
    · cases h
    split at h
    · cases h
    · obtain ⟨a, u, hk, hu⟩ :=
        opened_ok_speed (fun u => readCrcPage_ends u _ cont) h fun c => hs (legal c)
      cases hk
      exact hu
  | readPagePacket cont pwsel =>
    obtain ⟨slot, -, h⟩ := withSlot_ok h
    obtain ⟨-, h⟩ := withWindow_ok h
    obtain ⟨legal, h⟩ := withCont_ok h
    split at h
    · cases h
    · obtain ⟨a, u, hk, hu⟩ :=
        opened_ok_speed (fun u => readBytes_ends u _ _ cont slot) h fun c => hs (legal c)
      split at hk <;> cases hk
      exact hu
  | _ => cases hi

/-! ### The invariant along a command -/

theorem Framed.desc (f : Framed i s t) : t.desc = s.desc := by rw [f.rest]

theorem Framed.dbuf (f : Framed i s t) : t.dbuf = s.dbuf := by rw [f.rest]

/-- The DBUF write of a command that finishes stays in DBUF (10_state.md R28, R30). -/
theorem finish_dbuf_bound {d : Done} (h : s.Inv) (hb : commandBody i (s.start none) = .ok d t) :
    ∀ c ∈ s.dbuf.writeRange d.off d.data, c.1 < s.desc.dbufSize := by
  intro c hc
  rcases (commandBody_done hb).1 with none | ⟨off, len, fits⟩
  · rw [none] at hc
    exact h.dbuf_bound c hc
  · rcases Memory.mem_writeRange _ hc with ⟨-, below⟩ | old
    · simp only [State.start_argOff, State.start_desc] at off fits
      omega
    · exact h.dbuf_bound c old

/-- CONT_OK implies SPEED_OK where a command finishes (10_state.md R33). -/
theorem finish_cont_speed {d : Done} (h : s.Inv) (hb : commandBody i (s.start none) = .ok d t)
    (f : Framed i (s.start none) t) : t.contOk = true → t.speedOk = true := by
  intro hc
  rw [contOk_of_done hb f] at hc
  split_ifs at hc with hi
  · obtain ⟨-, -, kept⟩ := f.internal hi.1
    rw [(kept hi.2).1]
    exact h.cont_speed hc
  · exact commandBody_ok_speed hb hc h.cont_speed

/-- CONT_OK implies SPEED_OK where a command raises: a bus command clears CONT_OK, an internal one
leaves both flags. -/
theorem raise_cont_speed {e : Err} (h : s.Inv) (hb : commandBody i (s.start none) = .raised e t)
    (f : Framed i (s.start none) t) :
    (t.raise (commandClass i) e).contOk = true → (t.raise (commandClass i) e).speedOk = true := by
  intro hc
  rw [contOk_of_raised hb f] at hc
  split_ifs at hc with hi
  obtain ⟨-, -, kept⟩ := f.internal hi.1
  have class_internal : commandClass i = .internal := by simpa [hi.1] using isBus_eq i
  rw [State.raise_speedOk, class_internal, (kept hi.2).1]
  simpa [clearsSpeed] using h.cont_speed hc

/-- Every command keeps the invariant, however it ends. -/
theorem State.Inv.runCommand (h : s.Inv) (i : Instr) :
    (s.runCommand (commandClass i) (commandBody i)).Inv := by
  rcases runCommand_cases i s with ⟨d, t, hb, hr, f⟩ | ⟨e, t, hb, hr, f⟩ | ⟨c, -, hr⟩
  case inl =>
    have sp : SpOk t := f.spOk h.spBank { h.spOk with }
    have slots := f.slotsOk h.slots
    have desc : t.desc = s.desc := f.desc
    have dbuf : t.dbuf = s.dbuf := f.dbuf
    rw [hr]
    exact {
      desc_wf := desc ▸ h.desc_wf
      not_busy := rfl
      no_limit := rfl
      dbuf_wf := Memory.writeRange_wf _ _ _ (dbuf ▸ h.dbuf_wf)
      dbuf_bound := by simpa [desc, dbuf] using finish_dbuf_bound h hb
      cont_speed := finish_cont_speed (t := t) h hb f
      idle_without_scratchpad := sp.idle
      authed_gated := sp.authed
      spBuf_length := sp.buf
      spLen_le := sp.len
      open_staged := sp.staged
      pw_readOnly := desc ▸ slots .readOnly
      pw_readWrite := desc ▸ slots .readWrite
      pw_writeOnly := desc ▸ slots .writeOnly }
  case inr.inl =>
    have desc : t.desc = s.desc := f.desc
    have sp : SpOk (t.raise (commandClass i) e) :=
      t.raise_spOk _ _ (desc ▸ h.spBank) (f.spOk h.spBank { h.spOk with })
    have slots : ∀ slot, ((t.raise (commandClass i) e).pw.get slot).Ok
        (t.raise (commandClass i) e).desc := by simpa [desc] using f.slotsOk h.slots
    have dbuf : t.dbuf = s.dbuf := f.dbuf
    rw [hr]
    exact {
      desc_wf := by simpa [desc] using h.desc_wf
      not_busy := by simp
      no_limit := by simp
      dbuf_wf := by simpa [dbuf] using h.dbuf_wf
      dbuf_bound := by simpa [desc, dbuf] using h.dbuf_bound
      cont_speed := raise_cont_speed h hb f
      idle_without_scratchpad := sp.idle
      authed_gated := sp.authed
      spBuf_length := sp.buf
      spLen_le := sp.len
      open_staged := sp.staged
      pw_readOnly := slots .readOnly
      pw_readWrite := slots .readWrite
      pw_writeOnly := slots .writeOnly }
  case inr.inr =>
    rw [hr]
    exact { h with not_busy := rfl }

/-! ### The invariant along a step -/

theorem State.Inv.setHost (h : s.Inv) (rest : List HostInput) :
    ({ s with host := rest } : State).Inv := { h with }

theorem State.Inv.latchBusy (h : s.Inv) : s.latchBusy.Inv := by
  unfold State.latchBusy
  split
  · exact { h with }
  · exact h

theorem State.Inv.answerHost (h : s.Inv) (v : Word) : (s.answerHost v).Inv := { h with }

theorem State.Inv.requeue (h : s.Inv) (ops : List (Nat × HostOp)) : (s.requeue ops).Inv :=
  { h with }

theorem State.Inv.takeFault (h : s.Inv) (f : FaultCode) : (s.takeFault f).Inv :=
  { h with not_busy := rfl }

theorem State.Inv.writeReg (h : s.Inv) (n : Nat) (v : Word) : (s.writeReg n v).Inv := by
  unfold State.writeReg
  split <;> exact { h with }

theorem State.Inv.writePort (h : s.Inv) (a : Nat) (b : Byte) : (s.writePort a b).Inv := by
  unfold State.writePort
  split
  case isTrue below =>
    refine { h with dbuf_wf := Memory.write_wf _ h.dbuf_wf a b, dbuf_bound := fun c hc => ?_ }
    rcases Memory.mem_write hc with rfl | old
    · exact below
    · exact h.dbuf_bound c old
  case isFalse => exact h

/-- A CMD write that is not ignored keeps the invariant. -/
theorem State.Inv.commandWrite (h : s.Inv) {w : Word} (ht : commandWrite w s = .next t) :
    t.Inv := by
  unfold Machine.commandWrite at ht
  split at ht
  · rw [exec_next.1 ht]
    exact h.runCommand _
  · cases ht
    exact h.takeFault _

theorem State.Inv.hostWrite (h : s.Inv) {write : State → Host.Outcome State Fault Refusal}
    (hw : write s = .next t → t.Inv) (ht : hostWrite write s = .next t) : t.Inv := by
  unfold Machine.hostWrite at ht
  split_ifs at ht
  · cases ht
    exact h
  · cases ht
    exact h.latchBusy
  · exact hw ht

theorem State.Inv.hostOp (h : s.Inv) {o : HostOp} (ht : hostOp o s = .next t) : t.Inv := by
  unfold Machine.hostOp at ht
  split at ht
  · cases ht
    exact h.answerHost _
  · exact h.hostWrite h.commandWrite ht
  · refine h.hostWrite (fun hw => ?_) ht
    cases hw
    exact h.writeReg _ _
  · cases ht
    exact h.answerHost _
  · refine h.hostWrite (fun hw => ?_) ht
    cases hw
    exact h.writePort _ _
  · cases ht
    exact State.resetMachine_inv h.desc_wf

/-- A reset in the window of a command finds the descriptor of the state the command started
from. -/
theorem State.Inv.resetMidCommand (h : s.Inv) {k : Nat} (hb : (s.midCommand i k).busy = true) :
    (s.midCommand i k).resetMachine.Inv := by
  obtain ⟨u, hu, running⟩ := midCommand_running hb
  refine State.resetMachine_inv ?_
  rw [← hu, running]
  exact h.desc_wf

theorem State.Inv.commandDuring (h : s.Inv) {w : Word} {landing : List (Nat × HostOp)}
    (ht : commandDuring w landing s = .next t) : t.Inv := by
  unfold Machine.commandDuring at ht
  split_ifs at ht
  · cases ht
    exact h.requeue _
  · cases ht
    exact h.latchBusy.requeue _
  · split at ht
    · cases ht
      exact windowRun_induct State.Inv (fun _ h => h.runCommand _) (fun _ h => h.latchBusy)
        (fun _ v h => h.answerHost v) (fun _ ops h => h.requeue ops)
        (fun _ _ h hb => h.resetMidCommand hb) landing 0 false s h
    · cases ht
      exact (h.takeFault _).requeue _

/-- Settles O5, by what the host's next input is. -/
theorem stepKeepsInvariant : Obligations.StepKeepsInvariant := by
  intro s t h ht
  unfold step at ht
  split at ht
  · cases ht
    exact h
  · exact (h.setHost _).hostOp ht
  · exact (h.setHost _).commandDuring ht

/-! ### The step of a command -/

/-- Settles O4: a CMD write that is not ignored is `exec`, and so is a window in which nothing
lands. -/
theorem stepRunsCommand : Obligations.StepRunsCommand := by
  intro s w rest i h hf hb hd
  rcases h with h | h
  · calc step s = hostWrite (commandWrite w) { s with host := rest } := step_op h
      _ = commandWrite w { s with host := rest } :=
        hostWrite_free (s := { s with host := rest }) (commandWrite w) hf hb
      _ = exec i { s with host := rest } := by rw [commandWrite, hd]
  · calc step s = commandDuring w [] { s with host := rest } := step_during h
      _ = .next (windowRun i 0 false [] { s with host := rest }) :=
        commandDuring_free (s := { s with host := rest }) [] hf hb hd
      _ = exec i { s with host := rest } := by rw [exec_eq]; rfl

/-! ### The host's reset -/

/-- Settles O8. -/
theorem resetLeavesTheRest : Obligations.ResetLeavesTheRest := fun _ _ h =>
  ⟨_, step_reset h, ⟨rfl, rfl, rfl⟩, rfl, rfl, rfl, rfl⟩

/-! ### The faulted state -/

theorem hostOp_regWrite_faulted (hf : s.fault ≠ none) (n : Nat) (v : Word) :
    hostOp (.regWrite n v) s = .next s := by
  cases n with
  | zero => exact hostWrite_faulted (commandWrite v) hf
  | succ n => exact hostWrite_faulted (fun s => .next (s.writeReg (n + 1) v)) hf

theorem hostOp_dbufWrite_faulted (hf : s.fault ≠ none) (a : Nat) (b : Byte) :
    hostOp (.dbufWrite a b) s = .next s :=
  hostWrite_faulted (fun s => .next (s.writePort a b)) hf

/-- In the faulted state a host operation that clears FAULT is a reset (60_exceptions.md R212). -/
theorem hostOp_clears_fault {o : HostOp} (hf : s.fault ≠ none) (ht : hostOp o s = .next t)
    (hc : t.fault = none) : o = .reset := by
  cases o with
  | reset => rfl
  | regRead n =>
    cases ht
    exact absurd hc hf
  | dbufRead a =>
    cases ht
    exact absurd hc hf
  | regWrite n v =>
    cases (hostOp_regWrite_faulted hf n v).symm.trans ht
    exact absurd hc hf
  | dbufWrite a b =>
    cases (hostOp_dbufWrite_faulted hf a b).symm.trans ht
    exact absurd hc hf

/-- Settles O9: a faulted machine takes no host write and starts no command. -/
theorem faultedStateIsSticky : Obligations.FaultedStateIsSticky := by
  intro s rest hf
  refine ⟨fun o h => ⟨?_, ?_, ?_, ?_, ?_, ?_⟩, fun w landing h => ?_⟩
  · rintro n v rfl
    rw [step_op h]
    exact hostOp_regWrite_faulted (s := { s with host := rest }) hf n v
  · rintro a b rfl
    rw [step_op h]
    exact hostOp_dbufWrite_faulted (s := { s with host := rest }) hf a b
  · rintro n rfl
    exact step_op h
  · rintro a rfl
    exact step_op h
  · rintro rfl
    exact ⟨_, step_reset h, rfl⟩
  · intro t ht hc
    rw [step_op h] at ht
    exact hostOp_clears_fault (s := { s with host := rest }) hf ht hc
  · rw [step_during h, commandDuring, if_pos (by exact hf)]
    rfl

end Sys2Proof.Machine
end

section
/-! SCRATCHPAD FSM. The transitions of SP_STATE (spec/44_scratchpad.md R180, R181) and how VERIFIED
is earned (R184, R192). -/

namespace Sys2Proof.Machine

variable {α : Type} {i : Instr} {s t : State}

/-! ### Endings of a piece that starts or only ends -/

theorem Run.Ends.of_raised {P : State → Prop} {r : Run α} (h : r.Ends P) {e : Err}
    (hr : r = .raised e t) : P t := by
  have := h.all
  rwa [hr] at this

theorem Run.Starts.of_ok {P : State → Prop} {r : Run α} (h : r.Starts P) {a : α}
    (hr : r = .ok a t) : P t := by
  rcases h with ⟨f, hf⟩ | h
  · cases hf.symm.trans hr
  · exact h.of_ok hr

theorem Run.Starts.of_raised {P : State → Prop} {r : Run α} (h : r.Starts P) {e : Err}
    (hr : r = .raised e t) : P t := by
  rcases h with ⟨f, hf⟩ | h
  · cases hf.symm.trans hr
  · exact h.of_raised hr

/-! ### The read-back of the staged transaction -/

/-- The outcome of `SpVerifyProc` by the three checks on what it received, in the order of
44_scratchpad.md R184. -/
theorem verifyOutcome_back {u : State} (hd : u.desc = s.desc) (ha : u.spTA = s.spTA)
    (hl : u.spLen = s.spLen) (hb : u.spBuf = s.spBuf) :
    verifyOutcome (s.bus.bytesAfter 0 (hdrLen s.desc))
      (s.bus.bytesAfter (hdrLen s.desc) s.spLen.toNat)
      (s.bus.bytesAfter (hdrLen s.desc + s.spLen.toNat) (crcLen s.desc)) u =
      if s.backCrcOk ∧ s.backEchoOk ∧ s.backDataOk then
        .ok () { u with
          spES := if s.desc.spAddr then s.bus.byteAnswer (s.bus.nByte + 2) else u.spES
          spState := .verified }
      else .raised (if s.backCrcOk then .verification else .integrity) u := by
  have crc : (s.desc.spCrc = true ∧ crc16 (s.desc.cmdRS :: s.bus.bytesAfter 0 (hdrLen s.desc) ++
      s.bus.bytesAfter (hdrLen s.desc) s.spLen.toNat ++
      s.bus.bytesAfter (hdrLen s.desc + s.spLen.toNat) (crcLen s.desc)) 0 ≠ Config.accept16) ↔
      ¬ s.backCrcOk := Classical.not_imp.symm
  have echo : (s.desc.spAddr = true ∧ echoOk u (s.bus.bytesAfter 0 (hdrLen s.desc)) = false) ↔
      ¬ s.backEchoOk := by
    rw [State.backEchoOk, Classical.not_imp]
    refine and_congr_right fun addressed => ?_
    simp [echoOk, hdrLen, addressed, Bus.bytesAfter, Bus.byteAnswers, loByte_eq, hiByte_eq, hd, ha,
      hl]
  rw [verifyOutcome, hd, hl, hb]
  by_cases good : s.backCrcOk
  · rw [if_neg (mt crc.1 (not_not.2 good)), if_pos good]
    by_cases same : s.backEchoOk
    · rw [if_neg (mt echo.1 (not_not.2 same))]
      by_cases data : s.backDataOk
      · rw [if_neg (not_not.2 data),
          if_pos (show s.backCrcOk ∧ s.backEchoOk ∧ s.backDataOk from ⟨good, same, data⟩)]
        by_cases addressed : s.desc.spAddr = true <;>
          simp [addressed, hdrLen, Bus.bytesAfter, Bus.byteAnswers]
      · rw [if_pos data, if_neg fun h => data h.2.2]
    · rw [if_pos (echo.2 same), if_neg fun h => same h.2.1]
  · rw [if_pos (crc.2 good), if_neg good, if_neg fun h => good h.1]

/-- `SpVerifyProc` where the device is selected (44_scratchpad.md R184). -/
theorem spVerifyProc_back (hl : s.bus.limit = none) (h : s.bus.yes s.prologueAsks) :
    ∃ u, u = s.advance true (verifyEvents s.desc s.speedOk (s.bus.bytesAfter 0 (hdrLen s.desc))
        (s.bus.bytesAfter (hdrLen s.desc) s.spLen.toNat)
        (s.bus.bytesAfter (hdrLen s.desc + s.spLen.toNat) (crcLen s.desc)))
        s.prologueAsks (hdrLen s.desc + s.spLen.toNat + crcLen s.desc) ∧
      spVerifyProc s =
        if s.backCrcOk ∧ s.backEchoOk ∧ s.backDataOk then
          .ok () { u with
            spES := if s.desc.spAddr then s.bus.byteAnswer (s.bus.nByte + 2) else s.spES
            spState := .verified }
        else .raised (if s.backCrcOk then .verification else .integrity) u := by
  refine ⟨_, rfl, ?_⟩
  have outcome := spVerifyProc_yes hl h
  rw [Nat.add_assoc s.bus.nByte] at outcome
  exact outcome.trans (verifyOutcome_back rfl rfl rfl rfl)

theorem State.start_bytesAfter (k n : Nat) :
    (s.start none).bus.bytesAfter k n = s.bus.bytesAfter k n := s.start_byteAnswers _ _ _

theorem State.start_backCrcOk : (s.start none).backCrcOk ↔ s.backCrcOk := by
  simp only [State.backCrcOk, State.start_bytesAfter]
  rfl

theorem State.start_backEchoOk : (s.start none).backEchoOk ↔ s.backEchoOk := Iff.rfl

theorem State.start_backDataOk : (s.start none).backDataOk ↔ s.backDataOk := by
  simp only [State.backDataOk, State.start_bytesAfter]
  rfl

/-- `SpVerifyProc` ends well only behind a read-back that passes the three checks
(44_scratchpad.md R184). -/
theorem spVerifyProc_ok_back (hl : s.bus.limit = none) (h : spVerifyProc s = .ok () t) :
    s.backCrcOk ∧ s.backEchoOk ∧ s.backDataOk := by
  by_cases yes : s.bus.yes s.prologueAsks
  · obtain ⟨u, -, outcome⟩ := spVerifyProc_back hl yes
    by_contra bad
    rw [outcome, if_neg bad] at h
    cases h
  · obtain ⟨v, nb, no⟩ := prologue_no hl yes
    rw [spVerifyProc, no] at h
    cases h

/-! ### SP_STATE where a scratchpad step stops -/

theorem spWriteProc_raised {ta : Nat} {xs : List Byte} {e : Err}
    (h : spWriteProc ta xs s = .raised e t) : t.spState = s.spState := by
  rcases Run.bind_eq_raised.1 h with h | ⟨_, u, hu, h⟩
  · exact ((prologue_ends s false).of_raised h).spState
  rcases Run.bind_eq_raised.1 h with h | ⟨_, v, -, h⟩
  · exact ((busSend_ends u _).of_raised h).spState.trans
      ((prologue_ends s false).of_ok hu).spState
  · cases h

theorem spVerifyProc_raised {e : Err} (h : spVerifyProc s = .raised e t) :
    t.spState = s.spState := by
  rcases Run.bind_eq_raised.1 h with h | ⟨_, u, hu, h⟩
  · exact ((prologue_ends s false).of_raised h).spState
  have at_u := ((prologue_ends s false).of_ok hu).spState
  rcases Run.bind_eq_raised.1 h with h | ⟨_, v, hv, h⟩
  · exact ((busSend_ends u _).of_raised h).spState.trans at_u
  have at_v := ((busSend_ends u _).of_ok hv).spState.trans at_u
  rcases Run.bind_eq_raised.1 h with h | ⟨hdr, w, hw, h⟩
  · exact ((recvIf_ends v _ _).of_raised h).spState.trans at_v
  have at_w := ((recvIf_ends v _ _).of_ok hw).spState.trans at_v
  rcases Run.bind_eq_raised.1 h with h | ⟨d, x, hx, h⟩
  · exact ((busRecv_ends w _).of_raised h).spState.trans at_w
  have at_x := ((busRecv_ends w _).of_ok hx).spState.trans at_w
  rcases Run.bind_eq_raised.1 h with h | ⟨c, y, hy, h⟩
  · exact ((recvIf_ends x _ _).of_raised h).spState.trans at_x
  have at_y := ((recvIf_ends x _ _).of_ok hy).spState.trans at_x
  split_ifs at h <;> cases h <;> exact at_y

theorem spCopyProc_raised {e : Err} (h : spCopyProc s = .raised e t) :
    t.spState = s.spState := by
  rcases Run.bind_eq_raised.1 h with h | ⟨_, u, hu, h⟩
  · exact ((requirePower_ends s).of_raised h).spState
  have at_u := ((requirePower_ends s).of_ok hu).spState
  rcases Run.bind_eq_raised.1 h with h | ⟨_, v, hv, h⟩
  · exact ((prologue_ends u false).of_raised h).spState.trans at_u
  have at_v := ((prologue_ends u false).of_ok hv).spState.trans at_u
  rcases Run.bind_eq_raised.1 h with h | ⟨_, w, hw, h⟩
  · exact ((busSendPulse_moved v _ _).of_raised h).spState.trans at_v
  have at_w := ((busSendPulse_moved v _ _).of_ok hw).spState.trans at_v
  rcases Run.bind_eq_raised.1 h with h | ⟨r, x, hx, h⟩
  · exact ((busRecv_ends w _).of_raised h).spState.trans at_w
  have at_x := ((busRecv_ends w _).of_ok hx).spState.trans at_w
  split_ifs at h
  cases h
  exact at_x

/-! ### IDLE is never come back to -/

/-- `t` is IDLE only where `s` was. -/
def IdleFrom (s t : State) : Prop := t.spState = .idle → s.spState = .idle

theorem IdleFrom.trans {u : State} (h : IdleFrom s t) (k : IdleFrom t u) : IdleFrom s u := h ∘ k

theorem Went.idleFrom {n m : Nat} (h : Went n m s t) : IdleFrom s t := fun hi =>
  h.spState.symm.trans hi

theorem Run.Ends.idleFrom {n m : Nat} {r : Run α} (h : r.Ends (Went n m s)) :
    r.All (IdleFrom s) := h.all.mono fun _ => Went.idleFrom

/-- Sequencing of pieces that do not come back to IDLE. -/
theorem Run.All.idleFrom {β : Type} {r : Run α} {k : α → State → Run β} (h : r.All (IdleFrom s))
    (hk : ∀ a t, (k a t).All (IdleFrom t)) : (r.bind k).All (IdleFrom s) :=
  Run.all_bind h (fun _ => id) fun a t ht => (hk a t).mono fun _ => ht.trans

theorem all_setState (a : α) {p : SpState} (hp : p ≠ .idle) :
    (Run.ok a { s with spState := p }).All (IdleFrom s) := fun h => absurd h hp

theorem spWriteProc_idleFrom (ta : Nat) (xs : List Byte) (s : State) :
    (spWriteProc ta xs s).All (IdleFrom s) :=
  (prologue_ends s false).idleFrom.idleFrom fun _ t =>
    (busSend_ends t _).idleFrom.idleFrom fun _ _ h => by cases h

theorem spVerifyProc_idleFrom (s : State) : (spVerifyProc s).All (IdleFrom s) := by
  refine (prologue_ends s false).idleFrom.idleFrom fun _ t =>
    (busSend_ends t _).idleFrom.idleFrom fun _ t => (recvIf_ends t _ _).idleFrom.idleFrom fun _ t =>
    (busRecv_ends t _).idleFrom.idleFrom fun _ t => (recvIf_ends t _ _).idleFrom.idleFrom fun _ t =>
    ?_
  split
  · exact id
  split
  · exact id
  split
  · exact id
  · exact fun h => by cases h

theorem spCopyProc_idleFrom (s : State) : (spCopyProc s).All (IdleFrom s) := by
  have pulse : ∀ (t : State) (xs : List Byte) (d : Nat),
      (busSendPulse xs d t).All (IdleFrom t) := fun t xs d =>
    (busSendPulse_moved t xs d).all.mono fun _ moved hi => moved.spState.symm.trans hi
  refine (requirePower_ends s).idleFrom.idleFrom fun _ t =>
    (prologue_ends t false).idleFrom.idleFrom fun _ t => (pulse t _ _).idleFrom fun _ t =>
    (busRecv_ends t _).idleFrom.idleFrom fun _ t => ?_
  split_ifs
  · exact id
  · exact fun h => by cases h

theorem chunkChallenge_idleFrom (slot : PwSlot) (s : State) :
    (chunkChallenge slot s).All (IdleFrom s) := by
  unfold chunkChallenge
  split
  · exact (prologue_ends s false).idleFrom.idleFrom fun _ t =>
      (challenge_ends t slot _).idleFrom.idleFrom fun _ _ h => by cases h
  · exact id

theorem writeChunks_idleFrom (slot : PwSlot) (rounds : Nat) : ∀ (p : Nat) (xs : List Byte)
    (s : State), (writeChunks slot rounds p xs s).All (IdleFrom s) := by
  induction rounds with
  | zero => exact fun _ _ _ => id
  | succ rounds ih =>
    intro p xs s
    rw [writeChunks]
    split
    · exact id
    · exact (spWriteProc_idleFrom _ _ s).idleFrom fun _ t => (spVerifyProc_idleFrom t).idleFrom
        fun _ t => (chunkChallenge_idleFrom slot t).idleFrom fun _ t =>
        (spCopyProc_idleFrom t).idleFrom fun _ t => ih _ _ t

theorem transferBytes_idleFrom (p : Nat) (xs : List Byte) (slot : PwSlot) (s : State) :
    (transferBytes p xs slot s).All (IdleFrom s) := by
  unfold transferBytes
  split_ifs
  · exact writeChunks_idleFrom slot _ p xs s
  · exact (directWrite_ends s p xs).idleFrom
  · exact id

theorem abandonSp_idleFrom (s : State) : IdleFrom s s.abandonSp := by
  intro h
  cases hs : s.spState <;> simp [SpState.abandon, SpState.isOpen, hs] at h ⊢

theorem writeBytes_idleFrom (a : Nat) (xs : List Byte) (slot : PwSlot) (s : State) :
    (writeBytes a xs slot s).All (IdleFrom s) := by
  unfold writeBytes
  split
  · exact id
  · exact (writeCheck_ends s).idleFrom.idleFrom fun _ t => (powerCheck_ends t).idleFrom.idleFrom
      fun _ t => ((transferBytes_idleFrom _ xs slot t.abandonSp).mono fun _ =>
        (abandonSp_idleFrom t).trans).idleFrom fun _ t => (readBack_ends t _ xs slot).idleFrom

theorem withSlot_all {P : State → Prop} {pwsel : BitVec 2} {k : PwSlot → Run α}
    (h : ∀ slot, slotOf pwsel = some slot → (k slot).All P) : (withSlot pwsel k).All P := by
  rcases withSlot_cases pwsel k with ⟨slot, named, e⟩ | e <;> rw [e]
  · exact h slot named
  · trivial

theorem withInput_all {P : State → Prop} {n : Nat} {k : List Byte → Run α}
    (h : ∀ xs, (k xs).All P) : (withInput n s k).All P := by
  rcases withInput_cases n s k with ⟨xs, -, -, e⟩ | ⟨f, e⟩ <;> rw [e]
  · exact h xs
  · trivial

/-- What holds of the state a write starts its rule from, and of every ending of `WriteBytes`, holds
of every ending of a write (41_bank.md R128, 42_paged.md R148). -/
theorem commandBody_write_all {P : State → Prop} (hi : writesBank i = true)
    (h : ∀ pwsel slot, (i = .write pwsel ∨ i = .writePagePacket pwsel) →
      slotOf pwsel = some slot → P { s with contOk := false } ∧
        ∀ a xs, (writeBytes a xs slot { s with contOk := false }).All P) :
    (commandBody i s).All P := by
  have writing : ∀ {r : Run Unit}, r.All P →
      (r.bind fun _ t => Run.ok (Done.plain s.argLen) t).All P := fun hr =>
    Run.all_bind hr (fun _ => id) fun _ _ => id
  cases i with
  | write pwsel =>
    exact withSlot_all fun slot named => withInput_all fun xs =>
      writing ((h pwsel slot (.inl rfl) named).2 _ xs)
  | writePagePacket pwsel =>
    refine withSlot_all fun slot named => withInput_all fun xs => ?_
    obtain ⟨start, run⟩ := h pwsel slot (.inr rfl) named
    dsimp only
    split_ifs
    · exact start
    · exact start
    · exact writing (run _ _)
  | _ => cases hi

/-- A write does not come back to IDLE. -/
theorem commandBody_idleFrom (hi : writesBank i = true) (s : State) :
    (commandBody i s).All (IdleFrom s) :=
  commandBody_write_all hi fun _ slot _ _ =>
    ⟨id, fun a xs => writeBytes_idleFrom a xs slot { s with contOk := false }⟩

/-! ### SP_STATE where a command raises -/

theorem Held.abandon {Q : List BusEvent → Prop} (h : Held Q s t) :
    t.spState.abandon = s.spState.abandon := by
  obtain ⟨-, -, -, -, -, same | given⟩ := h
  · rw [same]
  · rw [given, SpState.abandon_abandon]

theorem bodySpWrite_raised {e : Err} (h : bodySpWrite s = .raised e t) :
    t.spState.abandon = s.spState.abandon := by
  rcases withInput_cases s.argLen.toNat s _ with ⟨xs, -, -, run⟩ | ⟨f, run⟩
  case inr => cases run.symm.trans h
  replace h := run.symm.trans h
  dsimp only at h
  split at h
  · cases h
    rfl
  split at h
  · cases h
    rfl
  rcases Run.bind_eq_raised.1 h with h | ⟨_, u, -, h⟩
  · rw [spWriteProc_raised h]
    exact SpState.abandon_abandon _
  · cases h

theorem bodySpReadVerify_raised {e : Err} (h : bodySpReadVerify s = .raised e t) :
    t.spState = s.spState := by
  unfold bodySpReadVerify at h
  dsimp only at h
  split at h
  · cases h
  split at h
  · cases h
    rfl
  rcases Run.bind_eq_raised.1 h with h | ⟨_, u, -, h⟩
  · exact spVerifyProc_raised (s := { s with contOk := false }) h
  · cases h

theorem bodySpCopy_raised {e : Err} (h : bodySpCopy s = .raised e t) :
    t.spState = s.spState := by
  unfold bodySpCopy at h
  dsimp only at h
  split at h
  · cases h
  split at h
  · cases h
  split at h
  · cases h
    rfl
  rcases Run.bind_eq_raised.1 h with h | ⟨_, u, -, h⟩
  · exact spCopyProc_raised (s := { s with contOk := false }) h
  · cases h

/-- A command that is no write raises with the FSM state it found, or with that state given up:
either way the same once the raise has given it up (60_exceptions.md R204 step 5). -/
theorem commandBody_raised_abandon {e : Err} (hw : writesBank i = false)
    (h : commandBody i s = .raised e t) : t.spState.abandon = s.spState.abandon := by
  by_cases hb : isBus i = false
  · obtain ⟨-, same, -⟩ := ((commandBody_framed i s).of_raised h).internal hb
    rw [same]
  cases i with
  | read c p => exact ((bodyRead_starts s c p).of_raised h).abandon
  | readPage c p => exact ((bodyReadPage_starts s c p).of_raised h).abandon
  | readPageExtra c p => exact ((bodyReadPageExtra_starts s c p).of_raised h).abandon
  | readPageCrc c p => exact ((bodyReadPageCrc_starts s c p).of_raised h).abandon
  | readPageCrcExtra c p => exact ((bodyReadPageCrcExtra_starts s c p).of_raised h).abandon
  | readPagePacket c p => exact ((bodyReadPagePacket_starts s c p).of_raised h).abandon
  | lockPage => exact ((bodyLockPage_starts s).of_raised h).abandon
  | redirectPage => exact ((bodyRedirectPage_starts s).of_raised h).abandon
  | lockRedirectPage => exact ((bodyLockRedirectPage_starts s).of_raised h).abandon
  | isPageLocked => exact ((otpQuery_starts s _ _ _).of_raised h).abandon
  | getRedirectedPage => exact ((otpQuery_starts s _ _ _).of_raised h).abandon
  | isRedirectPageLocked => exact ((otpQuery_starts s _ _ _).of_raised h).abandon
  | spWrite => exact bodySpWrite_raised h
  | spReadVerify => rw [bodySpReadVerify_raised h]
  | spVerifyPassword p =>
    obtain ⟨u, -, same, rfl | ⟨rfl, verified, -⟩⟩ :=
      (bodySpVerifyPassword_starts s p).of_raised h
    · rw [same]
    · rw [verified]
      rfl
  | spCopy => rw [bodySpCopy_raised h]
  | write p | writePagePacket p => cases hw
  | _ => exact absurd rfl hb

/-! ### SP_STATE where a command finishes -/

theorem bodySpWrite_ok {d : Done} (h : bodySpWrite s = .ok d t) : t.spState = .written := by
  obtain ⟨xs, -, -, h⟩ := withInput_ok h
  dsimp only at h
  split at h
  · cases h
  split at h
  · cases h
  obtain ⟨_, u, run, h⟩ := Run.bind_eq_ok.1 h
  cases h
  exact spWriteProc_ok run

/-- SP_READ_VERIFY finishes only from WRITTEN, in VERIFIED, behind `SpVerifyProc`
(44_scratchpad.md R185). -/
theorem bodySpReadVerify_ok {d : Done} (h : bodySpReadVerify s = .ok d t) :
    s.spState = .written ∧ t.spState = .verified ∧
      ∃ u, spVerifyProc { s with contOk := false } = .ok () u := by
  unfold bodySpReadVerify at h
  dsimp only at h
  split at h
  · cases h
  rename_i order
  split at h
  · cases h
  rename_i present
  obtain ⟨_, u, run, h⟩ := Run.bind_eq_ok.1 h
  cases h
  refine ⟨?_, spVerifyProc_ok run, t, run⟩
  by_contra other
  exact order ⟨by simpa using present, other⟩

/-- SP_COPY finishes only from the state that may commit, in COMMITTED (44_scratchpad.md R191). -/
theorem bodySpCopy_ok {d : Done} (h : bodySpCopy s = .ok d t) :
    s.spState = (if s.desc.pwGated then .authed else .verified) ∧ t.spState = .committed := by
  unfold bodySpCopy at h
  dsimp only at h
  split at h
  · cases h
  rename_i plain
  split at h
  · cases h
  rename_i gated
  split at h
  · cases h
  rename_i present
  obtain ⟨_, u, run, h⟩ := Run.bind_eq_ok.1 h
  cases h
  refine ⟨?_, spCopyProc_ok run⟩
  split_ifs with hg
  · by_contra other
    exact gated ⟨hg, other⟩
  · by_contra other
    exact plain ⟨by simpa using present, by simpa using hg, other⟩

/-- A command that is none of the scratchpad steps and no write finishes with the FSM state it found
or with that state given up. -/
theorem commandBody_ok_abandon {d : Done} (hw : writesBank i = false) (hi : isSpStep i = false)
    (h : commandBody i s = .ok d t) :
    t.spState = s.spState ∨ isBus i = true ∧ t.spState = s.spState.abandon := by
  have held : ∀ {Q : List BusEvent → Prop}, isBus i = true → Held Q s t →
      t.spState = s.spState ∨ isBus i = true ∧ t.spState = s.spState.abandon :=
    fun hb ⟨_, _, _, _, _, hs⟩ => hs.imp id fun given => ⟨hb, given⟩
  by_cases hb : isBus i = false
  · obtain ⟨-, same, -⟩ := ((commandBody_framed i s).of_ok h).internal hb
    exact .inl same
  cases i with
  | read c p => exact held rfl ((bodyRead_starts s c p).of_ok h)
  | readPage c p => exact held rfl ((bodyReadPage_starts s c p).of_ok h)
  | readPageExtra c p => exact held rfl ((bodyReadPageExtra_starts s c p).of_ok h)
  | readPageCrc c p => exact held rfl ((bodyReadPageCrc_starts s c p).of_ok h)
  | readPageCrcExtra c p => exact held rfl ((bodyReadPageCrcExtra_starts s c p).of_ok h)
  | readPagePacket c p => exact held rfl ((bodyReadPagePacket_starts s c p).of_ok h)
  | lockPage => exact held rfl ((bodyLockPage_starts s).of_ok h)
  | redirectPage => exact held rfl ((bodyRedirectPage_starts s).of_ok h)
  | lockRedirectPage => exact held rfl ((bodyLockRedirectPage_starts s).of_ok h)
  | isPageLocked => exact held rfl ((otpQuery_starts s _ _ _).of_ok h)
  | getRedirectedPage => exact held rfl ((otpQuery_starts s _ _ _).of_ok h)
  | isRedirectPageLocked => exact held rfl ((otpQuery_starts s _ _ _).of_ok h)
  | spWrite | spReadVerify | spVerifyPassword p | spCopy => cases hi
  | write p | writePagePacket p => cases hw
  | _ => exact absurd rfl hb

/-- A write that finishes leaves no transaction open (41_bank.md R126). -/
theorem commandBody_ok_closed_of_write {d : Done} (hw : writesBank i = true)
    (h : commandBody i s = .ok d t) : t.closed := by
  cases i with
  | write p =>
    obtain ⟨slot, -, h⟩ := withSlot_ok h
    obtain ⟨xs, -, -, h⟩ := withInput_ok h
    obtain ⟨_, u, run, h⟩ := Run.bind_eq_ok.1 h
    cases h
    exact writeBytes_closed run
  | writePagePacket p =>
    obtain ⟨slot, -, h⟩ := withSlot_ok h
    obtain ⟨xs, -, -, h⟩ := withInput_ok h
    dsimp only at h
    split at h
    · cases h
    split at h
    · cases h
    obtain ⟨_, u, run, h⟩ := Run.bind_eq_ok.1 h
    cases h
    exact writeBytes_closed run
  | _ => cases hw

/-! ### The transition table -/

/-- A bus command may give the transaction up. -/
theorem SpTransition.abandon {d : Descriptor} (hb : isBus i = true) (p : SpState) :
    SpTransition d i p p.abandon := by
  cases ho : p.isOpen with
  | true =>
    rw [SpState.abandon_of_open ho]
    exact .abort p hb ho
  | false =>
    rw [SpState.abandon_of_closed ho]
    exact .stays p

theorem isBus_of_writesBank (hw : writesBank i = true) : isBus i = true := by
  cases i with
  | write p | writePagePacket p => rfl
  | _ => cases hw

/-- A write that leaves no transaction open, and does not come back to IDLE, has moved along the
table: a bank without a scratchpad stays IDLE. -/
theorem SpTransition.of_write {p q : SpState} {d : Descriptor} (hw : writesBank i = true)
    (closed : q.isOpen = false) (idle : q = .idle → p = .idle)
    (absent : d.spPresent = false → q = .idle) : SpTransition d i p q := by
  cases present : d.spPresent with
  | false =>
    have hq := absent present
    rw [hq, idle hq]
    exact .stays _
  | true =>
    cases q with
    | idle =>
      rw [idle rfl]
      exact .stays _
    | committed => exact .written p hw present
    | aborted => exact .writeAborted p hw present
    | written | verified | authed => cases closed

/-- A command that finishes and is no write moves along the table (44_scratchpad.md R180). -/
theorem commandBody_ok_transition {d : Done} (hw : writesBank i = false)
    (h : commandBody i s = .ok d t) : SpTransition s.desc i s.spState t.spState := by
  by_cases hi : isSpStep i = false
  · rcases commandBody_ok_abandon hw hi h with same | ⟨hb, given⟩
    · rw [same]
      exact .stays _
    · rw [given]
      exact .abandon hb _
  cases i with
  | spWrite =>
    rw [bodySpWrite_ok h]
    exact .stage _ rfl
  | spReadVerify =>
    obtain ⟨written, verified, -⟩ := bodySpReadVerify_ok h
    rw [written, verified]
    exact .verify rfl
  | spVerifyPassword p =>
    obtain ⟨u, -, same, rfl | ⟨rfl, verified, gated⟩⟩ := (bodySpVerifyPassword_starts s p).of_ok h
    · rw [same]
      exact .stays _
    · rw [verified]
      exact .authenticate p rfl gated
  | spCopy =>
    obtain ⟨found, committed⟩ := bodySpCopy_ok h
    rw [found, committed]
    split_ifs with gated
    · exact .commitGated rfl gated
    · exact .commit rfl (by simpa using gated)
  | _ => exact absurd rfl hi

/-- Every command moves SP_STATE along the table (44_scratchpad.md R180). -/
theorem runCommand_transition (h : s.Inv) (i : Instr) :
    SpTransition s.desc i s.spState (s.runCommand (commandClass i) (commandBody i)).spState := by
  have after := (h.runCommand i).spOk
  rcases runCommand_cases i s with ⟨d, t, hb, hr, f⟩ | ⟨e, t, hb, hr, f⟩ | ⟨c, -, hr⟩
  case inl =>
    rw [hr] at after ⊢
    cases hw : writesBank i with
    | true =>
      have idle := commandBody_idleFrom hw (s.start none)
      rw [hb] at idle
      exact .of_write hw (commandBody_ok_closed_of_write (t := t) hw hb) idle
        fun absent => after.idle (f.desc ▸ absent)
    | false => exact commandBody_ok_transition (s := s.start none) (t := t) hw hb
  case inr.inl =>
    rw [hr] at after ⊢
    rw [State.raise_spState] at *
    cases hi : isBus i with
    | false =>
      have internal : commandClass i = .internal := by simpa [hi] using isBus_eq i
      rw [if_pos internal, (f.internal hi).2.1]
      exact .stays _
    | true =>
      rw [if_neg ((isBus_eq i).1 hi)]
      cases hw : writesBank i with
      | true =>
        have idle := commandBody_idleFrom hw (s.start none)
        rw [hb] at idle
        refine .of_write hw (SpState.abandon_isOpen _)
          (fun given => idle (abandonSp_idleFrom t given)) fun absent => ?_
        have := after.idle (by simpa [f.desc] using absent)
        simpa [(isBus_eq i).1 hi] using this
      | false =>
        rw [commandBody_raised_abandon hw hb]
        exact .abandon hi _
  case inr.inr =>
    rw [hr]
    exact .stays _

/-- A command that made a bus event and is no scratchpad step leaves no transaction open
(44_scratchpad.md R180, R181). -/
theorem runCommand_closed (hi : isSpStep i = false)
    (event : (s.runCommand (commandClass i) (commandBody i)).bus.trace ≠ s.bus.trace) :
    (s.runCommand (commandClass i) (commandBody i)).closed := by
  rcases runCommand_cases i s with ⟨d, t, hb, hr, f⟩ | ⟨e, t, hb, hr, f⟩ | ⟨c, -, hr⟩
  case inl =>
    rw [hr] at event ⊢
    have isbus : isBus i = true := by
      by_contra internal
      have same := congrArg Bus.trace (f.internal (by simpa using internal)).1
      exact event same
    refine (commandBody_closed isbus hi hb).resolve_right fun same => ?_
    have same := congrArg Bus.trace same
    exact event same
  case inr.inl =>
    rw [hr] at event ⊢
    have isbus : isBus i = true := by
      by_contra internal
      have same := congrArg Bus.trace (f.internal (by simpa using internal)).1
      exact event (by simpa using same)
    rw [State.closed, State.raise_spState, if_neg ((isBus_eq i).1 isbus)]
    exact SpState.abandon_isOpen _
  case inr.inr =>
    rw [hr] at event
    exact absurd rfl event

/-- Settles O58. -/
theorem scratchpadTransitions : Obligations.ScratchpadTransitions := by
  intro i s t h ht
  rw [exec_next.1 ht]
  refine ⟨runCommand_transition h i, fun es added some hi hp => ?_⟩
  have step : isSpStep i = false := by
    cases i with
    | spWrite | spReadVerify | spCopy => simp at hi
    | spVerifyPassword p => exact absurd rfl (hp p)
    | _ => rfl
  exact runCommand_closed step fun same => some (by rw [added] at same; simpa using same)

/-! ### VERIFIED -/

theorem SpState.abandon_ne_verified (p : SpState) : p.abandon ≠ .verified := by
  cases p <;> simp [SpState.abandon, SpState.isOpen]

/-- A command that finishes in VERIFIED found it, or is SP_READ_VERIFY behind a good read-back
(44_scratchpad.md R184). -/
theorem commandBody_ok_verified {d : Done} (hl : s.bus.limit = none)
    (h : commandBody i s = .ok d t) (ht : t.spState = .verified) :
    s.spState = .verified ∨
      (i = .spReadVerify ∧ s.spState = .written ∧ s.backCrcOk ∧ s.backEchoOk ∧ s.backDataOk) := by
  cases hw : writesBank i with
  | true =>
    have closed := commandBody_ok_closed_of_write hw h
    rw [State.closed, ht] at closed
    cases closed
  | false =>
    by_cases hi : isSpStep i = false
    · rcases commandBody_ok_abandon hw hi h with same | ⟨-, given⟩
      · exact .inl (same.symm.trans ht)
      · exact absurd (given.symm.trans ht) (SpState.abandon_ne_verified _)
    cases i with
    | spWrite => cases (bodySpWrite_ok h).symm.trans ht
    | spReadVerify =>
      obtain ⟨written, -, u, run⟩ := bodySpReadVerify_ok h
      exact .inr ⟨rfl, written, spVerifyProc_ok_back (s := { s with contOk := false }) hl run⟩
    | spVerifyPassword p =>
      obtain ⟨u, -, same, rfl | ⟨rfl, -, -⟩⟩ := (bodySpVerifyPassword_starts s p).of_ok h
      · exact .inl (same.symm.trans ht)
      · cases ht
    | spCopy => cases (bodySpCopy_ok h).2.symm.trans ht
    | _ => exact absurd rfl hi

/-- Settles O60: a raise of a bus command gives the transaction up, an internal command and a fault
leave SP_STATE, so VERIFIED is found or comes with a finish. -/
theorem verifiedIsEarned : Obligations.VerifiedIsEarned := by
  intro i s t h ht
  rw [exec_next.1 h] at ht
  rcases runCommand_cases i s with ⟨d, u, hb, hr, f⟩ | ⟨e, u, hb, hr, f⟩ | ⟨c, -, hr⟩
  case inl =>
    rw [hr] at ht
    simpa only [State.start_spState, State.start_backCrcOk, State.start_backEchoOk,
      State.start_backDataOk] using commandBody_ok_verified (s := s.start none) rfl hb ht
  case inr.inl =>
    rw [hr, State.raise_spState] at ht
    split_ifs at ht with internal
    · have hi : isBus i = false := by
        by_contra hi
        exact (isBus_eq i).1 (by simpa using hi) internal
      exact .inl ((f.internal hi).2.1.symm.trans ht)
    · exact absurd ht (SpState.abandon_ne_verified _)
  case inr.inr =>
    rw [hr] at ht
    exact .inl ht

end Sys2Proof.Machine
end

section
/-! NO COMMIT WITHOUT VERIFY. Which pulses a command makes that can carry a commit sequence
(spec/44_scratchpad.md R192): none outside SP_COPY, the OTP mutations and the writes through the
scratchpad, and in those each is the copy of a row that was read back well just before. -/

namespace Sys2Proof.Machine

variable {α β : Type} {i : Instr} {s t u : State} {d : Descriptor} {pw : List Byte}
  {es fs : List BusEvent}

/-! ### Lists of events -/

/-- None of the events can carry a commit sequence. -/
def Calm (es : List BusEvent) : Prop := ∀ e ∈ es, e.isLongPulse = false

theorem Calm.append (h : Calm es) (k : Calm fs) : Calm (es ++ fs) := fun e he =>
  (List.mem_append.1 he).elim (h e) (k e)

theorem calm_prologue (d : Descriptor) (v : Bool) : Calm (prologueEvents d v) := by
  intro e he
  cases v <;> simp [prologueEvents] at he
  · rcases he with rfl | rfl <;> rfl
  · subst he
    rfl

theorem calm_failedPrologue (d : Descriptor) (v first : Bool) :
    Calm (failedPrologue d v first) := by
  intro e he
  cases v <;> cases first <;> simp [failedPrologue] at he
  · subst he
    rfl
  · rcases he with rfl | rfl <;> rfl
  · subst he
    rfl
  · subst he
    rfl

theorem calm_challenge (d : Descriptor) (pw : List Byte) (ta : Nat) (a : Byte) :
    Calm (challengeEvents d pw ta a) := by
  intro e he
  simp only [challengeEvents, List.mem_cons, List.not_mem_nil, or_false] at he
  rcases he with rfl | rfl | rfl | rfl <;> rfl

theorem calm_open (d : Descriptor) (v cont : Bool) (pw : List Byte) (ta : Nat) (a : Byte) :
    Calm (openEvents d v cont pw ta a) := by
  unfold openEvents
  split
  · simp [Calm]
  · refine (calm_prologue d v).append ?_
    split
    · exact calm_challenge d pw ta a
    · simp [Calm]

theorem calm_stage (d : Descriptor) (v : Bool) (ta : Nat) (xs : List Byte) :
    Calm (stageEvents d v ta xs) :=
  (calm_prologue d v).append (by simp [Calm, BusEvent.isLongPulse])

theorem calm_verify (d : Descriptor) (v : Bool) (hdr ys crc : List Byte) :
    Calm (verifyEvents d v hdr ys crc) := by
  unfold verifyEvents
  refine ((((calm_prologue d v).append ?send).append ?echo).append ?data).append ?crc
  case send => simp [Calm, BusEvent.isLongPulse]
  case data => simp [Calm, BusEvent.isLongPulse, received]
  case echo => split <;> simp [Calm, BusEvent.isLongPulse, received]
  case crc => split <;> simp [Calm, BusEvent.isLongPulse, received]

theorem calm_rowChallenge (d : Descriptor) (pw : List Byte) (ta : Nat) :
    Calm (rowChallengeEvents d pw ta) := by
  unfold rowChallengeEvents
  split
  · exact (calm_prologue d true).append (calm_challenge d pw ta _)
  · simp [Calm]

theorem State.OpenFails.calm {v : Bool} {q k ta : Nat} {e : Err}
    (h : s.OpenFails pw v q k ta e es) : Calm es := by
  cases h with
  | unselected no => exact calm_failedPrologue _ _ _
  | unpowered gated yes no =>
    exact (calm_prologue _ _).append (by simp [Calm, BusEvent.isLongPulse])
  | rejected gated yes wrong => exact calm_open _ _ _ _ _ _

/-! ### Earned pulses -/

/-- Every pulse of the events that can carry a commit sequence is earned by the events before it. -/
def AllEarned (d : Descriptor) (pw : List Byte) (es : List BusEvent) : Prop :=
  ∀ before pulse after, es = before ++ [pulse] ++ after → pulse.isLongPulse = true →
    CopyEarned d pw before pulse

theorem CopyEarned.prepend {pulse : BusEvent} (h : CopyEarned d pw es pulse) :
    CopyEarned d pw (fs ++ es) pulse := by
  obtain ⟨earlier, v, ta, ys, hdr, crc, good, rfl, sent⟩ := h
  exact ⟨fs ++ earlier, v, ta, ys, hdr, crc, good, by simp only [List.append_assoc], sent⟩

theorem Calm.allEarned (h : Calm es) : AllEarned d pw es := by
  rintro before pulse after rfl long
  cases (h pulse (by simp)).symm.trans long

theorem AllEarned.append (h : AllEarned d pw es) (k : AllEarned d pw fs) :
    AllEarned d pw (es ++ fs) := by
  intro before pulse after split long
  rw [List.append_assoc] at split
  rcases List.append_eq_append_iff.1 split with ⟨mid, rfl, hf⟩ | ⟨mid, he, hm⟩
  · exact (k mid pulse after (by simpa using hf) long).prepend
  · cases mid with
    | nil =>
      have := k [] pulse after (by simpa using hm.symm) long
      simpa [he] using this.prepend (fs := before)
    | cons first mid =>
      obtain ⟨rfl, rfl⟩ : pulse = first ∧ after = mid ++ fs := by simpa using hm
      exact h before pulse mid (by simpa using he) long

/-- Earned events stay so behind an earned pulse. -/
theorem AllEarned.pulse (h : AllEarned d pw es) {pulse : BusEvent}
    (earned : CopyEarned d pw es pulse) : AllEarned d pw (es ++ [pulse]) := by
  intro before last after split long
  rw [List.append_assoc] at split
  rcases List.append_eq_append_iff.1 split with ⟨mid, rfl, hf⟩ | ⟨mid, he, hm⟩
  · cases mid with
    | nil =>
      obtain ⟨rfl, -⟩ : pulse = last ∧ after = [] := by simpa using hf
      simpa using earned
    | cons first mid => simp at hf
  · cases mid with
    | nil =>
      obtain ⟨rfl, -⟩ : last = pulse ∧ after = [] := by simpa using hm
      simpa [he] using earned
    | cons first mid =>
      obtain ⟨rfl, -⟩ : last = first ∧ after = mid ++ [pulse] := by simpa using hm
      exact h before last mid (by simpa using he) long

/-! ### The pulse of a row -/

/-- A good read-back, in the words of `CopyEarned`. -/
theorem State.readsBack.good {k ta : Nat} {ys : List Byte}
    (h : s.readsBack k (BitVec.ofNat 16 ta) ys) :
    GoodReadBack s.desc ta ys (s.bus.byteAnswers k (hdrLen s.desc))
      (s.bus.byteAnswers (k + hdrLen s.desc + ys.length) (crcLen s.desc)) := by
  obtain ⟨crc, echo, data⟩ := h
  refine ⟨by simp, by simp, fun has => ?_, fun has => ?_, fun has => ?_⟩
  · simpa [data] using crc has
  · obtain ⟨low, high, -⟩ := echo has
    rw [← targetBytes_row]
    change _ = [loByte _, hiByte _]
    rw [loByte_eq, hiByte_eq]
    simp [hdrLen, has, Bus.byteAnswers, low, high]
  · obtain ⟨-, -, count⟩ := echo has
    simpa [hdrLen, has, Bus.byteAnswers] using count

/-- The events of a row with its copy, behind a good read-back, are earned. -/
theorem allEarned_row {k ta : Nat} {ys : List Byte} (v : Bool) (r : Byte)
    (h : s.readsBack k (BitVec.ofNat 16 ta) ys) :
    AllEarned s.desc pw (s.rowReadEvents v k ta ys ++ rowChallengeEvents s.desc pw ta ++
      copyEvents s.desc true ta (s.bus.byteAnswer (k + 2)) r) := by
  have calm : Calm (s.rowReadEvents v k ta ys ++ rowChallengeEvents s.desc pw ta ++
      [.canDeliverPower true] ++ prologueEvents s.desc true) :=
    ((((calm_stage _ _ _ _).append (calm_verify _ _ _ _ _)).append
      (calm_rowChallenge _ _ _)).append (by simp [Calm, BusEvent.isLongPulse])).append
      (calm_prologue _ _)
  have echo : copySequence s.desc ta ((s.bus.byteAnswers k (hdrLen s.desc)).getD 2 0) =
      copySequence s.desc ta (s.bus.byteAnswer (k + 2)) := by
    by_cases addressed : s.desc.spAddr = true <;>
      simp [copySequence, addressed, hdrLen, Bus.byteAnswers]
  have earned : CopyEarned s.desc pw (s.rowReadEvents v k ta ys ++
      rowChallengeEvents s.desc pw ta ++ [.canDeliverPower true] ++ prologueEvents s.desc true)
      (.sendPulse (copySequence s.desc ta (s.bus.byteAnswer (k + 2))) s.desc.copyDwell) :=
    ⟨[], v, ta, ys, _, _, h.good, by simp [State.rowReadEvents], by rw [echo]⟩
  have reply : Calm [received [r]] := by simp [Calm, BusEvent.isLongPulse, received]
  simpa [copyEvents] using (calm.allEarned.pulse earned).append (reply.allEarned (pw := pw))

/-- However a row stops, its pulses are earned. -/
theorem State.RowFails.allEarned {v : Bool} {q k ta : Nat} {ys : List Byte} {stage : RowStage}
    {e : Err} (h : s.RowFails pw v q k ta ys stage e es) : AllEarned s.desc pw es := by
  have read : Calm (s.rowReadEvents v k ta ys) :=
    (calm_stage _ _ _ _).append (calm_verify _ _ _ _ _)
  cases h with
  | unstaged no => exact (calm_failedPrologue _ _ _).allEarned
  | unread yes no =>
    exact ((calm_stage _ _ _ _).append (by simp [Calm, BusEvent.isLongPulse])).allEarned
  | unverified yes bad => exact ((calm_stage _ _ _ _).append (calm_verify _ _ _ _ _)).allEarned
  | unauthenticated gated yes good no => exact (read.append no.calm).allEarned
  | unpowered yes good accepted no =>
    exact ((read.append (calm_rowChallenge _ _ _)).append
      (by simp [Calm, BusEvent.isLongPulse])).allEarned
  | uncopied yes good accepted no =>
    exact ((read.append (calm_rowChallenge _ _ _)).append
      (by simp [Calm, BusEvent.isLongPulse])).allEarned
  | refused yes good accepted no => exact allEarned_row v _ good

/-! ### How a row can go -/

theorem yesFrom_succ {b : Bus} {q n : Nat} (h : b.yesFrom q n)
    (last : b.boolAnswer (q + n) = true) :
    b.yesFrom q (n + 1) := fun k hk => by
  rcases Nat.lt_succ_iff_lt_or_eq.1 hk with lt | rfl
  · exact h k lt
  · exact last

/-- Everything the row asks is answered well: every question yes, the read-back good, the challenge
accepted, the copy confirmed (41_bank.md R126). -/
structure State.RowPasses (s : State) (v : Bool) (q k ta : Nat) (ys : List Byte) : Prop where
  yes : s.bus.yesFrom q (asksOf v + 3 + 2 * s.desc.pwGated.toNat)
  good : s.readsBack k (BitVec.ofNat 16 ta) ys
  accepted : s.desc.pwGated = true →
    s.bus.byteAnswer (k + hdrLen s.desc + ys.length + crcLen s.desc) = s.desc.pwAccept
  confirmed : s.bus.byteAnswer
    (k + hdrLen s.desc + ys.length + crcLen s.desc + s.desc.pwGated.toNat) ≠ 0xFF

/-- How the opening of a read that finds the speed confirmed fails, or that it is answered well. -/
theorem State.opens_or_fails (s : State) (pw : List Byte) (q k ta : Nat)
    (gated : s.desc.pwGated = true) :
    (s.bus.yesFrom q 2 ∧ s.bus.byteAnswer k = s.desc.pwAccept) ∨
      ∃ e es, s.OpenFails pw true q k ta e es := by
  by_cases selected : s.bus.yesFrom q (asksOf true)
  case neg => exact .inr ⟨_, _, .unselected selected⟩
  by_cases powered : s.bus.boolAnswer (q + asksOf true) = true
  case neg => exact .inr ⟨_, _, .unpowered gated selected (by simpa using powered)⟩
  have yes := yesFrom_succ selected powered
  by_cases accepted : s.bus.byteAnswer k = s.desc.pwAccept
  case neg => exact .inr ⟨_, _, .rejected gated yes accepted⟩
  exact .inl ⟨yes, accepted⟩

/-- A row passes, or is one of the ways in which it stops (41_bank.md R126). -/
theorem State.row_passes_or_fails (s : State) (pw : List Byte) (v : Bool) (q k ta : Nat)
    (ys : List Byte) :
    s.RowPasses v q k ta ys ∨ ∃ stage e es, s.RowFails pw v q k ta ys stage e es := by
  by_cases staged : s.bus.yesFrom q (asksOf v)
  case neg => exact .inr ⟨_, _, _, .unstaged staged⟩
  by_cases selected : s.bus.boolAnswer (q + asksOf v) = true
  case neg => exact .inr ⟨_, _, _, .unread staged (by simpa using selected)⟩
  have read := yesFrom_succ staged selected
  by_cases good : s.readsBack k (BitVec.ofNat 16 ta) ys
  case neg => exact .inr ⟨_, _, _, .unverified read good⟩
  by_cases challenged : s.bus.yesFrom q (asksOf v + 1 + 2 * s.desc.pwGated.toNat) ∧
      (s.desc.pwGated = true →
        s.bus.byteAnswer (k + hdrLen s.desc + ys.length + crcLen s.desc) = s.desc.pwAccept)
  case neg =>
    cases gated : s.desc.pwGated with
    | false => exact absurd ⟨by simpa [gated] using read, by simp [gated]⟩ challenged
    | true =>
      rcases s.opens_or_fails pw (q + (asksOf v + 1))
        (k + hdrLen s.desc + ys.length + crcLen s.desc) ta gated with ⟨two, accepted⟩ | ⟨e, es, no⟩
      · refine absurd ⟨fun j hj => ?_, fun _ => accepted⟩ challenged
        rw [gated] at hj
        by_cases before : j < asksOf v + 1
        · exact read j before
        · have := two (j - (asksOf v + 1)) (by simp at hj; omega)
          rwa [show q + (asksOf v + 1) + (j - (asksOf v + 1)) = q + j by omega] at this
      · exact .inr ⟨_, _, _, .unauthenticated gated read good no⟩
  obtain ⟨authed, accepted⟩ := challenged
  by_cases powered : s.bus.boolAnswer (q + (asksOf v + 1 + 2 * s.desc.pwGated.toNat)) = true
  case neg => exact .inr ⟨_, _, _, .unpowered authed good accepted (by simpa using powered)⟩
  have copy : s.bus.yesFrom q (asksOf v + 2 + 2 * s.desc.pwGated.toNat) := by
    rw [show asksOf v + 2 + 2 * s.desc.pwGated.toNat =
      asksOf v + 1 + 2 * s.desc.pwGated.toNat + 1 by omega]
    exact yesFrom_succ authed powered
  by_cases copied : s.bus.boolAnswer (q + (asksOf v + 2 + 2 * s.desc.pwGated.toNat)) = true
  case neg => exact .inr ⟨_, _, _, .uncopied copy good accepted (by simpa using copied)⟩
  have reply : s.bus.yesFrom q (asksOf v + 3 + 2 * s.desc.pwGated.toNat) := by
    rw [show asksOf v + 3 + 2 * s.desc.pwGated.toNat =
      asksOf v + 2 + 2 * s.desc.pwGated.toNat + 1 by omega]
    exact yesFrom_succ copy copied
  by_cases refused : s.bus.byteAnswer
      (k + hdrLen s.desc + ys.length + crcLen s.desc + s.desc.pwGated.toNat) = 0xFF
  · exact .inr ⟨_, _, _, .refused reply good accepted refused⟩
  · exact .inl ⟨reply, good, accepted, refused⟩

/-! ### Pieces of a command by their pulses -/

/-- `t` is `s` after events none of which can carry a commit sequence. -/
def CalmFrom (s t : State) : Prop := ∃ es, AddedEvents s t es ∧ Calm es

theorem AddedEvents.trans (h : AddedEvents s t es) (k : AddedEvents t u fs) :
    AddedEvents s u (es ++ fs) := by
  rw [AddedEvents, k, h, List.append_assoc]

theorem AddedEvents.of_bus (h : t.bus = s.bus) : AddedEvents s t [] := by
  rw [AddedEvents, h, List.append_nil]

theorem AddedEvents.unique (h : AddedEvents s t es) (k : AddedEvents s t fs) : es = fs :=
  List.append_cancel_left (h.symm.trans k)

theorem CalmFrom.of_bus (h : t.bus = s.bus) : CalmFrom s t := ⟨[], .of_bus h, by simp [Calm]⟩

theorem CalmFrom.trans (h : CalmFrom s t) (k : CalmFrom t u) : CalmFrom s u := by
  obtain ⟨es, he, calm⟩ := h
  obtain ⟨fs, hf, calm'⟩ := k
  exact ⟨es ++ fs, he.trans hf, calm.append calm'⟩

theorem Held.calm {n m : Nat} (h : Held (Quiet n m) s t) : CalmFrom s t := by
  obtain ⟨es, quiet, grows, -⟩ := h
  exact ⟨es, grows.trace, quiet.pulses⟩

theorem Run.Ends.calm {n m : Nat} {r : Run α} (h : r.Ends (Went n m s)) : r.All (CalmFrom s) :=
  h.all.mono fun _ ⟨es, moved, quiet⟩ => ⟨es, moved.bus.trace, quiet.pulses⟩

theorem Run.Starts.all {P : State → Prop} {r : Run α} (h : r.Starts P) : r.All P := by
  rcases h with ⟨f, rfl⟩ | h
  · trivial
  · exact h.all

theorem Run.all_of_forall {P : State → Prop} (h : ∀ t, P t) (r : Run α) : r.All P := by
  cases r with
  | ok a t => exact h t
  | raised e t => exact h t
  | faulted f => trivial
  | cut t => exact h t

theorem Run.All.calm {r : Run α} {k : α → State → Run β} (h : r.All (CalmFrom s))
    (hk : ∀ a t, (k a t).All (CalmFrom t)) : (r.bind k).All (CalmFrom s) :=
  Run.all_bind h (fun _ => id) fun a t ht => (hk a t).mono fun _ => ht.trans

theorem spWriteProc_calm (ta : Nat) (xs : List Byte) (s : State) :
    (spWriteProc ta xs s).All (CalmFrom s) :=
  (prologue_ends s false).calm.calm fun _ t => (busSend_ends t _).calm.calm fun _ t =>
    CalmFrom.of_bus (s := t) rfl

theorem spVerifyProc_calm (s : State) : (spVerifyProc s).All (CalmFrom s) := by
  refine (prologue_ends s false).calm.calm fun _ t => (busSend_ends t _).calm.calm fun _ t =>
    (recvIf_ends t _ _).calm.calm fun _ t => (busRecv_ends t _).calm.calm fun _ t =>
    (recvIf_ends t _ _).calm.calm fun _ t => ?_
  split
  · exact .of_bus rfl
  split
  · exact .of_bus rfl
  split
  · exact .of_bus rfl
  · exact CalmFrom.of_bus (s := t) rfl

/-! ### The write path by its pulses -/

/-- `t` is `s` after events whose long pulses are earned. -/
def EarnedFrom (pw : List Byte) (s t : State) : Prop :=
  ∃ es, AddedEvents s t es ∧ AllEarned s.desc pw es

theorem CalmFrom.earned (h : CalmFrom s t) : EarnedFrom pw s t := by
  obtain ⟨es, added, calm⟩ := h
  exact ⟨es, added, calm.allEarned⟩

theorem EarnedFrom.trans (hd : t.desc = s.desc) (h : EarnedFrom pw s t)
    (k : EarnedFrom pw t u) : EarnedFrom pw s u := by
  obtain ⟨es, he, earned⟩ := h
  obtain ⟨fs, hf, earned'⟩ := k
  rw [hd] at earned'
  exact ⟨es ++ fs, he.trans hf, earned.append earned'⟩

theorem State.StoppedIn.added {ta : Nat} {ys : List Byte} {e : Err} {stage : RowStage}
    (h : s.StoppedIn ta ys e es stage u) : AddedEvents s u es := by
  cases h with
  | untouched v nb ny h => rfl
  | staged v nb ny h => rfl
  | verified v nb ny p hp h => rfl

/-- The rows of a write make earned pulses only (44_scratchpad.md R192). -/
theorem writeChunks_earned (slot : PwSlot) (rounds : Nat) : ∀ (p : Nat) (xs : List Byte)
    (s : State), s.bus.limit = none → SpSized s.desc →
    (writeChunks slot rounds p xs s).All (EarnedFrom (s.pw.get slot).bytes s) := by
  induction rounds with
  | zero => exact fun _ _ s _ _ => (CalmFrom.of_bus (s := s) rfl).earned
  | succ rounds ih =>
    intro p xs s hl sized
    rw [writeChunks]
    split
    · exact (CalmFrom.of_bus rfl).earned
    rename_i some
    have short : (xs.take (chunkLen s.desc p xs.length)).length ≤ 256 :=
      (List.length_take_le _ _).trans ((chunkLen_pos sized p
        (List.length_pos_iff.2 (by simpa using some))).2.2.trans sized.2)
    change (rowSteps slot p (xs.take (chunkLen s.desc p xs.length)) (writeChunks slot rounds
      (p + chunkLen s.desc p xs.length) (xs.drop (chunkLen s.desc p xs.length))) s).All _
    rcases s.row_passes_or_fails (s.pw.get slot).bytes s.speedOk s.bus.nBool s.bus.nByte p
      (xs.take (chunkLen s.desc p xs.length)) with row | ⟨stage, e, es, fails⟩
    · rw [rowSteps_good hl short row.yes row.good row.accepted row.confirmed]
      have after : EarnedFrom (s.pw.get slot).bytes s (s.afterRow slot
          (p, xs.take (chunkLen s.desc p xs.length))) :=
        ⟨_, rfl, allEarned_row _ _ row.good⟩
      exact (ih _ _ (s.afterRow slot (p, xs.take (chunkLen s.desc p xs.length))) hl sized).mono
        fun _ => after.trans rfl
    · obtain ⟨-, u, stops, stopped⟩ := rowSteps_stops hl short fails (k := writeChunks slot rounds
        (p + chunkLen s.desc p xs.length) (xs.drop (chunkLen s.desc p xs.length)))
      rw [stops]
      exact ⟨es, stopped.added, fails.allEarned⟩

theorem Run.All.and {P Q : State → Prop} {r : Run α} (h : r.All P) (k : r.All Q) :
    r.All fun t => P t ∧ Q t := by
  cases r with
  | ok a t => exact ⟨h, k⟩
  | raised e t => exact ⟨h, k⟩
  | faulted f => trivial
  | cut t => exact ⟨h, k⟩

theorem Went.pw_eq {n m : Nat} (h : Went n m s t) : t.pw = s.pw := by
  obtain ⟨es, moved, -⟩ := h
  rw [moved.rest]

theorem Went.calm {n m : Nat} (h : Went n m s t) : CalmFrom s t := by
  obtain ⟨es, moved, quiet⟩ := h
  exact ⟨es, moved.bus.trace, quiet.pulses⟩

theorem transferBytes_earned (p : Nat) (xs : List Byte) (slot : PwSlot)
    (hl : s.bus.limit = none) (bank : SpBank s.desc) :
    (transferBytes p xs slot s).All (EarnedFrom (s.pw.get slot).bytes s) := by
  unfold transferBytes
  split_ifs with present
  · exact writeChunks_earned slot _ p xs s hl (bank present)
  · exact (directWrite_ends s p xs).calm.mono fun _ => CalmFrom.earned
  · exact (CalmFrom.of_bus rfl).earned

/-- `WriteBytes` behind its two checks: the transfer's pulses are earned, and the read-back makes
none (41_bank.md R126). -/
theorem writeBytes_earned (a : Nat) (xs : List Byte) (slot : PwSlot) (hl : s.bus.limit = none)
    (bank : SpBank s.desc) :
    (writeBytes a xs slot s).All (EarnedFrom (s.pw.get slot).bytes s) := by
  unfold writeBytes
  split
  · exact (CalmFrom.of_bus rfl).earned
  refine Run.all_bind (writeCheck_ends s).all (fun _ w => w.calm.earned) fun _ t checked => ?_
  refine Run.all_bind ((powerCheck_ends t).all.mono fun _ => checked.trans)
    (fun _ w => w.calm.earned) fun _ t powered => ?_
  have limit : t.abandonSp.bus.limit = none := by
    obtain ⟨es, moved, -⟩ := powered
    exact moved.bus.free hl
  have transfer := transferBytes_earned (s := t.abandonSp) (t.desc.physOff + a) xs slot limit
    (by rw [State.abandonSp_desc, powered.desc]; exact bank)
  rw [State.abandonSp_pw, powered.pw_eq] at transfer
  refine Run.all_bind (transfer.and (transferBytes_spWent t.abandonSp _ xs slot).all)
    (fun _ h => ?_) fun _ u h => ?_
  · exact (powered.calm.trans (.of_bus rfl)).earned.trans powered.desc h.1
  · have sent := (powered.calm.trans (.of_bus rfl)).earned.trans powered.desc h.1
    exact (readBack_ends u _ xs slot).calm.mono fun _ back =>
      sent.trans (h.2.desc.trans powered.desc) back.earned

/-- A write on a bank without a scratchpad makes no pulse that can carry a commit sequence. -/
theorem writeBytes_calm (a : Nat) (xs : List Byte) (slot : PwSlot)
    (absent : s.desc.spPresent = false) : (writeBytes a xs slot s).All (CalmFrom s) := by
  unfold writeBytes
  split
  · exact .of_bus rfl
  refine Run.all_bind (writeCheck_ends s).all (fun _ w => w.calm) fun _ t checked => ?_
  refine Run.all_bind ((powerCheck_ends t).all.mono fun _ => checked.trans) (fun _ w => w.calm)
    fun _ t powered => ?_
  have transfer := (transferBytes_went t.abandonSp (t.desc.physOff + a) xs slot
    (by rw [State.abandonSp_desc, powered.desc]; exact absent)).calm
  exact (transfer.calm fun _ u => (readBack_ends u _ xs slot).calm).mono fun _ h =>
    powered.calm.trans ((CalmFrom.of_bus rfl).trans h)

/-! ### Commands by their pulses -/

/-- The commands that may make a pulse that can carry a commit sequence are SP_COPY, the writes and
the OTP mutations. -/
theorem commandBody_calm (hw : writesBank i = false) (ho : mutatesOtp i = false) (hc : i ≠ .spCopy)
    (s : State) : (commandBody i s).All (CalmFrom s) := by
  by_cases hb : isBus i = false
  · exact (commandBody_framed i s).all.mono fun _ f => .of_bus (f.internal hb).1
  cases i with
  | read c p => exact (bodyRead_starts s c p).all.mono fun _ => Held.calm
  | readPage c p => exact (bodyReadPage_starts s c p).all.mono fun _ => Held.calm
  | readPageExtra c p => exact (bodyReadPageExtra_starts s c p).all.mono fun _ => Held.calm
  | readPageCrc c p => exact (bodyReadPageCrc_starts s c p).all.mono fun _ => Held.calm
  | readPageCrcExtra c p => exact (bodyReadPageCrcExtra_starts s c p).all.mono fun _ => Held.calm
  | readPagePacket c p => exact (bodyReadPagePacket_starts s c p).all.mono fun _ => Held.calm
  | isPageLocked => exact (otpQuery_starts s _ _ _).all.mono fun _ => Held.calm
  | getRedirectedPage => exact (otpQuery_starts s _ _ _).all.mono fun _ => Held.calm
  | isRedirectPageLocked => exact (otpQuery_starts s _ _ _).all.mono fun _ => Held.calm
  | spWrite =>
    refine withInput_all fun xs => ?_
    dsimp only
    split
    · exact .of_bus rfl
    split
    · exact .of_bus rfl
    · exact Run.all_bind ((spWriteProc_calm _ xs _).mono fun _ => (CalmFrom.of_bus rfl).trans)
        (fun _ => id) fun _ _ => id
  | spReadVerify =>
    change (bodySpReadVerify s).All _
    unfold bodySpReadVerify
    dsimp only
    split
    · trivial
    split
    · exact .of_bus rfl
    · exact Run.all_bind ((spVerifyProc_calm _).mono fun _ => (CalmFrom.of_bus rfl).trans)
        (fun _ => id) fun _ _ => id
  | spVerifyPassword p =>
    refine (bodySpVerifyPassword_starts s p).all.mono fun t h => ?_
    obtain ⟨u, held, -, rfl | ⟨rfl, -⟩⟩ := h
    · exact held.calm
    · exact held.calm.trans (.of_bus rfl)
  | spCopy => exact absurd rfl hc
  | write p | writePagePacket p => cases hw
  | lockPage | redirectPage | lockRedirectPage => cases ho
  | _ => exact absurd rfl hb

/-- SP_COPY makes events only in the state that may commit (44_scratchpad.md R191). -/
theorem bodySpCopy_calm (s : State) : (bodySpCopy s).All fun t =>
    CalmFrom s t ∨ s.spState = if s.desc.pwGated then .authed else .verified := by
  by_cases found : s.spState = if s.desc.pwGated then .authed else .verified
  · exact Run.all_of_forall (fun _ => .inr found) _
  unfold bodySpCopy
  dsimp only
  by_cases plain :
      s.desc.spPresent = true ∧ s.desc.pwGated = false ∧ s.spState ≠ .verified
  · rw [if_pos plain]
    trivial
  rw [if_neg plain]
  by_cases gated : s.desc.pwGated = true ∧ s.spState ≠ .authed
  · rw [if_pos gated]
    trivial
  rw [if_neg gated]
  by_cases absent : s.desc.spPresent = false
  · rw [if_pos absent]
    exact .inl (.of_bus rfl)
  refine absurd ?_ found
  split_ifs with hg
  · by_contra other
    exact gated ⟨hg, other⟩
  · by_contra other
    exact plain ⟨by simpa using absent, by simpa using hg, other⟩

theorem commandBody_write_calm (hw : writesBank i = true) (absent : s.desc.spPresent = false) :
    (commandBody i s).All (CalmFrom s) :=
  commandBody_write_all hw fun _ slot _ _ => ⟨.of_bus rfl, fun a xs =>
    (writeBytes_calm (s := { s with contOk := false }) a xs slot absent).mono fun _ =>
      (CalmFrom.of_bus rfl).trans⟩

/-- On a well-formed bank the pulses of a write are earned, with the secret of the slot it names. -/
theorem commandBody_write_earned (hw : writesBank i = true) (hl : s.bus.limit = none)
    (bank : SpBank s.desc) :
    (commandBody i s).All fun t => ∃ pwsel slot,
      (i = .write pwsel ∨ i = .writePagePacket pwsel) ∧ slotOf pwsel = some slot ∧
        EarnedFrom (s.pw.get slot).bytes s t :=
  commandBody_write_all hw fun pwsel slot names named =>
    ⟨⟨pwsel, slot, names, named, (CalmFrom.of_bus rfl).earned⟩, fun a xs =>
      (writeBytes_earned (s := { s with contOk := false }) a xs slot hl bank).mono fun _ run =>
        ⟨pwsel, slot, names, named, run⟩⟩

/-! ### The law -/

/-- The events of a whole command are those of an ending of its rule; a fault makes none. -/
theorem runCommand_events {P : State → Prop} (h : (commandBody i (s.start none)).All P)
    (added : AddedEvents s (s.runCommand (commandClass i) (commandBody i)) es) :
    es = [] ∨ ∃ u, P u ∧ AddedEvents (s.start none) u es := by
  rcases runCommand_cases i s with ⟨d, u, hb, hr, -⟩ | ⟨e, u, hb, hr, -⟩ | ⟨c, -, hr⟩
  case inl =>
    rw [hb] at h
    rw [hr] at added
    exact .inr ⟨u, h, added⟩
  case inr.inl =>
    rw [hb] at h
    rw [hr, AddedEvents, State.raise_bus] at added
    exact .inr ⟨u, h, added⟩
  case inr.inr =>
    rw [hr] at added
    exact .inl (added.unique (.of_bus rfl))

/-- A command whose rule is calm makes no pulse that can carry a commit sequence. -/
theorem runCommand_calm (h : (commandBody i (s.start none)).All (CalmFrom (s.start none)))
    (added : AddedEvents s (s.runCommand (commandClass i) (commandBody i)) es) : Calm es := by
  rcases runCommand_events h added with rfl | ⟨u, ⟨fs, hf, calm⟩, hu⟩
  · simp [Calm]
  · rwa [hu.unique hf]

/-- Settles O59, by which command it is: SP_COPY and the writes are looked into, the OTP mutations
are excepted, and no other command makes such a pulse. -/
theorem noCommitWithoutVerify : Obligations.NoCommitWithoutVerify := by
  rintro i s t es h added ⟨pulse, hp, long⟩
  rw [exec_next.1 h] at added
  have not_calm : ¬ Calm es := fun calm => by cases (calm pulse hp).symm.trans long
  cases ho : mutatesOtp i with
  | true => exact .inr (.inr rfl)
  | false =>
    cases hw : writesBank i with
    | true =>
      refine .inr (.inl ⟨rfl, ?_, fun wf => ?_⟩)
      · by_contra absent
        exact not_calm (runCommand_calm
          (commandBody_write_calm (s := s.start none) hw (by simpa using absent)) added)
      · have earned := commandBody_write_earned (s := s.start none) hw rfl (spBank_of_wf wf)
        rcases runCommand_events earned added with
          rfl | ⟨u, ⟨k, slot, names, named, fs, hf, all⟩, hu⟩
        · cases hp
        · obtain rfl := hu.unique hf
          exact ⟨k, slot, names, named, all⟩
    | false =>
      by_cases hc : i = .spCopy
      · subst hc
        refine .inl ⟨rfl, ?_⟩
        rcases runCommand_events (bodySpCopy_calm (s.start none)) added with
          rfl | ⟨u, ⟨fs, hf, calm⟩ | found, hu⟩
        · cases hp
        · exact absurd (hu.unique hf ▸ calm) not_calm
        · exact found
      · exact absurd (runCommand_calm (commandBody_calm hw ho hc _) added) not_calm

end Sys2Proof.Machine
end

section
/-! FRAMES. What every command leaves unchanged and what its endings do (spec/10_state.md R23, R27,
R30 to R39; spec/20_memory.md R74; spec/40_crc.md R114; spec/60_exceptions.md R203 to R206, R210),
each by the four endings of a command. -/

namespace Sys2Proof.Machine

variable {i : Instr} {s t u : State}

/-! ### Frames of a whole command -/

theorem SameHostSide.trans (h : SameHostSide s t) (k : SameHostSide t u) : SameHostSide s u where
  desc := k.desc.trans h.desc
  argAddr := k.argAddr.trans h.argAddr
  argLen := k.argLen.trans h.argLen
  argOff := k.argOff.trans h.argOff
  argPage := k.argPage.trans h.argPage
  argPage2 := k.argPage2.trans h.argPage2
  argSeed := k.argSeed.trans h.argSeed
  argByte := k.argByte.trans h.argByte
  verify := k.verify.trans h.verify
  host := k.host.trans h.host
  hostOut := k.hostOut.trans h.hostOut
  bools := k.bools.trans h.bools
  bytes := k.bytes.trans h.bytes

theorem Framed.hostSide (f : Framed i s t) : SameHostSide s t := by
  obtain ⟨es, grows⟩ := f.grows
  rw [f.rest]
  exact ⟨rfl, rfl, rfl, rfl, rfl, rfl, rfl, rfl, rfl, rfl, rfl, grows.bools, grows.bytes⟩

theorem State.finish_hostSide (d : Done) (s : State) : SameHostSide s (s.finish d) :=
  ⟨rfl, rfl, rfl, rfl, rfl, rfl, rfl, rfl, rfl, rfl, rfl, rfl, rfl⟩

theorem State.raise_hostSide (c : CommandClass) (e : Err) (s : State) :
    SameHostSide s (s.raise c e) := by
  constructor <;> simp

theorem State.takeFault_hostSide (f : FaultCode) (s : State) : SameHostSide s (s.takeFault f) :=
  ⟨rfl, rfl, rfl, rfl, rfl, rfl, rfl, rfl, rfl, rfl, rfl, rfl, rfl⟩

/-- Settles O22. -/
theorem hostSideAndAccumulatorFrame : Obligations.HostSideAndAccumulatorFrame := by
  intro i s t h
  rw [exec_next.1 h]
  rcases runCommand_cases i s with ⟨d, u, -, hr, f⟩ | ⟨e, u, -, hr, f⟩ | ⟨c, -, hr⟩ <;> rw [hr]
  · exact ⟨{ f.hostSide.trans (u.finish_hostSide d) with }, f.acc8, f.acc16⟩
  · refine ⟨{ f.hostSide.trans (u.raise_hostSide (commandClass i) e) with }, ?_, ?_⟩
    · rw [State.raise_acc8]
      exact f.acc8
    · rw [State.raise_acc16]
      exact f.acc16
  · exact ⟨s.takeFault_hostSide c, fun _ => rfl, fun _ => rfl⟩

/-- Settles O23. -/
theorem stagedAndPasswordFrame : Obligations.StagedAndPasswordFrame := by
  intro i s t h
  rw [exec_next.1 h]
  rcases runCommand_cases i s with ⟨d, u, -, hr, f⟩ | ⟨e, u, -, hr, f⟩ | ⟨c, -, hr⟩ <;> rw [hr]
  · exact ⟨f.staged, f.slots⟩
  · simp only [State.raise_spTA, State.raise_spLen, State.raise_spBuf, State.raise_spES,
      State.raise_pw]
    exact ⟨f.staged, f.slots⟩
  · exact ⟨fun _ _ => ⟨rfl, rfl, rfl, fun _ => rfl⟩, fun _ _ => rfl⟩

/-- A finish writes DBUF inside the command's output window only (10_state.md R30). -/
theorem finish_dbuf_read {d : Done} (hb : commandBody i (s.start none) = .ok d t) {a : Nat}
    (ha : ¬(s.argOff.toNat ≤ a ∧ a < s.argOff.toNat + outputWindow i s)) :
    Memory.read (s.dbuf.writeRange d.off d.data) a = s.dbuf.read a := by
  have same_window : outputWindow i (s.start none) = outputWindow i s := by cases i <;> rfl
  rcases (commandBody_done hb).1 with none | ⟨off, len, -⟩
  · rw [none]
    rfl
  · rw [same_window] at len
    rw [Memory.read_writeRange, if_neg]
    rw [off, State.start_argOff]
    omega

/-- Settles O24: only a finish writes DBUF, inside the output window. -/
theorem dbufFrame : Obligations.DbufFrame := by
  intro i s t hs h
  rw [exec_next.1 h]
  rcases runCommand_cases i s with ⟨d, u, hb, hr, f⟩ | ⟨e, u, -, hr, f⟩ | ⟨c, -, hr⟩ <;> rw [hr]
  · refine ⟨fun a ha => ?_, fun bad => ?_⟩
    · rw [State.finish_dbuf, f.dbuf]
      exact finish_dbuf_read hb ha
    · have fine : u.fault = none := f.fault.trans hs
      simp [fine] at bad
  · have same : (u.raise (commandClass i) e).dbuf = s.dbuf := by
      rw [State.raise_dbuf]
      exact f.dbuf
    exact ⟨fun a _ => by rw [same], fun _ => same⟩
  · exact ⟨fun _ _ => rfl, fun _ => rfl⟩

/-- Settles O25. -/
theorem faultChangesNothingElse : Obligations.FaultChangesNothingElse := by
  intro i s t h
  rw [exec_next.1 h]
  rcases runCommand_cases i s with ⟨d, u, -, hr, f⟩ | ⟨e, u, -, hr, f⟩ | ⟨c, -, hr⟩ <;> rw [hr]
  · exact ⟨rfl, .inl f.fault⟩
  · rw [State.raise_busy, State.raise_fault]
    exact ⟨rfl, .inl f.fault⟩
  · exact ⟨rfl, .inr ⟨c, rfl⟩⟩

/-! ### What a raise leaves -/

/-- The errors that come from bus data clear SPEED_OK in every bus command (60_exceptions.md
R205). -/
theorem clearsSpeed_of_busData {c : CommandClass} {e : Err} (hc : c ≠ .internal)
    (he : e ∈ [.integrity, .verification, .commit, .authentication, .communication]) :
    clearsSpeed c e = true := by
  simp only [List.mem_cons, List.not_mem_nil, or_false] at he
  cases c with
  | internal => exact absurd rfl hc
  | _ => rcases he with rfl | rfl | rfl | rfl | rfl <;> rfl

/-- The errors before bus data leave SPEED_OK (60_exceptions.md R205). -/
theorem clearsSpeed_of_early {c : CommandClass} {e : Err}
    (he : e ∈ [.range, .capability, .powerUnavailable]) : clearsSpeed c e = false := by
  simp only [List.mem_cons, List.not_mem_nil, or_false] at he
  rcases he with rfl | rfl | rfl <;> cases c <;> rfl

/-- The raise of an internal command touches no bus flag (60_exceptions.md R204). -/
theorem raise_internal_flags {e : Err} (hi : isBus i = false)
    (hb : commandBody i (s.start none) = .raised e u) (f : Framed i (s.start none) u) :
    SameBusFlags s (u.raise (commandClass i) e) := by
  have class_internal : commandClass i = .internal := by simpa [hi] using isBus_eq i
  have no_force : i ≠ .forceVerify := by
    rintro rfl
    cases hb
  obtain ⟨-, same, kept⟩ := f.internal hi
  obtain ⟨speed, cont⟩ := kept no_force
  constructor
  · simpa [class_internal, clearsSpeed] using speed
  · simpa [class_internal] using cont
  · simpa [class_internal] using same

/-- What the raise of a bus command leaves of the bus flags (60_exceptions.md R204 to R206). -/
theorem raise_bus_flags {e : Err} (hi : isBus i = true) (f : Framed i (s.start none) u) :
    (u.raise (commandClass i) e).contOk = false ∧
    (u.raise (commandClass i) e).spState.isOpen = false ∧
    ((e ∈ [.integrity, .verification, .commit, .authentication, .communication] ∨
        (e = .format ∧ ∃ c k, i = .readPagePacket c k)) →
      (u.raise (commandClass i) e).speedOk = false) ∧
    ((e ∈ [.range, .capability, .powerUnavailable] ∨
        (e = .format ∧ ∃ k, i = .writePagePacket k)) →
      s.speedOk = true → (u.raise (commandClass i) e).speedOk = true) := by
  have class_bus : commandClass i ≠ .internal := (isBus_eq i).1 hi
  have no_force : i ≠ .forceVerify := by
    rintro rfl
    cases hi
  rw [State.raise_contOk, if_neg class_bus, State.raise_spState, if_neg class_bus,
    State.raise_speedOk]
  refine ⟨rfl, SpState.abandon_isOpen _, fun he => ?_, fun he hs => ?_⟩
  · have clears : clearsSpeed (commandClass i) e = true := by
      rcases he with he | ⟨rfl, c, k, rfl⟩
      · exact clearsSpeed_of_busData class_bus he
      · rfl
    simp [clears]
  · have keeps : clearsSpeed (commandClass i) e = false := by
      rcases he with he | ⟨rfl, k, rfl⟩
      · exact clearsSpeed_of_early he
      · rfl
    simp [keeps, f.speed no_force hs]

/-- Settles O26: of the endings only a raise sets ERR on a machine that stays unfaulted. -/
theorem raiseRules : Obligations.RaiseRules := by
  intro i s t e hs h ht he
  rw [exec_next.1 h] at ht he ⊢
  rcases runCommand_cases i s with ⟨d, u, -, hr, f⟩ | ⟨e', u, hb, hr, f⟩ | ⟨c, -, hr⟩ <;>
    rw [hr] at ht he ⊢
  · cases he
  · obtain rfl : e' = e := by simpa using he
    have dbuf : (u.raise (commandClass i) e').dbuf = s.dbuf := by
      rw [State.raise_dbuf]
      exact f.dbuf
    exact ⟨State.raise_result _ _ _, dbuf, fun hi => raise_internal_flags hi hb f,
      fun hi => raise_bus_flags hi f⟩
  · cases ht

/-! ### The history -/

/-- Settles O28. -/
theorem historyGrows : Obligations.HistoryGrows := by
  intro i s t h
  rw [exec_next.1 h]
  rcases runCommand_cases i s with ⟨d, u, -, hr, f⟩ | ⟨e, u, hb, hr, f⟩ | ⟨c, -, hr⟩ <;> rw [hr]
  · obtain ⟨es, grows⟩ := f.grows
    refine ⟨⟨es, grows.trace⟩, grows.nBool, grows.nByte, fun hi => ?_⟩
    obtain ⟨bus, same, kept⟩ := f.internal hi
    exact ⟨by constructor <;> simp [bus], fun hf => ⟨(kept hf).1, (kept hf).2, same⟩⟩
  · obtain ⟨es, grows⟩ := f.grows
    simp only [AddedEvents, State.raise_bus]
    refine ⟨⟨es, grows.trace⟩, grows.nBool, grows.nByte, fun hi => ?_⟩
    obtain ⟨bus, -, -⟩ := f.internal hi
    exact ⟨by constructor <;> simp [bus], fun _ => raise_internal_flags hi hb f⟩
  · exact ⟨⟨[], .of_bus rfl⟩, le_refl _, le_refl _,
      fun _ => ⟨⟨rfl, rfl, rfl⟩, fun _ => ⟨rfl, rfl, rfl⟩⟩⟩

end Sys2Proof.Machine
end

section
/-! HOST INTERFACE. What the registers read behind a write and which fields they show
(spec/10_state.md R20 to R24, R40), the DBUF port (spec/60_exceptions.md R220), and the accesses
that land while a command runs (R202, R211; spec/70_reset_and_hazards.md R233). -/

namespace Sys2Proof.Machine

variable {i : Instr} {s t u : State} {rest : List HostInput}

/-! ### A register behind a write -/

/-- A register of `k` bits shows the low bits of what was written to it. -/
theorem setWidth_setWidth_eq_and_lowBits (k : Nat) (v : Word) :
    (v.setWidth k).setWidth 32 = v &&& lowBits k := by
  ext j hj
  by_cases hk : j < k
  · simp [lowBits, hk, BitVec.getLsbD_eq_getElem hj]
  · simp [lowBits, hk]

/-- A register from ARG_ADDR to CTRL reads what was written to it, at its used bits
(10_state.md R21). -/
theorem readReg_writeReg_same (s : State) {n : Nat} (v : Word) (h : 3 ≤ n) (h' : n ≤ 0x0A) :
    (s.writeReg n v).readReg n = v &&& usedBits n := by
  have half := setWidth_setWidth_eq_and_lowBits 16 v
  have byte := setWidth_setWidth_eq_and_lowBits 8 v
  have bit : (BitVec.ofBool (v.getLsbD 0)).setWidth 32 = v &&& 1 := by
    ext j hj
    by_cases h0 : j = 0
    · subst h0
      simp
    · simp [h0, BitVec.getLsbD_ofBool]
  obtain upTo8 | rfl | rfl : n ≤ 8 ∨ n = 9 ∨ n = 10 := by omega
  · interval_cases n <;> exact half
  · exact byte
  · exact bit

theorem readReg_writeReg_other (s : State) {m n : Nat} (v : Word) (h : m ≠ n) :
    (s.writeReg n v).readReg m = s.readReg m := by
  unfold State.writeReg
  split <;> unfold State.readReg <;> split
  all_goals try exact absurd rfl h
  all_goals rfl

theorem writeReg_rest (s : State) (n : Nat) (v : Word) :
    (s.writeReg n v).dbuf = s.dbuf ∧ (s.writeReg n v).pw = s.pw ∧
      (s.writeReg n v).spBuf = s.spBuf ∧ (s.writeReg n v).bus = s.bus := by
  unfold State.writeReg
  split <;> exact ⟨rfl, rfl, rfl, rfl⟩

/-! ### The descriptor's registers -/

theorem capsWord_getLsbD (d : Descriptor) (k : Nat) : (capsWord d).getLsbD k =
    [d.flagGP, d.flagRW, d.flagWO, d.flagRO, d.flagNV, d.flagPPulse, d.flagPDeliv, d.flagAutoCrc,
      d.flagExtra, d.canLock, d.canRedirect, d.canLockRedirect, d.spPresent, d.spAddr, d.spCrc,
      d.pwGated, d.busyPoll].getD k false := by
  unfold capsWord
  rw [BitVec.getLsbD_setWidth]
  by_cases hk : k < 17
  · interval_cases k
    all_goals
      simp only [BitVec.getLsbD_append, BitVec.getLsbD_ofBool]
      rfl
  · rw [BitVec.getLsbD_of_ge _ k (by omega), Bool.and_false, List.getD_eq_default]
    simpa using hk

/-- A parameter that fits its register is shown as it is (10_state.md R21). -/
theorem descField_toNat {n v : Nat} (hn : n ≤ 32) (hv : v < 2 ^ n) : (descField n v).toNat = v := by
  have : 2 ^ n ≤ 2 ^ 32 := Nat.pow_le_pow_right (by decide) hn
  rw [descField, BitVec.toNat_setWidth, BitVec.toNat_ofNat, Nat.mod_eq_of_lt hv,
    Nat.mod_eq_of_lt (by omega)]

/-- The descriptor's registers show the parameters of a well-formed descriptor (10_state.md R21). -/
theorem readReg_desc (s : State) (wf : s.desc.WF) :
    (s.readReg 0x0D).toNat = s.desc.size ∧
      (s.readReg 0x0E).toNat = s.desc.pageLen ∧ (s.readReg 0x0F).toNat = s.desc.pageCount ∧
      (s.readReg 0x10).toNat = s.desc.maxPkt ∧ (s.readReg 0x12).toNat = s.desc.extraLen ∧
      (s.readReg 0x13).toNat = (if s.desc.spPresent then s.desc.spSize else 0) ∧
      ((s.desc.pwGated = true → s.desc.pwLen < 256) →
        (s.readReg 0x14).toNat = if s.desc.pwGated then s.desc.pwLen else 0) ∧
      (s.readReg 0x15).toNat = s.desc.physOff := by
  obtain ⟨⟨size_pos, size_le, page_ge, page_le, -, pages⟩, pkt, ⟨-, phys⟩, -, pad, -, -, -,
    ⟨extra, no_extra⟩, -⟩ := wf
  have count : s.desc.pageCount ≤ s.desc.size :=
    pages ▸ Nat.le_mul_of_pos_right _ (by omega)
  have extra_le : s.desc.extraLen ≤ 255 := by
    cases he : s.desc.flagExtra with
    | true => exact (extra he).2
    | false => simp [no_extra he]
  refine ⟨descField_toNat (by decide) (by omega), descField_toNat (by decide) (by omega),
    descField_toNat (by decide) (by omega), descField_toNat (by decide) (by omega),
    descField_toNat (by decide) (by omega), descField_toNat (by decide) ?_, fun short => ?_,
    descField_toNat (by decide) (by omega)⟩
  · split_ifs with present
    · obtain ⟨-, -, -, -, row⟩ := pad present
      omega
    · decide
  · refine descField_toNat (v := slotLen s.desc) (by decide) ?_
    unfold slotLen
    split_ifs with gated
    · exact short gated
    · decide

/-- Settles O11. -/
theorem registerReadAfterWrite : Obligations.RegisterReadAfterWrite := by
  refine ⟨fun s n v rest h h' hf hb hs => ?_, fun s => ⟨rfl, rfl, rfl, rfl, rfl, rfl,
    capsWord_getLsbD s.desc, readReg_desc s⟩⟩
  obtain ⟨dbuf, pw, spBuf, bus⟩ := writeReg_rest { s with host := rest } n v
  exact ⟨_, step_regWrite hf hb (by omega) hs, readReg_writeReg_same _ v h h',
    fun m hm => readReg_writeReg_other _ v hm, dbuf, pw, spBuf, bus⟩

/-! ### The fields of STATUS -/

theorem statusWord_spState (s : State) : s.statusWord.extractLsb' 4 3 = s.spState.code := by
  refine BitVec.eq_of_getLsbD_eq fun k hk => ?_
  rw [BitVec.getLsbD_extractLsb', State.statusWord, BitVec.getLsbD_setWidth]
  interval_cases k
  all_goals
    simp only [BitVec.getLsbD_append]
    rfl

theorem statusWord_err (s : State) : s.statusWord.extractLsb' 8 4 = errField s.err := by
  refine BitVec.eq_of_getLsbD_eq fun k hk => ?_
  rw [BitVec.getLsbD_extractLsb', State.statusWord, BitVec.getLsbD_setWidth]
  interval_cases k
  all_goals
    simp only [BitVec.getLsbD_append]
    rfl

theorem statusWord_fault (s : State) : s.statusWord.extractLsb' 12 4 = faultField s.fault := by
  refine BitVec.eq_of_getLsbD_eq fun k hk => ?_
  rw [BitVec.getLsbD_extractLsb', State.statusWord, BitVec.getLsbD_setWidth]
  interval_cases k
  all_goals
    simp only [BitVec.getLsbD_append]
    rfl

/-- Bits 8 to 18 of STATUS are PW_SET, FAULT and ERR (10_state.md R22). -/
theorem statusWord_kept (s : State) : s.statusWord.extractLsb' 8 11 =
    s.pw.setBits ++ faultField s.fault ++ errField s.err := by
  refine BitVec.eq_of_getLsbD_eq fun k hk => ?_
  rw [BitVec.getLsbD_extractLsb', State.statusWord, BitVec.getLsbD_setWidth]
  interval_cases k
  all_goals
    simp only [BitVec.getLsbD_append]
    rfl

/-- The flags of STATUS (10_state.md R22). -/
theorem statusWord_flags (s : State) : s.statusWord.getLsbD 0 = s.busy ∧
    s.statusWord.getLsbD 1 = s.speedOk ∧ s.statusWord.getLsbD 2 = s.contOk := by
  unfold State.statusWord
  simp only [BitVec.getLsbD_setWidth, BitVec.getLsbD_append, BitVec.getLsbD_ofBool]
  exact ⟨rfl, rfl, rfl⟩

theorem statusWord_pwSet (s : State) : s.statusWord.getLsbD 16 = s.pw.readOnly.loaded ∧
    s.statusWord.getLsbD 17 = s.pw.readWrite.loaded ∧
    s.statusWord.getLsbD 18 = s.pw.writeOnly.loaded := by
  unfold State.statusWord PwFile.setBits
  simp only [BitVec.getLsbD_setWidth, BitVec.getLsbD_append, BitVec.getLsbD_ofBool]
  exact ⟨rfl, rfl, rfl⟩

theorem statusWord_above (s : State) : s.statusWord.extractLsb' 19 13 = 0 := by
  refine BitVec.eq_of_getLsbD_eq fun k hk => ?_
  rw [BitVec.getLsbD_extractLsb', statusWord_getLsbD_reserved s (.inr (.inr (by omega)))]
  simp

/-- Settles O12: the fields of the word, then their codes. -/
theorem statusFields : Obligations.StatusFields := by
  intro s
  obtain ⟨busy, speedOk, contOk⟩ := statusWord_flags s
  obtain ⟨readOnly, readWrite, writeOnly⟩ := statusWord_pwSet s
  refine ⟨busy, speedOk, contOk, statusWord_getLsbD_reserved s (.inl rfl),
    statusWord_getLsbD_reserved s (.inr (.inl rfl)), statusWord_above s, fun e he h => ?_,
    fun e he h => ?_, fun e he h => ?_, readOnly, readWrite, writeOnly, rfl, rfl, rfl⟩
  · refine (congrArg BitVec.toNat ((statusWord_spState s).trans (congrArg SpState.code h))).trans ?_
    clear h
    revert e
    decide
  · refine (congrArg BitVec.toNat ((statusWord_err s).trans (congrArg errField h))).trans ?_
    clear h
    revert e
    decide
  · refine (congrArg BitVec.toNat ((statusWord_fault s).trans (congrArg faultField h))).trans ?_
    clear h
    revert e
    decide

/-! ### The DBUF port -/

theorem writePort_of_lt {j : Nat} (b : Byte) (h : j < s.desc.dbufSize) :
    s.writePort j b = { s with dbuf := s.dbuf.write j b } := if_pos h

theorem writePort_of_le {j : Nat} (b : Byte) (h : s.desc.dbufSize ≤ j) : s.writePort j b = s :=
  if_neg (by omega)

theorem readPort_of_le {j : Nat} (h : s.desc.dbufSize ≤ j) : s.readPort j = 0 :=
  if_neg (by omega)

theorem readPort_of_read {j : Nat} {b : Byte} (h : j < s.desc.dbufSize)
    (hb : s.dbuf.read j = some b) : s.readPort j = b.setWidth 32 := by
  rw [State.readPort, if_pos h, hb, Option.getD_some]

theorem step_dbufWrite {j : Nat} {b : Byte} (hf : s.fault = none) (hb : s.busy = false)
    (h : s.host = .op (.dbufWrite j b) :: rest) :
    step s = .next ({ s with host := rest }.writePort j b) := by
  rw [step_op h]
  exact hostWrite_free (s := { s with host := rest }) (fun s => .next (s.writePort j b)) hf hb

/-- Settles O13. -/
theorem dbufPort : Obligations.DbufPort := by
  refine fun s j rest hf hb => ⟨fun b h => ⟨_, step_dbufWrite hf hb h, ?_⟩, fun h =>
    ⟨_, step_op h, fun le => readPort_of_le (s := { s with host := rest }) le,
      fun b lt hr => readPort_of_read (s := { s with host := rest }) lt hr⟩⟩
  rcases lt_or_ge j s.desc.dbufSize with lt | le
  · rw [writePort_of_lt (s := { s with host := rest }) b lt]
    exact ⟨rfl, fun le => absurd lt (by omega), fun _ a => Memory.read_write s.dbuf j a b⟩
  · rw [writePort_of_le (s := { s with host := rest }) b le]
    exact ⟨rfl, fun _ => rfl, fun lt => absurd lt (by omega)⟩

/-! ### Accesses that land while a command runs -/

theorem step_during_free {w : Word} {landing : List (Nat × HostOp)} (hf : s.fault = none)
    (hb : s.busy = false) (hd : decode w = .ok i) (hs : s.host = .during w landing :: rest) :
    step s = .next (windowRun i 0 false landing { s with host := rest }) := by
  rw [step_during hs]
  exact commandDuring_free (s := { s with host := rest }) _ hf hb hd

/-- A register read that lands while the command runs answers from the running machine. -/
theorem windowRun_regRead {k : Nat} (n : Nat) (running : (s.midCommand i k).busy = true) :
    windowRun i 0 false [(k, .regRead n)] s =
      State.runCommand (commandClass i) (commandBody i)
        (s.answerHost ((s.midCommand i k).readReg n)) := by
  simp only [windowRun, Nat.zero_add, running, if_true]
  rfl

theorem windowRun_dbufRead {k : Nat} (j : Nat) (running : (s.midCommand i k).busy = true) :
    windowRun i 0 false [(k, .dbufRead j)] s =
      State.runCommand (commandClass i) (commandBody i)
        (s.answerHost ((s.midCommand i k).readPort j)) := by
  simp only [windowRun, Nat.zero_add, running, if_true]
  rfl

/-- A write that lands while the command runs changes nothing but FAULT, at its end
(60_exceptions.md R211). -/
theorem windowRun_write {k : Nat} {o : HostOp}
    (ho : (∃ n v, o = .regWrite n v) ∨ (∃ j b, o = .dbufWrite j b))
    (running : (s.midCommand i k).busy = true) :
    windowRun i 0 false [(k, o)] s =
      (s.runCommand (commandClass i) (commandBody i)).latchBusy := by
  rcases ho with ⟨n, v, rfl⟩ | ⟨j, b, rfl⟩
  all_goals
    simp only [windowRun, Nat.zero_add, running, if_true]
    rfl

theorem windowRun_reset {k : Nat} (running : (s.midCommand i k).busy = true) :
    windowRun i 0 false [(k, .reset)] s = (s.midCommand i k).resetMachine := by
  simp only [windowRun, Nat.zero_add, running, if_true]
  rfl

theorem State.latchBusy_eq (t : State) :
    t.latchBusy = { t with fault := if t.fault = none then some .busy else t.fault } := by
  unfold State.latchBusy
  split_ifs
  · rfl
  · rfl

/-- While a command runs the registers but STATUS and the staged ones read as before it
(60_exceptions.md R202, 10_state.md R24). -/
theorem midCommand_readReg {k n : Nat} (running : (s.midCommand i k).busy = true)
    (h : n ∉ [0x01, 0x16, 0x17, 0x18]) : (s.midCommand i k).readReg n = s.readReg n := by
  obtain ⟨t, rfl, frame⟩ := midCommand_running running
  rw [frame]
  unfold State.readReg
  split
  case h_1 | h_22 | h_23 | h_24 => exact absurd (by decide) h
  all_goals rfl

theorem midCommand_readPort {k : Nat} (j : Nat) (running : (s.midCommand i k).busy = true) :
    (s.midCommand i k).readPort j = s.readPort j := by
  obtain ⟨t, rfl, frame⟩ := midCommand_running running
  rw [frame]
  rfl

/-- While a command runs STATUS shows BUSY, and ERR, FAULT and PW_SET as before it. -/
theorem midCommand_statusWord {k : Nat} (running : (s.midCommand i k).busy = true) :
    (s.midCommand i k).statusWord.getLsbD 0 = true ∧
      (s.midCommand i k).statusWord.extractLsb' 8 11 = s.statusWord.extractLsb' 8 11 := by
  refine ⟨(statusWord_flags _).1.trans running, ?_⟩
  rw [statusWord_kept, statusWord_kept]
  obtain ⟨t, rfl, frame⟩ := midCommand_running running
  rw [frame]

/-- Right after the start every register but STATUS reads as before the command. -/
theorem midCommand_zero_readReg {n : Nat} (h : n ≠ 1) :
    (s.midCommand i 0).readReg n = s.readReg n := by
  change (s.start none).readReg n = s.readReg n
  unfold State.readReg
  split
  case h_1 => exact absurd rfl h
  all_goals rfl

/-- Settles O14. -/
theorem writeWhileBusy : Obligations.WriteWhileBusy := by
  intro s w i k o rest hf hb hd hs running
  have start := step_during_free hf hb hd hs
  refine ⟨fun ho t ht => ?_, fun n ho => ?_, fun j ho => ?_⟩
  · rw [start, windowRun_write ho running, ← exec_next.mp ht, State.latchBusy_eq]
  · subst ho
    refine ⟨_, ?_, rfl, ?_, fun h => midCommand_readReg running h, ?_⟩
    · rw [start, windowRun_regRead n running, exec_eq]
      rfl
    · rintro rfl
      exact midCommand_statusWord running
    · rintro rfl h
      exact midCommand_zero_readReg h
  · subst ho
    rw [start, windowRun_dbufRead j running, midCommand_readPort j running, exec_eq]
    rfl

/-- What stands of the bus record at a point of a running command: the scripts of answers, the
answers drawn so far, and the first of the events of the whole command. -/
theorem midCommand_bus {k : Nat} (running : (s.midCommand i k).busy = true)
    (hu : exec i s = .next u) :
    ∃ made later, (s.midCommand i k).bus.trace = s.bus.trace ++ made ∧ made.length = k - 1 ∧
      AddedEvents s u (made ++ later) ∧ (s.midCommand i k).bus.bools = s.bus.bools ∧
      (s.midCommand i k).bus.bytes = s.bus.bytes ∧
      s.bus.nBool ≤ (s.midCommand i k).bus.nBool ∧ (s.midCommand i k).bus.nBool ≤ u.bus.nBool ∧
      s.bus.nByte ≤ (s.midCommand i k).bus.nByte ∧ (s.midCommand i k).bus.nByte ≤ u.bus.nByte := by
  cases k with
  | zero =>
    obtain ⟨⟨es, added⟩, nBool, nByte, -⟩ := historyGrows i s u hu
    exact ⟨[], es, (List.append_nil _).symm, rfl, added, rfl, rfl, le_refl _, nBool, le_refl _,
      nByte⟩
  | succ k =>
    rw [exec_next] at hu
    subst hu
    obtain ⟨made, later, len, at_point, at_end, counts⟩ := midCommand_prefix running
    obtain ⟨t, es, rfl, framed, -⟩ := midCommand_cut running
    obtain ⟨es, g⟩ := framed.grows
    exact ⟨made, later, at_point, len, at_end, g.bools, g.bytes, counts⟩

/-- Settles O15: the state is the reset of the point's, which keeps the descriptor and the host's
records of the start. -/
theorem resetWhileBusy : Obligations.ResetWhileBusy := by
  intro s u w i k rest hf hb hd hs running hu
  obtain ⟨made, later, trace, len, all, bools, bytes, counts⟩ := midCommand_bus running hu
  refine ⟨_, made, later,
    (step_during_free hf hb hd hs).trans (congrArg _ (windowRun_reset running)), trace, len, all,
    ?_, rfl, bools, bytes, counts⟩
  obtain ⟨t, ht, frame⟩ := midCommand_running running
  rw [← ht, frame]
  rfl

end Sys2Proof.Machine
end

section
/-! CRC FAMILY. The CRC functions and their laws (spec/40_crc.md R100 to R103, R113), the window
commands (R106 to R112; R64, R207), and the laws of the packet framer that follow from them
(spec/42_paged.md R149, R150). -/

namespace Sys2Proof.Machine

variable {i : Instr} {s : State}

/-! ### The CRC functions -/

theorem crc8_append (xs ys : List Byte) : crc8 (xs ++ ys) = ys.foldl crc8Step (crc8 xs) :=
  List.foldl_append ..

theorem crc16_append (xs ys : List Byte) (seed : Half) :
    crc16 (xs ++ ys) seed = ys.foldl crc16Step (crc16 xs seed) :=
  List.foldl_append ..

/-- Settles O21: the eight shifts are written out in both, and the folds take the last byte last. -/
theorem crcFunctions : Obligations.CrcFunctions :=
  ⟨fun _ _ => rfl, fun _ _ => rfl, rfl, fun xs x => crc8_append xs [x], fun _ => rfl,
    fun xs x seed => crc16_append xs [x] seed⟩

/-! ### A CRC step is linear, and loses nothing of the register -/

section CrcLinear

variable {n : Nat} (poly : BitVec n)

theorem crcShift_xor (c c' : BitVec n) :
    crcShift poly (c ^^^ c') = crcShift poly c ^^^ crcShift poly c' := by
  unfold crcShift
  rw [BitVec.getLsbD_xor, BitVec.ushiftRight_xor_distrib]
  cases c.getLsbD 0 <;> cases c'.getLsbD 0
  · rfl
  · exact BitVec.xor_assoc ..
  · simp only [Bool.xor_false, if_true, Bool.false_eq_true, if_false]
    rw [BitVec.xor_assoc, BitVec.xor_assoc, BitVec.xor_comm poly]
  · simp only [Bool.xor_self, if_true, Bool.false_eq_true, if_false]
    rw [BitVec.xor_assoc, BitVec.xor_comm (c' >>> 1), ← BitVec.xor_assoc poly, BitVec.xor_self,
      BitVec.zero_xor]

theorem repeat_crcShift_xor (k : Nat) (c c' : BitVec n) :
    Nat.repeat (crcShift poly) k (c ^^^ c') =
      Nat.repeat (crcShift poly) k c ^^^ Nat.repeat (crcShift poly) k c' := by
  induction k with
  | zero => rfl
  | succ k ih => rw [Nat.repeat, ih, crcShift_xor]; rfl

/-- Where the low bits are 0 the polynomial never comes in. -/
theorem repeat_crcShift_of_low_zero {k : Nat} {c : BitVec n}
    (h : ∀ j < k, c.getLsbD j = false) : Nat.repeat (crcShift poly) k c = c >>> k := by
  induction k with
  | zero => simp [Nat.repeat]
  | succ k ih =>
    have low : (c >>> k).getLsbD 0 = false := by simpa using h k (by omega)
    rw [Nat.repeat, ih fun j hj => h j (by omega), crcShift, low, ← BitVec.shiftRight_add]
    rfl

variable {poly}

/-- The top bit of the polynomial tells whether it came in. -/
theorem crcShift_ne_zero {c : BitVec n} (top : poly.getLsbD (n - 1) = true) (h : c ≠ 0) :
    crcShift poly c ≠ 0 := by
  have hn : 0 < n := by
    by_contra h0
    rw [BitVec.getLsbD_of_ge _ _ (by omega)] at top
    cases top
  intro hz
  cases h0 : c.getLsbD 0 with
  | true =>
    have := congrArg (fun v => v.getLsbD (n - 1)) hz
    simp only [crcShift, h0, if_true, BitVec.getLsbD_xor, BitVec.getLsbD_ushiftRight, top] at this
    rw [BitVec.getLsbD_of_ge _ _ (by omega)] at this
    simp at this
  | false =>
    refine h (BitVec.eq_of_getLsbD_eq fun j hj => ?_)
    cases j with
    | zero => simpa using h0
    | succ j =>
      have := congrArg (fun v => v.getLsbD j) hz
      simpa [crcShift, h0, BitVec.getLsbD_ushiftRight, Nat.add_comm 1 j] using this

/-- Two registers with the same byte give two registers. -/
theorem crcStep_injective {c c' : BitVec n} {b : Byte} (top : poly.getLsbD (n - 1) = true)
    (h : crcStep poly c b = crcStep poly c' b) : c = c' := by
  have shifts (k : Nat) (x : BitVec n) (hx : x ≠ 0) : Nat.repeat (crcShift poly) k x ≠ 0 := by
    induction k with
    | zero => exact hx
    | succ k ih => exact crcShift_ne_zero top ih
  by_contra hc
  refine shifts 8 ((c ^^^ b.setWidth n) ^^^ (c' ^^^ b.setWidth n)) ?_ ?_
  · simpa using hc
  · rw [repeat_crcShift_xor]
    exact BitVec.xor_eq_zero_iff.mpr h

end CrcLinear

/-! ### The residual laws (40_crc.md R113) -/

theorem crc16_injective {ys : List Byte} : ∀ {seed seed' : Half},
    crc16 ys seed = crc16 ys seed' → seed = seed' := by
  induction ys with
  | nil => exact fun h => h
  | cons y ys ih => exact fun h => crcStep_injective (by decide) (ih h)

/-- The eight shifts of a register's high byte over its low byte all ones: only the low byte brings
the polynomial in. -/
theorem crc16Step_inverted_low (c : Half) :
    crc16Step c ((c ^^^ 0xFFFF).setWidth 8) = c >>> 8 ^^^ 0x4040 := by
  have split_low : c ^^^ ((c ^^^ 0xFFFF).setWidth 8).setWidth 16 =
      (c &&& 0xFF00) ^^^ (0 ^^^ (0xFF : Byte).setWidth 16) := by
    ext j hj
    simp only [BitVec.getElem_xor, BitVec.getElem_and, BitVec.getElem_setWidth]
    interval_cases j <;> simp
  have high : (c &&& 0xFF00) >>> 8 = c >>> 8 := by
    ext j hj
    simp only [BitVec.getElem_ushiftRight, BitVec.getLsbD_and]
    interval_cases j <;> simp
  rw [crc16Step, crcStep, split_low, repeat_crcShift_xor, repeat_crcShift_of_low_zero, high]
  · rfl
  · intro j hj
    interval_cases j <;> simp

/-- The inverted register, low byte first, takes every register to the accept residual. -/
theorem crc16Step_inverted (c : Half) :
    crc16Step (crc16Step c ((c ^^^ 0xFFFF).setWidth 8)) (((c ^^^ 0xFFFF) >>> 8).setWidth 8) =
      0xB001 := by
  have flip : (((c ^^^ 0xFFFF) >>> 8).setWidth 8).setWidth 16 =
      c >>> 8 ^^^ (0xFF : Byte).setWidth 16 := by
    ext j hj
    simp only [BitVec.getElem_xor, BitVec.getElem_ushiftRight, BitVec.getElem_setWidth]
    interval_cases j <;> simp
  have cancel : (c >>> 8 ^^^ (0x4040 : Half)) ^^^ (((c ^^^ 0xFFFF) >>> 8).setWidth 8).setWidth 16 =
      (0x4040 : Half) ^^^ (0xFF : Byte).setWidth 16 := by
    rw [flip, BitVec.xor_comm (c >>> 8) 0x4040, BitVec.xor_assoc,
      ← BitVec.xor_assoc (c >>> 8), BitVec.xor_self, BitVec.zero_xor]
  rw [crc16Step_inverted_low]
  exact crcStep_congr _ cancel

theorem crc16_inverted (xs : List Byte) (seed : Half) :
    crc16 (xs ++ [(crc16 xs seed ^^^ 0xFFFF).setWidth 8,
      ((crc16 xs seed ^^^ 0xFFFF) >>> 8).setWidth 8]) seed = 0xB001 := by
  rw [crc16_append]
  exact crc16Step_inverted _

/-- Settles O20. -/
theorem crcResidualLaws : Obligations.CrcResidualLaws := by
  refine ⟨fun xs => ?_, crc16_inverted, fun ys seed seed' ne h => ne (crc16_injective h)⟩
  rw [crc8_append]
  exact crcStep_eq_zero _ (by simp)

/-! ### The window commands -/

theorem exec_of_faulted {f : FaultCode} (h : commandBody i (s.start none) = .faulted f) :
    exec i s = .next (plainFault f s) := by
  rw [exec_eq, State.runCommand, runWith_faulted h]
  rfl

/-- A command that is no bus command and raises in the state `t`, seen at the start. -/
theorem exec_of_internal_raise {e : Err} {t : State} (hc : commandClass i = .internal)
    (h : commandBody i (s.start none) = .raised e (t.start none)) :
    exec i s = .next (plainRaise e t) := by
  rw [exec_eq, State.runCommand, runWith_raised h, hc]
  rfl

/-- Settles O17. -/
theorem crcWindowCommands : Obligations.CrcWindowCommands := by
  intro s xs input
  have is (k : List Byte → Run Done) := withInput_is input k
  refine ⟨exec_of_plain (is _), exec_of_plain (is _), ?_, ?_⟩
  · split_ifs with accepted
    · exact exec_of_plain ((is _).trans (if_neg (not_not.mpr accepted)))
    · exact exec_of_internal_raise (t := { s with acc8 := crc8 xs }) rfl
        ((is _).trans (if_pos accepted))
  · split_ifs with accepted
    · exact exec_of_plain ((is _).trans (if_neg (not_not.mpr accepted)))
    · exact exec_of_internal_raise (t := { s with acc16 := crc16 xs s.argSeed }) rfl
        ((is _).trans (if_pos accepted))

/-- A window beyond DBUF faults, whatever would be done with its bytes. -/
theorem withInput_outside {n : Nat} {k : List Byte → Run Done}
    (h : s.desc.dbufSize < s.argOff.toNat + n) : withInput n s k = .faulted .dbuf :=
  withWindow_of_lt _ h

theorem withInput_unmarked {n : Nat} {k : List Byte → Run Done}
    (h : s.argOff.toNat + n ≤ s.desc.dbufSize)
    (unmarked : ∃ a, s.argOff.toNat ≤ a ∧ a < s.argOff.toNat + n ∧ s.dbuf.read a = none) :
    withInput n s k = .faulted .undef := by
  rw [withInput, withWindow_of_le _ h, (Memory.readRange_eq_none _ _ _).mpr unmarked]

/-- Settles O18: the command's rule begins with reading the window. -/
theorem inputWindowFaults : Obligations.InputWindowFaults := by
  intro s i n takes
  have reads : ∃ k, commandBody i (s.start none) = withInput n (s.start none) k := by
    rcases takes with ⟨rfl, hi⟩ | ⟨p, hp, rfl, rfl | rfl⟩ | ⟨p, hp, rfl, rfl⟩
    · simp only [List.mem_cons, List.not_mem_nil, or_false] at hi
      rcases hi with rfl | rfl | rfl | rfl | rfl
      all_goals exact ⟨_, rfl⟩
    all_goals
      obtain ⟨slot, h⟩ := slotOf_isSome hp
      exact ⟨_, withSlot_is h _⟩
  obtain ⟨k, reads⟩ := reads
  exact ⟨fun outside =>
      exec_of_faulted (reads.trans (withInput_outside (s := s.start none) outside)),
    fun inside unmarked =>
      exec_of_faulted (reads.trans (withInput_unmarked (s := s.start none) inside unmarked))⟩

theorem lowFirst_toNat (c : Half) :
    lowFirst c.toNat = [c.setWidth 8, (c >>> 8).setWidth 8] := by
  rw [lowFirst, loByte_eq, hiByte_eq]

/-- Settles O19. -/
theorem crc16EmitCommand : Obligations.Crc16EmitCommand := by
  intro s
  have inverted : ~~~s.acc16 = s.acc16 ^^^ 0xFFFF := BitVec.xor_allOnes.symm
  refine ⟨fun outside => exec_of_faulted (withWindow_of_lt (s := s.start none) _ outside),
    fun inside => ⟨_, (exec_eq _ _).trans (congrArg _ (runWith_ok
      (withWindow_of_le (s := s.start none) _ inside))), ?_, fun a => ?_⟩⟩
  · rw [← inverted]
    rfl
  · rw [← inverted, ← lowFirst_toNat]
    exact Memory.read_writeRange ..

/-! ### The packet framer -/

/-- Decoding a packet that fits depends on its CRC under the page's seed alone. -/
theorem udpDecode_udpEncode {pageLen a b : Nat} {xs : List Byte} (rest : List Byte)
    (h : pageLen ≤ 256) (fits : xs.length ≤ pageLen - 3) :
    udpDecode pageLen b (udpEncode a xs ++ rest) =
      if crc16 (udpEncode a xs) (packetSeed b) ≠ 0xB001 then .integrityError
      else .payload xs.length xs := by
  have len : (udpEncode a xs).length = xs.length + 3 := by simp [udpEncode, lowFirst]
  have head : (((udpEncode a xs ++ rest).headD 0).toNat) = xs.length := by
    change (BitVec.ofNat 8 xs.length).toNat = _
    rw [BitVec.toNat_ofNat, Nat.mod_eq_of_lt (by omega)]
  have payload : ((udpEncode a xs ++ rest).drop 1).take xs.length = xs := by
    simp [udpEncode]
  rw [udpDecode, head, if_neg (by omega), List.take_left' len, payload]
  rfl

theorem crc16_udpEncode (a : Nat) (xs : List Byte) :
    crc16 (udpEncode a xs) (packetSeed a) = 0xB001 := by
  rw [udpEncode_eq]
  exact crc16_inverted (BitVec.ofNat 8 xs.length :: xs) _

/-- Settles O46. -/
theorem packetRoundTrip : Obligations.PacketRoundTrip := by
  intro pageLen a xs rest _ h fits
  rw [udpDecode_udpEncode rest h fits, if_neg (not_not.mpr (crc16_udpEncode a xs))]

theorem packetSeed_injective {a b : Nat} (ha : a < 65536) (hb : b < 65536)
    (h : packetSeed a = packetSeed b) : a = b := by
  have := congrArg BitVec.toNat h
  simpa [packetSeed, Nat.mod_eq_of_lt ha, Nat.mod_eq_of_lt hb] using this

/-- The CRC bytes of a packet name its CRC. -/
theorem lowFirst_injective {c c' : Half} (h : lowFirst c.toNat = lowFirst c'.toNat) : c = c' := by
  simp only [lowFirst, loByte, hiByte, List.cons.injEq, and_true] at h
  obtain ⟨low, high⟩ := h
  have low := congrArg BitVec.toNat low
  have high := congrArg BitVec.toNat high
  simp only [BitVec.toNat_ofNat] at low high
  exact BitVec.eq_of_toNat_eq (by omega)

/-- Settles O47: both parts, because a CRC16 of the same bytes names its seed. -/
theorem seedBinding : Obligations.SeedBinding := by
  intro pageLen a b xs rest _ h fits ha hb ne
  refine ⟨fun same => ?_, ?_⟩
  · have tail (p : Nat) : (udpEncode p xs).drop (xs.length + 1) =
        lowFirst (~~~crc16 (BitVec.ofNat 8 xs.length :: xs) (packetSeed p)).toNat := by
      simp [udpEncode]
    rw [tail, tail] at same
    have seeds := crc16_injective (BitVec.not_inj.mp (lowFirst_injective same))
    exact ne (packetSeed_injective ha hb seeds)
  · rw [udpDecode_udpEncode rest h fits, if_pos]
    intro accepted
    have seeds := crc16_injective ((crc16_udpEncode a xs).trans accepted.symm)
    exact ne (packetSeed_injective ha hb seeds)

end Sys2Proof.Machine
end

section
/-! ENDINGS. What `exec` leaves where a command's rule ends in a state on the way: a finish, a raise
behind bus events, and a raise before any (spec/60_exceptions.md R203 to R206). -/

namespace Sys2Proof.Machine

variable {i : Instr} {s t : State} {v c : Bool} {es : List BusEvent} {nb ny : Nat} {p : SpState}
  {e : Err}

theorem exec_of_ok {d : Done} (h : commandBody i (s.start none) = .ok d t) :
    exec i s = .next (t.finish d) := by
  rw [exec_eq, State.runCommand, runWith_ok h]

theorem exec_of_raised (h : commandBody i (s.start none) = .raised e t) :
    exec i s = .next (t.raise (commandClass i) e) := by
  rw [exec_eq, State.runCommand, runWith_raised h]

/-! ### A finish -/

/-- A read that ends on the way finishes with its bytes at ARG_OFF (60_exceptions.md R203). -/
theorem exec_readFinished {w : Half} {data : List Byte}
    (h : commandBody i (s.start none) =
      .ok ⟨w, s.argOff.toNat, data⟩ (s.came true es nb ny c s.spState.abandon)) :
    ∃ t, exec i s = .next t ∧ ReadFinished s t w data c ∧ AddedEvents s t es :=
  ⟨_, exec_of_ok h, ⟨⟨rfl, rfl, rfl, rfl⟩, fun a => Memory.read_writeRange data s.dbuf _ a, rfl,
    rfl, rfl, ⟨rfl, rfl, rfl, rfl, rfl, rfl, rfl, rfl, rfl, rfl, rfl, rfl, rfl⟩, ⟨rfl, rfl⟩,
    ⟨rfl, rfl, rfl, rfl⟩, rfl⟩, rfl⟩

/-- A command that moves no DBUF byte and ends on the way with CONT_OK 0 finishes with its value
(60_exceptions.md R203). -/
theorem exec_quietFinished {w : Half} (h : commandBody i (s.start none) =
      .ok (.plain w) (s.came v es nb ny false s.spState.abandon)) :
    ∃ t, exec i s = .next t ∧ QuietFinished s t w v ∧ AddedEvents s t es :=
  ⟨_, exec_of_ok h, ⟨⟨rfl, rfl, rfl, rfl⟩, fun _ => rfl, rfl, rfl, rfl,
    ⟨rfl, rfl, rfl, rfl, rfl, rfl, rfl, rfl, rfl, rfl, rfl, rfl, rfl⟩, ⟨rfl, rfl⟩,
    ⟨rfl, rfl, rfl, rfl⟩, rfl⟩, rfl⟩

/-! ### A raise -/

/-- A raise on the way of an error that clears SPEED_OK (60_exceptions.md R204, R205). -/
theorem exec_busRaise (hk : commandClass i ≠ .internal) (he : clearsSpeed (commandClass i) e = true)
    (hp : p.abandon = s.spState.abandon)
    (h : commandBody i (s.start none) = .raised e (s.came v es nb ny c p)) :
    ∃ t, exec i s = .next t ∧ BusRaise s t e es :=
  ⟨_, exec_of_raised h, State.came_busRaise hk he hp⟩

theorem exec_powerRaise (hk : commandClass i ≠ .internal) (hp : p.abandon = s.spState.abandon)
    (h : commandBody i (s.start none) = .raised .powerUnavailable (s.came v es nb ny c p)) :
    ∃ t, exec i s = .next t ∧ PowerRaise s t es v :=
  ⟨_, exec_of_raised h, State.came_powerRaise hk hp⟩

theorem exec_readStopped (hk : commandClass i ≠ .internal)
    (he : e ∈ [.communication, .powerUnavailable, .authentication])
    (hv : e = .powerUnavailable → v = true) (hp : p.abandon = s.spState.abandon)
    (h : commandBody i (s.start none) = .raised e (s.came v es nb ny c p)) :
    ∃ t, exec i s = .next t ∧ ReadStopped s t e es :=
  ⟨_, exec_of_raised h, State.came_readStopped hk he hv hp⟩

/-- A raise before any bus event of an error that leaves SPEED_OK (60_exceptions.md R204, R205). -/
theorem exec_earlyRaise (hk : commandClass i ≠ .internal)
    (he : clearsSpeed (commandClass i) e = false) (hp : p.abandon = s.spState.abandon)
    (h : commandBody i (s.start none) = .raised e (s.came s.speedOk [] 0 0 c p)) :
    exec i s = .next (earlyRaise e s) := by
  rw [exec_of_raised h]
  cases hc : commandClass i with
  | internal => exact absurd hc hk
  | bus | packetRead =>
    rw [hc] at he
    simp [State.raise, State.raiseFlags, State.came, State.advance, earlyRaise, plainRaise, he, hp,
      State.start]

theorem start_eq_came (s : State) :
    s.start none = s.came s.speedOk [] 0 0 s.contOk s.spState := s.came_start s.contOk s.spState

/-- A raise by a start check, in the state the command started from. -/
theorem exec_startRaise (hk : commandClass i ≠ .internal)
    (he : e ∈ [.range, .capability, .powerUnavailable])
    (h : commandBody i (s.start none) = .raised e (s.start none)) :
    exec i s = .next (earlyRaise e s) :=
  exec_earlyRaise hk (clearsSpeed_of_early he) rfl (h.trans (by rw [← start_eq_came]))

end Sys2Proof.Machine
end

section
/-! READS. READ and the page reads whose opening succeeds, by the block they end with, and where
they stop: at the opening, at a retry, at their start checks (spec/41_bank.md R120 to R123,
spec/42_paged.md R140 to R147). -/

namespace Sys2Proof.Machine

variable {i : Instr} {s : State} {cont : Bool} {pwsel : BitVec 2} {slot : PwSlot} {ta n : Nat}

/-! ### The start checks of a read -/

/-- The start checks that every read makes pass (41_bank.md R123, 42_paged.md R140). -/
theorem readStarts_passes (hp : slotOf pwsel = some slot) (starts : s.readStarts cont pwsel n)
    (k : PwSlot → Run Done) :
    (withSlot pwsel fun slot =>
      withWindow n (s.start none) (withCont cont (s.start none) (k slot))) = k slot := by
  obtain ⟨-, window, continued⟩ := starts
  rw [withSlot_is hp, withWindow_of_le _ (by exact window), withCont, if_neg]
  rintro ⟨hc, h⟩
  exact absurd ((continued hc).symm.trans h) (by decide)

theorem start_pageOk (range : s.argPage.toNat < s.desc.pageCount) : (s.start none).pageOk = true :=
  decide_eq_true range

/-- The state in which a read has opened (41_bank.md R121). -/
def State.opened (cont : Bool) (slot : PwSlot) (ta : Nat) (s : State) : State :=
  s.came true (s.openEvents cont slot ta) (s.openAsks cont) (s.openBytes cont) s.contOk
    s.spState.abandon

theorem openRead_opened (slot : PwSlot) (ta : Nat) (speed : s.contOk = true → s.speedOk = true)
    (starts : s.readStarts cont pwsel n) (opens : s.readOpens cont) :
    openRead cont slot ta (s.start none).abandonSp = .ok () (s.opened cont slot ta) :=
  openRead_yes (s := (s.start none).abandonSp) rfl cont slot ta (fun h => speed (starts.2.2 h))
    opens

@[simp] theorem State.came_byteAnswers {v c : Bool} {es : List BusEvent} {nb ny : Nat} {p : SpState}
    (k m : Nat) : (s.came v es nb ny c p).bus.byteAnswers k m = s.bus.byteAnswers k m :=
  Bus.byteAnswers_congr (c := s.bus) (by rfl) m k

/-! ### The rule of each read behind its opening -/

section
variable (hp : slotOf pwsel = some slot) (speed : s.contOk = true → s.speedOk = true)
  (opens : s.readOpens cont)
include hp speed opens

theorem bodyRead_opened (starts : s.readStarts cont pwsel s.argLen.toNat)
    (range : s.argAddr.toNat + s.argLen.toNat ≤ s.desc.size) :
    commandBody (.read cont pwsel) (s.start none) =
      (readBytes s.argPhys s.argLen.toNat cont slot (s.opened cont slot s.argPhys)).bind fun d t =>
        .ok ⟨s.argLen, s.argOff.toNat, d⟩ { t with contOk := true } := by
  refine (readStarts_passes hp starts _).trans ?_
  rw [if_neg (not_lt.mpr (by exact range))]
  exact congrArg (Run.bind · _) (openRead_opened slot s.argPhys speed starts opens)

theorem bodyReadPage_opened (starts : s.readStarts cont pwsel s.desc.pageLen)
    (range : s.argPage.toNat < s.desc.pageCount) :
    commandBody (.readPage cont pwsel) (s.start none) =
      (readBytes s.pagePhys s.desc.pageLen cont slot (s.opened cont slot s.pagePhys)).bind
        fun d t => .ok ⟨BitVec.ofNat 16 s.desc.pageLen, s.argOff.toNat, d⟩
          { t with contOk := true } := by
  refine (readStarts_passes hp starts _).trans ?_
  rw [if_neg (by simp [start_pageOk range])]
  exact congrArg (Run.bind · _) (openRead_opened slot s.pagePhys speed starts opens)

theorem bodyReadPageExtra_opened
    (starts : s.readStarts cont pwsel (s.desc.pageLen + s.desc.extraLen))
    (extra : s.desc.flagExtra = true) (range : s.argPage.toNat < s.desc.pageCount) :
    commandBody (.readPageExtra cont pwsel) (s.start none) =
      (readBytes s.pagePhys s.desc.pageLen cont slot (s.opened cont slot s.pagePhys)).bind
        fun d t => (readExtra s.pageAbs t).bind fun e t =>
        .ok ⟨BitVec.ofNat 16 s.desc.pageLen, s.argOff.toNat, d ++ e⟩
          { t with contOk := false } := by
  refine (readStarts_passes hp starts _).trans ?_
  rw [if_neg (by simp [extra]), if_neg (by simp [start_pageOk range])]
  exact congrArg (Run.bind · _) (openRead_opened slot s.pagePhys speed starts opens)

theorem bodyReadPageCrc_opened (starts : s.readStarts cont pwsel s.desc.pageLen)
    (crc : s.desc.flagAutoCrc = true) (range : s.argPage.toNat < s.desc.pageCount) :
    commandBody (.readPageCrc cont pwsel) (s.start none) =
      (readCrcPage s.pagePhys cont (s.opened cont slot s.pagePhys)).bind fun d t =>
        .ok ⟨BitVec.ofNat 16 s.desc.pageLen, s.argOff.toNat, d⟩ { t with contOk := true } := by
  refine (readStarts_passes hp starts _).trans ?_
  rw [if_neg (by simp [crc]), if_neg (by simp [start_pageOk range])]
  exact congrArg (Run.bind · _) (openRead_opened slot s.pagePhys speed starts opens)

theorem bodyReadPageCrcExtra_opened
    (starts : s.readStarts cont pwsel (s.desc.pageLen + s.desc.extraLen))
    (crc : s.desc.flagAutoCrc = true) (extra : s.desc.flagExtra = true)
    (range : s.argPage.toNat < s.desc.pageCount) :
    commandBody (.readPageCrcExtra cont pwsel) (s.start none) =
      (readCrcPage s.pagePhys cont (s.opened cont slot s.pagePhys)).bind fun d t =>
      (readExtra s.pageAbs t).bind fun e t =>
        .ok ⟨BitVec.ofNat 16 s.desc.pageLen, s.argOff.toNat, d ++ e⟩
          { t with contOk := false } := by
  refine (readStarts_passes hp starts _).trans ?_
  rw [if_neg (by simp [crc, extra]), if_neg (by simp [start_pageOk range])]
  exact congrArg (Run.bind · _) (openRead_opened slot s.pagePhys speed starts opens)

theorem bodyReadPagePacket_opened (starts : s.readStarts cont pwsel (s.desc.pageLen - 3))
    (range : s.argPage.toNat < s.desc.pageCount) :
    commandBody (.readPagePacket cont pwsel) (s.start none) =
      (readBytes s.pagePhys s.desc.pageLen cont slot (s.opened cont slot s.pagePhys)).bind
        fun raw t =>
        match udpDecode s.desc.pageLen s.pageAbs raw with
        | .formatError => .raised .format t
        | .integrityError => .raised .integrity t
        | .payload len ys =>
          .ok ⟨BitVec.ofNat 16 len, s.argOff.toNat, ys⟩ { t with contOk := true } := by
  refine (readStarts_passes hp starts _).trans ?_
  rw [if_neg (by simp [start_pageOk range])]
  exact (congrArg (Run.bind · _) (openRead_opened slot s.pagePhys speed starts opens)).trans rfl

end

/-! ### Blocks read behind an opening -/

/-- A block read behind the opening and taken at once (41_bank.md R122). -/
theorem readBytes_opened_once
    (taken : takenAtOnce s.desc (s.bus.bytesAfter (s.openBytes cont) n)) :
    readBytes ta n cont slot (s.opened cont slot ta) =
      .ok (s.bus.bytesAfter (s.openBytes cont) n) (s.came true (s.openEvents cont slot ta ++
        transferEvents cont (Config.seqRead ta n) (s.bus.bytesAfter (s.openBytes cont) n))
        (s.openAsks cont) (s.openBytes cont + n) s.contOk s.spState.abandon) := by
  have block : (s.opened cont slot ta).bus.byteAnswers (s.opened cont slot ta).bus.nByte n =
      s.bus.bytesAfter (s.openBytes cont) n := State.came_byteAnswers _ _
  rw [readBytes_once rfl ta n cont slot (by rw [block]; exact taken), block, State.opened,
    State.came_advance]
  rfl

/-- A block read behind the opening that is the read's block `r` (41_bank.md R122). -/
theorem readBytes_opened_takes {q k r : Nat} (hq : q = s.bus.nBool + s.openAsks cont)
    (hk : k = s.bus.nByte + s.openBytes cont) (takes : s.TakesBlock q k n r) :
    readBytes ta n cont slot (s.opened cont slot ta) =
      .ok (s.pollBlock k n r) (s.came true (s.openEvents cont slot ta ++
        s.pollEvents cont (s.pw.get slot).bytes ta n k r) (s.openAsks cont + r * retryAsks s.desc)
        (s.openBytes cont + (n + r * retryBytes s.desc n)) s.contOk s.spState.abandon) := by
  subst hq hk
  rw [readBytes_takes (s := s.opened cont slot ta) rfl rfl ta n cont slot takes.came, State.opened,
    State.came_advance, State.came_pollBlock, State.came_pollEvents]
  rfl

/-- A block read behind the opening, a retry of which fails (41_bank.md R122). -/
theorem readBytes_opened_fails {q k : Nat} {e : Err} {es : List BusEvent}
    (hq : q = s.bus.nBool + s.openAsks cont) (hk : k = s.bus.nByte + s.openBytes cont)
    (fails : s.PollFails cont (s.pw.get slot).bytes ta n q k e es) :
    ∃ v nb ny, readBytes ta n cont slot (s.opened cont slot ta) =
        .raised e (s.came v (s.openEvents cont slot ta ++ es) nb ny s.contOk s.spState.abandon) ∧
      (e = .powerUnavailable → v = true) ∧
      (e ∈ [.communication, .powerUnavailable, .authentication]) := by
  subst hq hk
  obtain ⟨v, nb, ny, h, powered, which⟩ :=
    readBytes_fails (s := s.opened cont slot ta) (slot := slot) rfl rfl fails.came
  rw [State.opened, State.came_advance] at h
  exact ⟨v, _, _, h, powered, which⟩

/-! ### READ and READ_PAGE -/

/-- Settles O30. -/
theorem readCompletes : Obligations.ReadCompletes := by
  intro cont pwsel slot s hp speed starts range opens taken
  have body := bodyRead_opened hp speed opens starts range
  rw [readBytes_opened_once taken] at body
  exact exec_readFinished body

/-- Settles O39. -/
theorem readPageCompletes : Obligations.ReadPageCompletes := by
  intro cont pwsel slot s hp speed starts range opens taken
  have body := bodyReadPage_opened hp speed opens starts range
  rw [readBytes_opened_once taken] at body
  exact exec_readFinished body

end Sys2Proof.Machine
end

section
/-! READS, their other outcomes: the polls, the page reads with extra info, CRC or a packet, and
where a read traps (spec/41_bank.md R120 to R123, spec/42_paged.md R140 to R147). -/

namespace Sys2Proof.Machine

variable {i : Instr} {s : State} {cont : Bool} {pwsel : BitVec 2} {slot : PwSlot} {ta n : Nat}

/-! ### The busy poll -/

/-- A read on a bank that polls and asks no password, where every question is answered yes
(41_bank.md R122). -/
theorem readBytes_picks (hl : s.bus.limit = none) (polls : s.desc.busyPoll = true)
    (ungated : s.desc.pwGated = false) (hs : s.speedOk = true)
    (yes : s.bus.yes (2 * (s.desc.pollMax - 1))) :
    ∃ es nb ny, readBytes ta n cont slot s =
      .ok (pollPick s.bus s.bus.nByte n (s.desc.pollMax - 1)) (s.advance true es nb ny) := by
  rw [readBytes, readSend_eq hl, Run.bind_ok, busRecv_eq (by simpa using hl), Run.bind_ok]
  simp only [State.advance_nByte, State.advance_byteAnswers, State.advance_desc, polls, if_true,
    State.advance_advance, State.advance_speedOk, hs, Nat.add_zero, Nat.zero_add]
  generalize (if cont then [] else [BusEvent.send (Config.seqRead ta n)]) ++ _ = es
  obtain ⟨fs, nb, ny, h⟩ := pollRead_picks ta n slot (s.desc.pollMax - 1)
    (s.advance true es 0 n) s.bus.nByte hl ungated rfl
    (State.advance_yes (m := 0) (by simpa using yes) _ _ _) rfl
  rw [State.advance_byteAnswers, State.advance_advance] at h
  exact ⟨_, _, _, h.trans (congrArg₂ _ (pollPick_congr (by rfl) n _ _) rfl)⟩

/-- READ on such a bank ends with the block the poll picks. -/
theorem read_picks (polls : s.desc.busyPoll = true) (ungated : s.desc.pwGated = false)
    (speed : s.contOk = true → s.speedOk = true)
    (starts : s.readStarts cont pwsel s.argLen.toNat)
    (range : s.argAddr.toNat + s.argLen.toNat ≤ s.desc.size)
    (yes : s.bus.yes (s.openAsks cont + 2 * (s.desc.pollMax - 1))) :
    ∃ t, exec (.read cont pwsel) s = .next t ∧
      ReadFinished s t s.argLen
        (pollPick s.bus s.bus.nByte s.argLen.toNat (s.desc.pollMax - 1)) true := by
  obtain ⟨slot, hp⟩ := slotOf_isSome starts.1
  have no_byte : s.openBytes cont = 0 := by simp [State.openBytes, ungated]
  have opens : s.readOpens cont := ⟨Bus.yes_mono yes (by omega), by simp [no_byte]⟩
  have body := bodyRead_opened hp speed opens starts range
  obtain ⟨es, nb, ny, h⟩ := readBytes_picks (s := s.opened cont slot s.argPhys) (ta := s.argPhys)
    (n := s.argLen.toNat) (cont := cont) (slot := slot) rfl polls ungated rfl (State.came_yes yes)
  have same : pollPick (s.opened cont slot s.argPhys).bus (s.opened cont slot s.argPhys).bus.nByte
      s.argLen.toNat (s.desc.pollMax - 1) =
        pollPick s.bus s.bus.nByte s.argLen.toNat (s.desc.pollMax - 1) := by
    rw [pollPick_congr (c := s.bus) (by rfl), State.opened, State.came_nByte, no_byte, Nat.add_zero]
  rw [h.trans (congrArg₂ Run.ok same rfl), State.opened, State.came_advance] at body
  obtain ⟨t, ran, finished, -⟩ := exec_readFinished body
  exact ⟨t, ran, finished⟩

/-- A command that reads a block reads it behind its opening (41_bank.md R122). -/
theorem readsBlock_opened {p : Nat} (reads : s.ReadsBlock cont pwsel i p n)
    (hp : slotOf pwsel = some slot) (speed : s.contOk = true → s.speedOk = true)
    (opens : s.readOpens cont) :
    commandClass i ≠ .internal ∧ ∃ k, commandBody i (s.start none) =
      (readBytes p n cont slot (s.opened cont slot p)).bind k := by
  cases reads with
  | read starts range =>
    exact ⟨by simp [commandClass], _, bodyRead_opened hp speed opens starts range⟩
  | page has starts range =>
    simp only [List.mem_cons, Prod.mk.injEq, List.not_mem_nil, or_false, and_true] at has
    rcases has with rfl | ⟨rfl, extra⟩ | rfl
    · exact ⟨by simp [commandClass], _, bodyReadPage_opened hp speed opens starts range⟩
    · exact ⟨by simp [commandClass], _,
        bodyReadPageExtra_opened hp speed opens starts extra.symm range⟩
    · exact ⟨by simp [commandClass], _, bodyReadPagePacket_opened hp speed opens starts range⟩

/-- READ and READ_PAGE answer the block as it is. -/
theorem readsBlock_plain {p : Nat} {v : Half} (reads : s.ReadsBlock cont pwsel i p n)
    (plain : (i = .read cont pwsel ∧ v = s.argLen) ∨
      (i = .readPage cont pwsel ∧ v = BitVec.ofNat 16 s.desc.pageLen))
    (hp : slotOf pwsel = some slot) (speed : s.contOk = true → s.speedOk = true)
    (opens : s.readOpens cont) :
    commandBody i (s.start none) = (readBytes p n cont slot (s.opened cont slot p)).bind
      fun d t => .ok ⟨v, s.argOff.toNat, d⟩ { t with contOk := true } := by
  cases reads with
  | read starts range =>
    rcases plain with ⟨-, rfl⟩ | ⟨is, -⟩
    · exact bodyRead_opened hp speed opens starts range
    · cases is
  | page has starts range =>
    rcases plain with ⟨rfl, -⟩ | ⟨rfl, rfl⟩
    · simp at has
    · exact bodyReadPage_opened hp speed opens starts range

/-- Settles O31. -/
theorem readPolls : Obligations.ReadPolls := by
  refine ⟨fun cont pwsel s polls ungated speed starts range yes =>
    read_picks polls ungated speed starts range yes, ?_⟩
  intro cont pwsel slot s i p n q k reads hp speed opens hq hk
  refine ⟨fun r v plain takes => ?_, fun e es fails => ?_⟩
  · have body := readsBlock_plain reads plain hp speed opens
    rw [readBytes_opened_takes hq hk takes] at body
    exact exec_readFinished body
  · obtain ⟨hk', k', body⟩ := readsBlock_opened reads hp speed opens
    obtain ⟨v, nb, ny, h, powered, which⟩ := readBytes_opened_fails hq hk fails
    rw [h] at body
    exact exec_readStopped hk' which powered (by simp) body

/-! ### The extra info and the device CRC -/

section
variable {es : List BusEvent} {nb ny : Nat} {c : Bool} {p : SpState}

/-- The extra-info transaction of a command on its way (42_paged.md R142). -/
theorem readExtra_came (absPage : Nat) (selected : s.bus.boolAnswer (s.bus.nBool + nb) = true) :
    readExtra absPage (s.came true es nb ny c p) =
      .ok (s.bus.byteAnswers (s.bus.nByte + ny) s.desc.extraLen)
        (s.came true (es ++ (prologueEvents s.desc true ++ transferEvents false
          (Config.seqExtra absPage) (s.bus.byteAnswers (s.bus.nByte + ny) s.desc.extraLen)))
          (nb + 1) (ny + s.desc.extraLen) c p) := by
  have yes : (s.came true es nb ny c p).bus.yes (s.came true es nb ny c p).prologueAsks := by
    intro j hj
    obtain rfl : j = 0 := by simpa [asksOf] using hj
    exact selected
  rw [readExtra_yes rfl yes, State.came_advance]
  simp [asksOf]

theorem readExtra_came_unselected (absPage : Nat)
    (unselected : s.bus.boolAnswer (s.bus.nBool + nb) = false) :
    readExtra absPage (s.came true es nb ny c p) =
      .raised .communication
        (s.came true (es ++ [.select s.desc.devAddr false]) (nb + 1) ny c p) := by
  rw [readExtra_unselected rfl rfl (by exact unselected), State.came_advance]
  rfl
end

/-- Settles O40. -/
theorem readPageExtraCompletes : Obligations.ReadPageExtraCompletes := by
  intro cont pwsel slot s q k r read extra hp speed starts has range opens hq hk takes hread hextra
  have body := bodyReadPageExtra_opened hp speed opens starts has range
  rw [readBytes_opened_takes hq hk takes, Run.bind_ok, ← hread] at body
  subst hq hk
  have question : s.bus.nBool + s.openAsks cont + r * retryAsks s.desc =
      s.bus.nBool + (s.openAsks cont + r * retryAsks s.desc) := Nat.add_assoc ..
  rw [question]
  refine ⟨fun unselected => ?_, fun selected => ?_⟩
  · rw [readExtra_came_unselected _ unselected] at body
    exact exec_busRaise (by simp [commandClass]) rfl (by simp) body
  · rw [readExtra_came _ selected] at body
    simp only [← Nat.add_assoc] at body hextra
    rw [← hextra, ← List.append_assoc] at body
    exact exec_readFinished body

/-- The device-CRC page transfer behind an opening (42_paged.md R143). -/
theorem readCrcPage_opened (cont : Bool) (slot : PwSlot) : ∃ u,
    u = s.came true (s.openEvents cont slot s.pagePhys ++
      transferEvents cont (Config.seqAutoCrcRead s.pagePhys)
        (s.bus.bytesAfter (s.openBytes cont) (s.desc.pageLen + 2))) (s.openAsks cont)
      (s.openBytes cont + (s.desc.pageLen + 2)) s.contOk s.spState.abandon ∧
    readCrcPage s.pagePhys cont (s.opened cont slot s.pagePhys) =
      if s.pageCrcAccepted cont then .ok (s.bus.bytesAfter (s.openBytes cont) s.desc.pageLen) u
      else .raised .integrity u := by
  refine ⟨_, rfl, ?_⟩
  rw [readCrcPage_eq rfl, State.opened]
  simp only [State.came_desc, State.came_speedOk, State.came_nByte, State.came_byteAnswers,
    State.came_advance]
  rfl

theorem BusRaise.parts {e : Err} {t : State} {es : List BusEvent} (h : BusRaise s t e es) :
    DirtyRaise s t e ∧ t.spState = s.spState.abandon ∧ SameStaged s t :=
  ⟨h.dirty, h.spState, h.staged⟩

/-- Settles O41. -/
theorem readPageCrcOutcome : Obligations.ReadPageCrcOutcome := by
  intro cont pwsel slot s hp speed starts crc range opens
  have body := bodyReadPageCrc_opened hp speed opens starts crc range
  obtain ⟨u, hu, page⟩ := readCrcPage_opened (s := s) cont slot
  rw [page, hu] at body
  by_cases accepted : s.pageCrcAccepted cont
  · rw [if_pos accepted] at body
    obtain ⟨t, ran, finished, events⟩ := exec_readFinished body
    exact ⟨t, ran, events, by rw [if_pos accepted]; exact finished⟩
  · rw [if_neg accepted] at body
    obtain ⟨t, ran, raised⟩ := exec_busRaise (by simp [commandClass]) rfl (by simp) body
    exact ⟨t, ran, raised.events, by rw [if_neg accepted]; exact raised.parts⟩

/-- Settles O42. -/
theorem readPageCrcExtraCompletes : Obligations.ReadPageCrcExtraCompletes := by
  intro cont pwsel slot s hp speed starts crc extra range opens
  have body := bodyReadPageCrcExtra_opened hp speed opens starts crc extra range
  obtain ⟨u, hu, page⟩ := readCrcPage_opened (s := s) cont slot
  rw [page, hu] at body
  refine ⟨fun rejected => ?_, fun accepted unselected => ?_, fun accepted yes => ?_⟩
  · rw [if_neg rejected] at body
    exact exec_busRaise (by simp [commandClass]) rfl (by simp) body
  · rw [if_pos accepted, Run.bind_ok, readExtra_came_unselected _ unselected] at body
    exact exec_busRaise (by simp [commandClass]) rfl (by simp) body
  · rw [if_pos accepted, Run.bind_ok, readExtra_came _ (yes _ (Nat.lt_succ_self _)),
      ← List.append_assoc] at body
    exact exec_readFinished body

/-! ### Packets -/

/-- `UdpDecode` in the words of R146, R147. -/
theorem udpDecode_eq (pageLen absPage : Nat) (raw : List Byte) :
    udpDecode pageLen absPage raw =
      if pageLen - 3 < (raw.getD 0 0).toNat then .formatError
      else if crc16 (raw.take ((raw.getD 0 0).toNat + 3)) (BitVec.ofNat 16 absPage) ≠ 0xB001 then
        .integrityError
      else .payload (raw.getD 0 0).toNat ((raw.drop 1).take (raw.getD 0 0).toNat) := by
  rw [← List.headD_eq_getD]
  rfl

/-- Settles O44. -/
theorem readPagePacketOutcome : Obligations.ReadPagePacketOutcome := by
  intro cont pwsel slot s q k r raw len hp speed starts range opens hq hk takes hraw hlen
  have body := bodyReadPagePacket_opened hp speed opens starts range
  rw [readBytes_opened_takes hq hk takes, Run.bind_ok, udpDecode_eq, ← hraw, ← hlen] at body
  by_cases long : s.desc.pageLen - 3 < len
  · rw [if_pos long] at body
    obtain ⟨t, ran, raised⟩ := exec_busRaise (by simp [commandClass]) rfl (by simp) body
    exact ⟨t, ran, raised.events, by rw [if_pos long]; exact raised.parts⟩
  · rw [if_neg long] at body
    by_cases wrong : crc16 (raw.take (len + 3)) (BitVec.ofNat 16 s.pageAbs) ≠ 0xB001
    · rw [if_pos wrong] at body
      obtain ⟨t, ran, raised⟩ := exec_busRaise (by simp [commandClass]) rfl (by simp) body
      exact ⟨t, ran, raised.events, by rw [if_neg long, if_pos wrong]; exact raised.parts⟩
    · rw [if_neg wrong] at body
      obtain ⟨t, ran, finished, events⟩ := exec_readFinished body
      exact ⟨t, ran, events, by rw [if_neg long, if_neg wrong]; exact finished⟩

/-! ### Where a read stops at its opening -/

/-- Settles O33. -/
theorem readRejected : Obligations.ReadRejected := by
  intro pwsel slot s i ta q es gated hp reaches yes
  obtain ⟨hk, c, k, body⟩ := reachesOpen_body hp reaches
  refine ⟨fun unpowered => ?_, fun powered wrong => ?_⟩
  · rw [openRead_unpowered (s := s.came s.speedOk es q 0 c s.spState.abandon) rfl slot ta gated
      (State.came_yes yes) ((congrArg s.bus.boolAnswer (Nat.add_assoc ..)).trans unpowered),
      Run.bind_raised, State.came_advance, ← List.append_assoc] at body
    exact exec_powerRaise hk (by simp) body
  · rw [openRead_rejected (s := s.came s.speedOk es q 0 c s.spState.abandon) rfl slot ta gated
      (State.came_yes (by exact yesFrom_succ yes powered)) wrong,
      Run.bind_raised, State.came_advance] at body
    exact exec_busRaise hk (clearsSpeed_of_busData hk (by simp)) (by simp) body

/-- Settles O34. -/
theorem readNotSelected : Obligations.ReadNotSelected := by
  intro s i speedOk q es reaches no
  obtain ⟨hk, c, p, k, hp, body⟩ := reachesPrologue_body reaches
  obtain ⟨v, nb, h⟩ := prologue_no (s := s.came speedOk es q 0 c p) rfl no
  rw [h, Run.bind_raised, State.came_advance] at body
  exact exec_busRaise hk (clearsSpeed_of_busData hk (by simp)) hp body

/-! ### Where a read traps -/

/-- The faults of every read come before anything else: F_DBUF, then F_CONT (60_exceptions.md
R207). -/
theorem read_faults {k : PwSlot → Run Done} (legal : pwsel ≠ 3)
    (body : commandBody i (s.start none) = withSlot pwsel fun slot =>
      withWindow n (s.start none) (withCont cont (s.start none) (k slot))) :
    (s.desc.dbufSize < s.argOff.toNat + n → exec i s = .next (plainFault .dbuf s)) ∧
    (s.argOff.toNat + n ≤ s.desc.dbufSize → cont = true → s.contOk = false →
      exec i s = .next (plainFault .cont s)) := by
  obtain ⟨slot, hp⟩ := slotOf_isSome legal
  rw [withSlot_is hp] at body
  refine ⟨fun outside => exec_of_faulted (body.trans ?_),
    fun inside continued no => exec_of_faulted (body.trans ?_)⟩
  · exact withWindow_of_lt (s := s.start none) _ outside
  · rw [withWindow_of_le (s := s.start none) _ inside, withCont, if_pos ⟨continued, no⟩]

/-- Settles O32. -/
theorem readTraps : Obligations.ReadTraps := by
  intro cont pwsel s legal
  obtain ⟨slot, hp⟩ := slotOf_isSome legal
  obtain ⟨window, continued⟩ := read_faults (i := .read cont pwsel) (s := s) legal rfl
  refine ⟨window, continued, fun starts outside => ?_⟩
  have body : commandBody (.read cont pwsel) (s.start none) = _ := readStarts_passes hp starts _
  rw [if_pos (by exact outside)] at body
  exact exec_startRaise (by simp [commandClass]) (by simp) body

/-- The rule of each page read up to its opening, with what the bank must have for it
(42_paged.md R140 to R147). -/
theorem pageRead_body {has : Bool}
    (reads : (i, has) ∈ [(.readPage cont pwsel, true),
      (.readPageExtra cont pwsel, s.desc.flagExtra), (.readPageCrc cont pwsel, s.desc.flagAutoCrc),
      (.readPageCrcExtra cont pwsel, s.desc.flagAutoCrc && s.desc.flagExtra),
      (.readPagePacket cont pwsel, true)]) :
    commandClass i ≠ .internal ∧ ∃ k : PwSlot → Run Done, commandBody i (s.start none) =
      withSlot pwsel fun slot => withWindow (outputWindow i s) (s.start none) <|
        withCont cont (s.start none) <|
          if has = false then .raised .capability (s.start none)
          else if (s.start none).pageOk = false then .raised .range (s.start none)
          else k slot := by
  simp only [List.mem_cons, Prod.mk.injEq, List.not_mem_nil, or_false] at reads
  rcases reads with ⟨rfl, rfl⟩ | ⟨rfl, rfl⟩ | ⟨rfl, rfl⟩ | ⟨rfl, rfl⟩ | ⟨rfl, rfl⟩
  · exact ⟨by simp [commandClass], _, rfl⟩
  · exact ⟨by simp [commandClass], _, rfl⟩
  · exact ⟨by simp [commandClass], _, rfl⟩
  · refine ⟨by simp [commandClass], ?_⟩
    simp only [Bool.and_eq_false_iff]
    exact ⟨_, rfl⟩
  · exact ⟨by simp [commandClass], _, rfl⟩

/-- Settles O43. -/
theorem pageReadTraps : Obligations.PageReadTraps := by
  intro cont pwsel s i has reads legal
  obtain ⟨slot, hp⟩ := slotOf_isSome legal
  obtain ⟨hk, k, body⟩ := pageRead_body reads
  obtain ⟨window, continued⟩ := read_faults legal body
  refine ⟨window, continued, fun starts lacks => exec_startRaise hk (by simp) ?_,
    fun starts found absent => exec_startRaise hk (by simp) ?_⟩
  · rw [body, readStarts_passes hp starts, if_pos lacks]
  · rw [body, readStarts_passes hp starts, if_neg (by simp [found]), if_pos]
    exact decide_eq_false (by simpa using absent)

/-! ### The poll is bounded -/

theorem withWindow_all {P : State → Prop} {k : Run Done} (h : k.All P) :
    (withWindow n s k).All P := by
  rcases withWindow_cases n s k with ⟨e, -⟩ | e <;> rw [e]
  · exact h
  · trivial

theorem withCont_all {P : State → Prop} {k : Run Done} (h : k.All P) :
    (withCont cont s k).All P := by
  unfold withCont
  split
  · trivial
  · exact h

/-- READ receives once for its first block and its challenge, and as often for every retry
(41_bank.md R121, R122). -/
theorem bodyRead_heard (cont : Bool) (pwsel : BitVec 2) (s : State) :
    (bodyRead cont pwsel s).All (Heard
      (s.desc.pwGated.toNat + (1 + (1 + s.desc.pwGated.toNat) * (s.desc.pollMax - 1))) s) := by
  refine withSlot_all fun slot _ => withWindow_all (withCont_all ?_)
  split
  · exact (raised_heard s _).weakenHeard (Nat.zero_le _)
  · refine (openRead_heard s.abandonSp cont slot s.argPhys).heard fun _ t ht => ?_
    have same : t.desc = s.desc := ht
    rw [← same]
    exact (readBytes_heard t s.argPhys s.argLen.toNat cont slot).heard (n := 0) fun d u _ =>
      ⟨rfl, [], (List.append_nil _).symm, Nat.zero_le _⟩

/-- Settles O38. -/
theorem pollIsBounded : Obligations.PollIsBounded := by
  intro cont pwsel s t es ran added
  rw [exec_next.mp ran] at added
  have events {P : State → Prop} (h : (bodyRead cont pwsel (s.start none)).All P) :=
    runCommand_events (i := .read cont pwsel) h added
  refine ⟨fun polls => ?_, ?_⟩
  · rw [← List.countP_eq_length_filter]
    rcases events (bodyRead_heard cont pwsel (s.start none)) with rfl | ⟨u, ⟨-, fs, hf, heard⟩, hu⟩
    · simp
    · rw [hu.unique hf]
      refine heard.trans (le_of_eq ?_)
      obtain ⟨m, hm⟩ := Nat.exists_eq_add_of_le polls
      simp only [State.start_desc, hm, Nat.add_sub_cancel_left]
      ring
  · have checks : (fun e => decide (e = .isPresent true ∨ e = .isPresent false)) =
        BusEvent.isPresenceCheck := by
      funext e
      cases e with
      | isPresent a => cases a <;> rfl
      | _ => rfl
    rw [checks, ← List.countP_eq_length_filter]
    rcases events (bodyRead_starts (s.start none) cont pwsel).all with
      rfl | ⟨u, ⟨fs, quiet, grows, -⟩, hu⟩
    · simp
    · obtain rfl : es = fs := hu.unique grows.trace
      exact ⟨quiet.checks, quiet.length⟩

end Sys2Proof.Machine
end

section
/-! WRITES that are not made through the scratchpad: the checks of `WriteBytes`, and a direct write,
or one of no byte, by its read-back (spec/41_bank.md R124 to R128, spec/42_paged.md R148). -/

namespace Sys2Proof.Machine

variable {i : Instr} {s : State} {pwsel : BitVec 2} {slot : PwSlot} {a : Nat} {xs : List Byte}

/-- The command is `WriteBytes(a, xs, slot)` and answers ARG_LEN: WRITE with its bytes, or
WRITE_PAGE_PACKET with the packet (41_bank.md R128, 42_paged.md R148). -/
structure State.WritesBytes (s : State) (i : Instr) (a : Nat) (xs : List Byte) (slot : PwSlot) :
    Prop where
  bus : commandClass i = .bus
  body : commandBody i (s.start none) =
    (writeBytes a xs slot { s.start none with contOk := false }).bind fun _ t =>
      .ok (.plain s.argLen) t

theorem write_writesBytes (hp : slotOf pwsel = some slot) (input : s.inputIs s.argLen.toNat xs) :
    s.WritesBytes (.write pwsel) s.argAddr.toNat xs slot :=
  ⟨rfl, bodyWrite_is hp input⟩

theorem writePagePacket_writesBytes (hp : slotOf pwsel = some slot)
    (input : s.inputIs s.argLen.toNat xs) (fits : s.argLen.toNat ≤ s.desc.maxPkt)
    (range : s.argPage.toNat < s.desc.pageCount) :
    s.WritesBytes (.writePagePacket pwsel) s.pageAddr (packetOf s.pageAbs xs) slot :=
  ⟨rfl, bodyWritePagePacket_is hp input fits range⟩

theorem State.WritesBytes.not_internal (h : s.WritesBytes i a xs slot) :
    commandClass i ≠ .internal := by
  rw [h.bus]
  simp

/-! ### The checks before any bus transfer -/

theorem writeBytes_beyond (h : s.desc.size < a + xs.length) :
    writeBytes a xs slot { s.start none with contOk := false } =
      .raised .range (s.came s.speedOk [] 0 0 false s.spState) := by
  rw [← s.came_start false s.spState]
  exact if_pos h

theorem writeCheck_fails (h : ¬ Writable s.desc) : writeCheck s = .raised .capability s := by
  refine if_pos ?_
  by_contra pass
  rw [not_or, not_and_or, Bool.not_eq_true, Bool.not_eq_false, Bool.not_eq_false] at pass
  exact h pass

theorem writeBytes_unwritable (range : a + xs.length ≤ s.desc.size) (h : ¬ Writable s.desc) :
    writeBytes a xs slot { s.start none with contOk := false } =
      .raised .capability (s.came s.speedOk [] 0 0 false s.spState) := by
  rw [show ({ s.start none with contOk := false } : State) = _ from s.came_start false s.spState,
    writeBytes, if_neg (not_lt.mpr (by exact range)), writeCheck_fails (by exact h),
    Run.bind_raised]

theorem writeBytes_powerless (range : a + xs.length ≤ s.desc.size) (writable : Writable s.desc)
    (missing : s.powerMissing) :
    ∃ nb, writeBytes a xs slot { s.start none with contOk := false } =
      .raised .powerUnavailable (s.came s.speedOk s.powerEvents nb 0 false s.spState) := by
  obtain ⟨nb, h⟩ := powerCheck_missing (s := s.came s.speedOk [] 0 0 false s.spState) rfl missing
  refine ⟨0 + nb, ?_⟩
  rw [show ({ s.start none with contOk := false } : State) = _ from s.came_start false s.spState,
    writeBytes, if_neg (not_lt.mpr (by exact range)), writeCheck_ok (by exact writable),
    Run.bind_ok, h, Run.bind_raised, State.came_advance]
  rfl

section
variable (writes : s.WritesBytes i a xs slot)
include writes

theorem exec_write_beyond (h : s.desc.size < a + xs.length) :
    exec i s = .next (earlyRaise .range s) :=
  exec_earlyRaise writes.not_internal (clearsSpeed_of_early (by simp)) rfl
    (writes.body.trans (by rw [writeBytes_beyond h]; rfl))

theorem exec_write_unwritable (range : a + xs.length ≤ s.desc.size) (h : ¬ Writable s.desc) :
    exec i s = .next (earlyRaise .capability s) :=
  exec_earlyRaise writes.not_internal (clearsSpeed_of_early (by simp)) rfl
    (writes.body.trans (by rw [writeBytes_unwritable range h]; rfl))

theorem exec_write_powerless (range : a + xs.length ≤ s.desc.size) (writable : Writable s.desc)
    (missing : s.powerMissing) :
    ∃ t, exec i s = .next t ∧ PowerRaise s t s.powerEvents s.speedOk := by
  obtain ⟨nb, h⟩ := writeBytes_powerless (slot := slot) range writable missing
  have body := writes.body
  rw [h] at body
  exact exec_powerRaise writes.not_internal rfl body

end

/-- A payload above MAX_PKT is a FormatError before anything else (42_paged.md R148). -/
theorem exec_packet_long (hp : slotOf pwsel = some slot) (input : s.inputIs s.argLen.toNat xs)
    (long : s.desc.maxPkt < s.argLen.toNat) :
    exec (.writePagePacket pwsel) s = .next (earlyRaise .format s) := by
  refine exec_earlyRaise (c := false) (by simp [commandClass]) rfl rfl ?_
  rw [← s.came_start false s.spState]
  exact ((withSlot_is hp _).trans (withInput_is input _)).trans (if_pos long)

theorem exec_packet_absent (hp : slotOf pwsel = some slot) (input : s.inputIs s.argLen.toNat xs)
    (fits : s.argLen.toNat ≤ s.desc.maxPkt) (absent : s.desc.pageCount ≤ s.argPage.toNat) :
    exec (.writePagePacket pwsel) s = .next (earlyRaise .range s) := by
  have page : (s.start none).pageOk = false := decide_eq_false (not_lt.mpr absent)
  refine exec_earlyRaise (c := false) (by simp [commandClass]) rfl rfl ?_
  rw [← s.came_start false s.spState]
  exact ((withSlot_is hp _).trans (withInput_is input _)).trans
    ((if_neg (not_lt.mpr fits)).trans (if_pos page))

/-- Settles O35. -/
theorem writeTraps : Obligations.WriteTraps := by
  intro pwsel s xs legal input
  obtain ⟨slot, hp⟩ := slotOf_isSome legal
  have write := write_writesBytes hp input
  refine ⟨?_, ?_, ?_, exec_packet_long hp input, exec_packet_absent hp input,
    fun wf fits range => ?_, fun wf fits range => ?_⟩
  · rw [← input.2.1]
    exact exec_write_beyond write
  · rw [← input.2.1]
    exact exec_write_unwritable write
  · rw [← input.2.1]
    exact exec_write_powerless write
  all_goals
    have packet := writePagePacket_writesBytes hp input fits range
    have within := packet_fits wf input.2.1 fits range
  · exact exec_write_unwritable packet within
  · exact exec_write_powerless packet within

/-! ### A direct write -/

section
variable (writes : s.WritesBytes i a xs slot) {p asks k : Nat} {sent opened : List BusEvent}
  (direct : s.desc.spPresent = false ∨ xs = []) (hp : p = s.desc.physOff + a)
  (range : a + xs.length ≤ s.desc.size) (writable : Writable s.desc)
  (hasks : asks = powerAsks s.desc + (if 0 < xs.length then s.prologueAsks else 0) +
    (if s.verify then asksOf (s.speedOk || decide (0 < xs.length)) + s.desc.pwGated.toNat else 0))
  (hk : k = s.bus.nByte + s.desc.pwGated.toNat) (yes : s.bus.yes asks)
  (accepted : s.verify = true → s.desc.pwGated = true →
    s.bus.byteAnswer s.bus.nByte = s.desc.pwAccept)
  (hsent : sent = s.powerEvents ++
    (if 0 < xs.length then directEvents s.desc s.speedOk p xs else []))
  (hopened : opened = openEvents s.desc (s.speedOk || decide (0 < xs.length)) false
    (s.pw.get slot).bytes p s.desc.pwAccept)
include writes direct hp range writable hasks hk yes accepted hsent hopened

/-- A direct write, or one of no byte, by the block its read-back ends with (41_bank.md R126). -/
theorem exec_write_direct (r : Nat)
    (takes : s.verify = true → s.TakesBlock (s.bus.nBool + asks) k xs.length r) :
    ∃ t, exec i s = .next t ∧
      AddedEvents s t (sent ++ (if s.verify then
        opened ++ s.pollEvents false (s.pw.get slot).bytes p xs.length k r else [])) ∧
      (if s.verify = true ∧ s.pollBlock k xs.length r ≠ xs then
        DirtyRaise s t .verification ∧ t.spState = s.spState.abandon ∧ SameStaged s t
       else QuietFinished s t s.argLen (s.speedOk || s.verify || decide (0 < xs.length))) := by
  have body := writes.body
  rw [writeBytes_direct range writable direct (Bus.yes_mono yes (by omega)), ← hp, ← hsent] at body
  cases hv : s.verify with
  | false =>
    rw [readBack_off (by exact hv)] at body
    obtain ⟨t, ran, finished, events⟩ := exec_quietFinished body
    exact ⟨t, ran, by simpa using events, by simpa using finished⟩
  | true =>
    rw [hv, if_pos rfl] at hasks
    obtain ⟨nb, ny, t, ht, back⟩ := readBack_came (fs := sent) (c := false)
      (p := s.spState.abandon) (ny := 0) hv p xs slot (by rw [← hasks]; exact yes)
      (accepted hv) (by rw [← hasks]) hk (takes hv)
    rw [back, ht, ← hopened] at body
    by_cases same : s.pollBlock k xs.length r ≠ xs
    · rw [if_pos same] at body
      obtain ⟨t, ran, raised⟩ := exec_busRaise writes.not_internal
        (clearsSpeed_of_busData writes.not_internal (by simp)) (by simp) body
      exact ⟨t, ran, raised.events, by rw [if_pos ⟨rfl, same⟩]; exact raised.parts⟩
    · rw [if_neg same] at body
      obtain ⟨t, ran, finished, events⟩ := exec_quietFinished body
      exact ⟨t, ran, events, by rw [if_neg (by simp [same])]; simpa using finished⟩

/-- A direct write, or one of no byte, a retry of whose read-back fails (41_bank.md R122, R126). -/
theorem exec_write_direct_fails (verify : s.verify = true) (e : Err) (es : List BusEvent)
    (fails : s.PollFails false (s.pw.get slot).bytes p xs.length (s.bus.nBool + asks) k e es) :
    ∃ t, exec i s = .next t ∧ ReadStopped s t e (sent ++ opened ++ es) := by
  have body := writes.body
  rw [writeBytes_direct range writable direct (Bus.yes_mono yes (by omega)), ← hp, ← hsent] at body
  rw [verify, if_pos rfl] at hasks
  obtain ⟨v, nb, ny, back, powered, which⟩ := readBack_came_fails (fs := sent) (c := false)
    (p := s.spState.abandon) (ny := 0) verify p xs slot (by rw [← hasks]; exact yes)
    (accepted verify) (by rw [← hasks]) hk fails
  rw [back, ← hopened, ← List.append_assoc] at body
  exact exec_readStopped writes.not_internal which powered (by simp) body

end

/-- Settles O36. -/
theorem writeDirectOutcome : Obligations.WriteDirectOutcome := by
  intro pwsel slot s xs p asks k sent opened hp direct input hphys range writable hasks hk yes
    accepted hsent hopened
  have write := write_writesBytes hp input
  have direct : s.desc.spPresent = false ∨ xs = [] :=
    direct.imp_right fun empty => List.length_eq_zero_iff.mp (by rw [input.2.1, empty]; rfl)
  rw [← input.2.1] at range
  exact ⟨exec_write_direct write direct hphys range writable hasks hk yes accepted hsent hopened,
    exec_write_direct_fails write direct hphys range writable hasks hk yes accepted hsent hopened⟩

/-! ### On a bank that asks no password -/

section
variable (ungated : s.desc.pwGated = false)
include ungated

theorem openEvents_ungated (v : Bool) (pw : List Byte) (ta : Nat) (b : Byte) :
    openEvents s.desc v false pw ta b = prologueEvents s.desc v := by
  simp [openEvents, ungated]

/-- Without a password the events of a poll send no secret. -/
theorem pollEvents_ungated (pw pw' : List Byte) (p n k r : Nat) :
    s.pollEvents false pw p n k r = s.pollEvents false pw' p n k r := by
  have retries : s.retryEvents pw p n k = s.retryEvents pw' p n k := by
    funext j
    simp only [State.retryEvents, openEvents_ungated ungated]
  rw [State.pollEvents, State.pollEvents, retries]

theorem pollFails_ungated {pw pw' : List Byte} {p n q k : Nat} {e : Err} {es : List BusEvent}
    (h : s.PollFails false pw p n q k e es) : s.PollFails false pw' p n q k e es := by
  cases h with
  | absent polls more busy no =>
    rw [pollEvents_ungated ungated pw pw']
    exact .absent polls more busy no
  | unopened polls more busy present no =>
    rw [pollEvents_ungated ungated pw pw']
    refine .unopened polls more busy present ?_
    cases no with
    | unselected no => exact .unselected no
    | unpowered gated yes no => exact absurd (ungated.symm.trans gated) (by decide)
    | rejected gated yes wrong => exact absurd (ungated.symm.trans gated) (by decide)

end

theorem ungated_of_wf {d : Descriptor} (wf : d.WF) (h : d.spPresent = false) :
    d.pwGated = false := by
  obtain ⟨-, -, -, -, -, -, -, gated, -⟩ := wf
  cases hg : d.pwGated with
  | false => rfl
  | true => exact absurd (h.symm.trans (gated hg).1) (by decide)

/-- Settles O45. -/
theorem writePagePacketCompletes : Obligations.WritePagePacketCompletes := by
  intro pwsel s xs packet asks sent wf legal direct input fits range writable hpacket hasks yes
    hsent
  obtain ⟨slot, hp⟩ := slotOf_isSome legal
  have ungated := ungated_of_wf wf direct
  have write := writePagePacket_writesBytes hp input fits range
  have within := packet_fits wf input.2.1 fits range
  rw [← hpacket] at write within
  have nonempty : 0 < packet.length := by simp [hpacket, packetOf]
  have questions : asks = powerAsks s.desc + (if 0 < packet.length then s.prologueAsks else 0) +
      (if s.verify then asksOf (s.speedOk || decide (0 < packet.length)) + s.desc.pwGated.toNat
        else 0) := by
    rw [hasks]
    cases s.verify <;> simp [nonempty, ungated, asksOf]
  have sending : sent = s.powerEvents ++ (if 0 < packet.length then
      directEvents s.desc s.speedOk s.pagePhys packet else []) := by
    rw [hsent, if_pos nonempty]
  have opening : prologueEvents s.desc true = openEvents s.desc
      (s.speedOk || decide (0 < packet.length)) false (s.pw.get slot).bytes s.pagePhys
        s.desc.pwAccept := by
    rw [openEvents_ungated ungated, decide_eq_true nonempty, Bool.or_true]
  have bytes : s.bus.nByte = s.bus.nByte + s.desc.pwGated.toNat := by simp [ungated]
  have accepted : s.verify = true → s.desc.pwGated = true →
      s.bus.byteAnswer s.bus.nByte = s.desc.pwAccept :=
    fun _ gated => absurd (ungated.symm.trans gated) (by decide)
  refine ⟨fun r takes => ?_, fun verify e es fails =>
    exec_write_direct_fails write (.inl direct) rfl within writable questions bytes yes accepted
      sending opening verify e es (pollFails_ungated ungated fails)⟩
  have done := exec_write_direct write (.inl direct) rfl within writable questions bytes yes
    accepted sending opening r takes
  rw [pollEvents_ungated ungated (s.pw.get slot).bytes [], decide_eq_true nonempty,
    Bool.or_true] at done
  exact done

end Sys2Proof.Machine
end

section
/-! WRITES THROUGH THE SCRATCHPAD. What the good rows of a write leave, how it ends behind them, and
where it stops (spec/41_bank.md R126, spec/44_scratchpad.md R182 to R190, spec/60_exceptions.md R204
to R206). -/

namespace Sys2Proof.Machine

variable {i : Instr} {s : State} {slot : PwSlot} {a p : Nat} {xs : List Byte}
  {rows : List (Nat × List Byte)}

/-! ### The rows of a write -/

/-- A row lies in the bytes of the write and in one row of the scratchpad (41_bank.md R126). -/
theorem bankRows_bounds {d : Descriptor} (h1 : 1 ≤ d.spSize) {fuel : Nat} : ∀ {p : Nat}
    {xs : List Byte}, ∀ r ∈ bankRows d fuel p xs,
      r.1 < p + xs.length ∧ r.2.length ≤ d.spSize := by
  induction fuel with
  | zero => exact fun r hr => absurd hr List.not_mem_nil
  | succ fuel ih =>
    intro p xs r hr
    rw [bankRows] at hr
    split_ifs at hr with empty
    · exact absurd hr List.not_mem_nil
    · have nonempty : 0 < xs.length := List.length_pos_iff.mpr empty
      rcases List.mem_cons.mp hr with rfl | hr
      · exact ⟨by omega, by simp only [List.length_take]; omega⟩
      · obtain ⟨within, size⟩ := ih r hr
        have room : p % d.spSize < d.spSize := Nat.mod_lt _ h1
        simp only [List.length_drop] at within
        exact ⟨by omega, size⟩

/-- Every row's address and length fit SP_TA and SP_LEN. -/
abbrev RowsFit (rows : List (Nat × List Byte)) : Prop :=
  ∀ r ∈ rows, r.1 < 65536 ∧ r.2.length < 512

/-- The bank of a write through the scratchpad: writable, its scratchpad of a well-formed size, its
addresses below 65536 (00_scope.md R6). -/
theorem scratchpadBank_of_wf {d : Descriptor} (wf : d.WF) (present : d.spPresent = true) :
    Writable d ∧ SpSized d ∧ d.physOff + d.size ≤ 65536 := by
  have sized := spBank_of_wf wf present
  obtain ⟨-, -, ⟨-, phys⟩, flags, pad, -⟩ := wf
  obtain ⟨-, -, readWrite, -, -⟩ := pad present
  refine ⟨⟨?_, .inl readWrite⟩, sized, phys⟩
  rw [readWrite, Bool.toNat_true] at flags
  exact Bool.toNat_eq_zero.mp (by omega)

theorem rowsFit_of_range (wf : s.desc.WF) (present : s.desc.spPresent = true)
    (range : a + xs.length ≤ s.desc.size) :
    RowsFit (bankRows s.desc xs.length (s.desc.physOff + a) xs) := by
  obtain ⟨-, ⟨h1, h2⟩, phys⟩ := scratchpadBank_of_wf wf present
  intro r hr
  obtain ⟨within, size⟩ := bankRows_bounds h1 r hr
  exact ⟨by omega, by omega⟩

/-! ### A state on the way with rows staged -/

/-- The state of a write on its way, with CONT_OK 0, SP_STATE `p` and what is staged. -/
def State.stagedOnWay (v : Bool) (es : List BusEvent) (nb ny : Nat) (p : SpState) (ta : Half)
    (n : BitVec 9) (e : Byte) (buf : List Byte) (s : State) : State :=
  { s.came v es nb ny false p with spTA := ta, spLen := n, spES := e, spBuf := buf }

section
variable {v : Bool} {es : List BusEvent} {nb ny : Nat} {q : SpState} {ta : Half} {n : BitVec 9}
  {e : Byte} {buf : List Byte}

theorem State.stagedOnWay_advance (v' : Bool) (es' : List BusEvent) (nb' ny' : Nat) :
    (s.stagedOnWay v es nb ny q ta n e buf).advance v' es' nb' ny' =
      s.stagedOnWay v' (es ++ es') (nb + nb') (ny + ny') q ta n e buf := by
  simp [State.stagedOnWay, State.came, State.advance, Nat.add_assoc]

theorem State.stagedOnWay_inRow (ta' : Nat) (ys : List Byte) (e' : Byte) (q' : SpState) :
    (s.stagedOnWay v es nb ny q ta n e buf).inRow ta' ys e' q' =
      s.stagedOnWay v es nb ny q' (BitVec.ofNat 16 ta') (BitVec.ofNat 9 ys.length) e'
        (ys ++ buf.drop ys.length) := rfl

/-- What of the staged registers stands for `rows`, the last of them in SP_TA and SP_LEN. -/
def HoldRows (s : State) (ta : Half) (n : BitVec 9) (rows : List (Nat × List Byte)) : Prop :=
  (rows = [] → ta = s.spTA ∧ n = s.spLen) ∧
    ∀ r ∈ rows.getLast?, ta = BitVec.ofNat 16 r.1 ∧ n = BitVec.ofNat 9 r.2.length

theorem holdRows_concat (s : State) (ta : Nat) (ys : List Byte) (rows : List (Nat × List Byte)) :
    HoldRows s (BitVec.ofNat 16 ta) (BitVec.ofNat 9 ys.length) (rows ++ [(ta, ys)]) :=
  ⟨by simp, by simp⟩

/-- The bytes in SPBUF behind `rows`, each laid over it (44_scratchpad.md R182). -/
def overlaid (rows : List (Nat × List Byte)) (buf : List Byte) : List Byte :=
  rows.foldl (fun buf r => r.2 ++ buf.drop r.2.length) buf

theorem overlaid_concat (ta : Nat) (ys : List Byte) (buf : List Byte) :
    overlaid (rows ++ [(ta, ys)]) buf = ys ++ (overlaid rows buf).drop ys.length := by
  simp [overlaid]

theorem rowsStaged_of_holdRows {t : State} (fit : RowsFit rows) (holds : HoldRows s ta n rows)
    (hta : t.spTA = ta) (hn : t.spLen = n) (hbuf : t.spBuf = overlaid rows s.spBuf) :
    RowsStaged s t rows := by
  obtain ⟨none, last⟩ := holds
  refine ⟨fun empty => ?_, fun r hr => ?_, hbuf⟩
  · rw [hta, hn]
    exact none empty
  · obtain ⟨small, short⟩ := fit r (List.mem_of_getLast? hr)
    obtain ⟨rfl, rfl⟩ := last r hr
    rw [hta, hn, BitVec.toNat_ofNat, BitVec.toNat_ofNat]
    exact ⟨Nat.mod_eq_of_lt small, Nat.mod_eq_of_lt short⟩

/-! ### The rows that are good -/

/-- The state a write through the scratchpad starts its rows in. -/
def State.beforeRows (s : State) : State :=
  s.came s.speedOk s.powerEvents (powerAsks s.desc) 0 false s.spState.abandon

/-- What the good rows of a write leave (41_bank.md R126). -/
theorem afterRows_onWay (slot : PwSlot) (s : State) (rows : List (Nat × List Byte)) :
    ∃ ta n, HoldRows s ta n rows ∧ rows.foldl (State.afterRow slot) s.beforeRows =
      s.stagedOnWay (s.speedOk || !rows.isEmpty)
        (s.powerEvents ++ s.rowsEvents (s.pw.get slot).bytes s.speedOk s.bus.nByte rows)
        (s.rowAsks rows.length) (rowsBytes s.desc rows)
        (if rows = [] then s.spState.abandon else .committed) ta n (s.echoAfter rows)
        (overlaid rows s.spBuf) := by
  obtain ⟨ta, n, eq, none, last⟩ := State.afterRows_eq slot s.beforeRows rows
  have events : s.beforeRows.rowsEvents (s.pw.get slot).bytes s.speedOk s.bus.nByte rows =
      s.rowsEvents (s.pw.get slot).bytes s.speedOk s.bus.nByte rows :=
    State.rowsEvents_congr (s := s) (t := s.beforeRows) rfl rfl _ _ _ _
  have way : s.beforeRows.advance (s.beforeRows.speedOk || !rows.isEmpty)
      (s.beforeRows.rowsEvents (s.beforeRows.pw.get slot).bytes s.beforeRows.speedOk
        s.beforeRows.bus.nByte rows) (s.beforeRows.rowsAsk rows.length)
      (rowsBytes s.beforeRows.desc rows) =
      s.came (s.speedOk || !rows.isEmpty) (s.powerEvents ++
        s.rowsEvents (s.pw.get slot).bytes s.speedOk s.bus.nByte rows) (s.rowAsks rows.length)
        (rowsBytes s.desc rows) false s.spState.abandon := by
    rw [← events, ← Nat.zero_add (rowsBytes s.desc rows)]
    exact State.came_advance ..
  refine ⟨ta, n, ⟨none, last⟩, ?_⟩
  rw [eq, way]
  rfl

/-! ### The read-back of a state on the way -/

theorem stagedOnWay_openFails {pw : List Byte} {so : Bool} {k m : Nat} {err : Err}
    {fs : List BusEvent} (h : s.OpenFails pw so k m p err fs) :
    (s.stagedOnWay v es nb ny q ta n e buf).OpenFails pw so k m p err fs :=
  State.OpenFails.congr (s := s) (t := s.stagedOnWay v es nb ny q ta n e buf) rfl rfl rfl h

theorem stagedOnWay_pollFails {pw : List Byte} {m k j : Nat} {err : Err} {fs : List BusEvent}
    (h : s.PollFails false pw p m k j err fs) :
    (s.stagedOnWay v es nb ny q ta n e buf).PollFails false pw p m k j err fs :=
  State.PollFails.congr (s := s) (t := s.stagedOnWay v es nb ny q ta n e buf) rfl rfl rfl h

theorem stagedOnWay_takes {k j m r : Nat} (h : s.TakesBlock k j m r) :
    (s.stagedOnWay v es nb ny q ta n e buf).TakesBlock k j m r :=
  State.TakesBlock.congr (s := s) (t := s.stagedOnWay v es nb ny q ta n e buf) rfl rfl rfl h

theorem stagedOnWay_pollBlock (k m r : Nat) :
    (s.stagedOnWay v es nb ny q ta n e buf).pollBlock k m r = s.pollBlock k m r :=
  State.pollBlock_congr (s := s) (t := s.stagedOnWay v es nb ny q ta n e buf) rfl rfl k m r

theorem stagedOnWay_pollEvents (pw : List Byte) (m k r : Nat) :
    (s.stagedOnWay v es nb ny q ta n e buf).pollEvents false pw p m k r =
      s.pollEvents false pw p m k r :=
  State.pollEvents_congr (s := s) (t := s.stagedOnWay v es nb ny q ta n e buf) rfl rfl false pw p m
    k r

theorem stagedOnWay_readOpens (yes : s.bus.yes (nb + (1 + s.desc.pwGated.toNat)))
    (accepted : s.desc.pwGated = true → s.bus.byteAnswer (s.bus.nByte + ny) = s.desc.pwAccept) :
    (s.stagedOnWay true es nb ny q ta n e buf).readOpens false :=
  State.came_readOpens (s := s) (v := true) (fs := es) (c := false) (p := q) yes accepted

section
variable (verify : s.verify = true) (p : Nat) (xs : List Byte) (slot : PwSlot)
include verify

/-- The read-back of a write on its way that does not open (41_bank.md R121, R126). -/
theorem readBack_onWay_unopened {err : Err} {fs : List BusEvent}
    (no : s.OpenFails (s.pw.get slot).bytes true (s.bus.nBool + nb) (s.bus.nByte + ny) p err fs) :
    ∃ v' nb' ny', readBack p xs slot (s.stagedOnWay true es nb ny q ta n e buf) =
        .raised err (s.stagedOnWay v' (es ++ fs) nb' ny' q ta n e buf) ∧
      (err = .powerUnavailable → v' = true) ∧
      err ∈ [.communication, .powerUnavailable, .authentication] := by
  obtain ⟨v', nb', ny', run, powered, which⟩ := openRead_fails
    (s := s.stagedOnWay true es nb ny q ta n e buf) (slot := slot) rfl
    (stagedOnWay_openFails no)
  rw [State.stagedOnWay_advance] at run
  refine ⟨v', nb + nb', ny + ny', ?_, powered, which⟩
  rw [readBack, if_pos (by exact verify), run, Run.bind_raised]

variable (yes : s.bus.yes (nb + (1 + s.desc.pwGated.toNat)))
  (accepted : s.desc.pwGated = true → s.bus.byteAnswer (s.bus.nByte + ny) = s.desc.pwAccept)
include yes accepted

/-- The read-back of a write on its way by the block it ends with (41_bank.md R122, R126). -/
theorem readBack_onWay {r : Nat}
    (takes : s.TakesBlock (s.bus.nBool + (nb + (1 + s.desc.pwGated.toNat)))
      (s.bus.nByte + ny + s.desc.pwGated.toNat) xs.length r) :
    ∃ nb' ny' t, t = s.stagedOnWay true (es ++ (openEvents s.desc true false (s.pw.get slot).bytes p
        (s.bus.byteAnswer (s.bus.nByte + ny)) ++ s.pollEvents false (s.pw.get slot).bytes p
        xs.length (s.bus.nByte + ny + s.desc.pwGated.toNat) r)) nb' ny' q ta n e buf ∧
      readBack p xs slot (s.stagedOnWay true es nb ny q ta n e buf) =
        if s.pollBlock (s.bus.nByte + ny + s.desc.pwGated.toNat) xs.length r ≠ xs then
          .raised .verification t
        else .ok () t := by
  rw [← Nat.add_assoc] at takes
  obtain ⟨nb', ny', t, ht, run⟩ := readBack_on (s := s.stagedOnWay true es nb ny q ta n e buf)
    rfl verify p xs slot (stagedOnWay_readOpens yes accepted)
    (stagedOnWay_takes takes)
  rw [stagedOnWay_pollEvents, State.stagedOnWay_advance] at ht
  rw [stagedOnWay_pollBlock] at run
  exact ⟨_, _, t, ht, run⟩

/-- The read-back of a write on its way, a retry of which fails (41_bank.md R122, R126). -/
theorem readBack_onWay_fails {err : Err} {fs : List BusEvent}
    (fails : s.PollFails false (s.pw.get slot).bytes p xs.length
      (s.bus.nBool + (nb + (1 + s.desc.pwGated.toNat)))
      (s.bus.nByte + ny + s.desc.pwGated.toNat) err fs) :
    ∃ v' nb' ny', readBack p xs slot (s.stagedOnWay true es nb ny q ta n e buf) =
        .raised err (s.stagedOnWay v' (es ++ (openEvents s.desc true false (s.pw.get slot).bytes p
          (s.bus.byteAnswer (s.bus.nByte + ny)) ++ fs)) nb' ny' q ta n e buf) ∧
      (err = .powerUnavailable → v' = true) ∧
      err ∈ [.communication, .powerUnavailable, .authentication] := by
  rw [← Nat.add_assoc] at fails
  obtain ⟨v', nb', ny', run, powered, which⟩ := readBack_fails
    (s := s.stagedOnWay true es nb ny q ta n e buf) rfl verify p xs slot
    (stagedOnWay_readOpens yes accepted)
    (stagedOnWay_pollFails fails)
  rw [State.stagedOnWay_advance] at run
  exact ⟨v', _, _, run, powered, which⟩

end

/-! ### Endings with rows staged -/

theorem echoAfter_concat (s : State) (init : List (Nat × List Byte)) (r : Nat × List Byte) :
    s.echoAfter (init ++ [r]) =
      if s.desc.spAddr then s.bus.byteAnswer (s.bus.nByte + rowsBytes s.desc init + 2) else 0 := by
  simp [State.echoAfter]

/-- A state with all rows committed, but for RESULT, ERR and SPEED_OK, is what a write through the
scratchpad leaves that does not stop. -/
theorem rowsWritten_of {t : State} {init : List (Nat × List Byte)} {ta' : Nat} {ys : List Byte}
    {r : Nat} {w : Half} (fit : RowsFit (init ++ [(ta', ys)]))
    (holds : HoldRows s ta n (init ++ [(ta', ys)]))
    (same : t = { s.stagedOnWay v es nb ny .committed ta n (s.echoAfter (init ++ [(ta', ys)]))
        (overlaid (init ++ [(ta', ys)]) s.spBuf) with
      result := t.result, err := t.err, speedOk := t.speedOk, busy := t.busy })
    (events : es = s.powerEvents ++
      s.rowsEvents (s.pw.get slot).bytes s.speedOk s.bus.nByte (init ++ [(ta', ys)]) ++
      (if s.verify then
        openEvents s.desc true false (s.pw.get slot).bytes p
          (s.bus.byteAnswer (s.bus.nByte + rowsBytes s.desc (init ++ [(ta', ys)]))) ++
        s.pollEvents false (s.pw.get slot).bytes p xs.length (s.backByte (init ++ [(ta', ys)])) r
       else []))
    (ending : if s.verify = true ∧
        s.pollBlock (s.backByte (init ++ [(ta', ys)])) xs.length r ≠ xs then
        RaisedWith s t .verification ∧ t.speedOk = false
      else FinishedWith s t w ∧ t.speedOk = true) :
    RowsWritten s t slot p xs init ta' ys r w := by
  have staged : RowsStaged s t (init ++ [(ta', ys)]) :=
    rowsStaged_of_holdRows fit holds (by rw [same]; rfl) (by rw [same]; rfl) (by rw [same]; rfl)
  obtain ⟨address, length⟩ := staged.last (ta', ys) (by simp)
  refine ⟨fun _ => by rw [same]; rfl, by rw [same]; rfl, address, length, staged.spBuf, ?_,
    by rw [same]; rfl, ?_, ⟨by rw [same]; rfl, by rw [same]; rfl⟩, by rw [same]; rfl, ?_, ending⟩
  · rw [← echoAfter_concat s init (ta', ys), same]
    rfl
  · rw [same]
    exact ⟨rfl, rfl, rfl, rfl, rfl, rfl, rfl, rfl, rfl, rfl, rfl, rfl, rfl⟩
  · rw [AddedEvents, ← events, same]
    rfl

/-- A write through the scratchpad that raises with the rows staged as its stage says stops there
(60_exceptions.md R204 to R206). -/
theorem exec_rowStopped {init : List (Nat × List Byte)} {ta' : Nat} {ys : List Byte}
    {stage : RowStage} {err : Err} (bus : commandClass i = .bus)
    (fit : RowsFit (init ++ [(ta', ys)]))
    (holds : HoldRows s ta n (if stage = .untouched then init else init ++ [(ta', ys)]))
    (clears : err = .powerUnavailable ∨ ∀ c ≠ CommandClass.internal, clearsSpeed c err = true)
    (powered : err = .powerUnavailable → v = true) (hq : q.abandon = s.stopState init stage)
    (h : commandBody i (s.start none) = .raised err (s.stagedOnWay v es nb ny q ta n
      (s.stopEcho init (ta', ys) stage)
      (overlaid (if stage = .untouched then init else init ++ [(ta', ys)]) s.spBuf))) :
    ∃ t, exec i s = .next t ∧ RowStopped s t init ta' ys stage err es := by
  have fits : RowsFit (if stage = .untouched then init else init ++ [(ta', ys)]) := by
    split_ifs
    · exact fun r hr => fit r (List.mem_append_left _ hr)
    · exact fit
  refine ⟨_, exec_of_raised h, ?_⟩
  rw [bus]
  refine ⟨⟨rfl, rfl, rfl, rfl, fun _ => rfl⟩, rfl, ?_, rfl, hq,
    rowsStaged_of_holdRows fits holds rfl rfl rfl, rfl,
    ⟨rfl, rfl, rfl, rfl, rfl, rfl, rfl, rfl, rfl, rfl, rfl, rfl, rfl⟩, ⟨rfl, rfl⟩, rfl⟩
  change (v && !clearsSpeed .bus err) = decide (err = .powerUnavailable)
  rcases clears with rfl | clears
  · rw [powered rfl]
    rfl
  · have cleared := clears .bus (by simp)
    have other : err ≠ .powerUnavailable := by
      rintro rfl
      cases cleared
    rw [cleared, decide_eq_false other, Bool.not_true, Bool.and_false]

end

/-! ### `WriteBytes` through the scratchpad -/

theorem beforeRows_yes (h : s.bus.yes (s.rowAsks rows.length)) :
    s.beforeRows.bus.yes (if rows = [] then 0 else
      s.beforeRows.prologueAsks - 1 + rows.length * (4 + 2 * s.beforeRows.desc.pwGated.toNat)) := by
  refine State.came_yes ?_
  cases rows with
  | nil => exact h
  | cons r rest => exact h

section
variable (wf : s.desc.WF) (present : s.desc.spPresent = true)
include wf present

/-- Good rows let the write go on with what is left of it. -/
theorem writeChunks_good (slot : PwSlot) {later : List (Nat × List Byte)}
    (cut : bankRows s.desc xs.length p xs = rows ++ later)
    (asks : s.bus.yes (s.rowAsks rows.length)) (accepted : s.rowsAccepted s.bus.nByte rows) :
    ∃ fuel' p' xs', xs'.length ≤ fuel' ∧ bankRows s.desc fuel' p' xs' = later ∧
      writeChunks slot xs.length p xs s.beforeRows =
        writeChunks slot fuel' p' xs' (rows.foldl (State.afterRow slot) s.beforeRows) := by
  obtain ⟨-, ⟨h1, h2⟩, -⟩ := scratchpadBank_of_wf wf present
  exact writeChunks_rows slot rows later xs.length p xs s.beforeRows rfl le_rfl h1 h2 cut
    (beforeRows_yes asks)
    ((State.rowsAccepted_congr (s := s) (t := s.beforeRows) rfl rfl _ _).mpr accepted)

variable (range : a + xs.length ≤ s.desc.size) (hp : p = s.desc.physOff + a)
include range hp

/-- A write through the scratchpad up to its read-back (41_bank.md R126). -/
theorem writeBytes_chunks (slot : PwSlot) (yes : s.bus.yes (powerAsks s.desc)) :
    writeBytes a xs slot { s.start none with contOk := false } =
      (writeChunks slot xs.length p xs s.beforeRows).bind fun _ t =>
        readBack (t.desc.physOff + a) xs slot t := by
  obtain ⟨writable, -, -⟩ := scratchpadBank_of_wf wf present
  rw [writeBytes_checked range writable yes, transferBytes, if_pos (by exact present), hp]
  rfl

/-- Where every row is good the write comes to its read-back. -/
theorem writeBytes_rows (slot : PwSlot) (cut : bankRows s.desc xs.length p xs = rows)
    (asks : s.bus.yes (s.rowAsks rows.length)) (accepted : s.rowsAccepted s.bus.nByte rows) :
    writeBytes a xs slot { s.start none with contOk := false } =
      readBack p xs slot (rows.foldl (State.afterRow slot) s.beforeRows) := by
  obtain ⟨fuel', p', xs', fuel, none, eq⟩ := writeChunks_good wf present slot
    (later := []) (by rw [cut, List.append_nil]) asks accepted
  obtain ⟨ta, n, -, after⟩ := afterRows_onWay slot s rows
  rw [writeBytes_chunks wf present range hp slot (Bus.yes_mono asks (Nat.le_add_right _ _)), eq,
    after, writeChunks_nil fuel (by exact none), Run.bind_ok, hp]
  rfl

/-- The read-back of a write whose rows were all good begins in this state. -/
theorem writeBytes_rows_onWay (slot : PwSlot) {init : List (Nat × List Byte)} {ta' : Nat}
    {ys : List Byte} (cut : bankRows s.desc xs.length p xs = init ++ [(ta', ys)])
    (asks : s.bus.yes (s.rowAsks (init ++ [(ta', ys)]).length))
    (accepted : s.rowsAccepted s.bus.nByte (init ++ [(ta', ys)])) :
    RowsFit (init ++ [(ta', ys)]) ∧ ∃ ta n, HoldRows s ta n (init ++ [(ta', ys)]) ∧
      writeBytes a xs slot { s.start none with contOk := false } =
        readBack p xs slot (s.stagedOnWay true (s.powerEvents ++
            s.rowsEvents (s.pw.get slot).bytes s.speedOk s.bus.nByte (init ++ [(ta', ys)]))
          (s.rowAsks (init ++ [(ta', ys)]).length) (rowsBytes s.desc (init ++ [(ta', ys)]))
          .committed ta n (s.echoAfter (init ++ [(ta', ys)]))
          (overlaid (init ++ [(ta', ys)]) s.spBuf)) := by
  obtain ⟨ta, n, holds, after⟩ := afterRows_onWay slot s (init ++ [(ta', ys)])
  rw [if_neg (by simp), show (s.speedOk || !(init ++ [(ta', ys)]).isEmpty) = true by simp] at after
  refine ⟨?_, ta, n, holds, ?_⟩
  · rw [← cut, hp]
    exact rowsFit_of_range wf present range
  · rw [writeBytes_rows wf present range hp slot cut asks accepted, after]

variable (writes : s.WritesBytes i a xs slot) {init : List (Nat × List Byte)} {ta : Nat}
  {ys : List Byte}
include writes

/-- A write through the scratchpad that is answered well (41_bank.md R126). -/
theorem exec_write_rows {r : Nat} (good : s.RowsGood p xs (init ++ [(ta, ys)]) r) :
    ∃ t, exec i s = .next t ∧ RowsWritten s t slot p xs init ta ys r s.argLen := by
  obtain ⟨cut, asks, accepted, authenticated, taken⟩ := good
  obtain ⟨fit, ta', n, holds, run⟩ := writeBytes_rows_onWay wf present range hp slot cut.symm
    (Bus.yes_mono asks (Nat.le_add_right _ _)) accepted
  have body := writes.body
  rw [run] at body
  cases hv : s.verify with
  | false =>
    rw [readBack_off (by exact hv), Run.bind_ok] at body
    refine ⟨_, exec_of_ok body, rowsWritten_of fit holds rfl (by simp [hv]) ?_⟩
    rw [if_neg (by simp [hv])]
    exact ⟨⟨rfl, rfl, rfl, rfl⟩, rfl⟩
  | true =>
    rw [hv, if_pos rfl] at asks
    obtain ⟨nb, ny, t, ht, back⟩ := readBack_onWay hv p xs slot asks (authenticated hv) (taken hv)
    rw [back, ht] at body
    by_cases same : s.pollBlock (s.backByte (init ++ [(ta, ys)])) xs.length r = xs
    · rw [if_neg (by exact not_not.mpr same)] at body
      refine ⟨_, exec_of_ok body, rowsWritten_of fit holds rfl (by simp [hv, State.backByte]) ?_⟩
      rw [if_neg (by simp [same])]
      exact ⟨⟨rfl, rfl, rfl, rfl⟩, rfl⟩
    · rw [if_pos (by exact same)] at body
      have ran := exec_of_raised body
      rw [writes.bus] at ran
      refine ⟨_, ran, rowsWritten_of fit holds (v := true) (nb := nb) (ny := ny) rfl
        (by simp [hv, State.backByte]) ?_⟩
      rw [if_pos ⟨hv, same⟩]
      exact ⟨⟨rfl, rfl, rfl, rfl, fun _ => rfl⟩, rfl⟩

omit wf present range hp writes in
/-- The errors of an opening, by what they do to SPEED_OK (60_exceptions.md R205). -/
theorem opening_clears {e : Err} (h : e ∈ [.communication, .powerUnavailable, .authentication]) :
    e = .powerUnavailable ∨ ∀ c ≠ CommandClass.internal, clearsSpeed c e = true := by
  simp only [List.mem_cons, List.not_mem_nil, or_false] at h
  rcases h with rfl | rfl | rfl
  · exact .inr fun c hc => clearsSpeed_of_busData hc (by simp)
  · exact .inl rfl
  · exact .inr fun c hc => clearsSpeed_of_busData hc (by simp)

/-- A write whose row is not good stops there, with what that row had staged (41_bank.md R126). -/
theorem exec_write_row_stops {stage : RowStage} {e : Err} {es : List BusEvent}
    {later : List (Nat × List Byte)}
    (cut : bankRows s.desc xs.length p xs = init ++ (ta, ys) :: later)
    (asks : s.bus.yes (s.rowAsks init.length)) (accepted : s.rowsAccepted s.bus.nByte init)
    (no : s.RowFails (s.pw.get slot).bytes (s.speedOk || !init.isEmpty)
      (s.bus.nBool + s.rowAsks init.length) (s.bus.nByte + rowsBytes s.desc init) ta ys stage
      e es) :
    ∃ t, exec i s = .next t ∧ RowStopped s t init ta ys stage e (s.powerEvents ++
      (s.rowsEvents (s.pw.get slot).bytes s.speedOk s.bus.nByte init ++ es)) := by
  obtain ⟨-, ⟨h1, h2⟩, -⟩ := scratchpadBank_of_wf wf present
  have fit : RowsFit (init ++ [(ta, ys)]) := by
    have all := rowsFit_of_range wf present range
    rw [← hp, cut, List.append_cons] at all
    exact fun r hr => all r (List.mem_append_left _ hr)
  obtain ⟨ta', n, holds, after⟩ := afterRows_onWay slot s init
  obtain ⟨fuel', p', xs', fuel, cut', good⟩ := writeChunks_good wf present slot cut asks accepted
  have chunks := writeBytes_chunks wf present range hp slot
    (Bus.yes_mono asks (Nat.le_add_right _ _))
  rw [good, after] at chunks
  generalize hu : s.stagedOnWay _ _ _ _ _ ta' n _ _ = u at chunks
  have first : s.RowFails (u.pw.get slot).bytes u.speedOk u.bus.nBool u.bus.nByte ta ys stage e
      es := by rw [← hu]; exact no
  have failing := first.congr (t := u) (by rw [← hu]; rfl) (by rw [← hu]; rfl) (by rw [← hu]; rfl)
  obtain ⟨short, fuel'', p'', xs'', -, -, step⟩ := writeChunks_cons (s := u) slot
    (by rw [← hu]; exact h1) fuel (by rw [← hu]; exact cut')
  obtain ⟨clears, w, run, stopped⟩ := rowSteps_stops (s := u) (by rw [← hu]; rfl)
    (short.trans (by rw [← hu]; exact h2)) failing (writeChunks slot fuel'' p'' xs'')
  have body := writes.body
  rw [chunks, step, run] at body
  cases stopped with
  | untouched v nb ny other =>
    rw [← hu, State.stagedOnWay_advance, List.append_assoc] at body
    refine exec_rowStopped (stage := .untouched) writes.bus fit holds clears
      (fun powerless => absurd powerless other) ?_ body
    rw [State.stopState]
    split_ifs
    · exact SpState.abandon_abandon _
    · rfl
  | staged v nb ny other =>
    rw [← hu, State.stagedOnWay_advance, State.stagedOnWay_inRow, List.append_assoc,
      ← overlaid_concat] at body
    exact exec_rowStopped (stage := .staged) writes.bus fit (holdRows_concat s ta ys init) clears
      (fun powerless => absurd powerless other) rfl body
  | verified v nb ny q hq powered =>
    have echo : u.echo = s.echoAfter (init ++ [(ta, ys)]) := by
      rw [echoAfter_concat, ← hu]
      rfl
    rw [echo, ← hu, State.stagedOnWay_advance, State.stagedOnWay_inRow, List.append_assoc,
      ← overlaid_concat] at body
    exact exec_rowStopped (stage := .verified) writes.bus fit (holdRows_concat s ta ys init) clears
      powered hq body

/-- A write through the scratchpad that stops (41_bank.md R126). -/
theorem exec_write_stops {stage : RowStage} {e : Err} {es : List BusEvent}
    (stops : s.WriteStops (s.pw.get slot).bytes p xs init ta ys stage e es) :
    ∃ t, exec i s = .next t ∧ RowStopped s t init ta ys stage e (s.powerEvents ++ es) := by
  cases stops with
  | row later cut asks accepted no =>
    exact exec_write_row_stops wf present range hp writes cut asks accepted no
  | back verify cut asks accepted no =>
    obtain ⟨fit, ta', n, holds, run⟩ := writeBytes_rows_onWay wf present range hp slot cut
      (by simpa using asks) accepted
    have length : (init ++ [(ta, ys)]).length = init.length + 1 := List.length_append
    obtain ⟨v, nb, ny, back, powered, which⟩ := readBack_onWay_unopened (ta := ta') (n := n)
      (nb := s.rowAsks (init.length + 1)) (es := s.powerEvents ++
        s.rowsEvents (s.pw.get slot).bytes s.speedOk s.bus.nByte (init ++ [(ta, ys)]))
      (q := .committed) (e := s.echoAfter (init ++ [(ta, ys)]))
      (buf := overlaid (init ++ [(ta, ys)]) s.spBuf) verify p xs slot no
    have body := writes.body
    rw [run, length, back, List.append_assoc] at body
    exact exec_rowStopped (stage := .committed) writes.bus fit holds (opening_clears which) powered
      rfl body
  | poll verify cut asks accepted authenticated no =>
    obtain ⟨fit, ta', n, holds, run⟩ := writeBytes_rows_onWay wf present range hp slot cut
      (by simpa using Bus.yes_mono asks (Nat.le_add_right _ _)) accepted
    have length : (init ++ [(ta, ys)]).length = init.length + 1 := List.length_append
    rw [State.backQuestion, State.backByte, length] at no
    obtain ⟨v, nb, ny, back, powered, which⟩ := readBack_onWay_fails (ta := ta') (n := n)
      (es := s.powerEvents ++
        s.rowsEvents (s.pw.get slot).bytes s.speedOk s.bus.nByte (init ++ [(ta, ys)]))
      (q := .committed) (e := s.echoAfter (init ++ [(ta, ys)]))
      (buf := overlaid (init ++ [(ta, ys)]) s.spBuf) verify p xs slot asks authenticated no
    have opened : openEvents s.desc true false (s.pw.get slot).bytes p
        (s.bus.byteAnswer (s.bus.nByte + rowsBytes s.desc (init ++ [(ta, ys)]))) =
        openEvents s.desc true false (s.pw.get slot).bytes p s.desc.pwAccept := by
      cases gated : s.desc.pwGated with
      | false => rw [openEvents_ungated gated, openEvents_ungated gated]
      | true => rw [authenticated gated]
    have body := writes.body
    rw [run, length, back, opened, List.append_assoc, ← List.append_assoc (s.rowsEvents _ _ _ _)]
      at body
    exact exec_rowStopped (stage := .committed) writes.bus fit holds (opening_clears which) powered
      rfl body

end

/-- Settles O37. -/
theorem writeRowCompletes : Obligations.WriteRowCompletes := by
  intro pwsel slot s xs init ta ys wf hp present input
  refine ⟨fun range => ?_, fun fits range => ?_⟩
  · rw [← input.2.1] at range
    have write := write_writesBytes hp input
    exact ⟨fun r => exec_write_rows wf present range rfl write,
      fun stage e es => exec_write_stops wf present range rfl write⟩
  · have packet := writePagePacket_writesBytes hp input fits range
    have within := packet_fits wf input.2.1 fits range
    exact ⟨fun r => exec_write_rows wf present within rfl packet,
      fun stage e es => exec_write_stops wf present within rfl packet⟩

end Sys2Proof.Machine
end

section
/-! OTP. The page-lock and redirect commands: the three queries, the three one-way transitions by
the status read back, and their checks (spec/43_otp.md R160 to R168). -/

namespace Sys2Proof.Machine

variable {i : Instr} {s : State} {seq status : List Byte} {b : Byte}

/-! ### The queries -/

theorem boolHalf_beq (b x : Byte) : boolHalf (b == x) = if b = x then 1 else 0 := by
  by_cases same : b = x
  · simp [boolHalf, same]
  · simp [boolHalf, same, beq_eq_false_iff_ne.mpr same]

section
variable {supported : Bool} {answer : Byte → Half}
  (query : commandBody i (s.start none) = otpQuery supported seq answer (s.start none))
include query

/-- An unsupported query answers 0 with no bus event (43_otp.md R162, R164, R166). -/
theorem exec_otpQuery_unsupported (h : supported = false) :
    exec i s = .next (plainFinish 0 { s with contOk := false }) :=
  exec_of_plain (t := { s with contOk := false }) (query.trans (if_pos h))

theorem exec_otpQuery_absent (bus : commandClass i ≠ .internal) (h : supported = true)
    (absent : s.desc.pageCount ≤ s.argPage.toNat) :
    exec i s = .next (earlyRaise .range s) := by
  have page : (s.start none).pageOk = false := decide_eq_false (not_lt.mpr absent)
  refine exec_earlyRaise (c := false) bus (clearsSpeed_of_early (by simp)) rfl ?_
  rw [← s.came_start false s.spState, query]
  exact (if_neg (by simp [h])).trans (if_pos page)

/-- A supported query of an existing page answers what the status byte says. -/
theorem exec_otpQuery_answered (h : supported = true) (range : s.argPage.toNat < s.desc.pageCount)
    (yes : s.bus.yes s.prologueAsks) (hb : b = s.bus.byteAnswer s.bus.nByte) :
    ∃ t, exec i s = .next t ∧ QuietFinished s t (answer b) true ∧
      AddedEvents s t (statusEvents s.desc s.speedOk seq b) := by
  have page : (s.start none).pageOk = true := decide_eq_true range
  have read := statusRead_yes (s := s.came s.speedOk [] 0 0 false s.spState.abandon) rfl
    (State.came_yes (by rw [Nat.zero_add]; exact yes)) seq
  rw [State.came_advance] at read
  have body : commandBody i (s.start none) =
      (statusRead seq (s.came s.speedOk [] 0 0 false s.spState.abandon)).bind fun b t =>
        .ok (.plain (answer b)) t := by
    rw [query, otpQuery, if_neg (by simp [h]), if_neg (by simp [page]), ← s.came_start]
    rfl
  rw [read, Run.bind_ok] at body
  subst hb
  exact exec_quietFinished body

end

/-- Settles O48. -/
theorem otpQueries : Obligations.OtpQueries := by
  intro s b
  refine ⟨exec_otpQuery_unsupported (i := .isPageLocked) rfl,
    exec_otpQuery_unsupported (i := .getRedirectedPage) rfl,
    exec_otpQuery_unsupported (i := .isRedirectPageLocked) rfl, fun absent => ⟨fun can => ?_,
      fun can => ?_, fun can => ?_⟩, fun range yes hb => ⟨fun can => ?_, fun can => ?_,
      fun can => ?_⟩⟩
  · exact exec_otpQuery_absent rfl (by simp [commandClass]) can absent
  · exact exec_otpQuery_absent rfl (by simp [commandClass]) can absent
  · exact exec_otpQuery_absent rfl (by simp [commandClass]) can absent
  · rw [← boolHalf_beq]
    exact exec_otpQuery_answered (i := .isPageLocked) rfl can range yes hb
  · exact exec_otpQuery_answered (i := .getRedirectedPage) rfl can range yes hb
  · rw [← boolHalf_beq]
    exact exec_otpQuery_answered (i := .isRedirectPageLocked) rfl can range yes hb

/-! ### The one-way transitions -/

/-- The device part of a one-way transition where every question is answered yes (43_otp.md R160,
R161, R163, R165). -/
theorem otpMutate_answered (confirms : Byte → Bool) (v : Half)
    (yes : s.bus.yes (powerAsks s.desc + s.prologueAsks + 1))
    (hb : b = s.bus.byteAnswer s.bus.nByte) :
    ∃ nb ny t, t = s.came true (s.powerEvents ++ programEvents s.desc s.speedOk seq ++
        statusEvents s.desc true status b) nb ny false s.spState.abandon ∧
      otpMutate seq status confirms v (s.came s.speedOk [] 0 0 false s.spState) =
        if confirms b then .ok (.plain v) t else .raised .verification t := by
  have program : s.bus.yes (powerAsks s.desc + s.prologueAsks) := Bus.yes_mono yes (by omega)
  refine ⟨powerAsks s.desc + s.prologueAsks + 1, 1, _, rfl, ?_⟩
  rw [otpMutate, State.came_powerCheck (Bus.yes_mono yes (by omega)), Run.bind_ok,
    State.came_abandonSp, programSend_yes rfl (State.came_yes (by exact program)), Run.bind_ok,
    State.came_advance, statusRead_yes rfl (State.came_yes (by exact yes)), Run.bind_ok,
    State.came_advance, hb]
  rfl

/-- A one-way transition finishes where the status byte confirms it, and raises VerificationError
where it does not (43_otp.md R161, R163, R165). -/
theorem exec_otpMutate {confirms : Byte → Bool} {v : Half} {asked : Prop} [Decidable asked]
    (bus : commandClass i ≠ .internal)
    (mutates : commandBody i (s.start none) =
      otpMutate seq status confirms v { s.start none with contOk := false })
    (yes : s.bus.yes 5) (hb : b = s.bus.byteAnswer s.bus.nByte)
    (decides : confirms b = true ↔ asked) :
    ∃ t, exec i s = .next t ∧
      AddedEvents s t (s.powerEvents ++ programEvents s.desc s.speedOk seq ++
        statusEvents s.desc true status b) ∧
      (if asked then QuietFinished s t v true
       else DirtyRaise s t .verification ∧ t.spState = s.spState.abandon ∧ SameStaged s t) := by
  have enough : powerAsks s.desc + s.prologueAsks + 1 ≤ 5 := by
    have := Bool.toNat_le s.desc.flagPDeliv
    have := Bool.toNat_le s.desc.flagPPulse
    have : s.prologueAsks ≤ 2 := by rw [State.prologueAsks]; split <;> omega
    rw [powerAsks]
    omega
  obtain ⟨nb, ny, t, ht, runs⟩ := otpMutate_answered (seq := seq) (status := status) confirms v
    (Bus.yes_mono yes enough) hb
  rw [show ({ s.start none with contOk := false } : State) = _ from s.came_start false s.spState,
    runs, ht] at mutates
  by_cases confirmed : confirms b = true
  · rw [if_pos confirmed] at mutates
    obtain ⟨t, ran, finished, events⟩ := exec_quietFinished mutates
    exact ⟨t, ran, events, by rwa [if_pos (decides.mp confirmed)]⟩
  · rw [if_neg confirmed] at mutates
    obtain ⟨t, ran, raised⟩ := exec_busRaise bus (clearsSpeed_of_busData bus (by simp)) (by simp)
      mutates
    exact ⟨t, ran, raised.events, by rw [if_neg (mt decides.mpr confirmed)]; exact raised.parts⟩

section
variable (range : s.argPage.toNat < s.desc.pageCount)
include range

theorem lockPage_body (can : s.desc.canLock = true) :
    commandBody .lockPage (s.start none) =
      otpMutate (Config.seqLock s.pageAbs s.desc.lockKey) (Config.seqLockStatus s.pageAbs)
        (fun b => b == s.desc.lockedSentinel) 1 { s.start none with contOk := false } :=
  (if_neg (by simp [can])).trans (if_neg (by simp [State.pageOk, range]))

theorem lockRedirectPage_body (can : s.desc.canLockRedirect = true) :
    commandBody .lockRedirectPage (s.start none) =
      otpMutate (Config.seqLockRedirect s.pageAbs s.desc.lockKey)
        (Config.seqRedirectLockStatus s.pageAbs) (fun b => b == s.desc.rlockedSentinel) 1
        { s.start none with contOk := false } :=
  (if_neg (by simp [can])).trans (if_neg (by simp [State.pageOk, range]))

theorem redirectPage_body (can : s.desc.canRedirect = true) (named : s.argPage2 ≠ 0)
    (target : s.argPage2.toNat ≤ s.desc.pageCount - 1) :
    commandBody .redirectPage (s.start none) =
      otpMutate (Config.seqRedirect s.pageAbs s.argPage2.toNat) (Config.seqRedirectStatus s.pageAbs)
        (fun b => redirectDecode s.desc b == s.argPage2.toNat) s.argPage2
        { s.start none with contOk := false } := by
  have legal : ¬ (s.argPage2 = 0 ∨ s.desc.redirectMax < s.argPage2.toNat) :=
    not_or.mpr ⟨named, not_lt.mpr target⟩
  exact (if_neg (by simp [can])).trans
    ((if_neg (by simp [State.pageOk, range])).trans (if_neg legal))

end

/-- Settles O49. -/
theorem otpMutations : Obligations.OtpMutations := by
  intro s b range yes hb
  exact ⟨fun can => exec_otpMutate (by simp [commandClass]) (lockPage_body range can) yes hb
      beq_iff_eq,
    fun can => exec_otpMutate (by simp [commandClass]) (lockRedirectPage_body range can) yes hb
      beq_iff_eq,
    fun can named target => exec_otpMutate (by simp [commandClass])
      (redirectPage_body range can named target) yes hb beq_iff_eq⟩

/-! ### The checks of the transitions -/

/-- A start check raises behind the clearing of CONT_OK, as in the OTP and the scratchpad commands
(43_otp.md R160, 44_scratchpad.md R183 to R191). -/
theorem exec_refused {e : Err} (bus : commandClass i ≠ .internal)
    (he : e ∈ [.range, .capability, .powerUnavailable])
    (h : commandBody i (s.start none) = .raised e { s.start none with contOk := false }) :
    exec i s = .next (earlyRaise e s) :=
  exec_earlyRaise (c := false) bus (clearsSpeed_of_early he) rfl
    (h.trans (congrArg (Run.raised e) (s.came_start false s.spState)))

/-- A one-way transition without the power the bank needs (41_bank.md R125). -/
theorem exec_otpPowerless (starts : s.OtpStarts i seq status) (missing : s.powerMissing) :
    ∃ t, exec i s = .next t ∧ PowerRaise s t s.powerEvents s.speedOk := by
  obtain ⟨bus, confirms, v, body⟩ := otpStarts_body starts
  obtain ⟨nb, h⟩ := powerCheck_missing (s := s.came s.speedOk [] 0 0 false s.spState) rfl missing
  rw [otpMutate, h, Run.bind_raised, State.came_advance] at body
  exact exec_powerRaise bus rfl body

/-- Settles O50. -/
theorem otpTraps : Obligations.OtpTraps := by
  intro s
  have absent (h : s.desc.pageCount ≤ s.argPage.toNat) : (s.start none).pageOk = false :=
    decide_eq_false (not_lt.mpr h)
  have refused {i : Instr} {e : Err} := exec_refused (i := i) (s := s) (e := e)
  refine ⟨fun cannot => refused (by simp [commandClass]) (by simp) (if_pos cannot),
    fun cannot => refused (by simp [commandClass]) (by simp) (if_pos cannot),
    fun cannot => refused (by simp [commandClass]) (by simp) (if_pos cannot), ?page, ?target,
    ?power⟩
  case page =>
    exact fun h => ⟨fun can => refused (by simp [commandClass]) (by simp)
        ((if_neg (by simp [can])).trans (if_pos (absent h))),
      fun can => refused (by simp [commandClass]) (by simp)
        ((if_neg (by simp [can])).trans (if_pos (absent h))),
      fun can => refused (by simp [commandClass]) (by simp)
        ((if_neg (by simp [can])).trans (if_pos (absent h)))⟩
  case target =>
    exact fun range can illegal => refused (by simp [commandClass]) (by simp)
      ((if_neg (by simp [can])).trans
        ((if_neg (by simp [State.pageOk, range])).trans (if_pos illegal)))
  case power =>
    exact fun range missing => ⟨fun can => exec_otpPowerless (.lock can range) missing,
      fun can => exec_otpPowerless (.lockRedirect can range) missing,
      fun can named target => exec_otpPowerless (.redirect can range named target) missing⟩

end Sys2Proof.Machine
end

section
/-! SCRATCHPAD. The four steps of a transaction by what the bus answers, their traps, and the
password slots (spec/44_scratchpad.md R180 to R191). -/

namespace Sys2Proof.Machine

variable {i : Instr} {s : State} {xs : List Byte} {pwsel : BitVec 2} {slot : PwSlot}

/-- A scratchpad step that stages nothing finishes with the SP_STATE it came to
(60_exceptions.md R203). -/
theorem exec_stepFinished {w : Half} {v : Bool} {es : List BusEvent} {nb ny : Nat} {p : SpState}
    (h : commandBody i (s.start none) = .ok (.plain w) (s.came v es nb ny false p)) :
    ∃ t, exec i s = .next t ∧ (FinishedWith s t w ∧ t.spState = p ∧ t.speedOk = v) ∧
      SameDbuf s t ∧ SameHostSide s t ∧ SameAccumulators s t ∧ SameStaged s t ∧ t.pw = s.pw ∧
      t.contOk = false ∧ AddedEvents s t es :=
  ⟨_, exec_of_ok h, ⟨⟨rfl, rfl, rfl, rfl⟩, rfl, rfl⟩, fun _ => rfl,
    ⟨rfl, rfl, rfl, rfl, rfl, rfl, rfl, rfl, rfl, rfl, rfl, rfl, rfl⟩, ⟨rfl, rfl⟩,
    ⟨rfl, rfl, rfl, rfl⟩, rfl, rfl, rfl⟩

/-! ### SP_WRITE -/

/-- The operands that SP_WRITE refuses (44_scratchpad.md R183). -/
theorem spWriteOutOfRange_start : spWriteOutOfRange (s.start none) = true ↔
    s.argLen.toNat = 0 ∨ s.desc.spSize < s.argLen.toNat ∨
      s.desc.size < s.argAddr.toNat + s.argLen.toNat ∨
      s.desc.spSize < s.argPhys % s.desc.spSize + s.argLen.toNat :=
  decide_eq_true_iff

theorem spWrite_body (present : s.desc.spPresent = true) (input : s.inputIs s.argLen.toNat xs)
    (legal : ¬ spWriteOutOfRange (s.start none) = true) :
    commandBody .spWrite (s.start none) =
      (spWriteProc s.argPhys xs (s.came s.speedOk [] 0 0 false s.spState.abandon)).bind fun _ t =>
        .ok (.plain s.argLen) t := by
  refine (withInput_is input _).trans ?_
  rw [if_neg (by simp [present]), if_neg legal, ← s.came_start]
  rfl

/-- Settles O51. -/
theorem spWriteCompletes : Obligations.SpWriteCompletes := by
  intro s xs wf present input nonempty range row yes
  obtain ⟨-, ⟨-, small⟩, phys⟩ := scratchpadBank_of_wf wf present
  have length := input.2.1
  have legal : ¬ spWriteOutOfRange (s.start none) = true := by
    rw [spWriteOutOfRange_start]
    omega
  have body := spWrite_body present input legal
  rw [spWriteProc_yes rfl (State.came_yes (by rw [Nat.zero_add]; exact yes)), State.came_advance]
    at body
  have target : s.argPhys < 65536 := by
    rw [State.argPhys]
    omega
  exact ⟨_, exec_of_ok body, ⟨rfl, rfl, rfl, rfl⟩, fun _ => rfl, rfl, Nat.mod_eq_of_lt target,
    Nat.mod_eq_of_lt (by omega), rfl, rfl, rfl, rfl,
    ⟨rfl, rfl, rfl, rfl, rfl, rfl, rfl, rfl, rfl, rfl, rfl, rfl, rfl⟩, ⟨rfl, rfl⟩, rfl, rfl⟩

/-! ### SP_READ_VERIFY -/

section
variable {v c : Bool} {es : List BusEvent} {nb : Nat} {p : SpState}

theorem State.came_bytesAfter (k n : Nat) :
    (s.came v es nb 0 c p).bus.bytesAfter k n = s.bus.bytesAfter k n := by
  simp only [Bus.bytesAfter, State.came_byteAnswers, State.came_nByte, Nat.add_zero]

/-- The three checks see only the bytes still to be answered and what is staged. -/
theorem State.came_backCrcOk : (s.came v es nb 0 c p).backCrcOk ↔ s.backCrcOk := by
  simp only [State.backCrcOk, State.came_bytesAfter]
  rfl

theorem State.came_backEchoOk : (s.came v es nb 0 c p).backEchoOk ↔ s.backEchoOk := Iff.rfl

theorem State.came_backDataOk : (s.came v es nb 0 c p).backDataOk ↔ s.backDataOk := by
  simp only [State.backDataOk, State.came_bytesAfter]
  rfl

end

/-- The events of the read-back that SP_READ_VERIFY makes (44_scratchpad.md R184). -/
def State.backEvents (s : State) : List BusEvent :=
  verifyEvents s.desc s.speedOk (s.bus.bytesAfter 0 (hdrLen s.desc))
    (s.bus.bytesAfter (hdrLen s.desc) s.spLen.toNat)
    (s.bus.bytesAfter (hdrLen s.desc + s.spLen.toNat) (crcLen s.desc))

/-- SP_READ_VERIFY in WRITTEN by the three checks on what it received (44_scratchpad.md R184,
R185). -/
theorem spReadVerify_body (present : s.desc.spPresent = true) (written : s.spState = .written)
    (yes : s.bus.yes s.prologueAsks) :
    ∃ nb ny u, u = s.came true s.backEvents nb ny false s.spState ∧
      commandBody .spReadVerify (s.start none) =
        if s.backCrcOk ∧ s.backEchoOk ∧ s.backDataOk then
          .ok (.plain (s.spLen.setWidth 16)) { u with
            spES := if s.desc.spAddr then s.bus.byteAnswer (s.bus.nByte + 2) else s.spES
            spState := .verified }
        else .raised (if s.backCrcOk then .verification else .integrity) u := by
  obtain ⟨u, hu, outcome⟩ := spVerifyProc_back (s := s.came s.speedOk [] 0 0 false s.spState) rfl
    (State.came_yes (by rw [Nat.zero_add]; exact yes))
  rw [State.came_advance] at hu
  simp only [State.came_backCrcOk, State.came_backEchoOk, State.came_backDataOk,
    State.came_bytesAfter] at hu outcome
  have body : commandBody .spReadVerify (s.start none) =
      (spVerifyProc { s.start none with contOk := false }).bind fun _ t =>
        .ok (.plain (t.spLen.setWidth 16)) t :=
    (if_neg fun h => h.2 written).trans (if_neg (by simp [present]))
  rw [show ({ s.start none with contOk := false } : State) = _ from s.came_start false s.spState,
    outcome] at body
  refine ⟨_, _, u, hu, body.trans ?_⟩
  by_cases good : s.backCrcOk ∧ s.backEchoOk ∧ s.backDataOk
  · rw [if_pos good, if_pos good, hu]
    rfl
  · rw [if_neg good, if_neg good, Run.bind_raised]

/-- A good read-back of the staged bytes passes the three checks (44_scratchpad.md R184). -/
theorem State.readsBack.back (fits : s.spLen.toNat ≤ s.spBuf.length)
    (good : s.readsBack s.bus.nByte s.spTA (s.spBuf.take s.spLen.toNat)) :
    s.backCrcOk ∧ s.backEchoOk ∧ s.backDataOk := by
  rw [State.readsBack, List.length_take_of_le fits] at good
  obtain ⟨crc, echo, data⟩ := good
  refine ⟨fun has => ?_, echo, data⟩
  rw [Bus.bytesAfter, Bus.bytesAfter, Bus.bytesAfter, ← Nat.add_assoc]
  exact crc has

/-- Settles O52. -/
theorem spReadVerifyCompletes : Obligations.SpReadVerifyCompletes := by
  intro s present written fits yes good
  have back := State.readsBack.back fits good
  obtain ⟨nb, ny, u, hu, body⟩ := spReadVerify_body present written yes
  rw [if_pos back, hu] at body
  refine ⟨_, exec_of_ok body, ⟨rfl, rfl, rfl, rfl⟩, fun _ => rfl, rfl, rfl, rfl, rfl, rfl, rfl, rfl,
    ⟨rfl, rfl, rfl, rfl, rfl, rfl, rfl, rfl, rfl, rfl, rfl, rfl, rfl⟩, ⟨rfl, rfl⟩, rfl, ?_⟩
  rw [← back.2.2]
  rfl

/-- Settles O53. -/
theorem spReadVerifyMismatch : Obligations.SpReadVerifyMismatch := by
  intro s present written yes bad
  obtain ⟨nb, ny, u, hu, body⟩ := spReadVerify_body present written yes
  rw [if_neg bad, hu] at body
  have busData : (if s.backCrcOk then Err.verification else .integrity) ∈
      [.integrity, .verification, .commit, .authentication, .communication] := by
    split_ifs <;> simp
  obtain ⟨t, ran, raised⟩ := exec_busRaise (by simp [commandClass])
    (clearsSpeed_of_busData (by simp [commandClass]) busData) rfl body
  exact ⟨t, ran, by rw [raised.spState, written]; rfl, raised⟩

/-! ### SP_VERIFY_PASSWORD -/

/-- SP_VERIFY_PASSWORD in VERIFIED comes to its challenge (44_scratchpad.md R187). -/
theorem spVerifyPassword_body (hp : slotOf pwsel = some slot) (gated : s.desc.pwGated = true)
    (verified : s.spState = .verified) (yes : s.bus.yes s.prologueAsks) :
    commandBody (.spVerifyPassword pwsel) (s.start none) =
      (challenge slot s.spTA.toNat (s.came true (prologueEvents s.desc s.speedOk) s.prologueAsks 0
        false s.spState)).bind fun _ t => .ok (.plain 0) { t with spState := .authed } := by
  have passed := prologue_yes (s := s.came s.speedOk [] 0 0 false s.spState) rfl
    (State.came_yes (by rw [Nat.zero_add]; exact yes))
  have body : commandBody (.spVerifyPassword pwsel) (s.start none) =
      (prologue false (s.came s.speedOk [] 0 0 false s.spState)).bind fun _ t =>
        (challenge slot t.spTA.toNat t).bind fun _ t =>
          .ok (.plain 0) { t with spState := .authed } := by
    rw [← s.came_start false s.spState]
    exact (withSlot_is hp _).trans
      ((if_neg fun h => h.2 verified).trans (if_neg (by simp [gated])))
  rw [passed, Run.bind_ok, State.came_advance, Nat.zero_add] at body
  exact body

/-- Settles O54. -/
theorem spVerifyPasswordOutcome : Obligations.SpVerifyPasswordOutcome := by
  intro pwsel slot s a hp gated verified yes ha
  have body := spVerifyPassword_body hp gated verified yes
  refine ⟨fun powerless => ?_, fun powered => ?_⟩
  · rw [challenge_no rfl powerless, Run.bind_raised, State.came_advance] at body
    exact exec_powerRaise (by simp [commandClass]) rfl body
  · have asked : (s.came true (prologueEvents s.desc s.speedOk) s.prologueAsks 0 false
        s.spState).bus.yes 1 := State.came_yes (yesFrom_succ yes powered)
    rw [challenge_yes rfl asked, State.came_advance] at body
    by_cases accepted : a = s.desc.pwAccept
    · rw [if_pos (by exact ha.symm.trans accepted)] at body
      obtain ⟨t, ran, finished, dbuf, host, acc, staged, pw, cont, events⟩ :=
        exec_stepFinished body
      exact ⟨t, ran, dbuf, host, acc, staged, pw, cont, by rw [ha]; exact events,
        by rwa [if_pos accepted]⟩
    · rw [if_neg (by exact fun h => accepted (ha.trans h))] at body
      obtain ⟨t, ran, ⟨raised, speed, cont, host, acc, pw⟩, state, staged, events⟩ :=
        exec_busRaise (by simp [commandClass])
          (clearsSpeed_of_busData (by simp [commandClass]) (by simp)) rfl body
      rw [verified] at state
      exact ⟨t, ran, raised.dbuf, host, acc, staged, pw, cont, by rw [ha]; exact events,
        by rw [if_neg accepted]; exact ⟨raised, state, speed⟩⟩

/-! ### SP_COPY -/

/-- SP_COPY in the state that may commit runs `SpCopyProc` (44_scratchpad.md R191). -/
theorem spCopy_body (present : s.desc.spPresent = true)
    (order : s.spState = if s.desc.pwGated then .authed else .verified) :
    commandBody .spCopy (s.start none) =
      (spCopyProc (s.came s.speedOk [] 0 0 false s.spState)).bind fun _ t =>
        .ok (.plain (t.spLen.setWidth 16)) t := by
  have unauthed : ¬ (s.desc.spPresent = true ∧ s.desc.pwGated = false ∧ s.spState ≠ .verified) :=
    fun ⟨_, ungated, wrong⟩ => wrong (by simp [order, ungated])
  have ungated : ¬ (s.desc.pwGated = true ∧ s.spState ≠ .authed) :=
    fun ⟨gated, wrong⟩ => wrong (by simp [order, gated])
  rw [← s.came_start false s.spState]
  exact (if_neg unauthed).trans ((if_neg ungated).trans (if_neg (by simp [present])))

/-- Settles O55. -/
theorem spCopyOutcome : Obligations.SpCopyOutcome := by
  intro s present order
  have body := spCopy_body present order
  refine ⟨fun powerless => ?_, fun yes => ?_⟩
  · rw [spCopyProc_no rfl (by exact powerless), Run.bind_raised, State.came_advance] at body
    exact exec_powerRaise (by simp [commandClass]) rfl body
  · rw [spCopyProc_yes rfl (State.came_yes (by rw [Nat.zero_add]; exact yes)), State.came_advance]
      at body
    by_cases refused : s.bus.byteAnswer s.bus.nByte = 0xFF
    · rw [if_pos (by exact refused)] at body
      obtain ⟨t, ran, ⟨raised, speed, cont, host, acc, pw⟩, state, staged, events⟩ :=
        exec_busRaise (by simp [commandClass])
          (clearsSpeed_of_busData (by simp [commandClass]) (by simp)) rfl body
      have aborted : t.spState = .aborted := by
        rw [state, order]
        split <;> rfl
      exact ⟨t, ran, events, raised.dbuf, host, acc, staged, pw, cont,
        by rw [if_pos refused]; exact ⟨raised, aborted, speed⟩⟩
    · rw [if_neg (by exact refused)] at body
      obtain ⟨t, ran, finished, dbuf, host, acc, staged, pw, cont, events⟩ :=
        exec_stepFinished body
      exact ⟨t, ran, events, dbuf, host, acc, staged, pw, cont, by rwa [if_neg refused]⟩

/-! ### The traps -/

/-- Settles O56. -/
theorem scratchpadTraps : Obligations.ScratchpadTraps := by
  intro s
  refine ⟨?readOrder, ?passwordOrder, ?copyVerified, ?copyAuthed, ?absent, ?range, ?ungated⟩
  case readOrder => exact fun present wrong => exec_of_faulted (if_pos ⟨present, wrong⟩)
  case passwordOrder =>
    intro pwsel legal gated wrong
    obtain ⟨slot, hp⟩ := slotOf_isSome legal
    exact exec_of_faulted ((withSlot_is hp _).trans (if_pos ⟨gated, wrong⟩))
  case copyVerified =>
    exact fun present ungated wrong => exec_of_faulted (if_pos ⟨present, ungated, wrong⟩)
  case copyAuthed =>
    intro gated wrong
    have notUngated : ¬ (s.desc.spPresent = true ∧ s.desc.pwGated = false ∧
        s.spState ≠ .verified) := by simp [gated]
    exact exec_of_faulted ((if_neg notUngated).trans (if_pos ⟨gated, wrong⟩))
  case absent =>
    intro absent ungated
    refine ⟨?_, ?_, fun xs input => ?_⟩
    · exact exec_refused (by simp [commandClass]) (by simp)
        ((if_neg (by simp [absent])).trans (if_pos absent))
    · exact exec_refused (by simp [commandClass]) (by simp)
        ((if_neg (by simp [absent])).trans ((if_neg (by simp [ungated])).trans (if_pos absent)))
    · exact exec_refused (by simp [commandClass]) (by simp)
        ((withInput_is input _).trans (if_pos absent))
  case range =>
    intro xs present input illegal
    exact exec_refused (by simp [commandClass]) (by simp) ((withInput_is input _).trans
      ((if_neg (by simp [present])).trans (if_pos (spWriteOutOfRange_start.mpr illegal))))
  case ungated =>
    intro pwsel legal ungated
    obtain ⟨slot, hp⟩ := slotOf_isSome legal
    refine ⟨?_, ?_, fun room => ?_⟩
    · exact exec_refused (by simp [commandClass]) (by simp) ((withSlot_is hp _).trans
        ((if_neg (by simp [ungated])).trans (if_pos ungated)))
    · exact exec_of_internal_raise rfl ((withSlot_is hp _).trans (if_pos ungated))
    · have input : s.inputIs (slotLen s.desc) [] := by
        simpa [slotLen, ungated, State.inputIs] using room
      exact exec_of_internal_raise rfl
        ((withSlot_is hp _).trans ((withInput_is input _).trans (if_pos ungated)))

/-! ### The password slots -/

/-- Settles O57. -/
theorem passwordSlotCommands : Obligations.PasswordSlotCommands := by
  intro s pwsel slot gated hp
  have length : slotLen s.desc = s.desc.pwLen := if_pos gated
  refine ⟨fun xs input => ?_, ?_⟩
  · rw [← length] at input
    exact exec_of_plain (t := { s with pw := s.pw.set slot ⟨xs, true⟩ })
      ((withSlot_is hp _).trans ((withInput_is input _).trans (if_neg (by simp [gated]))))
  · rw [← length]
    exact exec_of_plain (t := { s with pw := s.pw.set slot (PwEntry.cleared s.desc) })
      ((withSlot_is hp _).trans (if_neg (by simp [gated])))

end Sys2Proof.Machine
end
